-- ==== Sys2Proof/Word.lean ====
section
/-! DEFINITION. The word types of the SWD request encoder block (00_scope.md R7: every value is an unsigned
integer of a fixed width, bit 0 the least significant). -/

namespace Sys2Proof

/-- A 32-bit value: every data word, TAR value and SELECT value (20_memory.md R59). -/
abbrev Word := BitVec 32

/-- An 8-bit value: a wire byte, a response unit, a byte of the flash image (00_scope.md R9). -/
abbrev Byte := BitVec 8

end Sys2Proof
end

