-- ==== Sys2Proof/Syntax.lean ====
section
/-! DEFINITION. The instructions: one constructor for each row of spec/opcode_table.json. Flags and address
operands stand as 30_encoding.md R81 and R84 name them: `apndp` is true for an Access Port request, `rnw` is true
for a read, `a` is bits 3:2 of the register's offset. -/

namespace Sys2Proof

/-- The five address spaces (20_memory.md R50), numbered 0 to 4 in this order (10_state.md R32). -/
inductive Space where
  | dp | ap | ficr | uicr | scs
deriving DecidableEq, Repr

/-- A register descriptor (10_state.md R32): a 12-bit byte offset and its space. -/
structure Descriptor where
  offset : BitVec 12
  space : Space
deriving DecidableEq, Repr

/-- The rows of the opcode table. -/
inductive Instr where
  /-- `DPWR`: Debug Port write request at address operand `a`, with the value to send (R151). -/
  | dpwr (a : BitVec 2) (v : Word)
  /-- `DPRD`: Debug Port read request (R150). -/
  | dprd (a : BitVec 2)
  /-- `APWR`: Access Port write request (R151). -/
  | apwr (a : BitVec 2) (v : Word)
  /-- `APRD`: Access Port read request (R150). -/
  | aprd (a : BitVec 2)
  /-- `DPWR.0`: the header `0x81` (41_request_encoder.md R122). -/
  | dpwr0 (v : Word)
  /-- `DPWR.1`: the header `0x95`. -/
  | dpwr1 (v : Word)
  /-- `DPWR.2`: the header `0x8D`. -/
  | dpwr2 (v : Word)
  /-- `DPWR.3`: the header `0x99`. -/
  | dpwr3 (v : Word)
  /-- `DPRD.0`: the header `0xA5`. -/
  | dprd0
  /-- `DPRD.1`: the header `0xB1`. -/
  | dprd1
  /-- `DPRD.2`: the header `0xA9`. -/
  | dprd2
  /-- `DPRD.3`: the header `0xBD`. -/
  | dprd3
  /-- `APWR.0`: the header `0xC5`. -/
  | apwr0 (v : Word)
  /-- `APWR.1`: the header `0xD1`. -/
  | apwr1 (v : Word)
  /-- `APWR.2`: the header `0xC9`. -/
  | apwr2 (v : Word)
  /-- `APWR.3`: the header `0xDD`. -/
  | apwr3 (v : Word)
  /-- `APRD.0`: the header `0xE1`. -/
  | aprd0
  /-- `APRD.1`: the header `0xF5`. -/
  | aprd1
  /-- `APRD.2`: the header `0xED`. -/
  | aprd2
  /-- `APRD.3`: the header `0xF9`. -/
  | aprd3
  /-- `SRESET`: the session start (44_register_router.md R200). -/
  | sreset
  /-- `RD`: read the register `id` (R174 to R177). -/
  | rd (id : BitVec 8)
  /-- `WR`: write the register `id` (R178 to R182). -/
  | wr (id : BitVec 8) (v : Word)
  /-- `BRINGUP`: the eleven-step bring-up (45_bringup.md R225). -/
  | bringup
  /-- `DUMP`: the flash dump (46_flash_dump.md R241). -/
  | dump
  /-- `REVB`: reverse the bits of a byte (40_bitframer.md R110). -/
  | revb (b : Byte)
  /-- `WPAR`: parity of a word (R111). -/
  | wpar (w : Word)
  /-- `HPAR`: header parity (R112). -/
  | hpar (a : BitVec 2) (apndp rnw : Bool)
  /-- `ENCHDR`: the request header and wire byte (41_request_encoder.md R121). -/
  | enchdr (a : BitVec 2) (apndp rnw : Bool)
  /-- `ACKCHK`: check an acknowledgment triple (42_ack_validator.md R130). -/
  | ackchk (u0 u1 u2 : Byte)
  /-- `RESERVED_0`: reserved `cmd_op = 0x0` (30_encoding.md R96). -/
  | reserved0
  /-- `RESERVED_6`. -/
  | reserved6
  /-- `RESERVED_7`. -/
  | reserved7
  /-- `RESERVED_D`. -/
  | reservedD
  /-- `RESERVED_E`. -/
  | reservedE
  /-- `RESERVED_F`. -/
  | reservedF
  /-- `SWDRD`: the internal read transaction (43_transaction_codec.md R150). -/
  | swdrd (apndp : Bool) (a : BitVec 2)
  /-- `SWDWR`: the internal write transaction (R151). -/
  | swdwr (apndp : Bool) (a : BitVec 2) (v : Word)
  /-- `RAWSEND`: the internal raw frame (R152). -/
  | rawsend (bytes : List Byte)
  /-- `RESOLVE`: the internal table lookup (44_register_router.md R171). -/
  | resolve (id : BitVec 8)
  /-- `ENSBANK`: make the selected bank be `b` (R172). -/
  | ensbank (b : BitVec 8)
  /-- `ENSTAR`: make the target address register hold `t` (R173). -/
  | enstar (t : Word)
  /-- `SNOOP`: record a host write that landed on SELECT or TAR (R182). -/
  | snoop (d : Descriptor) (v : Word)
deriving DecidableEq, Repr

end Sys2Proof
end

