-- ==== Sys2Proof/Config.lean ====
section
/-! DEFINITION. The constants the document fixes (00_scope.md R5), the tokens of the transport port
(30_encoding.md R88), and the configuration record `CFG` with the descriptor table `REGTAB` (00_scope.md R6,
10_state.md R32, R33). -/

namespace Sys2Proof

/-- The token alphabet of the transport port (30_encoding.md R88). -/
inductive Token where
  /-- `WR(n)`: the framing "write n bytes". -/
  | wr (n : Nat)
  /-- `BYTE(b)`: one payload byte. -/
  | byte (b : Byte)
  /-- `RDBIT`: sample one bit. -/
  | rdbit
  /-- `RDBYTE`: sample eight bits into one byte. -/
  | rdbyte
  /-- `CLK`: one clock with nothing driven or sampled. -/
  | clk
  /-- `PSET`: one clock with the line driven to 1. -/
  | pset
  /-- `PCLR`: one clock with the line driven to 0. -/
  | pclr
deriving DecidableEq, Repr

/-- `TOKENS` (00_scope.md R6, R88): the bytes that spell a token to the transport, "opaque constants owned by the
transport". The spec gives no value and no default, so this has no body (log 24). -/
opaque Config.tokenBytes : Token → List Byte

/-- `ACK_OK`: the only accepted acknowledgment, in arrival order (R5). -/
def Config.ackOk : List Byte := [0x01#8, 0x00#8, 0x00#8]

/-- `HDR_CONF`: response units consumed after the header byte (R5). -/
def Config.hdrConf : Nat := 2

/-- `WR_CONF`: response units consumed after the write data phase (R5). -/
def Config.wrConf : Nat := 2

/-- `CFG_BANK`: the bank of FICR, UICR and SCS accesses (R5). -/
def Config.cfgBank : BitVec 8 := 0x10#8

/-- `EXPECTED_IDCODE` (R5, 45_bringup.md R216). -/
def Config.expectedIdcode : Word := 0x0BB11477#32

/-- The line reset: seven bytes of `0xFF`, 56 high bits (R5, 45_bringup.md R212). -/
def Config.lineReset : List Byte := List.replicate 7 0xFF#8

/-- `PAGE_BYTES` (R5). -/
def Config.pageBytes : Nat := 1024

/-- `PAGE_WORDS` (R5). -/
def Config.pageWords : Nat := 256

/-- `ERASED`: the erased-flash sentinel byte (R5). -/
def Config.erased : Byte := 0xFF#8

/-- `TRIM_EXTRA`: bytes dropped beyond the trailing run (R5, 46_flash_dump.md R244). -/
def Config.trimExtra : Nat := 1

/-- The Ids under which bring-up finds the five registers it names (45_bringup.md R216 to R221). The spec calls an
Id a "symbolic enum" and gives the numbers only in the default table of 10_state.md R33 (log 20). -/
structure BringupIds where
  idcode : BitVec 8
  abort : BitVec 8
  ctrlstat : BitVec 8
  idr : BitVec 8
  csw : BitVec 8
deriving DecidableEq, Repr

/-- `CFG` (00_scope.md R6) with `REGTAB` (10_state.md R32). -/
structure Cfg where
  regtab : List (BitVec 8 × Descriptor)
  ids : BringupIds
  dpSelectOff : BitVec 4
  dpRdbufOff : BitVec 4
  apTarOff : BitVec 8
  apDrwOff : BitVec 8
  ficrBase : Word
  uicrBase : Word
  scsBase : Word
  tarAlignMask : Word
  jtag2swdMagic : BitVec 16
  modeswitchBytes : List Byte
  abortClear : Word
  /-- `BRINGUP_BANK`: any eight bits (log 34). -/
  bringupBank : BitVec 8
  ctrlstatReq : Word
  ctrlstatExpect : Word
  expectedIdr : Word
  cswConfig : Word
  flashStart : Word
  trnConf : Nat
  rdIdleConf : Nat
  rawConf : Nat
deriving DecidableEq, Repr

/-- The default descriptor table (10_state.md R33; PRESUMED: from general knowledge, as the spec marks it; log 2). -/
def Cfg.defaultRegtab : List (BitVec 8 × Descriptor) :=
  [(0, ⟨0x000, .dp⟩), (1, ⟨0x000, .dp⟩), (2, ⟨0x004, .dp⟩), (3, ⟨0x008, .dp⟩), (4, ⟨0x00C, .dp⟩),
   (5, ⟨0x000, .ap⟩), (6, ⟨0x004, .ap⟩), (7, ⟨0x00C, .ap⟩), (8, ⟨0x010, .ap⟩), (9, ⟨0x014, .ap⟩),
   (10, ⟨0x018, .ap⟩), (11, ⟨0x01C, .ap⟩), (12, ⟨0x0FC, .ap⟩), (13, ⟨0x010, .ficr⟩), (14, ⟨0x014, .ficr⟩),
   (15, ⟨0x000, .uicr⟩), (16, ⟨0xD00, .scs⟩)]

/-- The default configuration (00_scope.md R6, column "default"; PRESUMED where the spec marks it GK; log 2). -/
def Cfg.default : Cfg where
  regtab := Cfg.defaultRegtab
  ids := { idcode := 0, abort := 1, ctrlstat := 2, idr := 12, csw := 5 }
  dpSelectOff := 0x8
  dpRdbufOff := 0xC
  apTarOff := 0x04
  apDrwOff := 0x0C
  ficrBase := 0x10000000
  uicrBase := 0x10001000
  scsBase := 0xE000E000
  tarAlignMask := 0xFFFFFFF0
  jtag2swdMagic := 0xE79E
  modeswitchBytes := [0x00]
  abortClear := 0x0000001E
  bringupBank := 0x00
  ctrlstatReq := 0x50000000
  ctrlstatExpect := 0xF0000000
  expectedIdr := 0x04770021
  cswConfig := 0x03000052
  flashStart := 0x00000000
  trnConf := 0
  rdIdleConf := 0
  rawConf := 0

end Sys2Proof
end

