-- ==== Sys2Proof/Machine/Flags.lean ====
section
/-! DEFINITION. Every bit the block computes from data: word parity and header parity (40_bitframer.md R111, R112,
R113), the acknowledgment check (42_ack_validator.md R130) and the parity token (43_transaction_codec.md R146).
The block has no condition codes (10_state.md R25). -/

namespace Sys2Proof.Machine

/-- The exclusive or of the low `n` bits of a word. -/
def xorBits (w : Word) : Nat → Bool
  | 0 => false
  | n + 1 => xorBits w n ^^ w.getLsbD n

/-- `WPAR` (40_bitframer.md R111): "XOR of all 32 bits". -/
def wpar (w : Word) : Bool := xorBits w 32

/-- `HPAR` (R112): `a[0] ^ a[1] ^ apndp ^ rnw`. -/
def hpar (a : BitVec 2) (apndp rnw : Bool) : Bool :=
  a.getLsbD 0 ^^ a.getLsbD 1 ^^ apndp ^^ rnw

/-- The lookup table of R113, its index `{rnw, apndp, a[1], a[0]}` counting from 0. -/
def hparTable : List Bool :=
  [false, true, true, false, true, false, false, true, true, false, false, true, false, true, true, false]

/-- The index of R113 for the four inputs of `HPAR`. -/
def hparIndex (a : BitVec 2) (apndp rnw : Bool) : Nat :=
  (BitVec.ofBool rnw ++ BitVec.ofBool apndp ++ a : BitVec 4).toNat

/-- `ACKCHK` (42_ack_validator.md R130) on the response units in arrival order: whole units are compared. -/
def ackOk (us : List Byte) : Bool := us == Config.ackOk

/-- The parity unit that agrees with a received word: `zext_8(WPAR(word))` (43_transaction_codec.md R145). -/
def parityUnit (w : Word) : Byte := (BitVec.ofBool (wpar w)).zeroExtend 8

/-- The parity token of a write (R146): `PSET` for parity 1, `PCLR` for parity 0. -/
def parityToken (p : Bool) : Token := if p then .pset else .pclr

end Sys2Proof.Machine
end

