-- ==== Sys2Proof/Machine/Operands.lean ====
section
/-! DEFINITION. Every operand the block assembles: bit reversal (40_bitframer.md R110), the request header and wire
byte (30_encoding.md R82, R83), byte order (20_memory.md R56), the address operand, bank, SELECT and TAR values
(30_encoding.md R84, R90, R91), target addresses (20_memory.md R53 to R55) and table lookups (10_state.md R32). -/

namespace Sys2Proof.Machine

/-- The byte with the eight bits given from bit 7 down to bit 0. -/
def byteOfBits (b7 b6 b5 b4 b3 b2 b1 b0 : Bool) : Byte :=
  BitVec.ofBool b7 ++ BitVec.ofBool b6 ++ BitVec.ofBool b5 ++ BitVec.ofBool b4 ++
    BitVec.ofBool b3 ++ BitVec.ofBool b2 ++ BitVec.ofBool b1 ++ BitVec.ofBool b0

/-- `REVB` (40_bitframer.md R110): `r[i] = b[7 - i]`. -/
def revb (b : Byte) : Byte :=
  byteOfBits (b.getLsbD 0) (b.getLsbD 1) (b.getLsbD 2) (b.getLsbD 3)
    (b.getLsbD 4) (b.getLsbD 5) (b.getLsbD 6) (b.getLsbD 7)

/-- The request header `H = {1, apndp, rnw, a[0], a[1], p, 0, 1}` (30_encoding.md R82). -/
def header (a : BitVec 2) (apndp rnw : Bool) : Byte :=
  byteOfBits true apndp rnw (a.getLsbD 0) (a.getLsbD 1) (hpar a apndp rnw) false true

/-- The wire byte `W = REVB(H)` (30_encoding.md R83). -/
def wireByte (a : BitVec 2) (apndp rnw : Bool) : Byte := revb (header a apndp rnw)

/-- The four bytes of a word, least significant first (20_memory.md R56). -/
def wordBytes (w : Word) : List Byte :=
  [w.extractLsb' 0 8, w.extractLsb' 8 8, w.extractLsb' 16 8, w.extractLsb' 24 8]

/-- The word of four received bytes `B0, B1, B2, B3`: `{B3, B2, B1, B0}` (20_memory.md R56). `Recv(4)` yields
exactly four units, so the value a missing unit would have here is never used. -/
def wordOfUnits (us : List Byte) : Word :=
  us.getD 3 0 ++ us.getD 2 0 ++ us.getD 1 0 ++ us.getD 0 0

/-- The address operand `a = offset[3:2]` of a descriptor offset (30_encoding.md R84). -/
def slotOf (off : BitVec 12) : BitVec 2 := off.extractLsb' 2 2

/-- The address operand `addr[3:2]` of a target address (30_encoding.md R91). -/
def slotOfAddr (addr : Word) : BitVec 2 := addr.extractLsb' 2 2

/-- `S = DP_SELECT_OFF[3:2]` (44_register_router.md, opening). -/
def selectSlot (c : Cfg) : BitVec 2 := c.dpSelectOff.extractLsb' 2 2

/-- `B = DP_RDBUF_OFF[3:2]`. -/
def rdbufSlot (c : Cfg) : BitVec 2 := c.dpRdbufOff.extractLsb' 2 2

/-- `T[3:2]` for `T = AP_TAR_OFF`. -/
def tarSlot (c : Cfg) : BitVec 2 := c.apTarOff.extractLsb' 2 2

/-- `T & 0xF0`: the bank that holds TAR (44_register_router.md R173). -/
def tarBank (c : Cfg) : BitVec 8 := c.apTarOff &&& 0xF0#8

/-- `bank = offset & 0xF0` (20_memory.md R52). -/
def bankOf (off : BitVec 12) : BitVec 8 := off.extractLsb' 0 8 &&& 0xF0#8

/-- The value written to SELECT for bank `b`: `zext_32(b)` (30_encoding.md R90). -/
def selectValue (b : BitVec 8) : Word := b.zeroExtend 32

/-- The TAR value of an access at `addr`: `addr & TAR_ALIGN_MASK` (30_encoding.md R91). -/
def tarValue (c : Cfg) (addr : Word) : Word := addr &&& c.tarAlignMask

/-- The base address of a memory-mapped space (20_memory.md R53, R54). -/
def baseOf (c : Cfg) : Space → Option Word
  | .dp => none
  | .ap => none
  | .ficr => some c.ficrBase
  | .uicr => some c.uicrBase
  | .scs => some c.scsBase

/-- `addr = base + zext_32(offset)`, modulo 2^32 (20_memory.md R55). -/
def targetAddr (base : Word) (off : BitVec 12) : Word := base + off.zeroExtend 32

/-- `REGTAB[id]` (10_state.md R32). -/
def lookup (tab : List (BitVec 8 × Descriptor)) (id : BitVec 8) : Option Descriptor :=
  match tab with
  | [] => none
  | e :: rest => if e.1 == id then some e.2 else lookup rest id

/-- The descriptor of the table with the given space and offset (46_flash_dump.md, opening: `AP_TAR` and `AP_DRW`
"stand for the descriptors of REGTAB with space AP and offsets AP_TAR_OFF and AP_DRW_OFF"). -/
def findReg (tab : List (BitVec 8 × Descriptor)) (d : Descriptor) : Option Descriptor :=
  match tab with
  | [] => none
  | e :: rest => if e.2 == d then some d else findReg rest d

/-- The descriptor `AP_TAR` stands for in the dump. -/
def tarDescriptor (c : Cfg) : Descriptor := ⟨c.apTarOff.zeroExtend 12, .ap⟩

/-- The descriptor `AP_DRW` stands for in the dump. -/
def drwDescriptor (c : Cfg) : Descriptor := ⟨c.apDrwOff.zeroExtend 12, .ap⟩

/-- The number of consecutive erased bytes at the front of a list. -/
def erasedRun : List Byte → Nat
  | [] => 0
  | b :: rest => if b == Config.erased then erasedRun rest + 1 else 0

/-- Is every byte of a page the erased sentinel (46_flash_dump.md R243)? -/
def allErased (page : List Byte) : Bool := page.all (· == Config.erased)

/-- The trimming of 46_flash_dump.md R244: the trailing run of erased bytes and one byte more are dropped, and
nothing is kept of an image that is erased throughout. -/
def trim (image : List Byte) : List Byte :=
  image.take (image.length - (erasedRun image.reverse + Config.trimExtra))

end Sys2Proof.Machine
end

