-- ==== Sys2Proof/WellFormed.lean ====
section
/-! DEFINITION. Which operands and which configurations the spec admits: the descriptor conditions of 10_state.md
R32, the parameter conditions of 20_memory.md R55 and R58 and of 93_implementation_defined.md U8, and the operand
conditions of the internal operations. -/

namespace Sys2Proof

/-- 10_state.md R32 (b), (d), (e); (c), `offset <= 0xFFF`, holds of every 12-bit offset. -/
def Descriptor.wellFormed (d : Descriptor) : Bool :=
  d.offset.extractLsb' 0 2 == 0#2 &&
  match d.space with
  | .dp => decide (d.offset ≤ 0x00C#12)
  | .ap => decide (d.offset ≤ 0x0FC#12)
  | .ficr => true
  | .uicr => true
  | .scs => true

/-- 10_state.md R32 (a): every Id appears at most once. -/
def Cfg.idsDistinct : List (BitVec 8 × Descriptor) → Bool
  | [] => true
  | e :: rest => rest.all (fun f => f.1 != e.1) && Cfg.idsDistinct rest

/-- 20_memory.md R55: a base is 16-byte aligned and at most `0xFFFFF000`. -/
def Cfg.baseOk (b : Word) : Bool :=
  b.extractLsb' 0 4 == 0#4 && decide (b ≤ 0xFFFFF000#32)

/-- The conditions under which the block is defined (10_state.md R32; 20_memory.md R55, R58;
93_implementation_defined.md U8). DESIGN CHOICE: `BRINGUP_BANK` is not among them, since neither R32 nor U8 names it; a
value whose low four bits are not 0, for which the spec gives no behaviour, is accepted as it stands (log 34). DESIGN
CHOICE: nor is that the bases differ, though 20_memory.md R53 speaks of "two distinct bases": no rule says what happens if
they are equal, and such a configuration is accepted (log 38). -/
def Cfg.wellFormed (c : Cfg) : Bool :=
  Cfg.idsDistinct c.regtab && c.regtab.all (fun e => e.2.wellFormed) &&
  Cfg.baseOk c.ficrBase && Cfg.baseOk c.uicrBase && Cfg.baseOk c.scsBase &&
  c.tarAlignMask.extractLsb' 0 4 == 0#4 && c.flashStart.extractLsb' 0 10 == 0#10

/-- Operand conditions. `ENSBANK` takes a bank, `b[3:0] = 0` (44_register_router.md R172); `SNOOP` takes a
descriptor of a well-formed table (R182). Every other operand is any value of its width. -/
def Instr.wellFormed : Instr → Bool
  | .ensbank b => b.extractLsb' 0 4 == 0#4
  | .snoop d _ => d.wellFormed
  | .dpwr _ _ | .dprd _ | .apwr _ _ | .aprd _ => true
  | .dpwr0 _ | .dpwr1 _ | .dpwr2 _ | .dpwr3 _ | .dprd0 | .dprd1 | .dprd2 | .dprd3 => true
  | .apwr0 _ | .apwr1 _ | .apwr2 _ | .apwr3 _ | .aprd0 | .aprd1 | .aprd2 | .aprd3 => true
  | .sreset | .rd _ | .wr _ _ | .bringup | .dump => true
  | .revb _ | .wpar _ | .hpar _ _ _ | .enchdr _ _ _ | .ackchk _ _ _ => true
  | .reserved0 | .reserved6 | .reserved7 | .reservedD | .reservedE | .reservedF => true
  | .swdrd _ _ | .swdwr _ _ _ | .rawsend _ | .resolve _ | .enstar _ => true

end Sys2Proof
end

