-- ==== Sys2Proof/Decode.lean ====
section
/-! DEFINITION. The decoder and, after it, the encoder. The words an instruction can arrive in are the 44-bit host
command of 30_encoding.md R92 and R93 and, for the unit port of the model (log 5), the 8-bit request header of R82
with the 32-bit value a write sends. A header is checked as R95 says a decoder of the block's output checks it. -/

namespace Sys2Proof

/-- One word presented to the block. -/
inductive Frame where
  /-- A host command `{cmd_op[3:0], cmd_id[7:0], cmd_wdata[31:0]}` (30_encoding.md R92). -/
  | command (w : BitVec 44)
  /-- A request header as `RE` builds it (R82), with the value of a write (43_transaction_codec.md R151). -/
  | request (h : Byte) (v : Word)
deriving DecidableEq, Repr

/-- Why a request header is ill-formed (30_encoding.md R95). -/
inductive DecodeError where
  /-- `H[7] != 1`. -/
  | startBit
  /-- `H[1] != 0`. -/
  | stopBit
  /-- `H[0] != 1`. -/
  | parkBit
  /-- `H[2] != H[6] ^ H[5] ^ H[4] ^ H[3]`. -/
  | headerParity
deriving DecidableEq, Repr

/-- The instruction of a host command (30_encoding.md R93, R96); fields an operation does not use are ignored
(R92). Every 44-bit word is a command: sixteen opcodes, ten used and six reserved. -/
def decodeCommand (w : BitVec 44) : Instr :=
  match (w.extractLsb' 40 4).toNat with
  | 0x0 => .reserved0
  | 0x1 => .sreset
  | 0x2 => .rd (w.extractLsb' 32 8)
  | 0x3 => .wr (w.extractLsb' 32 8) (w.extractLsb' 0 32)
  | 0x4 => .bringup
  | 0x5 => .dump
  | 0x6 => .reserved6
  | 0x7 => .reserved7
  | 0x8 => .revb (w.extractLsb' 0 8)
  | 0x9 => .wpar (w.extractLsb' 0 32)
  | 0xA => .hpar (w.extractLsb' 0 2) (w.getLsbD 2) (w.getLsbD 3)
  | 0xB => .enchdr (w.extractLsb' 0 2) (w.getLsbD 2) (w.getLsbD 3)
  | 0xC => .ackchk (w.extractLsb' 0 8) (w.extractLsb' 8 8) (w.extractLsb' 16 8)
  | 0xD => .reservedD
  | 0xE => .reservedE
  | _ => .reservedF   -- four bits: only 0xF is left

/-- The exact row of 41_request_encoder.md R122 for the four free bits of a header; `v` is used by writes only. -/
def requestRow (apndp rnw : Bool) (a : BitVec 2) (v : Word) : Instr :=
  match apndp, rnw, a.getLsbD 1, a.getLsbD 0 with
  | false, false, false, false => .dpwr0 v
  | false, false, false, true => .dpwr1 v
  | false, false, true, false => .dpwr2 v
  | false, false, true, true => .dpwr3 v
  | false, true, false, false => .dprd0
  | false, true, false, true => .dprd1
  | false, true, true, false => .dprd2
  | false, true, true, true => .dprd3
  | true, false, false, false => .apwr0 v
  | true, false, false, true => .apwr1 v
  | true, false, true, false => .apwr2 v
  | true, false, true, true => .apwr3 v
  | true, true, false, false => .aprd0
  | true, true, false, true => .aprd1
  | true, true, true, false => .aprd2
  | true, true, true, true => .aprd3

/-- A request header (30_encoding.md R82) after the checks of R95: `APnDP` in bit 6, `RnW` in bit 5, `A2 = a[0]` in
bit 4, `A3 = a[1]` in bit 3. -/
def decodeRequest (h : Byte) (v : Word) : Except DecodeError Instr :=
  if h.getLsbD 7 != true then .error .startBit
  else if h.getLsbD 1 != false then .error .stopBit
  else if h.getLsbD 0 != true then .error .parkBit
  else if h.getLsbD 2 != (h.getLsbD 6 ^^ h.getLsbD 5 ^^ h.getLsbD 4 ^^ h.getLsbD 3) then .error .headerParity
  else .ok (requestRow (h.getLsbD 6) (h.getLsbD 5) (BitVec.ofBool (h.getLsbD 3) ++ BitVec.ofBool (h.getLsbD 4)) v)

/-- The decoder: total, rejecting by name. -/
def decode : Frame → Except DecodeError Instr
  | .command w => .ok (decodeCommand w)
  | .request h v => decodeRequest h v

/-- A command word from its three fields (30_encoding.md R92). -/
def commandWord (op : BitVec 4) (id : BitVec 8) (wdata : Word) : Frame := .command (op ++ id ++ wdata)

/-- The operand field `cmd_wdata[3:0] = {rnw, apndp, a[1:0]}` of `HPAR` and `ENCHDR` (R93). -/
def headerOperand (a : BitVec 2) (apndp rnw : Bool) : Word :=
  (BitVec.ofBool rnw ++ BitVec.ofBool apndp ++ a : BitVec 4).zeroExtend 32

/-- The word of an instruction. Unused fields are zero. The class rows and `SWDRD`, `SWDWR` have the header their
operands give (R82); the five internal operations whose encoding the opcode table calls "none" have no word. -/
def encode : Instr → Option Frame
  | .dpwr a v => some (.request (Machine.header a false false) v)
  | .dprd a => some (.request (Machine.header a false true) 0#32)
  | .apwr a v => some (.request (Machine.header a true false) v)
  | .aprd a => some (.request (Machine.header a true true) 0#32)
  | .dpwr0 v => some (.request 0x81#8 v)
  | .dpwr1 v => some (.request 0x95#8 v)
  | .dpwr2 v => some (.request 0x8D#8 v)
  | .dpwr3 v => some (.request 0x99#8 v)
  | .dprd0 => some (.request 0xA5#8 0#32)
  | .dprd1 => some (.request 0xB1#8 0#32)
  | .dprd2 => some (.request 0xA9#8 0#32)
  | .dprd3 => some (.request 0xBD#8 0#32)
  | .apwr0 v => some (.request 0xC5#8 v)
  | .apwr1 v => some (.request 0xD1#8 v)
  | .apwr2 v => some (.request 0xC9#8 v)
  | .apwr3 v => some (.request 0xDD#8 v)
  | .aprd0 => some (.request 0xE1#8 0#32)
  | .aprd1 => some (.request 0xF5#8 0#32)
  | .aprd2 => some (.request 0xED#8 0#32)
  | .aprd3 => some (.request 0xF9#8 0#32)
  | .sreset => some (commandWord 0x1#4 0#8 0#32)
  | .rd id => some (commandWord 0x2#4 id 0#32)
  | .wr id v => some (commandWord 0x3#4 id v)
  | .bringup => some (commandWord 0x4#4 0#8 0#32)
  | .dump => some (commandWord 0x5#4 0#8 0#32)
  | .revb b => some (commandWord 0x8#4 0#8 (b.zeroExtend 32))
  | .wpar w => some (commandWord 0x9#4 0#8 w)
  | .hpar a apndp rnw => some (commandWord 0xA#4 0#8 (headerOperand a apndp rnw))
  | .enchdr a apndp rnw => some (commandWord 0xB#4 0#8 (headerOperand a apndp rnw))
  | .ackchk u0 u1 u2 => some (commandWord 0xC#4 0#8 (0#8 ++ u2 ++ u1 ++ u0))
  | .reserved0 => some (commandWord 0x0#4 0#8 0#32)
  | .reserved6 => some (commandWord 0x6#4 0#8 0#32)
  | .reserved7 => some (commandWord 0x7#4 0#8 0#32)
  | .reservedD => some (commandWord 0xD#4 0#8 0#32)
  | .reservedE => some (commandWord 0xE#4 0#8 0#32)
  | .reservedF => some (commandWord 0xF#4 0#8 0#32)
  | .swdrd apndp a => some (.request (Machine.header a apndp true) 0#32)
  | .swdwr apndp a v => some (.request (Machine.header a apndp false) v)
  | .rawsend _ => none
  | .resolve _ => none
  | .ensbank _ => none
  | .enstar _ => none
  | .snoop _ _ => none

/-- The row the decoder answers for an instruction's word: of the rows that share a header (the class row, the exact
row, `SWDRD` or `SWDWR`), the exact one (log 6). -/
def canonical : Instr → Instr
  | .dpwr a v => requestRow false false a v
  | .dprd a => requestRow false true a 0#32
  | .apwr a v => requestRow true false a v
  | .aprd a => requestRow true true a 0#32
  | .swdrd apndp a => requestRow apndp true a 0#32
  | .swdwr apndp a v => requestRow apndp false a v
  | i => i

/-- The frame of an instruction whose bits are `w`, numbered as spec/opcode_table.json numbers them: rows of 8 bits
are request headers (the value that follows a write is zero), wider rows are the 44-bit commands. -/
def frameOfTable (nbits w : Nat) : Frame :=
  if nbits ≤ 8 then .request (BitVec.ofNat 8 w) 0#32 else .command (BitVec.ofNat 44 w)

/-- The instruction the decoder reads from a table row's word. -/
def decodeTableWord (nbits w : Nat) : Option Instr :=
  match decode (frameOfTable nbits w) with
  | .ok i => some i
  | .error _ => none

end Sys2Proof
end

