-- ==== Sys2Proof/Machine/State.lean ====
section
/-! DEFINITION. The machine's state: the block's registers (10_state.md R20 to R30), the parameters it was supplied
with (00_scope.md R6), and the inputs and outputs through which the outside reaches it. Plain data throughout. A
register that the spec says holds "no value" (R39) is `none`: "a model represents it as absent, never as zero". -/

namespace Sys2Proof.Machine

/-- The eight fatal error kinds (60_exceptions.md R260). -/
inductive ErrorKind where
  | ackMismatch | parityError | timeout | unknownRegister
  | unexpectedIdCode | unexpectedCtrlStat | unexpectedIdr | unexpectedCsw
deriving DecidableEq, Repr

/-- What `rsp_status` can hold (30_encoding.md R94); codes 9 to 14 are never produced. -/
inductive Status where
  | ok
  | error (e : ErrorKind)
  | refused
deriving DecidableEq, Repr

/-- The Bring-up State Machine's states (10_state.md R26), encoded 0 to 11 in this order. -/
inductive BuState where
  | idle | lineReset1 | protocolSwitch | lineReset2 | modeSwitch | idCodeCheck | abortCleared
  | apBankSelected | ctrlStatNegotiated | idrValidated | cswConfigured | ready
deriving DecidableEq, Repr

/-- The transaction codec's phases (10_state.md R27), encoded 0 to 5 in this order. -/
inductive Phase where
  | idle | hdr | ack | trn | data | tail
deriving DecidableEq, Repr

/-- One item of what the transport will deliver (20_memory.md R63): a response unit, or the running out of its time
limit while the block waits. -/
inductive RxItem where
  | unit (u : Byte)
  | timeLimit
deriving DecidableEq, Repr

/-- A transport event (20_memory.md R62, R64). A `Recv(n)` carries its outcome: the `n` units, or `none` for
`timeout`. -/
inductive Event where
  | send (toks : List Token)
  | flush
  | recv (n : Nat) (units : Option (List Byte))
deriving DecidableEq, Repr

/-- What an internal operation hands to its caller: the word of `SWDRD` (43_transaction_codec.md R150), the
descriptor of `RESOLVE` (44_register_router.md R171). -/
inductive OpResult where
  | word (w : Word)
  | descriptor (d : Descriptor)
deriving DecidableEq, Repr

/-- The state. -/
structure State where
  /-- `bank_valid` and `bank_val`, read together (10_state.md R21): `none` is "unknown". -/
  bank : Option Word
  /-- `tar_valid` and `tar_val`, read together (R22): `none` is "unknown". -/
  tar : Option Word
  /-- `sess_dead` (R24). -/
  sess_dead : Bool
  /-- `err_code` (R24): `none` is code 0. -/
  err_code : Option ErrorKind
  /-- `bu_state` (R26): the last bring-up step that completed. -/
  bu_state : BuState
  /-- `t_phase` (R27). -/
  t_phase : Phase
  /-- `t_addr` (R28), as are the six latches after it; none holds a value outside a transaction. -/
  t_addr : Option (BitVec 2)
  /-- `t_apndp`. -/
  t_apndp : Option Bool
  /-- `t_rnw`. -/
  t_rnw : Option Bool
  /-- `t_par`. -/
  t_par : Option Bool
  /-- `t_hdr`. -/
  t_hdr : Option Byte
  /-- `t_val`. -/
  t_val : Option Word
  /-- `t_vpar`. -/
  t_vpar : Option Bool
  /-- `fd_addr` (R29): no value outside a dump. -/
  fd_addr : Option Word
  /-- `fd_image` (R29). -/
  fd_image : List Byte
  /-- Is a `DUMP` the command in progress (R27)? The one command that takes more than one step (log 14). -/
  fd_busy : Bool
  /-- `rsp_status` (R30). -/
  rsp_status : Status
  /-- `rsp_rdata` (R30). The host reads it through `responseWord`, which has no word after a refused command (log 17). -/
  rsp_rdata : Option Word
  /-- `REGTAB` and `CFG` (R31): supplied before the first step, never written (log 1). -/
  cfg : Cfg
  /-- Input: the words the host will present at the port, in order (30_encoding.md R92; log 4). -/
  port : List Frame
  /-- Input: what the transport will deliver (20_memory.md R63; log 10). -/
  rx : List RxItem
  /-- Input: what it delivers over and over once `rx` is used up; with nothing here it is silent (log 10). -/
  rxLoop : List RxItem
  /-- Output: every transport event so far, oldest first (20_memory.md R64; log 12). -/
  events : List Event
  /-- Input: the power-on resets to come (70_reset_and_hazards.md R300), each after how many more points it is asserted,
  counted from the one before it (log 13). -/
  por : List Nat
  /-- Output: what the last internal operation run on its own handed to its caller (log 8). -/
  op_result : Option OpResult
deriving DecidableEq, Repr

/-- Reasons to stop with a fault. -/
inductive Fault where
  /-- Raised by `latched` at the read of an element that holds no value (10_state.md R39: "must not be read before it
  is written"). Safe: the model stops. No run reaches it: each latch of a transaction, and `fd_addr` of a dump, is
  written before it is read. -/
  | noValue
deriving DecidableEq, Repr

/-- Reasons to refuse. -/
inductive Refusal where
  /-- Raised by an arm of `exec` whose instruction has no meaning yet. Safe. No arm is left so. -/
  | notModelled (mnemonic : String)
  /-- Raised by `step` where `CFG` or `REGTAB` is ill-formed (10_state.md R32, 93_implementation_defined.md U8: "the
  block is not defined for it"). Safe. -/
  | illFormedConfig
  /-- Raised by `step` where the byte presented is no header (30_encoding.md R95: "treats as ill-formed"). Safe. -/
  | illFormedHeader (e : DecodeError)
  /-- Raised by `requireIdle` where a transaction or raw frame is started inside a transaction (20_memory.md R69:
  "such a schedule is refused"). Safe. No step reaches it: `t_phase` is idle between steps. -/
  | transactionInProgress
deriving DecidableEq, Repr

/-- The machine right after power-on reset (10_state.md R39, 70_reset_and_hazards.md R300), supplied with the default
configuration (00_scope.md R6), with no input pending and nothing sent (R301). -/
def State.reset : State where
  bank := none
  tar := none
  sess_dead := false
  err_code := none
  bu_state := .idle
  t_phase := .idle
  t_addr := none
  t_apndp := none
  t_rnw := none
  t_par := none
  t_hdr := none
  t_val := none
  t_vpar := none
  fd_addr := none
  fd_image := []
  fd_busy := false
  rsp_status := .ok
  rsp_rdata := none
  cfg := Cfg.default
  port := []
  rx := []
  rxLoop := []
  events := []
  por := []
  op_result := none

end Sys2Proof.Machine
end

