-- ==== Sys2Proof/Machine/Ops.lean ====
section
/-! DEFINITION. The shared operations: the codes of the named registers, sequencing, the transport port
(20_memory.md R62 to R65), the session start (44_register_router.md R200), power-on reset (70_reset_and_hazards.md
R300), taking an error (60_exceptions.md R270) and the response port (10_state.md R30). -/

namespace Sys2Proof.Machine

/-! ## Codes -/

/-- The number of an error kind (30_encoding.md R94). -/
def errorCode : ErrorKind → BitVec 4
  | .ackMismatch => 1
  | .parityError => 2
  | .timeout => 3
  | .unknownRegister => 4
  | .unexpectedIdCode => 5
  | .unexpectedCtrlStat => 6
  | .unexpectedIdr => 7
  | .unexpectedCsw => 8

/-- The number in `err_code` (10_state.md R24): 0 while the session is usable. -/
def errCodeBits : Option ErrorKind → BitVec 4
  | none => 0
  | some e => errorCode e

/-- The number in `rsp_status` (30_encoding.md R94). -/
def statusCode : Status → BitVec 4
  | .ok => 0
  | .error e => errorCode e
  | .refused => 15

/-- The number in `bu_state` (10_state.md R26). -/
def buCode : BuState → BitVec 4
  | .idle => 0
  | .lineReset1 => 1
  | .protocolSwitch => 2
  | .lineReset2 => 3
  | .modeSwitch => 4
  | .idCodeCheck => 5
  | .abortCleared => 6
  | .apBankSelected => 7
  | .ctrlStatNegotiated => 8
  | .idrValidated => 9
  | .cswConfigured => 10
  | .ready => 11

/-- The number in `t_phase` (10_state.md R27). -/
def phaseCode : Phase → BitVec 3
  | .idle => 0
  | .hdr => 1
  | .ack => 2
  | .trn => 3
  | .data => 4
  | .tail => 5

/-- `bank_valid` (10_state.md R21). -/
def bankValid (s : State) : Bool := s.bank.isSome

/-- `tar_valid` (10_state.md R22). -/
def tarValid (s : State) : Bool := s.tar.isSome

/-- The session states of 60_exceptions.md R275. -/
inductive SessionMode where
  | fresh | bringingUp | ready | dead
deriving DecidableEq, Repr

/-- Which of the four session states the block is in (60_exceptions.md R275). -/
def sessionMode (s : State) : SessionMode :=
  if s.sess_dead then .dead
  else if s.bu_state = .idle then .fresh
  else if s.bu_state = .ready then .ready
  else .bringingUp

/-! ## State updates -/

/-- The transaction latches discarded: `t_phase` idle, no latch with a value (10_state.md R28). -/
def clearLatches (s : State) : State :=
  { s with t_phase := .idle, t_addr := none, t_apndp := none, t_rnw := none, t_par := none, t_hdr := none,
           t_val := none, t_vpar := none }

/-- `t_phase <- p`. -/
def setPhase (p : Phase) (s : State) : State := { s with t_phase := p }

/-- The inputs of a transaction latched at its start (43_transaction_codec.md R140). -/
def setInputs (apndp rnw : Bool) (a : BitVec 2) (s : State) : State :=
  { s with t_apndp := some apndp, t_rnw := some rnw, t_addr := some a }

/-- `t_par <- p ; t_hdr <- H` (R141). -/
def setHeader (p : Bool) (h : Byte) (s : State) : State := { s with t_par := some p, t_hdr := some h }

/-- `t_val <- v ; t_vpar <- p` (R140, R145). -/
def setValue (v : Word) (p : Bool) (s : State) : State := { s with t_val := some v, t_vpar := some p }

/-- `bank_valid <- 1 ; bank_val <- v` (44_register_router.md R172). -/
def setBank (v : Word) (s : State) : State := { s with bank := some v }

/-- `tar_valid <- 1 ; tar_val <- v` (R173). -/
def setTar (v : Word) (s : State) : State := { s with tar := some v }

/-- `bu_state <- X` (45_bringup.md R211). -/
def setBu (x : BuState) (s : State) : State := { s with bu_state := x }

/-- The state after the transport events `es`, with `rx` left to be delivered. -/
def ran (es : List Event) (rx : List RxItem) (s : State) : State := { s with rx := rx, events := s.events ++ es }

/-- The resets to come, one point later. -/
def countdown : List Nat → List Nat
  | [] => []
  | n :: later => (n - 1) :: later

/-- A point at which power-on reset could have landed and did not (70_reset_and_hazards.md R300). -/
def afterPoint (s : State) : State := { s with por := countdown s.por }

/-- `op_result <- r` (log 8). -/
def setResult (r : Option OpResult) (s : State) : State := { s with op_result := r }

/-- The session start (44_register_router.md R200, 10_state.md R39): both caches unknown, the session usable, every
element without a reset value absent, and no command in progress. -/
def sessionStart (s : State) : State :=
  { clearLatches s with
    bank := none, tar := none, sess_dead := false, err_code := none, bu_state := .idle, fd_addr := none,
    fd_image := [], fd_busy := false, rsp_status := .ok, rsp_rdata := none }

/-- Power-on reset (70_reset_and_hazards.md R300): the assignments of the session start. `CFG` and `REGTAB` are not
affected (10_state.md R39), and reset sends nothing (R301). The next reset to come, if there is one, begins to count. -/
def powerOnReset (s : State) : State :=
  { sessionStart s with por := s.por.tail, op_result := none }

/-- `raise e` on the state (60_exceptions.md R270, R271): the session dies with the error's code, the transaction ends,
the caches and `bu_state` keep their values, the latches and `rsp_rdata` (44_register_router.md R170) hold none. -/
def raised (e : ErrorKind) (s : State) : State :=
  { clearLatches s with
    sess_dead := true, err_code := some e, rsp_status := .error e, rsp_rdata := none }

/-- The response of a completed command (10_state.md R30). -/
def respond (rdata : Option Word) (s : State) : State :=
  { s with rsp_status := .ok, rsp_rdata := rdata }

/-- The response of a command that cannot be started: `Refused`, "nothing else changes" (60_exceptions.md R269). -/
def refuse (s : State) : State := { s with rsp_status := .refused }

/-- The word the host can read at the response port (10_state.md R30, 93_implementation_defined.md U13): that of a command
that succeeded. A refused command changes no register but `rsp_status` (44_register_router.md R186), and leaves no word to
read. -/
def responseWord (s : State) : Option Word := if s.rsp_status = .ok then s.rsp_rdata else none

/-! ## Sequencing -/

/-- Why an operation stops the model. -/
inductive Halt where
  | fault (r : Fault)
  | refused (r : Refusal)
deriving DecidableEq, Repr

/-- How an operation comes back: with a result, or ended with all its callers (by `raise`, by power-on reset, or not
started in a dead session), or with the model stopped. -/
inductive Res (α : Type) where
  | done (a : α) (s : State)
  | ended (s : State)
  | halted (h : Halt)

/-- An operation on the state. -/
abbrev Op (α : Type) := State → Res α

/-- An operation that changes nothing and has the result `a`. -/
def ret {α : Type} (a : α) : Op α := fun s => .done a s

/-- `m`, then `f` on its result; what ends `m` ends the whole (00_scope.md R8: `raise` "ends the operation in progress
and every operation that called it"). -/
def andThen {α β : Type} (m : Op α) (f : α → Op β) : Op β := fun s =>
  match m s with
  | .done a s' => f a s'
  | .ended s' => .ended s'
  | .halted h => .halted h

/-- Read something of the state. -/
def look {α : Type} (f : State → α) : Op α := fun s => .done (f s) s

/-- Assign to the state. -/
def modify (f : State → State) : Op Unit := fun s => .done () (f s)

/-- Read a latch; one that holds no value must not be read (10_state.md R39). -/
def latched {α : Type} (f : State → Option α) : Op α := fun s =>
  match f s with
  | some a => .done a s
  | none => .halted (.fault .noValue)

/-- `raise e` (00_scope.md R8, 60_exceptions.md R270). -/
def raise {α : Type} (e : ErrorKind) : Op α := fun s => .ended (raised e s)

/-! ## The transport port -/

/-- A point at which power-on reset can land (70_reset_and_hazards.md R300): it does if its time has come, and else
the countdown goes on. -/
def tick : Op Unit := fun s =>
  if s.por.head? = some 0 then .ended (powerOnReset s) else .done () (afterPoint s)

/-- Record a transport event. -/
def record (e : Event) : Op Unit := modify fun s => ran [e] s.rx s

/-- `Send(toks)` (20_memory.md R62). -/
def send (toks : List Token) : Op Unit := andThen tick fun _ => record (.send toks)

/-- `Flush()` (R62, R65). -/
def flush : Op Unit := andThen tick fun _ => record .flush

/-- The next item the transport delivers: from the script, then from the loop, which starts the script anew. -/
def nextRx (rx loop : List RxItem) : Option (RxItem × List RxItem) :=
  match rx with
  | x :: rest => some (x, rest)
  | [] =>
    match loop with
    | x :: rest => some (x, rest)
    | [] => none

/-- Take `n` units. Fewer than `n` before the time limit is no delivery at all (20_memory.md R63,
43_transaction_codec.md R148); a transport with nothing left to deliver runs into its time limit. -/
def takeUnits : Nat → List RxItem → List RxItem → Option (List Byte) × List RxItem
  | 0, rx, _ => (some [], rx)
  | n + 1, rx, loop =>
    match nextRx rx loop with
    | none => (none, [])
    | some (.timeLimit, rest) => (none, rest)
    | some (.unit u, rest) =>
      match takeUnits n rest loop with
      | (some us, rest') => (some (u :: us), rest')
      | (none, rest') => (none, rest')

/-- `Recv(n)` (R62, R63): exactly `n` units, or `none` for `timeout`. -/
def recv (n : Nat) : Op (Option (List Byte)) :=
  andThen tick fun _ s =>
    .done (takeUnits n s.rx s.rxLoop).1
      (ran [.recv n (takeUnits n s.rx s.rxLoop).1] (takeUnits n s.rx s.rxLoop).2 s)

/-- `c <- Recv(n) ; if c == timeout then raise Timeout` (43_transaction_codec.md R148). -/
def await (n : Nat) : Op (List Byte) :=
  andThen (recv n) fun c =>
    match c with
    | some us => ret us
    | none => raise .timeout

/-- Confirmations (43_transaction_codec.md R143): counted, never examined. A phase that expects none issues neither
`Flush()` nor `Recv` (20_memory.md R65). -/
def awaitConf (n : Nat) : Op Unit :=
  if n = 0 then ret () else andThen flush fun _ => andThen (await n) fun _ => ret ()

/-! ## Running an instruction -/

/-- The outcome of a step that stops the model. -/
def haltOutcome : Halt → Host.Outcome State Fault Refusal
  | .fault r => .fault r
  | .refused r => .refused r

/-- A host command runs to completion and responds (30_encoding.md R92); an error has already responded (R270). -/
def runCommand (m : Op (Option Word)) (s : State) : Host.Outcome State Fault Refusal :=
  match m s with
  | .done rdata s' => .next (respond rdata s')
  | .ended s' => .next s'
  | .halted h => haltOutcome h

/-- A host command that the session check turns away in a dead session (44_register_router.md R186). -/
def runChecked (m : Op (Option Word)) (s : State) : Host.Outcome State Fault Refusal :=
  if s.sess_dead then .next (refuse s) else runCommand m s

/-- An internal operation run on its own. In a dead session it is not started and nothing changes (R186: "the block
starts no transaction and changes no state until a session start"); else its result is kept in `op_result`. -/
def runInternal (m : Op (Option OpResult)) (s : State) : Host.Outcome State Fault Refusal :=
  if s.sess_dead then .next s
  else
    match m (setResult none s) with
    | .done r s' => .next (setResult r s')
    | .ended s' => .next s'
    | .halted h => haltOutcome h

/-- An internal operation without a result. -/
def noResult (m : Op Unit) : Op (Option OpResult) := andThen m fun _ => ret none

end Sys2Proof.Machine
end

