-- ==== Sys2Proof/Machine/BitFramer.lean ====
section
/-! DEFINITION. The pure host commands: `REVB`, `WPAR`, `HPAR` (40_bitframer.md), `ENCHDR` (41_request_encoder.md) and
`ACKCHK` (42_ack_validator.md). "they touch neither the wire nor any state but `rsp_status` and `rsp_rdata`, and are
accepted in every session state" (30_encoding.md R93). -/

namespace Sys2Proof.Machine

/-- A pure command responds at once. -/
def runPure (rdata : Word) (s : State) : Host.Outcome State Fault Refusal := .next (respond (some rdata) s)

/-- A bit as a response word: `zext_32`. -/
def bitWord (b : Bool) : Word := (BitVec.ofBool b).zeroExtend 32

/-- `REVB` (R110): `rsp_rdata <- zext_32(REVB(b))`. -/
def execRevb (b : Byte) (s : State) : Host.Outcome State Fault Refusal := runPure ((revb b).zeroExtend 32) s

/-- `WPAR` (R111): `rsp_rdata <- zext_32(WPAR(w))`. -/
def execWpar (w : Word) (s : State) : Host.Outcome State Fault Refusal := runPure (bitWord (wpar w)) s

/-- `HPAR` (R112): `rsp_rdata <- zext_32(HPAR(a, apndp, rnw))`. -/
def execHpar (a : BitVec 2) (apndp rnw : Bool) (s : State) : Host.Outcome State Fault Refusal :=
  runPure (bitWord (hpar a apndp rnw)) s

/-- `ENCHDR` (R121): `rsp_rdata <- {0x0000, W, H}`. -/
def execEnchdr (a : BitVec 2) (apndp rnw : Bool) (s : State) : Host.Outcome State Fault Refusal :=
  runPure (0x0000#16 ++ wireByte a apndp rnw ++ header a apndp rnw) s

/-- `ACKCHK` (R130): `rsp_rdata <- zext_32(ok)`; "never fatal, even when `ok = 0`". -/
def execAckchk (u0 u1 u2 : Byte) (s : State) : Host.Outcome State Fault Refusal :=
  runPure (bitWord (ackOk [u0, u1, u2])) s

end Sys2Proof.Machine
end

