-- ==== Sys2Proof/Machine/Transaction.lean ====
section
/-! DEFINITION. The transaction codec (43_transaction_codec.md): the phases, the read transaction `SWDRD`, the write
transaction `SWDWR` and the raw frame `RAWSEND`, with the meanings of the three internal operations run on their
own. -/

namespace Sys2Proof.Machine

/-- `require sess_dead == 0 and t_phase == T_IDLE` (R150 to R152). In a dead session the block starts no transaction
(10_state.md R24); inside a transaction a second one is a schedule the spec refuses (20_memory.md R69). -/
def requireIdle : Op Unit := fun s =>
  if s.sess_dead then .ended s
  else if s.t_phase = .idle then .done () s
  else .halted (.refused .transactionInProgress)

/-- `t_phase <- p`. -/
def enterPhase (p : Phase) : Op Unit := modify (setPhase p)

/-- Phase `T_HDR` (R141): the header, bit-reversed, and two confirmations. -/
def phaseHdr : Op Unit :=
  andThen (enterPhase .hdr) fun _ =>
  andThen (latched State.t_addr) fun a =>
  andThen (latched State.t_apndp) fun apndp =>
  andThen (latched State.t_rnw) fun rnw =>
  andThen (modify (setHeader (hpar a apndp rnw) (header a apndp rnw))) fun _ =>
  andThen (send [.wr 1, .byte (wireByte a apndp rnw)]) fun _ =>
  andThen flush fun _ =>
  andThen (await Config.hdrConf) fun _ => ret ()

/-- Phase `T_ACK` (R142): three bits, which must be exactly (1, 0, 0). -/
def phaseAck : Op Unit :=
  andThen (enterPhase .ack) fun _ =>
  andThen (send [.rdbit, .rdbit, .rdbit]) fun _ =>
  andThen flush fun _ =>
  andThen (await 3) fun us =>
  if ackOk us then ret () else raise .ackMismatch

/-- Phase `T_TRN` (R144): one idle clock, always. -/
def phaseTrn : Op Unit :=
  andThen (enterPhase .trn) fun _ =>
  andThen (send [.clk]) fun _ =>
  andThen (look fun s => s.cfg.trnConf) awaitConf

/-- Phases `T_DATA` and `T_TAIL` of a read (R145). The latch `t_vpar` is one bit wide and takes bit 0 of the parity
unit; the comparison is of the whole unit (log 16). -/
def phaseRead : Op Word :=
  andThen (enterPhase .data) fun _ =>
  andThen (send [.rdbyte, .rdbyte, .rdbyte, .rdbyte, .rdbit]) fun _ =>
  andThen flush fun _ =>
  andThen (await 4) fun d =>
  andThen (await 1) fun q =>
  andThen (modify (setValue (wordOfUnits d) ((q.getD 0 0).getLsbD 0))) fun _ =>
  if q == [parityUnit (wordOfUnits d)] then
    andThen (enterPhase .tail) fun _ =>
    andThen (send [.clk]) fun _ =>
    andThen (look fun s => s.cfg.rdIdleConf) fun n =>
    andThen (awaitConf n) fun _ => ret (wordOfUnits d)
  else raise .parityError

/-- Phase `T_DATA` of a write (R146): four bytes, low byte first, the parity token, two confirmations. DEDUCED: the
confirmations are awaited in `T_DATA`, as R140, R146 and R151 have it, where 10_state.md R27 speaks of `T_TAIL` (log 35). -/
def phaseWrite : Op Unit :=
  andThen (enterPhase .data) fun _ =>
  andThen (latched State.t_val) fun v =>
  andThen (latched State.t_vpar) fun p =>
  andThen (send (.wr 4 :: (wordBytes v).map .byte ++ [parityToken p])) fun _ =>
  andThen flush fun _ =>
  andThen (await Config.wrConf) fun _ => ret ()

/-- `SWDRD(apndp, a) -> word` (R150). -/
def swdrd (apndp : Bool) (a : BitVec 2) : Op Word :=
  andThen requireIdle fun _ =>
  andThen (modify (setInputs apndp true a)) fun _ =>
  andThen phaseHdr fun _ =>
  andThen phaseAck fun _ =>
  andThen phaseTrn fun _ =>
  andThen phaseRead fun word =>
  andThen (modify clearLatches) fun _ => ret word

/-- `SWDWR(apndp, a, v)` (R151). -/
def swdwr (apndp : Bool) (a : BitVec 2) (v : Word) : Op Unit :=
  andThen requireIdle fun _ =>
  andThen (modify (setInputs apndp false a)) fun _ =>
  andThen (modify (setValue v (wpar v))) fun _ =>
  andThen phaseHdr fun _ =>
  andThen phaseAck fun _ =>
  andThen phaseTrn fun _ =>
  andThen phaseWrite fun _ =>
  modify clearLatches

/-- `RAWSEND(bytes)` (R152): for the empty string, no event at all. -/
def rawSend (bytes : List Byte) : Op Unit :=
  andThen requireIdle fun _ =>
  if bytes.isEmpty then ret ()
  else
    andThen (send (.wr bytes.length :: bytes.map .byte)) fun _ =>
    andThen (look fun s => s.cfg.rawConf) awaitConf

/-- A read transaction run on its own: its word is its result. -/
def readOnItsOwn (apndp : Bool) (a : BitVec 2) (s : State) : Host.Outcome State Fault Refusal :=
  runInternal (andThen (swdrd apndp a) fun w => ret (some (.word w))) s

/-- A write transaction run on its own. -/
def writeOnItsOwn (apndp : Bool) (a : BitVec 2) (v : Word) (s : State) : Host.Outcome State Fault Refusal :=
  runInternal (noResult (swdwr apndp a v)) s

/-- `SWDRD` (R150). -/
def execSwdrd (apndp : Bool) (a : BitVec 2) (s : State) : Host.Outcome State Fault Refusal :=
  readOnItsOwn apndp a s

/-- `SWDWR` (R151). -/
def execSwdwr (apndp : Bool) (a : BitVec 2) (v : Word) (s : State) : Host.Outcome State Fault Refusal :=
  writeOnItsOwn apndp a v s

/-- `RAWSEND` (R152). -/
def execRawsend (bytes : List Byte) (s : State) : Host.Outcome State Fault Refusal :=
  runInternal (noResult (rawSend bytes)) s

end Sys2Proof.Machine
end

