-- ==== Sys2Proof/Machine/Router.lean ====
section
/-! DEFINITION. The register bank/TAR cache controller (44_register_router.md): `RESOLVE`, `ENSBANK`, `ENSTAR`,
`SNOOP`, the access paths of the five spaces, and the host commands `RD`, `WR`, `SRESET`. -/

namespace Sys2Proof.Machine

/-- `RESOLVE(id) -> d` (R171). -/
def resolveId (id : BitVec 8) : Op Descriptor :=
  andThen (look fun s => lookup s.cfg.regtab id) fun d =>
  match d with
  | some d => ret d
  | none => raise .unknownRegister

/-- `ENSBANK(b)` (R172): SELECT is written unless the cache holds the bank; the cache is updated only after the write
returned (R184). -/
def ensBank (b : BitVec 8) : Op Unit := fun s =>
  if s.bank = some (selectValue b) then .done () s
  else
    andThen (swdwr false (selectSlot s.cfg) (selectValue b))
      (fun _ => modify (setBank (selectValue b))) s

/-- `ENSTAR(t)` (R173): the bank that holds TAR first, then TAR, unless the cache holds the value. -/
def ensTar (t : Word) : Op Unit := fun s =>
  if s.tar = some t then .done () s
  else
    andThen (ensBank (tarBank s.cfg))
      (fun _ => andThen (swdwr true (tarSlot s.cfg) t)
        (fun _ => modify (setTar t))) s

/-- `snoop(d, v)` on the state (R182). -/
def snooped (d : Descriptor) (v : Word) (s : State) : State :=
  { s with
    bank := if d.space = .dp ∧ slotOf d.offset = selectSlot s.cfg then some v else s.bank
    tar := if d.space = .ap ∧ d.offset.extractLsb' 0 8 = s.cfg.apTarOff then some v else s.tar }

/-- `snoop(d, v)` (R182). -/
def snoopOp (d : Descriptor) (v : Word) : Op Unit := modify (snooped d v)

/-- The staged read of 44_register_router.md R175: the first word is received, checked and discarded; the value comes
with the RDBUF read. -/
def stagedRead (a : BitVec 2) : Op Word :=
  andThen (swdrd true a) fun _ =>
  andThen (look fun s => rdbufSlot s.cfg) fun b =>
  swdrd false b

/-- TAR, then bank `0x10`, for an access at `addr` (R176, R183). -/
def openWindow (addr : Word) : Op Unit :=
  andThen (look fun s => tarValue s.cfg addr) fun t =>
  andThen (ensTar t) fun _ =>
  ensBank Config.cfgBank

/-- `RD` of a FICR, UICR or SCS descriptor (R176, R177). -/
def readWindow (base : Word) (off : BitVec 12) : Op Word :=
  andThen (openWindow (targetAddr base off)) fun _ =>
  stagedRead (slotOfAddr (targetAddr base off))

/-- `WR` of a FICR, UICR or SCS descriptor (R180, R181): nothing is retrieved. -/
def writeWindow (base : Word) (off : BitVec 12) (v : Word) : Op Unit :=
  andThen (openWindow (targetAddr base off)) fun _ =>
  swdwr true (slotOfAddr (targetAddr base off)) v

/-- The `RD` path of a descriptor's space (R174 to R177). -/
def readDescriptor (d : Descriptor) : Op Word :=
  match d.space with
  | .dp => swdrd false (slotOf d.offset)
  | .ap => andThen (ensBank (bankOf d.offset)) fun _ => stagedRead (slotOf d.offset)
  | .ficr => andThen (look fun s => s.cfg.ficrBase) fun base => readWindow base d.offset
  | .uicr => andThen (look fun s => s.cfg.uicrBase) fun base => readWindow base d.offset
  | .scs => andThen (look fun s => s.cfg.scsBase) fun base => readWindow base d.offset

/-- The `WR` path of a descriptor's space (R178 to R181). -/
def writeDescriptor (d : Descriptor) (v : Word) : Op Unit :=
  match d.space with
  | .dp => andThen (swdwr false (slotOf d.offset) v) fun _ => snoopOp d v
  | .ap =>
    andThen (ensBank (bankOf d.offset)) fun _ =>
    andThen (swdwr true (slotOf d.offset) v) fun _ => snoopOp d v
  | .ficr => andThen (look fun s => s.cfg.ficrBase) fun base => writeWindow base d.offset v
  | .uicr => andThen (look fun s => s.cfg.uicrBase) fun base => writeWindow base d.offset v
  | .scs => andThen (look fun s => s.cfg.scsBase) fun base => writeWindow base d.offset v

/-- `RD id` inside the block (R170, steps 2 and 3). -/
def readReg (id : BitVec 8) : Op Word := andThen (resolveId id) readDescriptor

/-- `WR id, v` inside the block (R170, steps 2 and 3). -/
def writeReg (id : BitVec 8) (v : Word) : Op Unit := andThen (resolveId id) fun d => writeDescriptor d v

/-- `RD` (R170, R174 to R177, R186). -/
def execRd (id : BitVec 8) (s : State) : Host.Outcome State Fault Refusal :=
  runChecked (andThen (readReg id) fun w => ret (some w)) s

/-- `WR` (R170, R178 to R182, R186). -/
def execWr (id : BitVec 8) (v : Word) (s : State) : Host.Outcome State Fault Refusal :=
  runChecked (andThen (writeReg id v) fun _ => ret none) s

/-- `SRESET` (R200): accepted in every session state, nothing is sent. -/
def execSreset (s : State) : Host.Outcome State Fault Refusal := .next (sessionStart s)

/-- `RESOLVE` (R171) run on its own: its descriptor is its result. -/
def execResolve (id : BitVec 8) (s : State) : Host.Outcome State Fault Refusal :=
  runInternal (andThen (resolveId id) fun d => ret (some (.descriptor d))) s

/-- `ENSBANK` (R172) run on its own. -/
def execEnsbank (b : BitVec 8) (s : State) : Host.Outcome State Fault Refusal :=
  runInternal (noResult (ensBank b)) s

/-- `ENSTAR` (R173) run on its own. -/
def execEnstar (t : Word) (s : State) : Host.Outcome State Fault Refusal :=
  runInternal (noResult (ensTar t)) s

/-- `SNOOP` (R182) run on its own. -/
def execSnoop (d : Descriptor) (v : Word) (s : State) : Host.Outcome State Fault Refusal :=
  runInternal (noResult (snoopOp d v)) s

end Sys2Proof.Machine
end

