-- ==== Sys2Proof/Machine/Bringup.lean ====
section
/-! DEFINITION. The bring-up sequencer (45_bringup.md): eleven steps, each an action and then the advance of
`bu_state`, and the host command `BRINGUP`. -/

namespace Sys2Proof.Machine

/-- `bu_state <- X` after the step's action succeeded (R211). -/
def advanceTo (x : BuState) : Op Unit := modify (setBu x)

/-- The validation of a value read: anything but the expected one is fatal (R216, R219 to R221). -/
def expectWord (expected : Word) (e : ErrorKind) (v : Word) : Op Unit :=
  if v = expected then ret () else raise e

/-- Step `LineReset1` (R212). -/
def stepLineReset1 : Op Unit :=
  andThen (rawSend Config.lineReset) fun _ => advanceTo .lineReset1

/-- Step `ProtocolSwitch` (R213): the low byte of the magic first. -/
def stepProtocolSwitch : Op Unit :=
  andThen (look fun s => s.cfg.jtag2swdMagic) fun m =>
  andThen (rawSend [m.extractLsb' 0 8, m.extractLsb' 8 8]) fun _ => advanceTo .protocolSwitch

/-- Step `LineReset2` (R214). -/
def stepLineReset2 : Op Unit :=
  andThen (rawSend Config.lineReset) fun _ => advanceTo .lineReset2

/-- Step `ModeSwitch` (R215). -/
def stepModeSwitch : Op Unit :=
  andThen (look fun s => s.cfg.modeswitchBytes) fun bytes =>
  andThen (rawSend bytes) fun _ => advanceTo .modeSwitch

/-- Step `IdCodeCheck` (R216). -/
def stepIdCodeCheck : Op Unit :=
  andThen (look fun s => s.cfg.ids.idcode) fun id =>
  andThen (readReg id) fun v =>
  andThen (expectWord Config.expectedIdcode .unexpectedIdCode v) fun _ => advanceTo .idCodeCheck

/-- Step `AbortCleared` (R217): no read-back. -/
def stepAbortCleared : Op Unit :=
  andThen (look fun s => s.cfg.ids.abort) fun id =>
  andThen (look fun s => s.cfg.abortClear) fun v =>
  andThen (writeReg id v) fun _ => advanceTo .abortCleared

/-- Step `APBankSelected` (R218). DESIGN CHOICE: a `BRINGUP_BANK` whose low four bits are not 0, which 44_register_router.md
R172 does not admit as a bank and no rule refuses, is sent to SELECT and recorded as it stands (log 34). -/
def stepApBankSelected : Op Unit :=
  andThen (look fun s => s.cfg.bringupBank) fun b =>
  andThen (ensBank b) fun _ => advanceTo .apBankSelected

/-- Step `CtrlStatNegotiated` (R219): one write, one read, one comparison. -/
def stepCtrlStatNegotiated : Op Unit :=
  andThen (look fun s => s.cfg.ids.ctrlstat) fun id =>
  andThen (look fun s => s.cfg.ctrlstatReq) fun req =>
  andThen (writeReg id req) fun _ =>
  andThen (readReg id) fun v =>
  andThen (look fun s => s.cfg.ctrlstatExpect) fun want =>
  andThen (expectWord want .unexpectedCtrlStat v) fun _ => advanceTo .ctrlStatNegotiated

/-- Step `IdrValidated` (R220). -/
def stepIdrValidated : Op Unit :=
  andThen (look fun s => s.cfg.ids.idr) fun id =>
  andThen (readReg id) fun v =>
  andThen (look fun s => s.cfg.expectedIdr) fun want =>
  andThen (expectWord want .unexpectedIdr v) fun _ => advanceTo .idrValidated

/-- Step `CswConfigured` (R221): written, read back, equal in all 32 bits. -/
def stepCswConfigured : Op Unit :=
  andThen (look fun s => s.cfg.ids.csw) fun id =>
  andThen (look fun s => s.cfg.cswConfig) fun want =>
  andThen (writeReg id want) fun _ =>
  andThen (readReg id) fun v =>
  andThen (expectWord want .unexpectedCsw v) fun _ => advanceTo .cswConfigured

/-- The four steps of raw frames (R212 to R215). -/
def bringupRaw : Op Unit :=
  andThen stepLineReset1 fun _ =>
  andThen stepProtocolSwitch fun _ =>
  andThen stepLineReset2 fun _ => stepModeSwitch

/-- The six steps of transactions (R216 to R221). -/
def bringupTransactions : Op Unit :=
  andThen stepIdCodeCheck fun _ =>
  andThen stepAbortCleared fun _ =>
  andThen stepApBankSelected fun _ =>
  andThen stepCtrlStatNegotiated fun _ =>
  andThen stepIdrValidated fun _ => stepCswConfigured

/-- `BRINGUP` (R225): the session start, the steps in order, `Ready` (R222). -/
def bringupSequence : Op (Option Word) :=
  andThen (modify sessionStart) fun _ =>
  andThen bringupRaw fun _ =>
  andThen bringupTransactions fun _ =>
  andThen (advanceTo .ready) fun _ => ret none

/-- `BRINGUP` (R225): accepted in every session state. -/
def execBringup (s : State) : Host.Outcome State Fault Refusal := runCommand bringupSequence s

end Sys2Proof.Machine
end

