-- ==== Sys2Proof/Machine/FlashDump.lean ====
section
/-! DEFINITION. The flash dump sequencer (46_flash_dump.md) and the host command `DUMP`. The document bounds the loop
only by what is read (R247), so one page is one step of the machine: `DUMP` reads the first page, and while `fd_busy`
is set the machine's next step reads the next one (log 14). -/

namespace Sys2Proof.Machine

/-- A register of the table, by its descriptor; a table without it makes the dump raise `UnknownRegister`. -/
def requireReg (d : Descriptor) : Op Descriptor :=
  andThen (look fun s => findReg s.cfg.regtab d) fun r =>
  match r with
  | some d => ret d
  | none => raise .unknownRegister

/-- `repeat n times: w <- RD AP_DRW ; page <- page ++ bytes of w` (R242). -/
def readWords (drw : Descriptor) : Nat → List Byte → Op (List Byte)
  | 0, page => ret page
  | n + 1, page => andThen (readDescriptor drw) fun w => readWords drw n (page ++ wordBytes w)

/-- One page at `fd_addr` (R242): the unconditional TAR write, then 256 words. -/
def readPage : Op (List Byte) :=
  andThen (latched State.fd_addr) fun addr =>
  andThen (look fun s => tarDescriptor s.cfg) fun tar =>
  andThen (look fun s => drwDescriptor s.cfg) fun drw =>
  andThen (requireReg tar) fun tar =>
  andThen (requireReg drw) fun drw =>
  andThen (writeDescriptor tar addr) fun _ =>
  readWords drw Config.pageWords []

/-- What follows a page (R241, R243, R244): the end of the dump after an erased page, the next page address else. -/
def afterPage (page : List Byte) (s : State) : State :=
  if allErased page then
    respond none { s with fd_image := trim (s.fd_image ++ page), fd_addr := none, fd_busy := false }
  else
    { s with fd_image := s.fd_image ++ page, fd_addr := s.fd_addr.map (· + 1024#32), fd_busy := true }

/-- An error inside the dump (R246, 60_exceptions.md R270): no partial image is handed out. -/
def dumpAborted (s : State) : State := { s with fd_image := [], fd_addr := none, fd_busy := false }

/-- One page of a dump in progress. -/
def dumpStep (s : State) : Host.Outcome State Fault Refusal :=
  match readPage s with
  | .done page s' => .next (afterPage page s')
  | .ended s' => .next (dumpAborted s')
  | .halted h => haltOutcome h

/-- The start of a dump (R241): an empty image, the first page address. -/
def dumpStart (s : State) : State :=
  { s with fd_image := [], fd_addr := some s.cfg.flashStart, fd_busy := true }

/-- `DUMP` (R241): refused unless the session is usable and `Ready`; else the first page is read. -/
def execDump (s : State) : Host.Outcome State Fault Refusal :=
  if s.sess_dead ∨ s.bu_state ≠ .ready then .next (refuse s) else dumpStep (dumpStart s)

end Sys2Proof.Machine
end

