-- ==== Sys2Proof/Machine/Requests.lean ====
section
/-! DEFINITION. The request headers as instructions: the four classes of spec/opcode_table.json (30_encoding.md R80) and
the sixteen exact headers of 41_request_encoder.md R122. Each is the transaction its header opens
(43_transaction_codec.md R150 for a read, R151 for a write). -/

namespace Sys2Proof.Machine

/-- `DPWR`: a Debug Port write request at address operand `a` (R151). -/
def execDpwr (a : BitVec 2) (v : Word) (s : State) : Host.Outcome State Fault Refusal :=
  writeOnItsOwn false a v s

/-- `DPRD`: a Debug Port read request at address operand `a` (R150). -/
def execDprd (a : BitVec 2) (s : State) : Host.Outcome State Fault Refusal :=
  readOnItsOwn false a s

/-- `APWR`: a Access Port write request at address operand `a` (R151). -/
def execApwr (a : BitVec 2) (v : Word) (s : State) : Host.Outcome State Fault Refusal :=
  writeOnItsOwn true a v s

/-- `APRD`: a Access Port read request at address operand `a` (R150). -/
def execAprd (a : BitVec 2) (s : State) : Host.Outcome State Fault Refusal :=
  readOnItsOwn true a s

/-- `DPWR.0`. -/
def execDpwr0 (v : Word) (s : State) : Host.Outcome State Fault Refusal := writeOnItsOwn false 0#2 v s

/-- `DPWR.1`. -/
def execDpwr1 (v : Word) (s : State) : Host.Outcome State Fault Refusal := writeOnItsOwn false 1#2 v s

/-- `DPWR.2`. -/
def execDpwr2 (v : Word) (s : State) : Host.Outcome State Fault Refusal := writeOnItsOwn false 2#2 v s

/-- `DPWR.3`. -/
def execDpwr3 (v : Word) (s : State) : Host.Outcome State Fault Refusal := writeOnItsOwn false 3#2 v s

/-- `DPRD.0`. -/
def execDprd0 (s : State) : Host.Outcome State Fault Refusal := readOnItsOwn false 0#2 s

/-- `DPRD.1`. -/
def execDprd1 (s : State) : Host.Outcome State Fault Refusal := readOnItsOwn false 1#2 s

/-- `DPRD.2`. -/
def execDprd2 (s : State) : Host.Outcome State Fault Refusal := readOnItsOwn false 2#2 s

/-- `DPRD.3`. -/
def execDprd3 (s : State) : Host.Outcome State Fault Refusal := readOnItsOwn false 3#2 s

/-- `APWR.0`. -/
def execApwr0 (v : Word) (s : State) : Host.Outcome State Fault Refusal := writeOnItsOwn true 0#2 v s

/-- `APWR.1`. -/
def execApwr1 (v : Word) (s : State) : Host.Outcome State Fault Refusal := writeOnItsOwn true 1#2 v s

/-- `APWR.2`. -/
def execApwr2 (v : Word) (s : State) : Host.Outcome State Fault Refusal := writeOnItsOwn true 2#2 v s

/-- `APWR.3`. -/
def execApwr3 (v : Word) (s : State) : Host.Outcome State Fault Refusal := writeOnItsOwn true 3#2 v s

/-- `APRD.0`. -/
def execAprd0 (s : State) : Host.Outcome State Fault Refusal := readOnItsOwn true 0#2 s

/-- `APRD.1`. -/
def execAprd1 (s : State) : Host.Outcome State Fault Refusal := readOnItsOwn true 1#2 s

/-- `APRD.2`. -/
def execAprd2 (s : State) : Host.Outcome State Fault Refusal := readOnItsOwn true 2#2 s

/-- `APRD.3`. -/
def execAprd3 (s : State) : Host.Outcome State Fault Refusal := readOnItsOwn true 3#2 s

end Sys2Proof.Machine
end

