-- ==== Sys2Proof/Machine/Reserved.lean ====
section
/-! DEFINITION. The six reserved opcodes (30_encoding.md R96): "`rsp_status <- Refused`, nothing else changes, the
session is not killed". -/

namespace Sys2Proof.Machine

/-- `cmd_op = 0x0`. -/
def execReserved0 (s : State) : Host.Outcome State Fault Refusal := .next (refuse s)

/-- `cmd_op = 0x6`. -/
def execReserved6 (s : State) : Host.Outcome State Fault Refusal := .next (refuse s)

/-- `cmd_op = 0x7`. -/
def execReserved7 (s : State) : Host.Outcome State Fault Refusal := .next (refuse s)

/-- `cmd_op = 0xD`. -/
def execReservedD (s : State) : Host.Outcome State Fault Refusal := .next (refuse s)

/-- `cmd_op = 0xE`. -/
def execReservedE (s : State) : Host.Outcome State Fault Refusal := .next (refuse s)

/-- `cmd_op = 0xF`. -/
def execReservedF (s : State) : Host.Outcome State Fault Refusal := .next (refuse s)

end Sys2Proof.Machine
end

