-- ==== Sys2Proof/Machine/Dispatch.lean ====
section
/-! DEFINITION. The dispatch: one arm for each constructor of `Instr`, each one call of its meaning. -/

namespace Sys2Proof.Machine

def exec (i : Instr) (s : State) : Host.Outcome State Fault Refusal :=
  match i with
  | .dpwr a v => Sys2Proof.Machine.execDpwr a v s
  | .dprd a => Sys2Proof.Machine.execDprd a s
  | .apwr a v => Sys2Proof.Machine.execApwr a v s
  | .aprd a => Sys2Proof.Machine.execAprd a s
  | .dpwr0 v => Sys2Proof.Machine.execDpwr0 v s
  | .dpwr1 v => Sys2Proof.Machine.execDpwr1 v s
  | .dpwr2 v => Sys2Proof.Machine.execDpwr2 v s
  | .dpwr3 v => Sys2Proof.Machine.execDpwr3 v s
  | .dprd0 => Sys2Proof.Machine.execDprd0 s
  | .dprd1 => Sys2Proof.Machine.execDprd1 s
  | .dprd2 => Sys2Proof.Machine.execDprd2 s
  | .dprd3 => Sys2Proof.Machine.execDprd3 s
  | .apwr0 v => Sys2Proof.Machine.execApwr0 v s
  | .apwr1 v => Sys2Proof.Machine.execApwr1 v s
  | .apwr2 v => Sys2Proof.Machine.execApwr2 v s
  | .apwr3 v => Sys2Proof.Machine.execApwr3 v s
  | .aprd0 => Sys2Proof.Machine.execAprd0 s
  | .aprd1 => Sys2Proof.Machine.execAprd1 s
  | .aprd2 => Sys2Proof.Machine.execAprd2 s
  | .aprd3 => Sys2Proof.Machine.execAprd3 s
  | .sreset => Sys2Proof.Machine.execSreset s
  | .rd id => Sys2Proof.Machine.execRd id s
  | .wr id v => Sys2Proof.Machine.execWr id v s
  | .bringup => Sys2Proof.Machine.execBringup s
  | .dump => Sys2Proof.Machine.execDump s
  | .revb b => Sys2Proof.Machine.execRevb b s
  | .wpar w => Sys2Proof.Machine.execWpar w s
  | .hpar a apndp rnw => Sys2Proof.Machine.execHpar a apndp rnw s
  | .enchdr a apndp rnw => Sys2Proof.Machine.execEnchdr a apndp rnw s
  | .ackchk u0 u1 u2 => Sys2Proof.Machine.execAckchk u0 u1 u2 s
  | .reserved0 => Sys2Proof.Machine.execReserved0 s
  | .reserved6 => Sys2Proof.Machine.execReserved6 s
  | .reserved7 => Sys2Proof.Machine.execReserved7 s
  | .reservedD => Sys2Proof.Machine.execReservedD s
  | .reservedE => Sys2Proof.Machine.execReservedE s
  | .reservedF => Sys2Proof.Machine.execReservedF s
  | .swdrd apndp a => Sys2Proof.Machine.execSwdrd apndp a s
  | .swdwr apndp a v => Sys2Proof.Machine.execSwdwr apndp a v s
  | .rawsend bytes => Sys2Proof.Machine.execRawsend bytes s
  | .resolve id => Sys2Proof.Machine.execResolve id s
  | .ensbank b => Sys2Proof.Machine.execEnsbank b s
  | .enstar t => Sys2Proof.Machine.execEnstar t s
  | .snoop d v => Sys2Proof.Machine.execSnoop d v s

end Sys2Proof.Machine
end

