-- ==== Sys2Proof/Machine/Port.lean ====
section
/-! DEFINITION. Taking the next word from the host command port (30_encoding.md R92), and putting one there. -/

namespace Sys2Proof.Machine

/-- What the port has for the block. -/
inductive Fetched where
  /-- No word: "the block waits for its first host command" (70_reset_and_hazards.md R301). -/
  | waiting
  /-- A byte that is no request header (30_encoding.md R95). -/
  | illFormed (e : DecodeError)
  /-- An instruction, and the state with its word taken. -/
  | instr (i : Instr) (s : State)
deriving DecidableEq, Repr

/-- The state with the next word taken from the port. -/
def taken (rest : List Frame) (s : State) : State := { s with port := rest }

/-- Take and decode the next word. -/
def fetch (s : State) : Fetched :=
  match s.port with
  | [] => .waiting
  | f :: rest =>
    match decode f with
    | .ok i => .instr i (taken rest s)
    | .error e => .illFormed e

/-- A word put before the others at the port, with nothing standing between it and the next step: no dump in
progress and no power-on reset about to be asserted. -/
def present (f : Frame) (s : State) : State := { s with port := f :: s.port, fd_busy := false, por := [] }

end Sys2Proof.Machine
end

