-- ==== Sys2Proof/Machine/Step.lean ====
section
/-! DEFINITION. One step. A step is one host command (20_memory.md R64), or one more page of the dump in progress
(46_flash_dump.md R241), or power-on reset (70_reset_and_hazards.md R300), or waiting (R301). -/

namespace Sys2Proof.Machine

/-- The step of a block that runs: the page of the dump in progress, or the next command. -/
def stepRunning (s : State) : Host.Outcome State Fault Refusal :=
  if s.fd_busy then dumpStep s
  else
    match fetch s with
    | .waiting => .next s
    | .illFormed e => .refused (.illFormedHeader e)
    | .instr i s' => exec i s'

/-- One step. A block supplied with an ill-formed `CFG` or `REGTAB` is not defined (10_state.md R32,
93_implementation_defined.md U8) and refuses. -/
def step (s : State) : Host.Outcome State Fault Refusal :=
  if s.cfg.wellFormed then
    if s.por.head? = some 0 then .next (powerOnReset s) else stepRunning (afterPoint s)
  else .refused .illFormedConfig

/-- The state with the instruction of a table row's word where the next step fetches: presented by the host. -/
def State.withFetchWord (s : State) (nbits w : Nat) : State := present (frameOfTable nbits w) s

end Sys2Proof.Machine
end

