-- ==== Sys2Proof/Machine/Wire.lean ====
section
/-! DEFINITION. The wire seen bit by bit (43_transaction_codec.md R153) under the transport's mode
(70_reset_and_hazards.md R303), the bytes handed to the transport, and what the block's writes do to the target's SELECT
and TAR (10_state.md R37). Views of `events`; no step reads them. -/

namespace Sys2Proof.Machine

/-! ## The transport's mode -/

/-- A wire of the link. -/
inductive Line where
  | clock
  /-- The one data line, used in both directions. -/
  | data
deriving DecidableEq, Repr

/-- The order in which the bits of a byte stand on the data line. -/
inductive BitOrder where
  /-- Bit 0 first (20_memory.md R57). -/
  | lsbFirst
  | msbFirst
deriving DecidableEq, Repr

/-- The mode the transport has been placed in before the block runs (70_reset_and_hazards.md R303): its wires, the order
of the bits of a byte it drives and of a byte it samples, how many response units it returns for a read token, and how many
where the block awaits confirmations (00_scope.md R5, R6). -/
structure TransportMode where
  wires : List Line
  driven : BitOrder
  sampled : BitOrder
  readUnits : Nat
  hdrConf : Nat
  wrConf : Nat
  trnConf : Nat
  rdIdleConf : Nat
  rawConf : Nat
deriving DecidableEq, Repr

/-- The premise of a launch on the transport (70_reset_and_hazards.md R303): two wires, the least significant bit of each
byte first in both directions, one response unit for each read token, and the confirmation counts of 00_scope.md R5 and
R6. -/
structure TransportConfigured (m : TransportMode) (c : Cfg) : Prop where
  twoWires : m.wires = [.clock, .data]
  lsbOut : m.driven = .lsbFirst
  lsbIn : m.sampled = .lsbFirst
  oneUnit : m.readUnits = 1
  hdr : m.hdrConf = Config.hdrConf
  wr : m.wrConf = Config.wrConf
  trn : m.trnConf = c.trnConf
  rdIdle : m.rdIdleConf = c.rdIdleConf
  raw : m.rawConf = c.rawConf

/-! ## Clocks and bits -/

/-- What the block does with the data line in one clock. -/
inductive Clock where
  /-- The block drives this bit. -/
  | driven (b : Bool)
  /-- The block samples one bit. -/
  | sampled
  /-- The block neither drives nor samples. -/
  | idle
deriving DecidableEq, Repr

/-- The eight bits of a byte, bit 0 first. -/
def bitsLsbFirst (b : Byte) : List Bool :=
  [b.getLsbD 0, b.getLsbD 1, b.getLsbD 2, b.getLsbD 3, b.getLsbD 4, b.getLsbD 5, b.getLsbD 6, b.getLsbD 7]

/-- The eight bits of a byte in the order they stand on the line (20_memory.md R57). -/
def bitsInOrder : BitOrder → Byte → List Bool
  | .lsbFirst, b => bitsLsbFirst b
  | .msbFirst, b => (bitsLsbFirst b).reverse

/-- The clocks of one token (30_encoding.md R88); the framing `WR(n)` takes none of its own. -/
def tokenClocks (m : TransportMode) : Token → List Clock
  | .wr _ => []
  | .byte b => (bitsInOrder m.driven b).map .driven
  | .rdbit => [.sampled]
  | .rdbyte => List.replicate 8 .sampled
  | .clk => [.idle]
  | .pset => [.driven true]
  | .pclr => [.driven false]

/-- The tokens of an event. -/
def eventTokens : Event → List Token
  | .send toks => toks
  | .flush => []
  | .recv _ _ => []

/-- The clocks of a sequence of events (R153). -/
def wireClocks (m : TransportMode) (es : List Event) : List Clock := (es.flatMap eventTokens).flatMap (tokenClocks m)

/-- Does a token ask for a response unit of its own? -/
def tokenReads : Token → Bool
  | .rdbit => true
  | .rdbyte => true
  | .wr _ | .byte _ | .clk | .pset | .pclr => false

/-- The bits sampled for a read token, in time order, by the unit delivered for it (30_encoding.md R88): `RDBIT`'s unit
is the bit, `RDBYTE`'s is made of eight bits in the transport's order. DESIGN CHOICE: where the unit delivered for `RDBIT`
is neither `0x00` nor `0x01`, which 20_memory.md R63 allows, R88 gives no bit for and 91_not_in_source.md N17 leaves open, its
bit 0 is taken as the bit sampled (log 39); the transaction then fails. -/
def sampledFor (m : TransportMode) : Token × Byte → List Bool
  | (.rdbyte, u) => bitsInOrder m.sampled u
  | (.rdbit, u) => [u.getLsbD 0]
  | (.wr _, _) | (.byte _, _) | (.clk, _) | (.pset, _) | (.pclr, _) => []

/-- The bits sampled in a sequence of events, in time order; `pending` is the read tokens sent, once for each unit they
yield, whose units have not been delivered. Units for which no read token is pending are confirmations
(43_transaction_codec.md R143). DESIGN CHOICE: the read tokens of a `Recv` that timed out, or of a phase that power-on reset
cut before its `Recv`, are given up with whatever was sampled for them, which 93_implementation_defined.md U11 leaves open
(log 37): a time limit leaves none pending, and each `Send` begins anew. -/
def sampledBits (m : TransportMode) : List Token → List Event → List Bool
  | _, [] => []
  | _, .send toks :: rest => sampledBits m ((toks.filter tokenReads).flatMap (List.replicate m.readUnits)) rest
  | pending, .flush :: rest => sampledBits m pending rest
  | _, .recv _ none :: rest => sampledBits m [] rest
  | pending, .recv n (some us) :: rest =>
    ((pending.take n).zip us).flatMap (sampledFor m) ++ sampledBits m (pending.drop n) rest

/-- The bytes handed to `sendBytes` for a sequence of events: the tokens' spellings (20_memory.md R62). -/
def sentBytes (es : List Event) : List Byte := (es.flatMap eventTokens).flatMap Config.tokenBytes

/-! ## The target's SELECT and TAR -/

/-- The writes a sequence of events sends: the wire byte of the header and the word of the data phase, oldest first. The
first argument is the wire byte sent last. -/
def writesSent : Byte → List Event → List (Byte × Word)
  | _, [] => []
  | _, .send [.wr 1, .byte W] :: rest => writesSent W rest
  | W, .send [.wr 4, .byte b0, .byte b1, .byte b2, .byte b3, _] :: rest =>
    (W, b3 ++ b2 ++ b1 ++ b0) :: writesSent W rest
  | W, _ :: rest => writesSent W rest

/-- The two registers of the target that the caches mirror (10_state.md R37(b)). -/
structure TargetRegs where
  select : Word
  tar : Word
deriving DecidableEq, Repr

/-- A write of the block as the target takes it: one to SELECT's slot of the debug port writes SELECT, one to TAR's slot
of the access port writes TAR while SELECT chooses TAR's bank (20_memory.md R51, R52). -/
def targetWrite (c : Cfg) (r : TargetRegs) (x : Byte × Word) : TargetRegs :=
  if x.1 = wireByte (selectSlot c) false false then { r with select := x.2 }
  else if x.1 = wireByte (tarSlot c) true false ∧ r.select = selectValue (tarBank c) then { r with tar := x.2 }
  else r

/-- What a write of the block leaves in SELECT: a write of SELECT its word, any other nothing, whatever TAR does. -/
def targetSelect (c : Cfg) (select : Word) (x : Byte × Word) : Word :=
  if x.1 = wireByte (selectSlot c) false false then x.2 else select

/-- The premise "no interference during a session" (70_reset_and_hazards.md R313) for SELECT alone: over the events `es`
it changes by the block's writes of it and by nothing else. Nothing is said of TAR, which may count up by itself (R314). -/
def SelectUndisturbed (c : Cfg) (es : List Event) (before after : Word) : Prop :=
  after = (writesSent 0#8 es).foldl (targetSelect c) before

/-- The premise "no interference during a session" (R313) for both: over the events `es` the target's SELECT and TAR change
by the block's writes and by nothing else: no reset of the target, no other debugger, and no auto-increment of TAR, which
R314 treats apart. -/
def NoInterference (c : Cfg) (es : List Event) (before after : TargetRegs) : Prop :=
  after = (writesSent 0#8 es).foldl (targetWrite c) before

end Sys2Proof.Machine
end

