-- ==== Sys2Proof/Safety.lean ====
section
/-! DEFINITION. The terms in which claims are made: a block at rest, the coherence of a state between steps, a
transport that answers a transaction as the protocol wants, the frame such a transaction leaves in `events`
(30_encoding.md R86, R87), and the expansion of `RD`, `WR`, `BRINGUP` and a dump page into transactions
(30_encoding.md R99). The expansions are written from R99 and R224, not from the meanings. -/

namespace Sys2Proof.Machine

/-! ## States -/

/-- No transaction in progress: `t_phase` idle and no latch holds a value (10_state.md R27, R28). -/
structure AtRest (s : State) : Prop where
  phase : s.t_phase = .idle
  addr : s.t_addr = none
  apndp : s.t_apndp = none
  rnw : s.t_rnw = none
  par : s.t_par = none
  hdr : s.t_hdr = none
  val : s.t_val = none
  vpar : s.t_vpar = none

/-- A usable session, with no power-on reset to come. -/
structure Usable (s : State) : Prop where
  alive : s.sess_dead = false
  noReset : s.por = []

/-- What holds between steps: no transaction in progress (10_state.md R27); `sess_dead` and `err_code` agree (R24); a
usable session stands at `Idle` or `Ready` (60_exceptions.md R275); a dump in progress stands in a `Ready` session at
a page address with whole pages read, and `fd_addr` holds a value only then (10_state.md R29, R39). -/
structure Coherent (s : State) : Prop where
  rest : AtRest s
  deadErr : s.sess_dead = true ↔ s.err_code ≠ none
  modes : s.sess_dead = false → s.bu_state = .idle ∨ s.bu_state = .ready
  busy : s.fd_busy = true →
    s.sess_dead = false ∧ s.bu_state = .ready ∧ s.fd_image.length % Config.pageBytes = 0 ∧
      ∃ addr, s.fd_addr = some addr ∧ addr.extractLsb' 0 10 = 0#10
  notBusy : s.fd_busy = false → s.fd_addr = none

/-- The bank cache mirrors the target (10_state.md R21, R37(b)): in a usable session the SELECT value it holds is what
the target's SELECT holds. -/
def MirrorsSelect (s : State) (select : Word) : Prop := s.sess_dead = false → ∀ v, s.bank = some v → select = v

/-- The TAR cache mirrors the target (10_state.md R22, R37(b)). -/
def MirrorsTar (s : State) (tar : Word) : Prop := s.sess_dead = false → ∀ v, s.tar = some v → tar = v

/-- Both caches mirror the target. -/
structure Mirrors (s : State) (r : TargetRegs) : Prop where
  select : MirrorsSelect s r.select
  tar : MirrorsTar s r.tar

/-- Every access goes through the router (10_state.md R23, 70_reset_and_hazards.md R313): the word the host presents next
is a command, not a request header at the model's unit port (log 5), which writes around the caches. -/
def ThroughRouter (s : State) : Prop := ∀ h v rest, s.port ≠ .request h v :: rest

/-- TAR stands at an aligned offset outside the window of bank `0x10`, as 00_scope.md R6 has it by default, so that a
write through the window is no write of TAR (log 36). -/
structure TarApart (c : Cfg) : Prop where
  aligned : c.apTarOff.extractLsb' 0 2 = 0#2
  bank : tarBank c ≠ Config.cfgBank

/-- Two states agree in every register of the block (10_state.md R20). -/
structure SameRegisters (s t : State) : Prop where
  bank : t.bank = s.bank
  tar : t.tar = s.tar
  sess_dead : t.sess_dead = s.sess_dead
  err_code : t.err_code = s.err_code
  bu_state : t.bu_state = s.bu_state
  t_phase : t.t_phase = s.t_phase
  t_addr : t.t_addr = s.t_addr
  t_apndp : t.t_apndp = s.t_apndp
  t_rnw : t.t_rnw = s.t_rnw
  t_par : t.t_par = s.t_par
  t_hdr : t.t_hdr = s.t_hdr
  t_val : t.t_val = s.t_val
  t_vpar : t.t_vpar = s.t_vpar
  fd_addr : t.fd_addr = s.fd_addr
  fd_image : t.fd_image = s.fd_image
  fd_busy : t.fd_busy = s.fd_busy
  rsp_status : t.rsp_status = s.rsp_status
  rsp_rdata : t.rsp_rdata = s.rsp_rdata

/-! ## Transactions and their answers -/

/-- One transaction on the wire. -/
inductive Txn where
  | read (apndp : Bool) (a : BitVec 2)
  | write (apndp : Bool) (a : BitVec 2) (v : Word)
deriving DecidableEq, Repr

/-- How the transport answers one transaction that succeeds: the header's confirmations, those of the turnaround
clock, the word of a read, and the confirmations at the end (of a read's trailing clock, of a write's data). -/
structure Reply where
  conf : List Byte
  turn : List Byte
  word : Word
  fin : List Byte
deriving DecidableEq, Repr

/-- The reply has the counts of units the phases await (00_scope.md R5, R6). -/
def replyFits (c : Cfg) (x : Txn × Reply) : Prop :=
  x.2.conf.length = 2 ∧ x.2.turn.length = c.trnConf ∧
  x.2.fin.length = (match x.1 with | .read _ _ => c.rdIdleConf | .write _ _ _ => 2)

/-- The response units of a successful transaction, in arrival order (43_transaction_codec.md R141 to R146). -/
def replyUnits (x : Txn × Reply) : List Byte :=
  x.2.conf ++ [0x01#8, 0x00#8, 0x00#8] ++ x.2.turn ++
  (match x.1 with
   | .read _ _ => wordBytes x.2.word ++ [parityUnit x.2.word]
   | .write _ _ _ => []) ++ x.2.fin

/-- `Flush` and `Recv` of confirmations; nothing where none are awaited (20_memory.md R65). -/
def confEvents (us : List Byte) : List Event :=
  if us.length = 0 then [] else [.flush, .recv us.length (some us)]

/-- Phases 1 to 3 of a frame (30_encoding.md R86). -/
def openingEvents (W : Byte) (r : Reply) : List Event :=
  [.send [.wr 1, .byte W], .flush, .recv 2 (some r.conf),
   .send [.rdbit, .rdbit, .rdbit], .flush, .recv 3 (some [0x01#8, 0x00#8, 0x00#8]),
   .send [.clk]] ++ confEvents r.turn

/-- The frame of a successful transaction (30_encoding.md R86 for a read, R87 for a write). -/
def frameEvents (x : Txn × Reply) : List Event :=
  match x.1 with
  | .read apndp a =>
    openingEvents (wireByte a apndp true) x.2 ++
    [.send [.rdbyte, .rdbyte, .rdbyte, .rdbyte, .rdbit], .flush, .recv 4 (some (wordBytes x.2.word)),
     .recv 1 (some [parityUnit x.2.word]), .send [.clk]] ++ confEvents x.2.fin
  | .write apndp a v =>
    openingEvents (wireByte a apndp false) x.2 ++
    [.send [.wr 4, .byte (v.extractLsb' 0 8), .byte (v.extractLsb' 8 8), .byte (v.extractLsb' 16 8),
            .byte (v.extractLsb' 24 8), if wpar v then .pset else .pclr],
     .flush, .recv 2 (some x.2.fin)]

/-- A list of units as the transport delivers them. -/
def delivered (us : List Byte) : List RxItem := us.map .unit

/-! ## Answers that fail -/

/-- Where and how the transport's answer to a transaction fails (43_transaction_codec.md R150, R151, in that order): the
units that came before the time limit ran out, the wrong acknowledgment, the wrong parity unit. -/
inductive Stop where
  | headerTimeout (us : List Byte)
  | ackTimeout (us : List Byte)
  | ackMismatch (us : List Byte)
  | turnTimeout (us : List Byte)
  | dataTimeout (us : List Byte)
  | parityTimeout
  | parityError (q : Byte)
  | finTimeout (us : List Byte)
deriving DecidableEq, Repr

/-- Is the transaction a read? -/
def Txn.isRead : Txn → Bool
  | .read _ _ => true
  | .write _ _ _ => false

/-- The number of confirmations a transaction awaits at its end. -/
def finCount (c : Cfg) : Txn → Nat
  | .read _ _ => c.rdIdleConf
  | .write _ _ _ => 2

/-- The failure can happen to the transaction. -/
def stopFits (c : Cfg) (x : Txn × Reply) : Stop → Prop
  | .headerTimeout us => us.length < 2
  | .ackTimeout us => us.length < 3
  | .ackMismatch us => us.length = 3 ∧ us ≠ [0x01#8, 0x00#8, 0x00#8]
  | .turnTimeout us => us.length < c.trnConf
  | .dataTimeout us => x.1.isRead = true ∧ us.length < 4
  | .parityTimeout => x.1.isRead = true
  | .parityError q => x.1.isRead = true ∧ q ≠ parityUnit x.2.word
  | .finTimeout us => us.length < finCount c x.1

/-- The error a failure raises. -/
def stopError : Stop → ErrorKind
  | .ackMismatch _ => .ackMismatch
  | .parityError _ => .parityError
  | .headerTimeout _ | .ackTimeout _ | .turnTimeout _ | .dataTimeout _ | .parityTimeout | .finTimeout _ => .timeout

/-- The units of the phases before the data phase, answered as the protocol wants. -/
def openingUnits (r : Reply) : List Byte := r.conf ++ [0x01#8, 0x00#8, 0x00#8] ++ r.turn

/-- What the transport delivers to a transaction that fails so. -/
def stopScript (x : Txn × Reply) : Stop → List RxItem
  | .headerTimeout us => delivered us ++ [.timeLimit]
  | .ackTimeout us => delivered (x.2.conf ++ us) ++ [.timeLimit]
  | .ackMismatch us => delivered (x.2.conf ++ us)
  | .turnTimeout us => delivered (x.2.conf ++ [0x01#8, 0x00#8, 0x00#8] ++ us) ++ [.timeLimit]
  | .dataTimeout us => delivered (openingUnits x.2 ++ us) ++ [.timeLimit]
  | .parityTimeout => delivered (openingUnits x.2 ++ wordBytes x.2.word) ++ [.timeLimit]
  | .parityError q => delivered (openingUnits x.2 ++ wordBytes x.2.word ++ [q])
  | .finTimeout us =>
    delivered (openingUnits x.2 ++
      (match x.1 with
       | .read _ _ => wordBytes x.2.word ++ [parityUnit x.2.word]
       | .write _ _ _ => []) ++ us) ++ [.timeLimit]

/-- The wire byte of a transaction. -/
def Txn.wire : Txn → Byte
  | .read apndp a => wireByte a apndp true
  | .write apndp a _ => wireByte a apndp false

/-- What is sent in the data phase of a transaction. -/
def Txn.dataTokens : Txn → List Token
  | .read _ _ => [.rdbyte, .rdbyte, .rdbyte, .rdbyte, .rdbit]
  | .write _ _ v =>
    [.wr 4, .byte (v.extractLsb' 0 8), .byte (v.extractLsb' 8 8), .byte (v.extractLsb' 16 8),
     .byte (v.extractLsb' 24 8), if wpar v then .pset else .pclr]

/-- The events of a transaction that fails so: none of a later phase. -/
def stopEvents (c : Cfg) (x : Txn × Reply) (st : Stop) : List Event :=
  let header (o : Option (List Byte)) : List Event := [.send [.wr 1, .byte x.1.wire], .flush, .recv 2 o]
  let ack (o : Option (List Byte)) : List Event := [.send [.rdbit, .rdbit, .rdbit], .flush, .recv 3 o]
  let good := openingEvents x.1.wire x.2
  match st with
  | .headerTimeout _ => header none
  | .ackTimeout _ => header (some x.2.conf) ++ ack none
  | .ackMismatch us => header (some x.2.conf) ++ ack (some us)
  | .turnTimeout _ =>
    header (some x.2.conf) ++ ack (some [0x01#8, 0x00#8, 0x00#8]) ++ [.send [.clk], .flush, .recv c.trnConf none]
  | .dataTimeout _ => good ++ [.send x.1.dataTokens, .flush, .recv 4 none]
  | .parityTimeout => good ++ [.send x.1.dataTokens, .flush, .recv 4 (some (wordBytes x.2.word)), .recv 1 none]
  | .parityError q => good ++ [.send x.1.dataTokens, .flush, .recv 4 (some (wordBytes x.2.word)), .recv 1 (some [q])]
  | .finTimeout _ =>
    match x.1 with
    | .read _ _ =>
      good ++ [.send x.1.dataTokens, .flush, .recv 4 (some (wordBytes x.2.word)),
        .recv 1 (some [parityUnit x.2.word]), .send [.clk], .flush, .recv c.rdIdleConf none]
    | .write _ _ _ => good ++ [.send x.1.dataTokens, .flush, .recv 2 none]

/-! ## Traces -/

/-- The answers to a sequence of transactions. -/
def scriptOf (xs : List (Txn × Reply)) : List RxItem := delivered (xs.flatMap replyUnits)

/-- The events of a sequence of transactions. -/
def eventsOf (xs : List (Txn × Reply)) : List Event := xs.flatMap frameEvents

/-- The word of the last transaction of a sequence. -/
def lastWord (xs : List (Txn × Reply)) : Option Word := xs.getLast?.map fun x => x.2.word

/-! ## Expansions (30_encoding.md R99) -/

/-- `[SWDWR DP, S, b]`: sent only on a cache miss. -/
def bankTxns (c : Cfg) (bank : Option Word) (b : BitVec 8) : List Txn :=
  if bank = some (b.zeroExtend 32) then [] else [.write false (selectSlot c) (b.zeroExtend 32)]

/-- `[[SWDWR DP, S, T & 0xF0]; SWDWR AP, T[3:2], t]`: sent only on a cache miss. -/
def tarTxns (c : Cfg) (bank tar : Option Word) (t : Word) : List Txn :=
  if tar = some t then [] else bankTxns c bank (c.apTarOff &&& 0xF0#8) ++ [.write true (tarSlot c) t]

/-- The bank selected once TAR holds `t`. -/
def bankAfterTar (c : Cfg) (bank tar : Option Word) (t : Word) : Option Word :=
  if tar = some t then bank else some ((c.apTarOff &&& 0xF0#8).zeroExtend 32)

/-- What opens the window of bank `0x10` at an address: TAR, then the bank. -/
def windowTxns (c : Cfg) (bank tar : Option Word) (addr : Word) : List Txn :=
  tarTxns c bank tar (addr &&& c.tarAlignMask) ++
  bankTxns c (bankAfterTar c bank tar (addr &&& c.tarAlignMask)) 0x10#8

/-- The base address of a space; the two port spaces have none and their rows of the expansion use none. -/
def spaceBase (c : Cfg) : Space → Word
  | .ficr => c.ficrBase
  | .uicr => c.uicrBase
  | .scs => c.scsBase
  | .dp => 0#32
  | .ap => 0#32

/-- The target address of a descriptor. -/
def addrOf (c : Cfg) (d : Descriptor) : Word := spaceBase c d.space + d.offset.zeroExtend 32

/-- The transactions of `RD` (30_encoding.md R99). -/
def expandRd (c : Cfg) (bank tar : Option Word) (d : Descriptor) : List Txn :=
  match d.space with
  | .dp => [.read false (slotOf d.offset)]
  | .ap => bankTxns c bank (bankOf d.offset) ++ [.read true (slotOf d.offset), .read false (rdbufSlot c)]
  | .ficr | .uicr | .scs =>
    windowTxns c bank tar (addrOf c d) ++ [.read true (slotOfAddr (addrOf c d)), .read false (rdbufSlot c)]

/-- The transactions of `WR` (R99). -/
def expandWr (c : Cfg) (bank tar : Option Word) (d : Descriptor) (v : Word) : List Txn :=
  match d.space with
  | .dp => [.write false (slotOf d.offset) v]
  | .ap => bankTxns c bank (bankOf d.offset) ++ [.write true (slotOf d.offset) v]
  | .ficr | .uicr | .scs => windowTxns c bank tar (addrOf c d) ++ [.write true (slotOfAddr (addrOf c d)) v]

/-- `bank_val` after an access to a descriptor's space (44_register_router.md R172 to R181), before any snoop. -/
def bankAfter (bank : Option Word) (d : Descriptor) : Option Word :=
  match d.space with
  | .dp => bank
  | .ap => some ((bankOf d.offset).zeroExtend 32)
  | .ficr | .uicr | .scs => some 0x10#32

/-- `tar_val` after an access to a descriptor's space, before any snoop. -/
def tarAfter (c : Cfg) (tar : Option Word) (d : Descriptor) : Option Word :=
  match d.space with
  | .dp => tar
  | .ap => tar
  | .ficr | .uicr | .scs => some (addrOf c d &&& c.tarAlignMask)

/-- `bank_val` after `WR d, v` with the snoop of 44_register_router.md R182. -/
def bankAfterWr (c : Cfg) (bank : Option Word) (d : Descriptor) (v : Word) : Option Word :=
  if d.space = .dp ∧ slotOf d.offset = selectSlot c then some v else bankAfter bank d

/-- `tar_val` after `WR d, v` with the snoop of R182. -/
def tarAfterWr (c : Cfg) (tar : Option Word) (d : Descriptor) (v : Word) : Option Word :=
  if d.space = .ap ∧ d.offset.extractLsb' 0 8 = c.apTarOff then some v else tarAfter c tar d

/-- The transactions of an access (30_encoding.md R99), with what the caches hold when it starts. -/
def accessTxns (s : State) : Instr → Option (List Txn)
  | .rd id => (lookup s.cfg.regtab id).map fun d => expandRd s.cfg s.bank s.tar d
  | .wr id v => (lookup s.cfg.regtab id).map fun d => expandWr s.cfg s.bank s.tar d v
  | _ => none

/-- What the two caches hold: the bank, then TAR. -/
abbrev Caches := Option Word × Option Word

/-- What the caches hold after the transactions with which an access prepares its window: a completed write of SELECT or
of TAR is recorded (44_register_router.md R172, R173). -/
def cachesAfter (c : Caches) : List Txn → Caches
  | [] => c
  | .read _ _ :: rest => cachesAfter c rest
  | .write false _ v :: rest => cachesAfter (some v, c.2) rest
  | .write true _ v :: rest => cachesAfter (c.1, some v) rest

/-- The twelve transactions of a bring-up with the default parameters and table (45_bringup.md R224). -/
def bringupTxns : List Txn :=
  [.read false 0#2, .write false 0#2 0x0000001E#32, .write false 2#2 0x00000000#32,
   .write false 1#2 0x50000000#32, .read false 1#2,
   .write false 2#2 0x000000F0#32, .read true 3#2, .read false 3#2,
   .write false 2#2 0x00000000#32, .write true 0#2 0x03000052#32, .read true 0#2, .read false 3#2]

/-- The words a bring-up wants of its four checked reads (R216, R219 to R221), with the staged words of IDR and CSW
left free: the word of each read of `bringupTxns`, where it is checked. -/
def bringupWants : List (Option Word) :=
  [some 0x0BB11477#32, none, none, none, some 0xF0000000#32, none, none, some 0x04770021#32,
   none, none, none, some 0x03000052#32]

/-- A reply's word is the wanted one. -/
def wordWanted (p : (Txn × Reply) × Option Word) : Prop :=
  match p.2 with
  | some w => p.1.2.word = w
  | none => True

/-- The raw frames of a bring-up with the default parameters (45_bringup.md R224). -/
def bringupRawEvents : List Event :=
  [.send [.wr 7, .byte 0xFF#8, .byte 0xFF#8, .byte 0xFF#8, .byte 0xFF#8, .byte 0xFF#8, .byte 0xFF#8, .byte 0xFF#8],
   .send [.wr 2, .byte 0x9E#8, .byte 0xE7#8],
   .send [.wr 7, .byte 0xFF#8, .byte 0xFF#8, .byte 0xFF#8, .byte 0xFF#8, .byte 0xFF#8, .byte 0xFF#8, .byte 0xFF#8],
   .send [.wr 1, .byte 0x00#8]]

/-! ### A bring-up with any parameters -/

/-- One part of a bring-up (45_bringup.md R212 to R221). The sequencer issues only `RAWSEND`, `RD`, `WR` and `ENSBANK`. -/
structure BringupPart where
  /-- The last step that has completed when the part begins (R211). -/
  last : BuState
  /-- What is issued. -/
  run : Instr
  /-- The word a read must bring, and the error if it brings another. -/
  check : Option (Word × ErrorKind)
deriving DecidableEq, Repr

/-- The parts of a bring-up in order, with the parameters of 00_scope.md R6 and the Ids of its five registers (log 20). -/
def bringupParts (c : Cfg) : List BringupPart :=
  [⟨.idle, .rawsend (List.replicate 7 0xFF#8), none⟩,
   ⟨.lineReset1, .rawsend [c.jtag2swdMagic.extractLsb' 0 8, c.jtag2swdMagic.extractLsb' 8 8], none⟩,
   ⟨.protocolSwitch, .rawsend (List.replicate 7 0xFF#8), none⟩,
   ⟨.lineReset2, .rawsend c.modeswitchBytes, none⟩,
   ⟨.modeSwitch, .rd c.ids.idcode, some (0x0BB11477#32, .unexpectedIdCode)⟩,
   ⟨.idCodeCheck, .wr c.ids.abort c.abortClear, none⟩,
   ⟨.abortCleared, .ensbank c.bringupBank, none⟩,
   ⟨.apBankSelected, .wr c.ids.ctrlstat c.ctrlstatReq, none⟩,
   ⟨.apBankSelected, .rd c.ids.ctrlstat, some (c.ctrlstatExpect, .unexpectedCtrlStat)⟩,
   ⟨.ctrlStatNegotiated, .rd c.ids.idr, some (c.expectedIdr, .unexpectedIdr)⟩,
   ⟨.idrValidated, .wr c.ids.csw c.cswConfig, none⟩,
   ⟨.idrValidated, .rd c.ids.csw, some (c.cswConfig, .unexpectedCsw)⟩]

/-- The transactions of a part (30_encoding.md R99): none where it has no expansion, because it is a raw frame or the
table does not hold its Id. -/
def partTxns (c : Cfg) (k : Caches) : Instr → Option (List Txn)
  | .rd id => (lookup c.regtab id).map fun d => expandRd c k.1 k.2 d
  | .wr id v => (lookup c.regtab id).map fun d => expandWr c k.1 k.2 d v
  | .ensbank b => some (bankTxns c k.1 b)
  | _ => none

/-- The caches after a part whose transactions have succeeded (44_register_router.md R172 to R182). -/
def partCaches (c : Cfg) (k : Caches) : Instr → Caches
  | .rd id => ((lookup c.regtab id).map fun d => (bankAfter k.1 d, tarAfter c k.2 d)).getD k
  | .wr id v => ((lookup c.regtab id).map fun d => (bankAfterWr c k.1 d v, tarAfterWr c k.2 d v)).getD k
  | .ensbank b => (some (b.zeroExtend 32), k.2)
  | _ => k

/-- A part succeeds: what the transport delivers to it, its events, and the caches after it. -/
inductive PartDone (c : Cfg) (k : Caches) (p : BringupPart) : List RxItem → List Event → Caches → Prop where
  /-- The empty string is no frame (43_transaction_codec.md R152, 45_bringup.md R215). -/
  | nothing : p.run = .rawsend [] → PartDone c k p [] [] k
  /-- A raw frame, its confirmations only where `RAW_CONF > 0` (R152). -/
  | frame (bytes conf : List Byte) : p.run = .rawsend bytes → bytes ≠ [] → conf.length = c.rawConf →
      PartDone c k p (delivered conf) (.send (.wr bytes.length :: bytes.map .byte) :: confEvents conf) k
  /-- Transactions, each answered as the protocol wants, the last word the wanted one. -/
  | access (xs : List (Txn × Reply)) : partTxns c k p.run = some (xs.map Prod.fst) → (∀ x ∈ xs, replyFits c x) →
      (∀ w e, p.check = some (w, e) → lastWord xs = some w) →
      PartDone c k p (scriptOf xs) (eventsOf xs) (partCaches c k p.run)

/-- A part raises (45_bringup.md R212 to R221, "Errors"): what the transport delivers up to there, the events, the error
and the caches. -/
inductive PartFails (c : Cfg) (k : Caches) (p : BringupPart) :
    List RxItem → List Event → ErrorKind → Caches → Prop where
  /-- The time limit runs out before the confirmations of a raw frame have come. -/
  | frame (bytes us : List Byte) : p.run = .rawsend bytes → bytes ≠ [] → us.length < c.rawConf →
      PartFails c k p (delivered us ++ [.timeLimit])
        [.send (.wr bytes.length :: bytes.map .byte), .flush, .recv c.rawConf none] .timeout k
  /-- The table does not hold the Id (44_register_router.md R171). -/
  | unknown (id : BitVec 8) : (p.run = .rd id ∨ ∃ v, p.run = .wr id v) → lookup c.regtab id = none →
      PartFails c k p [] [] .unknownRegister k
  /-- A transaction fails, in any way. -/
  | transport (xs : List (Txn × Reply)) (x : Txn × Reply) (st : Stop) (later : List Txn) :
      partTxns c k p.run = some (xs.map Prod.fst ++ x.1 :: later) → (∀ y ∈ xs, replyFits c y) → replyFits c x →
      stopFits c x st →
      PartFails c k p (scriptOf xs ++ stopScript x st) (eventsOf xs ++ stopEvents c x st) (stopError st)
        (cachesAfter k (xs.map Prod.fst))
  /-- The word read is not the wanted one. -/
  | word (xs : List (Txn × Reply)) (w : Word) (e : ErrorKind) : p.check = some (w, e) →
      partTxns c k p.run = some (xs.map Prod.fst) → (∀ x ∈ xs, replyFits c x) → lastWord xs ≠ some w →
      PartFails c k p (scriptOf xs) (eventsOf xs) e (partCaches c k p.run)

/-- Every part succeeds, one after the other, from the caches `k`: the script, the events, the caches at the end. -/
inductive PartsDone (c : Cfg) : Caches → List BringupPart → List RxItem → List Event → Caches → Prop where
  | nil (k : Caches) : PartsDone c k [] [] [] k
  | cons {k k' k'' : Caches} {p : BringupPart} {ps : List BringupPart} {script script' : List RxItem}
      {es es' : List Event} : PartDone c k p script es k' → PartsDone c k' ps script' es' k'' →
      PartsDone c k (p :: ps) (script ++ script') (es ++ es') k''

/-- One of the parts raises, those before it having succeeded: the script, the events, the error, the last step that
completed, and the caches (45_bringup.md R223). -/
inductive PartsFail (c : Cfg) :
    Caches → List BringupPart → List RxItem → List Event → ErrorKind → BuState → Caches → Prop where
  | here {k k' : Caches} {p : BringupPart} {ps : List BringupPart} {script : List RxItem} {es : List Event}
      {e : ErrorKind} : PartFails c k p script es e k' → PartsFail c k (p :: ps) script es e p.last k'
  | later {k k' k'' : Caches} {p : BringupPart} {ps : List BringupPart} {script script' : List RxItem}
      {es es' : List Event} {e : ErrorKind} {b : BuState} : PartDone c k p script es k' →
      PartsFail c k' ps script' es' e b k'' → PartsFail c k (p :: ps) (script ++ script') (es ++ es') e b k''

/-! ### A dump page -/

/-- The transactions of one dump page at `addr` (46_flash_dump.md R242): the unconditional TAR write in TAR's bank, then
256 staged reads of DRW in DRW's bank; a SELECT write stands before either only on a bank miss. -/
def pageTxns (c : Cfg) (bank : Option Word) (addr : Word) : List Txn :=
  bankTxns c bank (c.apTarOff &&& 0xF0#8) ++ [.write true (tarSlot c) addr] ++
  bankTxns c (some ((c.apTarOff &&& 0xF0#8).zeroExtend 32)) (c.apDrwOff &&& 0xF0#8) ++
  (List.replicate Config.pageWords
    [Txn.read true (c.apDrwOff.extractLsb' 2 2), Txn.read false (rdbufSlot c)]).flatten

/-- The bank selected after a dump page. -/
def bankAfterPage (c : Cfg) : Option Word := some ((c.apDrwOff &&& 0xF0#8).zeroExtend 32)

/-- The table holds the two registers a dump needs (46_flash_dump.md, opening). -/
def dumpable (c : Cfg) : Prop :=
  tarDescriptor c ∈ c.regtab.map Prod.snd ∧ drwDescriptor c ∈ c.regtab.map Prod.snd

/-- The words that a page's replies deliver through RDBUF: the last word of each pair of reads. -/
def pageWordsOf (c : Cfg) (xs : List (Txn × Reply)) : List Word :=
  (xs.filter fun x => decide (x.1 = .read false (rdbufSlot c))).map fun x => x.2.word

/-- The bytes of a page (R242). -/
def pageBytesOf (c : Cfg) (xs : List (Txn × Reply)) : List Byte := (pageWordsOf c xs).flatMap wordBytes

/-! ## Views of the instruction set -/

/-- The rows whose meaning is a read transaction (43_transaction_codec.md R150), with its operands. -/
def readRow : Instr → Option (Bool × BitVec 2)
  | .dprd a => some (false, a)
  | .aprd a => some (true, a)
  | .dprd0 => some (false, 0#2)
  | .dprd1 => some (false, 1#2)
  | .dprd2 => some (false, 2#2)
  | .dprd3 => some (false, 3#2)
  | .aprd0 => some (true, 0#2)
  | .aprd1 => some (true, 1#2)
  | .aprd2 => some (true, 2#2)
  | .aprd3 => some (true, 3#2)
  | .swdrd apndp a => some (apndp, a)
  | _ => none

/-- The rows whose meaning is a write transaction (R151), with its operands. -/
def writeRow : Instr → Option (Bool × BitVec 2 × Word)
  | .dpwr a v => some (false, a, v)
  | .apwr a v => some (true, a, v)
  | .dpwr0 v => some (false, 0#2, v)
  | .dpwr1 v => some (false, 1#2, v)
  | .dpwr2 v => some (false, 2#2, v)
  | .dpwr3 v => some (false, 3#2, v)
  | .apwr0 v => some (true, 0#2, v)
  | .apwr1 v => some (true, 1#2, v)
  | .apwr2 v => some (true, 2#2, v)
  | .apwr3 v => some (true, 3#2, v)
  | .swdwr apndp a v => some (apndp, a, v)
  | _ => none

/-- The operations the host does not issue as commands: the request rows and the internal operations. -/
def isInternal : Instr → Bool
  | .rawsend _ => true
  | .resolve _ => true
  | .ensbank _ => true
  | .enstar _ => true
  | .snoop _ _ => true
  | i => (readRow i).isSome || (writeRow i).isSome

/-- The pure host commands (30_encoding.md R93). -/
def isPure : Instr → Bool
  | .revb _ => true
  | .wpar _ => true
  | .hpar _ _ _ => true
  | .enchdr _ _ _ => true
  | .ackchk _ _ _ => true
  | _ => false

/-- The reserved opcodes (30_encoding.md R96). -/
def isReserved : Instr → Bool
  | .reserved0 => true
  | .reserved6 => true
  | .reserved7 => true
  | .reservedD => true
  | .reservedE => true
  | .reservedF => true
  | _ => false

/-- The rows the host can issue as a command that a dead session turns away (44_register_router.md R186). -/
def sessionChecked : Instr → Bool
  | .rd _ => true
  | .wr _ _ => true
  | .dump => true
  | _ => false

/-- The instructions that are a session start or begin with one (44_register_router.md R200, 45_bringup.md R225). -/
def startsSession : Instr → Bool
  | .sreset => true
  | .bringup => true
  | _ => false

/-- Is every `Recv` of a sequence of events guarded: since the last `Send` a `Flush` has been issued (20_memory.md
R65, 70_reset_and_hazards.md R310)? The first argument says whether one has been issued so far. -/
def recvFlushed : Bool → List Event → Bool
  | _, [] => true
  | _, .send _ :: rest => recvFlushed false rest
  | _, .flush :: rest => recvFlushed true rest
  | f, .recv _ _ :: rest => f && recvFlushed f rest

/-- Every `Recv` is for at least one unit, is delivered exactly the units asked for or none, and stands behind a
`Flush` issued after the last `Send` (20_memory.md R63, R65). -/
def Guarded (es : List Event) : Prop :=
  recvFlushed false es = true ∧
  ∀ n o, Event.recv n o ∈ es → 0 < n ∧ ∀ us, o = some us → us.length = n

/-- The events hold the whole frame of a completed transaction. -/
def HasFrame (x : Txn) (es : List Event) : Prop := ∃ es₁ es₂ r, es = es₁ ++ frameEvents (x, r) ++ es₂

/-- How many writes of TAR's slot with the word `v` a sequence of events sends. -/
def tarWrites (c : Cfg) (v : Word) (es : List Event) : Nat :=
  (writesSent 0#8 es).countP fun x => decide (x = (wireByte (tarSlot c) true false, v))

/-- The access itself, where it is such a write: a `WR` through the window of bank `0x10` at the slot that TAR has in its
own bank, with `v` as its word. -/
def ownWrites (c : Cfg) (v : Word) (d : Descriptor) : Instr → Nat
  | .wr _ w => if slotOfAddr (addrOf c d) = tarSlot c ∧ w = v then 1 else 0
  | _ => 0

/-- How many transactions with the wire byte `W` a sequence of events opens. -/
def headersSent (W : Byte) (es : List Event) : Nat :=
  es.countP fun e => decide (e = .send [.wr 1, .byte W])

end Sys2Proof.Machine
end

