-- ==== Sys2Proof/Certificates/Slice0/Obligations.lean ====
section
/-! DEFINITION. The statements for the provers, in the order of spec/. A transport that answers is given as the script
`rx`; a state is at rest when no transaction is in progress. Statements about an instruction's result give the whole
next state, so that they are its frame. The fields `port` (log 4), `op_result` (log 8), `rx` (log 10), `events` (log
12), `por` (log 13) and `fd_busy` (log 14) are the model's own: what a statement says of them is the model's choice. -/

section

open Sys2Proof Sys2Proof.Machine

/-! ## BitFramer, request encoder, acknowledgment validator -/

/-- 40_bitframer.md R110, with the host command in every session state. -/
def Obligations.RevbMirrorsTheByte : Prop :=
  (∀ (b : Byte) (i : Nat), i < 8 → (revb b).getLsbD i = b.getLsbD (7 - i)) ∧
  (∀ b, revb (revb b) = b) ∧
  (∀ b s, exec (.revb b) s = .next { s with rsp_status := .ok, rsp_rdata := some ((revb b).zeroExtend 32) }) ∧
  (∀ (id : BitVec 8) (w : Word), decodeCommand (0x8#4 ++ id ++ w) = .revb (w.extractLsb' 0 8)) ∧
  revb 0x00 = 0x00 ∧ revb 0xFF = 0xFF ∧ revb 0x01 = 0x80 ∧ revb 0xB1 = 0x8D ∧
  ∀ b ∈ [0xA5#8, 0xE7#8, 0x81#8, 0x99#8, 0xBD#8, 0xC3#8], revb b = b

/-- 40_bitframer.md R111, with its laws. -/
def Obligations.WparFoldsTheWord : Prop :=
  (∀ w : Word, wpar w = decide (((List.range 32).countP fun i => w.getLsbD i) % 2 = 1)) ∧
  (∀ (w : Word) (k : Nat), k < 32 → wpar (w ^^^ (1#32 <<< k)) = !wpar w) ∧
  (∀ x y : Word, wpar (x ^^^ y) = (wpar x ^^ wpar y)) ∧
  (∀ w s, exec (.wpar w) s = .next { s with rsp_status := .ok, rsp_rdata := some (if wpar w then 1#32 else 0#32) }) ∧
  (∀ (id : BitVec 8) (w : Word), decodeCommand (0x9#4 ++ id ++ w) = .wpar w) ∧
  wpar 0x00000000 = false ∧ wpar 0xFFFFFFFF = false ∧ wpar 0x00000001 = true ∧ wpar 0x80000000 = true ∧
  wpar 0x0BB11477 = true ∧ ((List.range 32).countP fun i => (0x0BB11477#32).getLsbD i) = 15

/-- 40_bitframer.md R112 and the table of R113. -/
def Obligations.HparIsTheFourBitXor : Prop :=
  (∀ a apndp rnw, hpar a apndp rnw = (a.getLsbD 0 ^^ a.getLsbD 1 ^^ apndp ^^ rnw)) ∧
  (∀ a apndp rnw, hparTable[hparIndex a apndp rnw]? = some (hpar a apndp rnw)) ∧
  hparTable.map Bool.toNat = [0, 1, 1, 0, 1, 0, 0, 1, 1, 0, 0, 1, 0, 1, 1, 0] ∧
  (∀ a apndp rnw, hparIndex a apndp rnw = 8 * rnw.toNat + 4 * apndp.toNat + a.toNat) ∧
  (∀ a apndp rnw s, exec (.hpar a apndp rnw) s =
    .next { s with rsp_status := .ok, rsp_rdata := some (if hpar a apndp rnw then 1#32 else 0#32) }) ∧
  (∀ (id : BitVec 8) (w : Word),
    decodeCommand (0xA#4 ++ id ++ w) = .hpar (w.extractLsb' 0 2) (w.getLsbD 2) (w.getLsbD 3)) ∧
  hpar 0 false false = false ∧ hpar 3 true true = false ∧ hpar 0 false true = true

/-- The header and the wire byte bit by bit (30_encoding.md R82, R83), with the parity of R85. The layout is the spec's
own decision D6 (log 3). -/
def Obligations.HeaderBitsAndWireBits : Prop :=
  ∀ a apndp rnw,
    header a apndp rnw = byteOfBits true apndp rnw (a.getLsbD 0) (a.getLsbD 1) (hpar a apndp rnw) false true ∧
    (header a apndp rnw).getLsbD 7 = true ∧ (header a apndp rnw).getLsbD 6 = apndp ∧
    (header a apndp rnw).getLsbD 5 = rnw ∧ (header a apndp rnw).getLsbD 4 = a.getLsbD 0 ∧
    (header a apndp rnw).getLsbD 3 = a.getLsbD 1 ∧
    (header a apndp rnw).getLsbD 2 = (apndp ^^ rnw ^^ a.getLsbD 0 ^^ a.getLsbD 1) ∧
    (header a apndp rnw).getLsbD 1 = false ∧ (header a apndp rnw).getLsbD 0 = true ∧
    ∀ i, i < 8 → (wireByte a apndp rnw).getLsbD i = (header a apndp rnw).getLsbD (7 - i)

/-- The sixteen rows of 41_request_encoder.md R122: `apndp`, `rnw`, `a`, `p`, `H`, `W`. -/
def Obligations.SixteenHeaders : Prop :=
  ∀ row ∈ ([(false, false, 0, false, 0x81, 0x81), (false, false, 1, true, 0x95, 0xA9),
      (false, false, 2, true, 0x8D, 0xB1), (false, false, 3, false, 0x99, 0x99),
      (false, true, 0, true, 0xA5, 0xA5), (false, true, 1, false, 0xB1, 0x8D),
      (false, true, 2, false, 0xA9, 0x95), (false, true, 3, true, 0xBD, 0xBD),
      (true, false, 0, true, 0xC5, 0xA3), (true, false, 1, false, 0xD1, 0x8B),
      (true, false, 2, false, 0xC9, 0x93), (true, false, 3, true, 0xDD, 0xBB),
      (true, true, 0, false, 0xE1, 0x87), (true, true, 1, true, 0xF5, 0xAF),
      (true, true, 2, true, 0xED, 0xB7), (true, true, 3, false, 0xF9, 0x9F)] :
      List (Bool × Bool × BitVec 2 × Bool × Byte × Byte)),
    hpar row.2.2.1 row.1 row.2.1 = row.2.2.2.1 ∧ header row.2.2.1 row.1 row.2.1 = row.2.2.2.2.1 ∧
    wireByte row.2.2.1 row.1 row.2.1 = row.2.2.2.2.2

/-- 41_request_encoder.md R123 (a) to (e). -/
def Obligations.HeaderProperties : Prop :=
  (∀ a apndp rnw a' apndp' rnw', header a apndp rnw = header a' apndp' rnw' → a = a' ∧ apndp = apndp' ∧ rnw = rnw') ∧
  (∀ a apndp rnw a' apndp' rnw', wireByte a apndp rnw = wireByte a' apndp' rnw' →
    a = a' ∧ apndp = apndp' ∧ rnw = rnw') ∧
  (∀ a apndp rnw, header a apndp rnw &&& 0x83#8 = 0x81#8) ∧
  (∀ a apndp rnw, ([2, 3, 4, 5, 6].countP fun i => (header a apndp rnw).getLsbD i) % 2 = 0) ∧
  (∀ a apndp rnw, revb (wireByte a apndp rnw) = header a apndp rnw) ∧
  (∀ a apndp rnw s s', ∃ t t', exec (.enchdr a apndp rnw) s = .next t ∧ exec (.enchdr a apndp rnw) s' = .next t' ∧
    t.rsp_rdata = t'.rsp_rdata)

/-- 41_request_encoder.md R121 as a host command. -/
def Obligations.EnchdrGivesHeaderAndWireByte : Prop :=
  (∀ a apndp rnw s, exec (.enchdr a apndp rnw) s =
    .next { s with rsp_status := .ok, rsp_rdata := some (0x0000#16 ++ wireByte a apndp rnw ++ header a apndp rnw) }) ∧
  (∀ (id : BitVec 8) (w : Word),
    decodeCommand (0xB#4 ++ id ++ w) = .enchdr (w.extractLsb' 0 2) (w.getLsbD 2) (w.getLsbD 3)) ∧
  (∀ a apndp rnw, wireByte a apndp rnw = revb (header a apndp rnw) ∧ header a apndp rnw ≠ 0x00 ∧
    header a apndp rnw ≠ 0xFF ∧ (wireByte a apndp rnw).getLsbD 0 = true ∧ (wireByte a apndp rnw).getLsbD 7 = true) ∧
  header 0 false true = 0xA5 ∧ wireByte 0 false true = 0xA5

/-- 42_ack_validator.md R130, as a host command and inside a transaction. -/
def Obligations.AckchkAcceptsOneTriple : Prop :=
  (∀ u0 u1 u2 : Byte, ackOk [u0, u1, u2] = decide (u0 = 0x01 ∧ u1 = 0x00 ∧ u2 = 0x00)) ∧
  (∀ u0 u1 u2 s, exec (.ackchk u0 u1 u2) s =
    .next { s with
      rsp_status := .ok
      rsp_rdata := some (if u0 = 0x01 ∧ u1 = 0x00 ∧ u2 = 0x00 then 1#32 else 0#32) }) ∧
  (∀ (id : BitVec 8) (w : Word),
    decodeCommand (0xC#4 ++ id ++ w) = .ackchk (w.extractLsb' 0 8) (w.extractLsb' 8 8) (w.extractLsb' 16 8)) ∧
  (∀ u0 u1 u2 s rest, s.por = [] → s.rx = delivered [u0, u1, u2] ++ rest → ackOk [u0, u1, u2] = false →
    phaseAck s = .ended (raised .ackMismatch
      { s with rx := rest, events := s.events ++ [.send [.rdbit, .rdbit, .rdbit], .flush, .recv 3 (some [u0, u1, u2])] }))

/-! ## Encodings -/

/-- 30_encoding.md R96: the reserved opcodes, and an Id the table does not hold. -/
def Obligations.ReservedAndUnknownAreTurnedAway : Prop :=
  (∀ i s, isReserved i = true → exec i s = .next { s with rsp_status := .refused }) ∧
  (∀ (id : BitVec 8) (w : Word),
    decodeCommand (0x0#4 ++ id ++ w) = .reserved0 ∧ decodeCommand (0x6#4 ++ id ++ w) = .reserved6 ∧
    decodeCommand (0x7#4 ++ id ++ w) = .reserved7 ∧ decodeCommand (0xD#4 ++ id ++ w) = .reservedD ∧
    decodeCommand (0xE#4 ++ id ++ w) = .reservedE ∧ decodeCommand (0xF#4 ++ id ++ w) = .reservedF) ∧
  (∀ id v s i, (i = .rd id ∨ i = .wr id v) → s.sess_dead = false → lookup s.cfg.regtab id = none →
    exec i s = .next { clearLatches s with
      sess_dead := true, err_code := some .unknownRegister, rsp_status := .error .unknownRegister, rsp_rdata := none })

/-- 30_encoding.md R93: the operations by `cmd_op`, with the operand fields, and the pure functions. -/
def Obligations.CommandsDecodeByOpcode : Prop :=
  (∀ (id : BitVec 8) (w : Word),
    decodeCommand (0x1#4 ++ id ++ w) = .sreset ∧ decodeCommand (0x2#4 ++ id ++ w) = .rd id ∧
    decodeCommand (0x3#4 ++ id ++ w) = .wr id w ∧ decodeCommand (0x4#4 ++ id ++ w) = .bringup ∧
    decodeCommand (0x5#4 ++ id ++ w) = .dump ∧ decodeCommand (0x8#4 ++ id ++ w) = .revb (w.extractLsb' 0 8) ∧
    decodeCommand (0x9#4 ++ id ++ w) = .wpar w ∧
    decodeCommand (0xA#4 ++ id ++ w) = .hpar (w.extractLsb' 0 2) (w.getLsbD 2) (w.getLsbD 3) ∧
    decodeCommand (0xB#4 ++ id ++ w) = .enchdr (w.extractLsb' 0 2) (w.getLsbD 2) (w.getLsbD 3) ∧
    decodeCommand (0xC#4 ++ id ++ w) = .ackchk (w.extractLsb' 0 8) (w.extractLsb' 8 8) (w.extractLsb' 16 8) ∧
    (∀ op ∈ [0x0#4, 0x6#4, 0x7#4, 0xD#4, 0xE#4, 0xF#4], isReserved (decodeCommand (op ++ id ++ w)) = true)) ∧
  (∀ i s, isPure i = true → ∃ r, exec i s = .next { s with rsp_status := .ok, rsp_rdata := some r })

/-- 30_encoding.md R95: the bytes the header decoder takes are the sixteen headers, and every other byte is rejected. The
model's choices: that a header is presented at all (log 5), that it is answered as the exact row whose header it is (log 6),
and that a byte is rejected by the name of the first of R95's conditions it breaks (log 23). -/
def Obligations.HeaderDecoderAcceptsTheSixteen : Prop :=
  ∀ (h : Byte) (v : Word),
    ((∃ i, decodeRequest h v = .ok i) ↔ ∃ a apndp rnw, h = header a apndp rnw) ∧
    (∀ a apndp rnw, h = header a apndp rnw → decodeRequest h v = .ok (requestRow apndp rnw a v)) ∧
    (decodeRequest h v = .error .startBit ↔ h.getLsbD 7 = false) ∧
    (decodeRequest h v = .error .stopBit ↔ h.getLsbD 7 = true ∧ h.getLsbD 1 = true) ∧
    (decodeRequest h v = .error .parkBit ↔ h.getLsbD 7 = true ∧ h.getLsbD 1 = false ∧ h.getLsbD 0 = false)

/-- The numbers of 30_encoding.md R94 and 10_state.md R26, R27; codes 9 to 14 are never produced. -/
def Obligations.CodesAsNumbered : Prop :=
  [Status.ok, .error .ackMismatch, .error .parityError, .error .timeout, .error .unknownRegister,
    .error .unexpectedIdCode, .error .unexpectedCtrlStat, .error .unexpectedIdr, .error .unexpectedCsw,
    .refused].map (fun x => (statusCode x).toNat) = [0, 1, 2, 3, 4, 5, 6, 7, 8, 15] ∧
  (∀ x, (statusCode x).toNat ≤ 8 ∨ x = .refused) ∧
  (∀ e, (errCodeBits e).toNat ≤ 8) ∧ errCodeBits none = 0 ∧
  (∀ e, errCodeBits (some e) = statusCode (.error e)) ∧
  [BuState.idle, .lineReset1, .protocolSwitch, .lineReset2, .modeSwitch, .idCodeCheck, .abortCleared, .apBankSelected,
    .ctrlStatNegotiated, .idrValidated, .cswConfigured, .ready].map (fun x => (buCode x).toNat) = List.range 12 ∧
  [Phase.idle, .hdr, .ack, .trn, .data, .tail].map (fun x => (phaseCode x).toNat) = List.range 6

/-- Decoding the word of a well-formed instruction gives the instruction, up to the choice among rows that share a
header (log 6), and every row that has no word is one of the five the opcode table gives none (log 7). -/
def Obligations.DecodeInvertsEncode : Prop :=
  (∀ i f, i.wellFormed = true → encode i = some f → decode f = .ok (canonical i)) ∧
  (∀ i, encode i = none ↔ ((∃ b, i = .rawsend b) ∨ (∃ d, i = .resolve d) ∨ (∃ b, i = .ensbank b) ∨ (∃ t, i = .enstar t) ∨
    ∃ d v, i = .snoop d v)) ∧
  (∀ i, canonical i = i ∨ (readRow i).isSome = true ∨ (writeRow i).isSome = true)

/-- The choice among rows that share a header changes no meaning (log 6). -/
def Obligations.CanonicalRowMeansTheSame : Prop :=
  ∀ i s, exec (canonical i) s = exec i s

/-- Words written out from the spec's tables decode to the instruction they stand for. That a request header is presented
at a port (log 5) and is answered as the exact row (log 6) is the model's choice; the commands are the spec's. -/
def Obligations.WordsOfTheSpecDecode : Prop :=
  decode (.command 0x20500000000#44) = .ok (.rd 5) ∧ decode (.command 0x30610000010#44) = .ok (.wr 6 0x10000010) ∧
  decode (.command 0x10000000000#44) = .ok .sreset ∧ decode (.command 0x800000000B1#44) = .ok (.revb 0xB1) ∧
  decode (.command 0xB000000000F#44) = .ok (.enchdr 3 true true) ∧
  decode (.command 0xC0000000101#44) = .ok (.ackchk 1 1 0) ∧
  decode (.request 0xA5#8 0) = .ok .dprd0 ∧ decode (.request 0x8D#8 0xF0) = .ok (.dpwr2 0xF0) ∧
  decode (.request 0xF9#8 0) = .ok .aprd3 ∧ decode (.request 0xC5#8 0x03000052) = .ok (.apwr0 0x03000052)

/-! ## The step -/

/-- A step runs the instruction at the head of the port, with its word taken and one point passed: the model's choice of
a step (logs 4, 13, 14, 22). -/
def Obligations.StepRunsTheDecodedInstruction : Prop :=
  ∀ s f rest i, s.cfg.wellFormed = true → s.por.head? ≠ some 0 → s.fd_busy = false → s.port = f :: rest →
    decode f = .ok i → step s = exec i { s with port := rest, por := countdown s.por }

/-- What a step does where there is no instruction to run: it waits (70_reset_and_hazards.md R301), goes on with a dump
(46_flash_dump.md R241), or refuses a byte that is no header (30_encoding.md R95) or a configuration for which the block
is not defined (10_state.md R32). The model's choice of a step: logs 4, 13, 14, 22, 23. -/
def Obligations.StepWithoutAnInstruction : Prop :=
  (∀ s, s.cfg.wellFormed = true → s.por.head? ≠ some 0 → s.fd_busy = false → s.port = [] →
    step s = .next { s with por := countdown s.por }) ∧
  (∀ s, s.cfg.wellFormed = true → s.por.head? ≠ some 0 → s.fd_busy = true →
    step s = dumpStep { s with por := countdown s.por }) ∧
  (∀ s f rest e, s.cfg.wellFormed = true → s.por.head? ≠ some 0 → s.fd_busy = false → s.port = f :: rest →
    decode f = .error e → step s = .refused (.illFormedHeader e)) ∧
  (∀ s, s.cfg.wellFormed = false → step s = .refused .illFormedConfig)

/-- The reset and session-start values of 10_state.md R39. -/
def Obligations.ResetValuesOfTheTable : Prop :=
  (State.reset.bank = none ∧ State.reset.tar = none ∧ State.reset.sess_dead = false ∧ State.reset.err_code = none ∧
    State.reset.bu_state = .idle ∧ State.reset.t_phase = .idle ∧ State.reset.t_addr = none ∧
    State.reset.t_apndp = none ∧ State.reset.t_rnw = none ∧ State.reset.t_par = none ∧ State.reset.t_hdr = none ∧
    State.reset.t_val = none ∧ State.reset.t_vpar = none ∧ State.reset.fd_addr = none ∧ State.reset.fd_image = [] ∧
    State.reset.rsp_status = .ok ∧ State.reset.rsp_rdata = none) ∧
  ∀ s, exec .sreset s = .next { s with
    bank := none, tar := none, sess_dead := false, err_code := none, bu_state := .idle, t_phase := .idle,
    t_addr := none, t_apndp := none, t_rnw := none, t_par := none, t_hdr := none, t_val := none, t_vpar := none,
    fd_addr := none, fd_image := [], fd_busy := false, rsp_status := .ok, rsp_rdata := none }

/-- 70_reset_and_hazards.md R300, R301: power-on reset at the start of a step, inside an instruction at any point, and
inside any step, that of a dump's later page among them; nothing is sent, what was sent stays sent, `REGTAB` and `CFG` are
not affected, and the resets still to come stay to come. The points at which it can land are the model's choice (log 13),
as is that the port keeps its words (log 29). -/
def Obligations.PowerOnResetAtAnyTime : Prop :=
  (∀ s, s.cfg.wellFormed = true → s.por.head? = some 0 → step s = .next { s with
    bank := none, tar := none, sess_dead := false, err_code := none, bu_state := .idle, t_phase := .idle,
    t_addr := none, t_apndp := none, t_rnw := none, t_par := none, t_hdr := none, t_val := none, t_vpar := none,
    fd_addr := none, fd_image := [], fd_busy := false, rsp_status := .ok, rsp_rdata := none, por := s.por.tail,
    op_result := none }) ∧
  (∀ i s t, AtRest s → exec i s = .next t → t.por.length < s.por.length → ∃ es rx, t = { s with
    bank := none, tar := none, sess_dead := false, err_code := none, bu_state := .idle, t_phase := .idle,
    t_addr := none, t_apndp := none, t_rnw := none, t_par := none, t_hdr := none, t_val := none, t_vpar := none,
    fd_addr := none, fd_image := [], fd_busy := false, rsp_status := .ok, rsp_rdata := none, por := s.por.tail,
    op_result := none, rx := rx, events := s.events ++ es }) ∧
  (∀ s t, Coherent s → step s = .next t → t.por.length < s.por.length →
    ∃ es rx port, (port = s.port ∨ ∃ f, s.port = f :: port) ∧ t = { s with
      bank := none, tar := none, sess_dead := false, err_code := none, bu_state := .idle, t_phase := .idle,
      t_addr := none, t_apndp := none, t_rnw := none, t_par := none, t_hdr := none, t_val := none, t_vpar := none,
      fd_addr := none, fd_image := [], fd_busy := false, rsp_status := .ok, rsp_rdata := none, por := s.por.tail,
      op_result := none, port := port, rx := rx, events := s.events ++ es }) ∧
  (∀ s toks, s.por.head? = some 0 → send toks s = .ended (powerOnReset s) ∧ flush s = .ended (powerOnReset s) ∧
    ∀ n, recv n s = .ended (powerOnReset s))

/-! ## Transactions -/

/-- Every row whose meaning is a read transaction completes when the transport answers (43_transaction_codec.md R150):
the frame of 30_encoding.md R86, the word as the result (in the model's `op_result`, log 8), nothing else. -/
def Obligations.ReadRequestsComplete : Prop :=
  ∀ i apndp a s r rest, readRow i = some (apndp, a) → Usable s → s.t_phase = .idle →
    replyFits s.cfg (.read apndp a, r) → s.rx = delivered (replyUnits (.read apndp a, r)) ++ rest →
    exec i s = .next { clearLatches s with
      rx := rest
      op_result := some (.word r.word)
      events := s.events ++
        ([.send [.wr 1, .byte (wireByte a apndp true)], .flush, .recv 2 (some r.conf),
          .send [.rdbit, .rdbit, .rdbit], .flush, .recv 3 (some [0x01#8, 0x00#8, 0x00#8]), .send [.clk]] ++
         (if s.cfg.trnConf = 0 then [] else [.flush, .recv s.cfg.trnConf (some r.turn)]) ++
         [.send [.rdbyte, .rdbyte, .rdbyte, .rdbyte, .rdbit], .flush,
          .recv 4 (some [r.word.extractLsb' 0 8, r.word.extractLsb' 8 8, r.word.extractLsb' 16 8,
            r.word.extractLsb' 24 8]),
          .recv 1 (some [if wpar r.word then 0x01#8 else 0x00#8]), .send [.clk]] ++
         (if s.cfg.rdIdleConf = 0 then [] else [.flush, .recv s.cfg.rdIdleConf (some r.fin)])) }

/-- Every row whose meaning is a write transaction completes when the transport answers (R151): the frame of
30_encoding.md R87, nothing else. -/
def Obligations.WriteRequestsComplete : Prop :=
  ∀ i apndp a v s r rest, writeRow i = some (apndp, a, v) → Usable s → s.t_phase = .idle →
    replyFits s.cfg (.write apndp a v, r) → s.rx = delivered (replyUnits (.write apndp a v, r)) ++ rest →
    exec i s = .next { clearLatches s with
      rx := rest
      op_result := none
      events := s.events ++
        ([.send [.wr 1, .byte (wireByte a apndp false)], .flush, .recv 2 (some r.conf),
          .send [.rdbit, .rdbit, .rdbit], .flush, .recv 3 (some [0x01#8, 0x00#8, 0x00#8]), .send [.clk]] ++
         (if s.cfg.trnConf = 0 then [] else [.flush, .recv s.cfg.trnConf (some r.turn)]) ++
         [.send [.wr 4, .byte (v.extractLsb' 0 8), .byte (v.extractLsb' 8 8), .byte (v.extractLsb' 16 8),
            .byte (v.extractLsb' 24 8), if wpar v then .pset else .pclr],
          .flush, .recv 2 (some r.fin)]) }

/-- `RAWSEND` (R152): the empty string is no event; else one `Send`, confirmations only where `RAW_CONF > 0`, and
`Timeout` where they do not come. -/
def Obligations.RawsendCompletes : Prop :=
  (∀ s, Usable s → s.t_phase = .idle → exec (.rawsend []) s = .next { s with op_result := none }) ∧
  (∀ bytes s conf rest, bytes ≠ [] → Usable s → s.t_phase = .idle → conf.length = s.cfg.rawConf →
    s.rx = delivered conf ++ rest →
    exec (.rawsend bytes) s = .next { s with
      rx := rest
      op_result := none
      events := s.events ++ (.send (.wr bytes.length :: bytes.map .byte) ::
        (if s.cfg.rawConf = 0 then [] else [.flush, .recv s.cfg.rawConf (some conf)])) }) ∧
  (∀ bytes s us rest, bytes ≠ [] → Usable s → s.t_phase = .idle → us.length < s.cfg.rawConf →
    s.rx = delivered us ++ .timeLimit :: rest →
    exec (.rawsend bytes) s = .next { clearLatches s with
      sess_dead := true, err_code := some .timeout, rsp_status := .error .timeout, rsp_rdata := none
      rx := rest
      op_result := none
      events := s.events ++
        [.send (.wr bytes.length :: bytes.map .byte), .flush, .recv s.cfg.rawConf none] })

/-- A transaction whose answer fails, at whichever point of R150 or R151: the error of that point, the events up to it
and none after, the caches and `bu_state` as they were, the latches discarded (60_exceptions.md R270, R271). The model's
own: no `op_result` (log 8), and the units of a short read are used up (log 11). -/
def Obligations.FailedTransactionIsFatal : Prop :=
  ∀ i x st s rest,
    ((∃ apndp a, readRow i = some (apndp, a) ∧ x.1 = .read apndp a) ∨
     (∃ apndp a v, writeRow i = some (apndp, a, v) ∧ x.1 = .write apndp a v)) →
    Usable s → s.t_phase = .idle → replyFits s.cfg x → stopFits s.cfg x st → s.rx = stopScript x st ++ rest →
    exec i s = .next { clearLatches s with
      sess_dead := true, err_code := some (stopError st), rsp_status := .error (stopError st), rsp_rdata := none
      rx := rest, events := s.events ++ stopEvents s.cfg x st, op_result := none }

/-- 43_transaction_codec.md R153: the clocks of a transaction, and the bits sampled in a read, data bit 0 first, over a
transport in the mode that 70_reset_and_hazards.md R303 makes a premise. -/
def Obligations.TransactionClocks : Prop :=
  (∀ m i apndp a s r rest, TransportConfigured m s.cfg → readRow i = some (apndp, a) → Usable s → s.t_phase = .idle →
    replyFits s.cfg (.read apndp a, r) → s.rx = delivered (replyUnits (.read apndp a, r)) ++ rest →
    ∃ t es, exec i s = .next t ∧ t.events = s.events ++ es ∧
      wireClocks m es =
        [true, apndp, true, a.getLsbD 0, a.getLsbD 1, hpar a apndp true, false, true].map Clock.driven ++
        List.replicate 3 .sampled ++ [.idle] ++ List.replicate 32 .sampled ++ [.sampled] ++ [.idle] ∧
      (wireClocks m es).length = 46 ∧
      sampledBits m [] es =
        [true, false, false] ++ (List.range 32).map (fun k => r.word.getLsbD k) ++ [wpar r.word]) ∧
  (∀ m i apndp a v s r rest, TransportConfigured m s.cfg → writeRow i = some (apndp, a, v) → Usable s →
    s.t_phase = .idle →
    replyFits s.cfg (.write apndp a v, r) → s.rx = delivered (replyUnits (.write apndp a v, r)) ++ rest →
    ∃ t es, exec i s = .next t ∧ t.events = s.events ++ es ∧
      wireClocks m es =
        [true, apndp, false, a.getLsbD 0, a.getLsbD 1, hpar a apndp false, false, true].map Clock.driven ++
        List.replicate 3 .sampled ++ [.idle] ++ (List.range 32).map (fun k => .driven (v.getLsbD k)) ++
        [.driven (wpar v)] ∧
      (wireClocks m es).length = 45 ∧ sampledBits m [] es = [true, false, false])

/-- Phase `T_HDR` (R141): the latches `t_par` and `t_hdr`, the header sent, two confirmations, or `Timeout`. -/
def Obligations.HeaderPhaseLatchesAndSends : Prop :=
  ∀ s a apndp rnw, s.por = [] → s.t_addr = some a → s.t_apndp = some apndp → s.t_rnw = some rnw →
    (∀ conf rest, conf.length = 2 → s.rx = delivered conf ++ rest →
      phaseHdr s = .done () { s with
        t_phase := .hdr, t_par := some (hpar a apndp rnw), t_hdr := some (header a apndp rnw), rx := rest
        events := s.events ++ [.send [.wr 1, .byte (wireByte a apndp rnw)], .flush, .recv 2 (some conf)] }) ∧
    (∀ us rest, us.length < 2 → s.rx = delivered us ++ .timeLimit :: rest →
      phaseHdr s = .ended { clearLatches s with
        sess_dead := true, err_code := some .timeout, rsp_status := .error .timeout, rsp_rdata := none, rx := rest
        events := s.events ++ [.send [.wr 1, .byte (wireByte a apndp rnw)], .flush, .recv 2 none] })

/-- In a dead session an operation the host does not issue as a command is not started (log 9, from 10_state.md R24 and
44_register_router.md R186). -/
def Obligations.InternalOperationsNotStartedWhenDead : Prop :=
  ∀ i s, isInternal i = true → s.sess_dead = true → exec i s = .next s

/-! ## The cache controller -/

/-- `RESOLVE` (R171): the descriptor, or `UnknownRegister` with nothing sent and the caches as they were. -/
def Obligations.ResolveLooksUpTheTable : Prop :=
  (∀ id s d, s.sess_dead = false → lookup s.cfg.regtab id = some d →
    exec (.resolve id) s = .next { s with op_result := some (.descriptor d) }) ∧
  (∀ id s, s.sess_dead = false → lookup s.cfg.regtab id = none →
    exec (.resolve id) s = .next { clearLatches s with
      sess_dead := true, err_code := some .unknownRegister, rsp_status := .error .unknownRegister, rsp_rdata := none
      op_result := none }) ∧
  lookup Cfg.defaultRegtab 12 = some ⟨0x0FC, .ap⟩ ∧ lookup Cfg.defaultRegtab 200 = none

/-- `ENSBANK` (R172): on a hit nothing is sent; on a miss one SELECT write, recorded once it has succeeded; a SELECT write
that fails is not recorded (R184). -/
def Obligations.EnsbankWritesOnAMissOnly : Prop :=
  (∀ b s, Usable s → s.bank = some (b.zeroExtend 32) → exec (.ensbank b) s = .next { s with op_result := none }) ∧
  (∀ b s r rest, AtRest s → Usable s → s.bank ≠ some (b.zeroExtend 32) →
    replyFits s.cfg (.write false (selectSlot s.cfg) (b.zeroExtend 32), r) →
    s.rx = delivered (replyUnits (.write false (selectSlot s.cfg) (b.zeroExtend 32), r)) ++ rest →
    exec (.ensbank b) s = .next { s with
      bank := some (b.zeroExtend 32), op_result := none, rx := rest
      events := s.events ++ frameEvents (.write false (selectSlot s.cfg) (b.zeroExtend 32), r) }) ∧
  (∀ b s r st rest, AtRest s → Usable s → s.bank ≠ some (b.zeroExtend 32) →
    replyFits s.cfg (.write false (selectSlot s.cfg) (b.zeroExtend 32), r) →
    stopFits s.cfg (.write false (selectSlot s.cfg) (b.zeroExtend 32), r) st →
    s.rx = stopScript (.write false (selectSlot s.cfg) (b.zeroExtend 32), r) st ++ rest →
    exec (.ensbank b) s = .next { s with
      sess_dead := true, err_code := some (stopError st), rsp_status := .error (stopError st), rsp_rdata := none
      op_result := none, rx := rest
      events := s.events ++ stopEvents s.cfg (.write false (selectSlot s.cfg) (b.zeroExtend 32), r) st })

/-- `ENSTAR` (R173): on a hit nothing is sent and the bank is left alone; on a miss TAR's bank is ensured, then TAR
written and recorded. -/
def Obligations.EnstarWritesOnAMissOnly : Prop :=
  (∀ t s, Usable s → s.tar = some t → exec (.enstar t) s = .next { s with op_result := none }) ∧
  (∀ t s xs rest, AtRest s → Usable s → s.tar ≠ some t →
    xs.map Prod.fst = (if s.bank = some ((s.cfg.apTarOff &&& 0xF0#8).zeroExtend 32) then []
      else [.write false (selectSlot s.cfg) ((s.cfg.apTarOff &&& 0xF0#8).zeroExtend 32)]) ++
      [.write true (tarSlot s.cfg) t] →
    (∀ x ∈ xs, replyFits s.cfg x) → s.rx = scriptOf xs ++ rest →
    exec (.enstar t) s = .next { s with
      bank := some ((s.cfg.apTarOff &&& 0xF0#8).zeroExtend 32), tar := some t, op_result := none, rx := rest
      events := s.events ++ eventsOf xs })

/-- A failed `ENSTAR` (R173): a completed SELECT write stays recorded, the TAR write that failed is not. -/
def Obligations.FailedEnstarKeepsTheBank : Prop :=
  ∀ t s xs x st later rest, AtRest s → Usable s →
    xs.map Prod.fst ++ x.1 :: later = tarTxns s.cfg s.bank s.tar t →
    (∀ y ∈ xs, replyFits s.cfg y) → replyFits s.cfg x → stopFits s.cfg x st →
    s.rx = scriptOf xs ++ stopScript x st ++ rest →
    exec (.enstar t) s = .next { s with
      bank := (cachesAfter (s.bank, s.tar) (xs.map Prod.fst)).1
      tar := s.tar
      sess_dead := true, err_code := some (stopError st), rsp_status := .error (stopError st), rsp_rdata := none
      op_result := none, rx := rest
      events := s.events ++ eventsOf xs ++ stopEvents s.cfg x st }

/-- `SNOOP` (R182). -/
def Obligations.SnoopRecordsSelectAndTar : Prop :=
  ∀ d v s, s.sess_dead = false →
    exec (.snoop d v) s = .next { s with
      bank := if d.space = .dp ∧ d.offset.extractLsb' 2 2 = s.cfg.dpSelectOff.extractLsb' 2 2 then some v else s.bank
      tar := if d.space = .ap ∧ d.offset &&& 0xFF#12 = s.cfg.apTarOff.zeroExtend 12 then some v else s.tar
      op_result := none }

/-- `RD` answered as the protocol wants (R170, R174 to R177): exactly the transactions of 30_encoding.md R99, the caches
as R172 and R173 leave them, the last word as the response. -/
def Obligations.RdRunsItsExpansion : Prop :=
  ∀ id d s xs rest, AtRest s → Usable s → lookup s.cfg.regtab id = some d →
    xs.map Prod.fst = expandRd s.cfg s.bank s.tar d → (∀ x ∈ xs, replyFits s.cfg x) → s.rx = scriptOf xs ++ rest →
    exec (.rd id) s = .next { s with
      bank := bankAfter s.bank d
      tar := tarAfter s.cfg s.tar d
      rsp_status := .ok
      rsp_rdata := lastWord xs
      rx := rest
      events := s.events ++ eventsOf xs } ∧ (lastWord xs).isSome = true

/-- `WR` answered as the protocol wants (R170, R178 to R182): exactly the transactions of R99, the caches with the snoop
of R182, no response word. -/
def Obligations.WrRunsItsExpansion : Prop :=
  ∀ id d v s xs rest, AtRest s → Usable s → lookup s.cfg.regtab id = some d →
    xs.map Prod.fst = expandWr s.cfg s.bank s.tar d v → (∀ x ∈ xs, replyFits s.cfg x) → s.rx = scriptOf xs ++ rest →
    exec (.wr id v) s = .next { s with
      bank := bankAfterWr s.cfg s.bank d v
      tar := tarAfterWr s.cfg s.tar d v
      rsp_status := .ok
      rsp_rdata := none
      rx := rest
      events := s.events ++ eventsOf xs }

/-- An access that fails at any of its transactions, in any way (R184, 60_exceptions.md R271): the writes of SELECT and
TAR that had completed stay recorded, the one that failed is not, and nothing more is sent. -/
def Obligations.FailedAccessKeepsCompletedWrites : Prop :=
  ∀ i s txns xs x st later rest, accessTxns s i = some txns → AtRest s → Usable s →
    xs.map Prod.fst ++ x.1 :: later = txns →
    (∀ y ∈ xs, replyFits s.cfg y) → replyFits s.cfg x → stopFits s.cfg x st →
    s.rx = scriptOf xs ++ stopScript x st ++ rest →
    exec i s = .next { s with
      bank := (cachesAfter (s.bank, s.tar) (xs.map Prod.fst)).1
      tar := (cachesAfter (s.bank, s.tar) (xs.map Prod.fst)).2
      sess_dead := true, err_code := some (stopError st), rsp_status := .error (stopError st), rsp_rdata := none
      rx := rest
      events := s.events ++ eventsOf xs ++ stopEvents s.cfg x st }

/-- A cache holds a new value only if the frame of the write of its register with that value has been completed
(10_state.md R23(c), 44_register_router.md R184): by any instruction but the bare record `SNOOP`, and by any step, that of
a dump's later page among them, however the transport answers. So the caches mirror the target (10_state.md
R37(b)), where the host goes through the router (log 5): every step keeps the bank cache equal to the target's SELECT,
whatever TAR does, its auto-increment (70_reset_and_hazards.md R314) among it, over the premise that nobody interferes with
SELECT (R313); and it keeps both equal over the premise that nobody interferes with either (log 36). -/
def Obligations.CacheValuesWereWritten : Prop :=
  (∀ i s t, AtRest s → (∀ d v, i ≠ .snoop d v) → exec i s = .next t →
    ∃ es, t.events = s.events ++ es ∧
      (∀ v, t.bank = some v → t.bank ≠ s.bank → HasFrame (.write false (selectSlot s.cfg) v) es) ∧
      (∀ v, t.tar = some v → t.tar ≠ s.tar → HasFrame (.write true (tarSlot s.cfg) v) es)) ∧
  (∀ s t, Coherent s → step s = .next t →
    ∃ es, t.events = s.events ++ es ∧
      (∀ v, t.bank = some v → t.bank ≠ s.bank → HasFrame (.write false (selectSlot s.cfg) v) es) ∧
      (∀ v, t.tar = some v → t.tar ≠ s.tar → HasFrame (.write true (tarSlot s.cfg) v) es)) ∧
  (∀ s t v v' es, Coherent s → ThroughRouter s → MirrorsSelect s v → step s = .next t →
    t.events = s.events ++ es → SelectUndisturbed s.cfg es v v' → MirrorsSelect t v') ∧
  (∀ s t r r' es, Coherent s → ThroughRouter s → TarApart s.cfg → Mirrors s r → step s = .next t →
    t.events = s.events ++ es → NoInterference s.cfg es r r' → Mirrors t r')

/-- No instruction but a session start makes a cache unknown (10_state.md R23(a)), and no step that does not run one, that
of a dump's later page among them, whether or not it fails half way (44_register_router.md R184). -/
def Obligations.CachesClearedBySessionStartOnly : Prop :=
  (∀ i s t, AtRest s → s.por = [] → startsSession i = false → exec i s = .next t →
    (s.bank.isSome = true → t.bank.isSome = true) ∧ (s.tar.isSome = true → t.tar.isSome = true)) ∧
  (∀ s t, Coherent s → s.por = [] →
    (s.fd_busy = false → ∀ f rest i, s.port = f :: rest → decode f = .ok i → startsSession i = false) →
    step s = .next t →
    (s.bank.isSome = true → t.bank.isSome = true) ∧ (s.tar.isSome = true → t.tar.isSome = true))

/-- Without a host write of SELECT the recorded SELECT value is a bank (10_state.md R21): bits 31 to 8 and 3 to 0 are 0.
By any instruction, `BRINGUP` among them if `BRINGUP_BANK` is a bank (log 34) and none of the Ids it writes names SELECT (log
20), and by the step of a dump in progress. -/
def Obligations.RecordedSelectIsABank : Prop :=
  (∀ i s t, AtRest s → i.wellFormed = true → (∀ d v, i ≠ .snoop d v) →
    (i = .bringup → s.cfg.bringupBank &&& 0x0F#8 = 0#8 ∧
      ∀ id ∈ [s.cfg.ids.abort, s.cfg.ids.ctrlstat, s.cfg.ids.csw], ∀ d, lookup s.cfg.regtab id = some d →
        d.space = .dp → slotOf d.offset ≠ selectSlot s.cfg) →
    (∀ id v d, i = .wr id v → lookup s.cfg.regtab id = some d → d.space = .dp → slotOf d.offset ≠ selectSlot s.cfg) →
    (∀ v, s.bank = some v → v &&& 0xFFFFFF0F#32 = 0#32) → exec i s = .next t →
    ∀ v, t.bank = some v → v &&& 0xFFFFFF0F#32 = 0#32) ∧
  (∀ s t, Coherent s → s.fd_busy = true → (∀ v, s.bank = some v → v &&& 0xFFFFFF0F#32 = 0#32) → step s = .next t →
    ∀ v, t.bank = some v → v &&& 0xFFFFFF0F#32 = 0#32)

/-- A SELECT write stands immediately before the AP transaction that needs its bank (R183, 20_memory.md R66), in every
`RD` and `WR` that succeeds but a host write of SELECT itself, however the caches stand. -/
def Obligations.SelectWriteStandsBeforeItsAccess : Prop :=
  ∀ i s t, AtRest s → Usable s → exec i s = .next t → t.sess_dead = false →
    ∀ txns, accessTxns s i = some txns →
      ∃ xs : List (Txn × Reply), xs.map Prod.fst = txns ∧ t.events = s.events ++ eventsOf xs ∧
        ∀ k v, txns[k]? = some (.write false (selectSlot s.cfg) v) → txns.length ≠ 1 →
          (∃ a, txns[k + 1]? = some (.read true a)) ∨ ∃ a w, txns[k + 1]? = some (.write true a w)

/-- The bank caching property of R185: of two accesses to AP registers that succeed, those in one bank write SELECT once,
those in two banks twice, in order; the first clause for a cache that does not already hold the bank. -/
def Obligations.BankCaching : Prop :=
  ∀ i₁ i₂ s t u id₁ id₂ d₁ d₂, AtRest s → Usable s →
    (i₁ = .rd id₁ ∨ ∃ v, i₁ = .wr id₁ v) → (i₂ = .rd id₂ ∨ ∃ v, i₂ = .wr id₂ v) →
    lookup s.cfg.regtab id₁ = some d₁ → d₁.space = .ap → lookup s.cfg.regtab id₂ = some d₂ → d₂.space = .ap →
    exec i₁ s = .next t → t.sess_dead = false → exec i₂ t = .next u → u.sess_dead = false →
    s.bank ≠ some ((bankOf d₁.offset).zeroExtend 32) →
    ∃ es fs, t.events = s.events ++ es ∧ u.events = t.events ++ fs ∧
      headersSent (wireByte (selectSlot s.cfg) false false) es = 1 ∧ t.bank = some ((bankOf d₁.offset).zeroExtend 32) ∧
      headersSent (wireByte (selectSlot s.cfg) false false) fs = (if bankOf d₁.offset = bankOf d₂.offset then 0 else 1) ∧
      u.bank = some ((bankOf d₂.offset).zeroExtend 32)

/-- The TAR caching property of R185: two accesses, each a read or a write, that succeed at target addresses with one
aligned base `v` write TAR once, if the cache does not already hold the base, and never if it does. A `WR` of the word `v`
itself through the window can have the same frame (bank `0x10` apart) and is counted apart. -/
def Obligations.TarCaching : Prop :=
  ∀ i₁ i₂ s t u id₁ id₂ d₁ d₂ v, AtRest s → Usable s →
    (i₁ = .rd id₁ ∨ ∃ w, i₁ = .wr id₁ w) → (i₂ = .rd id₂ ∨ ∃ w, i₂ = .wr id₂ w) →
    lookup s.cfg.regtab id₁ = some d₁ → lookup s.cfg.regtab id₂ = some d₂ →
    d₁.space ≠ .dp → d₁.space ≠ .ap → d₂.space ≠ .dp → d₂.space ≠ .ap →
    addrOf s.cfg d₁ &&& s.cfg.tarAlignMask = v → addrOf s.cfg d₂ &&& s.cfg.tarAlignMask = v →
    exec i₁ s = .next t → t.sess_dead = false → exec i₂ t = .next u → u.sess_dead = false →
    ∃ es fs, t.events = s.events ++ es ∧ u.events = t.events ++ fs ∧
      tarWrites s.cfg v es = (if s.tar = some v then 0 else 1) + ownWrites s.cfg v d₁ i₁ ∧
      tarWrites s.cfg v fs = ownWrites s.cfg v d₂ i₂ ∧ t.tar = some v ∧ u.tar = some v

/-- The session check (R186): `RD`, `WR` and `DUMP` of a dead session are refused and nothing else changes. And what the
host can then read (10_state.md R30, 93_implementation_defined.md U13; log 17): of the host's commands that have completed
only a successful `RD` and the pure functions leave a word. -/
def Obligations.DeadSessionRefuses : Prop :=
  (∀ i s, sessionChecked i = true → s.sess_dead = true → exec i s = .next { s with rsp_status := .refused }) ∧
  (∀ i s t, AtRest s → isInternal i = false → exec i s = .next t → (i = .dump → t.fd_busy = false) →
    responseWord t ≠ none → (∃ id, i = .rd id) ∨ isPure i = true) ∧
  (∀ s : State, responseWord { s with rsp_status := .refused } = none)

/-- A dead session stays as it is until a session start (10_state.md R24, R186): whatever is executed, the error, the
caches, `bu_state` and the wire stay as they are. -/
def Obligations.DeadSessionStaysDead : Prop :=
  ∀ i s t, s.sess_dead = true → startsSession i = false → exec i s = .next t →
    SameRegisters { s with rsp_status := t.rsp_status, rsp_rdata := t.rsp_rdata } t ∧
    t.events = s.events ∧ t.rx = s.rx

/-- Which commands each session state takes (60_exceptions.md R275). -/
def Obligations.SessionStatesLimitCommands : Prop :=
  (∀ s, (sessionMode s = .dead ↔ s.sess_dead = true) ∧
    (sessionMode s = .fresh ↔ s.sess_dead = false ∧ s.bu_state = .idle) ∧
    (sessionMode s = .ready ↔ s.sess_dead = false ∧ s.bu_state = .ready) ∧
    (sessionMode s = .bringingUp ↔ s.sess_dead = false ∧ 0 < (buCode s.bu_state).toNat ∧
      (buCode s.bu_state).toNat < 11)) ∧
  (∀ i s, AtRest s → (isPure i = true ∨ startsSession i = true) → ∃ t, exec i s = .next t ∧ t.rsp_status ≠ .refused) ∧
  (∀ i s, AtRest s → (∃ id, i = .rd id ∨ ∃ v, i = .wr id v) →
    ∃ t, exec i s = .next t ∧ (t.rsp_status = .refused ↔ sessionMode s = .dead)) ∧
  (∀ s, AtRest s → ∃ t, exec .dump s = .next t ∧
    (sessionMode s ≠ .ready → t = { s with rsp_status := .refused }) ∧
    (sessionMode s = .ready → t.fd_busy = true ∨ t.rsp_status ≠ .refused))

/-! ## Bring-up -/

/-- A bring-up whose every part the transport answers as wanted reaches `Ready` (45_bringup.md R212 to R222, R225). First
with the default parameters and table, from every state, with any confirmations and staged words: exactly the frames of R224
(the defaults are the spec's, from general knowledge: logs 2, 20). Then with any parameters of 00_scope.md R6 and any table
that holds the five registers (log 20): exactly the frames of the parts that they make. -/
def Obligations.BringupReachesReady : Prop :=
  (∀ s xs rest, s.cfg = Cfg.default → s.por = [] → xs.map Prod.fst = bringupTxns →
    (∀ x ∈ xs, replyFits Cfg.default x) → (∀ p ∈ xs.zip bringupWants, wordWanted p) → s.rx = scriptOf xs ++ rest →
    exec .bringup s = .next { s with
      bank := some 0x00000000#32, tar := none, sess_dead := false, err_code := none, bu_state := .ready
      t_phase := .idle, t_addr := none, t_apndp := none, t_rnw := none, t_par := none, t_hdr := none, t_val := none
      t_vpar := none, fd_addr := none, fd_image := [], fd_busy := false, rsp_status := .ok, rsp_rdata := none
      rx := rest
      events := s.events ++ bringupRawEvents ++ eventsOf xs }) ∧
  (∀ s script es k rest, s.por = [] → PartsDone s.cfg (none, none) (bringupParts s.cfg) script es k →
    s.rx = script ++ rest →
    exec .bringup s = .next { s with
      bank := k.1, tar := k.2, sess_dead := false, err_code := none, bu_state := .ready
      t_phase := .idle, t_addr := none, t_apndp := none, t_rnw := none, t_par := none, t_hdr := none, t_val := none
      t_vpar := none, fd_addr := none, fd_image := [], fd_busy := false, rsp_status := .ok, rsp_rdata := none
      rx := rest
      events := s.events ++ es })

/-- A bring-up one of whose parts raises (R211, R223; 60_exceptions.md R263, R265 to R268), with any parameters and any
table: the error of that part, `bu_state` at the last step that completed, the caches as the completed writes left them, no
later part. A part raises where a raw frame's confirmations do not come (R212 to R215, with `RAW_CONF > 0`), where the
table does not hold the Id (log 20), where any transaction fails in any way (the units of a short read are used up: log
11), and where the word read is not the wanted one
(R216, R219 to R221). -/
def Obligations.BringupStopsAtTheFailedCheck : Prop :=
  ∀ s script es e b k rest, s.por = [] → PartsFail s.cfg (none, none) (bringupParts s.cfg) script es e b k →
    s.rx = script ++ rest →
    exec .bringup s = .next { s with
      bank := k.1, tar := k.2, sess_dead := true, err_code := some e, bu_state := b
      t_phase := .idle, t_addr := none, t_apndp := none, t_rnw := none, t_par := none, t_hdr := none, t_val := none
      t_vpar := none, fd_addr := none, fd_image := [], fd_busy := false, rsp_status := .error e, rsp_rdata := none
      rx := rest
      events := s.events ++ es }

/-- A bring-up ends `Ready` with a usable session, or dead before `Ready` with its error as the response (R223, R225):
with any parameters, any table, any answers. -/
def Obligations.BringupEndsReadyOrDead : Prop :=
  ∀ s, s.por = [] → ∃ t, exec .bringup s = .next t ∧
    ((t.sess_dead = false ∧ t.err_code = none ∧ t.bu_state = .ready ∧ t.rsp_status = .ok) ∨
     (t.sess_dead = true ∧ t.bu_state ≠ .ready ∧ ∃ e, t.err_code = some e ∧ t.rsp_status = .error e))

/-! ## Flash dump -/

/-- `DUMP` unless the session is usable and `Ready` (46_flash_dump.md R241, 60_exceptions.md R269). -/
def Obligations.DumpRefusedUnlessReady : Prop :=
  ∀ s, (s.sess_dead = true ∨ s.bu_state ≠ .ready) → exec .dump s = .next { s with rsp_status := .refused }

/-- `DUMP` reads the first page (R241, R242, R243): the unconditional TAR write, 256 staged reads of DRW, and then the
end after an erased page or the next page address. That one page is one step is the model's (log 14), and that the
response registers keep the previous response while the dump goes on (log 28). -/
def Obligations.DumpReadsTheFirstPage : Prop :=
  ∀ s xs rest, AtRest s → Usable s → s.bu_state = .ready → dumpable s.cfg →
    xs.map Prod.fst = pageTxns s.cfg s.bank s.cfg.flashStart → (∀ x ∈ xs, replyFits s.cfg x) →
    s.rx = scriptOf xs ++ rest → (pageBytesOf s.cfg xs).length = 1024 ∧
    exec .dump s =
      if allErased (pageBytesOf s.cfg xs) then
        .next { s with
          bank := bankAfterPage s.cfg, tar := some s.cfg.flashStart, rx := rest, events := s.events ++ eventsOf xs
          fd_image := trim (pageBytesOf s.cfg xs), fd_addr := none, fd_busy := false
          rsp_status := .ok, rsp_rdata := none }
      else
        .next { s with
          bank := bankAfterPage s.cfg, tar := some s.cfg.flashStart, rx := rest, events := s.events ++ eventsOf xs
          fd_image := pageBytesOf s.cfg xs, fd_addr := some (s.cfg.flashStart + 1024#32), fd_busy := true }

/-- A step of a dump in progress reads the next page and appends it (R241 to R243). One page a step is the model's choice
(log 14), and that the response registers keep the previous response while the dump goes on (log 28). -/
def Obligations.DumpReadsTheNextPage : Prop :=
  ∀ s addr xs rest, AtRest s → Usable s → s.cfg.wellFormed = true → s.fd_busy = true → s.fd_addr = some addr →
    dumpable s.cfg → xs.map Prod.fst = pageTxns s.cfg s.bank addr → (∀ x ∈ xs, replyFits s.cfg x) →
    s.rx = scriptOf xs ++ rest →
    step s =
      if allErased (pageBytesOf s.cfg xs) then
        .next { s with
          bank := bankAfterPage s.cfg, tar := some addr, rx := rest, events := s.events ++ eventsOf xs
          fd_image := trim (s.fd_image ++ pageBytesOf s.cfg xs), fd_addr := none, fd_busy := false
          rsp_status := .ok, rsp_rdata := none }
      else
        .next { s with
          bank := bankAfterPage s.cfg, tar := some addr, rx := rest, events := s.events ++ eventsOf xs
          fd_image := s.fd_image ++ pageBytesOf s.cfg xs, fd_addr := some (addr + 1024#32), fd_busy := true }

/-- A whole dump (R241 to R245): if the first erased page is the last of `pages`, the dump ends after it, and its image
is the trimmed concatenation of the pages. One page a step: log 14. -/
def Obligations.WholeDumpIsTheTrimmedPages : Prop :=
  ∀ s rest after (pages : List (List (Txn × Reply))) last, AtRest s → Usable s → s.cfg.wellFormed = true →
    s.fd_busy = false → s.bu_state = .ready → dumpable s.cfg → s.port = .command 0x50000000000#44 :: rest →
    (∀ k p, (pages ++ [last])[k]? = some p → (∀ x ∈ p, replyFits s.cfg x) ∧
      p.map Prod.fst = pageTxns s.cfg (if k = 0 then s.bank else bankAfterPage s.cfg)
        (s.cfg.flashStart + 1024#32 * BitVec.ofNat 32 k)) →
    (∀ p ∈ pages, allErased (pageBytesOf s.cfg p) = false) → allErased (pageBytesOf s.cfg last) = true →
    s.rx = scriptOf (pages.flatten ++ last) ++ after →
    Host.Core.run Sys2Proof.core (pages.length + 1) s = .next { s with
      port := rest
      bank := bankAfterPage s.cfg, tar := some (s.cfg.flashStart + 1024#32 * BitVec.ofNat 32 pages.length)
      rx := after
      events := s.events ++ eventsOf (pages.flatten ++ last)
      fd_image := trim ((pages ++ [last]).flatMap (pageBytesOf s.cfg)), fd_addr := none, fd_busy := false
      rsp_status := .ok, rsp_rdata := none }

/-- The trimming of R244: the trailing run of `0xFF` and the one byte before it go, and nothing is left of an image that
is erased throughout. -/
def Obligations.TrimDropsTheTailAndOneByte : Prop :=
  (∀ (image : List Byte) (b : Byte) (n : Nat), b ≠ 0xFF#8 → trim (image ++ [b] ++ List.replicate n 0xFF#8) = image) ∧
  (∀ n : Nat, trim (List.replicate n 0xFF#8) = []) ∧
  (∀ image : List Byte, trim image = image.take (image.length - (erasedRun image.reverse + 1)) ∧
    image.drop (image.length - erasedRun image.reverse) = List.replicate (erasedRun image.reverse) 0xFF#8)

/-- An error inside a dump (R246): no image, the error as the response, `bu_state` still `Ready` (R222). -/
def Obligations.FailedDumpLeavesNoImage : Prop :=
  (∀ s t, AtRest s → s.sess_dead = false → exec .dump s = .next t → t.sess_dead = true →
    t.fd_image = [] ∧ t.fd_busy = false ∧ t.fd_addr = none ∧ t.bu_state = s.bu_state ∧
    ∃ e, t.err_code = some e ∧ t.rsp_status = .error e) ∧
  (∀ s t, AtRest s → s.sess_dead = false → s.fd_busy = true → s.fd_addr ≠ none → step s = .next t → t.sess_dead = true →
    t.fd_image = [] ∧ t.fd_busy = false ∧ t.fd_addr = none ∧ t.bu_state = s.bu_state ∧
    ∃ e, t.err_code = some e ∧ t.rsp_status = .error e)

/-- A dump over a table without `AP_TAR` or without `AP_DRW` (46_flash_dump.md, opening): `UnknownRegister` before
anything is sent (log 21). -/
def Obligations.DumpWithoutItsRegistersIsUnknown : Prop :=
  ∀ s, AtRest s → s.sess_dead = false → s.bu_state = .ready → ¬ dumpable s.cfg →
    exec .dump s = .next { s with
      sess_dead := true, err_code := some .unknownRegister, rsp_status := .error .unknownRegister, rsp_rdata := none
      fd_image := [], fd_addr := none, fd_busy := false }

/-! ## Errors -/

/-- `raise E` (60_exceptions.md R270): what it writes, that it ends every caller, and that only a dump loses its image. -/
def Obligations.RaiseRecordsAndEnds : Prop :=
  (∀ (e : ErrorKind) (s : State), (raise e : Op Unit) s = .ended { s with
    sess_dead := true, err_code := some e, rsp_status := .error e, rsp_rdata := none, t_phase := .idle
    t_addr := none, t_apndp := none, t_rnw := none, t_par := none, t_hdr := none, t_val := none, t_vpar := none }) ∧
  (∀ (m : Op Unit) (f : Unit → Op Unit) (s t : State), m s = .ended t → andThen m f s = .ended t) ∧
  (∀ (m : Op (Option Word)) (s t : State), m s = .ended t → runCommand m s = .next t) ∧
  (∀ s t, readPage s = .ended t → dumpStep s = .next { t with fd_image := [], fd_addr := none, fd_busy := false })

/-- An instruction that kills a usable session leaves the code of its error in `err_code` and `rsp_status`, no response
word, no transaction in progress, and the step of bring-up it had reached (60_exceptions.md R270, R271; 44_register_router.md
R170). -/
def Obligations.DeathLeavesItsCode : Prop :=
  ∀ i s t, AtRest s → s.sess_dead = false → exec i s = .next t → t.sess_dead = true →
    (∃ e, t.err_code = some e ∧ t.rsp_status = .error e) ∧ t.rsp_rdata = none ∧ AtRest t ∧
    (startsSession i = false → t.bu_state = s.bu_state)

/-! ## The whole machine -/

/-- Every instruction answers a next state, whatever the transport does: the model stops on none. -/
def Obligations.EveryInstructionAnswers : Prop :=
  (∀ i s, AtRest s → ∃ t, exec i s = .next t) ∧
  (∀ s, Coherent s → s.cfg.wellFormed = true →
    (∀ f rest, s.port = f :: rest → ∃ i, decode f = .ok i) → ∃ t, step s = .next t)

/-- The state after reset is coherent. -/
def Obligations.ResetIsCoherent : Prop := Coherent State.reset

/-- Every step keeps a state coherent: no transaction is in progress between steps (10_state.md R27), `sess_dead` and
`err_code` agree (R24), a usable session is fresh or ready (60_exceptions.md R275), a dump in progress stands at a page
address in a ready session with whole pages read. That a page is a step is the model's choice (log 14). -/
def Obligations.StepKeepsCoherence : Prop :=
  ∀ s t, Coherent s → step s = .next t → Coherent t

/-- Every step and every instruction leaves `REGTAB` and `CFG` as supplied (10_state.md R31); that they stand in the
state is the model's choice (log 1). -/
def Obligations.ConfigurationIsNeverWritten : Prop :=
  (∀ s t, step s = .next t → t.cfg = s.cfg) ∧ ∀ i s t, exec i s = .next t → t.cfg = s.cfg

/-- Every step adds to the trace and takes nothing back (43_transaction_codec.md R147), and what it adds is guarded: a
`Recv` only after a `Flush` issued since the last `Send`, for at least one unit, with exactly the units asked for or
`timeout` (20_memory.md R63, R65). -/
def Obligations.EveryRecvIsGuarded : Prop :=
  ∀ s t, Coherent s → step s = .next t → ∃ es, t.events = s.events ++ es ∧ Guarded es

end
end

