-- ==== Sys2Proof/Laws/State.lean ====
section
/-! SUPPORT. One lemma for each field under each named update of the state, so that no later proof unfolds a record
update. -/

namespace Sys2Proof.Machine

section clearLatchesFields

variable (s : State)

@[simp] theorem clearLatches_bank : (clearLatches s).bank = s.bank := rfl
@[simp] theorem clearLatches_tar : (clearLatches s).tar = s.tar := rfl
@[simp] theorem clearLatches_sess_dead : (clearLatches s).sess_dead = s.sess_dead := rfl
@[simp] theorem clearLatches_err_code : (clearLatches s).err_code = s.err_code := rfl
@[simp] theorem clearLatches_bu_state : (clearLatches s).bu_state = s.bu_state := rfl
@[simp] theorem clearLatches_t_phase : (clearLatches s).t_phase = .idle := rfl
@[simp] theorem clearLatches_t_addr : (clearLatches s).t_addr = none := rfl
@[simp] theorem clearLatches_t_apndp : (clearLatches s).t_apndp = none := rfl
@[simp] theorem clearLatches_t_rnw : (clearLatches s).t_rnw = none := rfl
@[simp] theorem clearLatches_t_par : (clearLatches s).t_par = none := rfl
@[simp] theorem clearLatches_t_hdr : (clearLatches s).t_hdr = none := rfl
@[simp] theorem clearLatches_t_val : (clearLatches s).t_val = none := rfl
@[simp] theorem clearLatches_t_vpar : (clearLatches s).t_vpar = none := rfl
@[simp] theorem clearLatches_fd_addr : (clearLatches s).fd_addr = s.fd_addr := rfl
@[simp] theorem clearLatches_fd_image : (clearLatches s).fd_image = s.fd_image := rfl
@[simp] theorem clearLatches_fd_busy : (clearLatches s).fd_busy = s.fd_busy := rfl
@[simp] theorem clearLatches_rsp_status : (clearLatches s).rsp_status = s.rsp_status := rfl
@[simp] theorem clearLatches_rsp_rdata : (clearLatches s).rsp_rdata = s.rsp_rdata := rfl
@[simp] theorem clearLatches_cfg : (clearLatches s).cfg = s.cfg := rfl
@[simp] theorem clearLatches_port : (clearLatches s).port = s.port := rfl
@[simp] theorem clearLatches_rx : (clearLatches s).rx = s.rx := rfl
@[simp] theorem clearLatches_rxLoop : (clearLatches s).rxLoop = s.rxLoop := rfl
@[simp] theorem clearLatches_events : (clearLatches s).events = s.events := rfl
@[simp] theorem clearLatches_por : (clearLatches s).por = s.por := rfl
@[simp] theorem clearLatches_op_result : (clearLatches s).op_result = s.op_result := rfl

end clearLatchesFields

section sessionStartFields

variable (s : State)

@[simp] theorem sessionStart_bank : (sessionStart s).bank = none := rfl
@[simp] theorem sessionStart_tar : (sessionStart s).tar = none := rfl
@[simp] theorem sessionStart_sess_dead : (sessionStart s).sess_dead = false := rfl
@[simp] theorem sessionStart_err_code : (sessionStart s).err_code = none := rfl
@[simp] theorem sessionStart_bu_state : (sessionStart s).bu_state = .idle := rfl
@[simp] theorem sessionStart_t_phase : (sessionStart s).t_phase = .idle := rfl
@[simp] theorem sessionStart_t_addr : (sessionStart s).t_addr = none := rfl
@[simp] theorem sessionStart_t_apndp : (sessionStart s).t_apndp = none := rfl
@[simp] theorem sessionStart_t_rnw : (sessionStart s).t_rnw = none := rfl
@[simp] theorem sessionStart_t_par : (sessionStart s).t_par = none := rfl
@[simp] theorem sessionStart_t_hdr : (sessionStart s).t_hdr = none := rfl
@[simp] theorem sessionStart_t_val : (sessionStart s).t_val = none := rfl
@[simp] theorem sessionStart_t_vpar : (sessionStart s).t_vpar = none := rfl
@[simp] theorem sessionStart_fd_addr : (sessionStart s).fd_addr = none := rfl
@[simp] theorem sessionStart_fd_image : (sessionStart s).fd_image = [] := rfl
@[simp] theorem sessionStart_fd_busy : (sessionStart s).fd_busy = false := rfl
@[simp] theorem sessionStart_rsp_status : (sessionStart s).rsp_status = .ok := rfl
@[simp] theorem sessionStart_rsp_rdata : (sessionStart s).rsp_rdata = none := rfl
@[simp] theorem sessionStart_cfg : (sessionStart s).cfg = s.cfg := rfl
@[simp] theorem sessionStart_port : (sessionStart s).port = s.port := rfl
@[simp] theorem sessionStart_rx : (sessionStart s).rx = s.rx := rfl
@[simp] theorem sessionStart_rxLoop : (sessionStart s).rxLoop = s.rxLoop := rfl
@[simp] theorem sessionStart_events : (sessionStart s).events = s.events := rfl
@[simp] theorem sessionStart_por : (sessionStart s).por = s.por := rfl
@[simp] theorem sessionStart_op_result : (sessionStart s).op_result = s.op_result := rfl

end sessionStartFields

section powerOnResetFields

variable (s : State)

@[simp] theorem powerOnReset_bank : (powerOnReset s).bank = none := rfl
@[simp] theorem powerOnReset_tar : (powerOnReset s).tar = none := rfl
@[simp] theorem powerOnReset_sess_dead : (powerOnReset s).sess_dead = false := rfl
@[simp] theorem powerOnReset_err_code : (powerOnReset s).err_code = none := rfl
@[simp] theorem powerOnReset_bu_state : (powerOnReset s).bu_state = .idle := rfl
@[simp] theorem powerOnReset_t_phase : (powerOnReset s).t_phase = .idle := rfl
@[simp] theorem powerOnReset_t_addr : (powerOnReset s).t_addr = none := rfl
@[simp] theorem powerOnReset_t_apndp : (powerOnReset s).t_apndp = none := rfl
@[simp] theorem powerOnReset_t_rnw : (powerOnReset s).t_rnw = none := rfl
@[simp] theorem powerOnReset_t_par : (powerOnReset s).t_par = none := rfl
@[simp] theorem powerOnReset_t_hdr : (powerOnReset s).t_hdr = none := rfl
@[simp] theorem powerOnReset_t_val : (powerOnReset s).t_val = none := rfl
@[simp] theorem powerOnReset_t_vpar : (powerOnReset s).t_vpar = none := rfl
@[simp] theorem powerOnReset_fd_addr : (powerOnReset s).fd_addr = none := rfl
@[simp] theorem powerOnReset_fd_image : (powerOnReset s).fd_image = [] := rfl
@[simp] theorem powerOnReset_fd_busy : (powerOnReset s).fd_busy = false := rfl
@[simp] theorem powerOnReset_rsp_status : (powerOnReset s).rsp_status = .ok := rfl
@[simp] theorem powerOnReset_rsp_rdata : (powerOnReset s).rsp_rdata = none := rfl
@[simp] theorem powerOnReset_cfg : (powerOnReset s).cfg = s.cfg := rfl
@[simp] theorem powerOnReset_port : (powerOnReset s).port = s.port := rfl
@[simp] theorem powerOnReset_rx : (powerOnReset s).rx = s.rx := rfl
@[simp] theorem powerOnReset_rxLoop : (powerOnReset s).rxLoop = s.rxLoop := rfl
@[simp] theorem powerOnReset_events : (powerOnReset s).events = s.events := rfl
@[simp] theorem powerOnReset_por : (powerOnReset s).por = s.por.tail := rfl
@[simp] theorem powerOnReset_op_result : (powerOnReset s).op_result = none := rfl

end powerOnResetFields

section raisedFields

variable (s : State) (e : ErrorKind)

@[simp] theorem raised_bank : (raised e s).bank = s.bank := rfl
@[simp] theorem raised_tar : (raised e s).tar = s.tar := rfl
@[simp] theorem raised_sess_dead : (raised e s).sess_dead = true := rfl
@[simp] theorem raised_err_code : (raised e s).err_code = some e := rfl
@[simp] theorem raised_bu_state : (raised e s).bu_state = s.bu_state := rfl
@[simp] theorem raised_t_phase : (raised e s).t_phase = .idle := rfl
@[simp] theorem raised_t_addr : (raised e s).t_addr = none := rfl
@[simp] theorem raised_t_apndp : (raised e s).t_apndp = none := rfl
@[simp] theorem raised_t_rnw : (raised e s).t_rnw = none := rfl
@[simp] theorem raised_t_par : (raised e s).t_par = none := rfl
@[simp] theorem raised_t_hdr : (raised e s).t_hdr = none := rfl
@[simp] theorem raised_t_val : (raised e s).t_val = none := rfl
@[simp] theorem raised_t_vpar : (raised e s).t_vpar = none := rfl
@[simp] theorem raised_fd_addr : (raised e s).fd_addr = s.fd_addr := rfl
@[simp] theorem raised_fd_image : (raised e s).fd_image = s.fd_image := rfl
@[simp] theorem raised_fd_busy : (raised e s).fd_busy = s.fd_busy := rfl
@[simp] theorem raised_rsp_status : (raised e s).rsp_status = .error e := rfl
@[simp] theorem raised_rsp_rdata : (raised e s).rsp_rdata = none := rfl
@[simp] theorem raised_cfg : (raised e s).cfg = s.cfg := rfl
@[simp] theorem raised_port : (raised e s).port = s.port := rfl
@[simp] theorem raised_rx : (raised e s).rx = s.rx := rfl
@[simp] theorem raised_rxLoop : (raised e s).rxLoop = s.rxLoop := rfl
@[simp] theorem raised_events : (raised e s).events = s.events := rfl
@[simp] theorem raised_por : (raised e s).por = s.por := rfl
@[simp] theorem raised_op_result : (raised e s).op_result = s.op_result := rfl

end raisedFields

section respondFields

variable (s : State) (r : Option Word)

@[simp] theorem respond_bank : (respond r s).bank = s.bank := rfl
@[simp] theorem respond_tar : (respond r s).tar = s.tar := rfl
@[simp] theorem respond_sess_dead : (respond r s).sess_dead = s.sess_dead := rfl
@[simp] theorem respond_err_code : (respond r s).err_code = s.err_code := rfl
@[simp] theorem respond_bu_state : (respond r s).bu_state = s.bu_state := rfl
@[simp] theorem respond_t_phase : (respond r s).t_phase = s.t_phase := rfl
@[simp] theorem respond_t_addr : (respond r s).t_addr = s.t_addr := rfl
@[simp] theorem respond_t_apndp : (respond r s).t_apndp = s.t_apndp := rfl
@[simp] theorem respond_t_rnw : (respond r s).t_rnw = s.t_rnw := rfl
@[simp] theorem respond_t_par : (respond r s).t_par = s.t_par := rfl
@[simp] theorem respond_t_hdr : (respond r s).t_hdr = s.t_hdr := rfl
@[simp] theorem respond_t_val : (respond r s).t_val = s.t_val := rfl
@[simp] theorem respond_t_vpar : (respond r s).t_vpar = s.t_vpar := rfl
@[simp] theorem respond_fd_addr : (respond r s).fd_addr = s.fd_addr := rfl
@[simp] theorem respond_fd_image : (respond r s).fd_image = s.fd_image := rfl
@[simp] theorem respond_fd_busy : (respond r s).fd_busy = s.fd_busy := rfl
@[simp] theorem respond_rsp_status : (respond r s).rsp_status = .ok := rfl
@[simp] theorem respond_rsp_rdata : (respond r s).rsp_rdata = r := rfl
@[simp] theorem respond_cfg : (respond r s).cfg = s.cfg := rfl
@[simp] theorem respond_port : (respond r s).port = s.port := rfl
@[simp] theorem respond_rx : (respond r s).rx = s.rx := rfl
@[simp] theorem respond_rxLoop : (respond r s).rxLoop = s.rxLoop := rfl
@[simp] theorem respond_events : (respond r s).events = s.events := rfl
@[simp] theorem respond_por : (respond r s).por = s.por := rfl
@[simp] theorem respond_op_result : (respond r s).op_result = s.op_result := rfl

end respondFields

section refuseFields

variable (s : State)

@[simp] theorem refuse_bank : (refuse s).bank = s.bank := rfl
@[simp] theorem refuse_tar : (refuse s).tar = s.tar := rfl
@[simp] theorem refuse_sess_dead : (refuse s).sess_dead = s.sess_dead := rfl
@[simp] theorem refuse_err_code : (refuse s).err_code = s.err_code := rfl
@[simp] theorem refuse_bu_state : (refuse s).bu_state = s.bu_state := rfl
@[simp] theorem refuse_t_phase : (refuse s).t_phase = s.t_phase := rfl
@[simp] theorem refuse_t_addr : (refuse s).t_addr = s.t_addr := rfl
@[simp] theorem refuse_t_apndp : (refuse s).t_apndp = s.t_apndp := rfl
@[simp] theorem refuse_t_rnw : (refuse s).t_rnw = s.t_rnw := rfl
@[simp] theorem refuse_t_par : (refuse s).t_par = s.t_par := rfl
@[simp] theorem refuse_t_hdr : (refuse s).t_hdr = s.t_hdr := rfl
@[simp] theorem refuse_t_val : (refuse s).t_val = s.t_val := rfl
@[simp] theorem refuse_t_vpar : (refuse s).t_vpar = s.t_vpar := rfl
@[simp] theorem refuse_fd_addr : (refuse s).fd_addr = s.fd_addr := rfl
@[simp] theorem refuse_fd_image : (refuse s).fd_image = s.fd_image := rfl
@[simp] theorem refuse_fd_busy : (refuse s).fd_busy = s.fd_busy := rfl
@[simp] theorem refuse_rsp_status : (refuse s).rsp_status = .refused := rfl
@[simp] theorem refuse_rsp_rdata : (refuse s).rsp_rdata = s.rsp_rdata := rfl
@[simp] theorem refuse_cfg : (refuse s).cfg = s.cfg := rfl
@[simp] theorem refuse_port : (refuse s).port = s.port := rfl
@[simp] theorem refuse_rx : (refuse s).rx = s.rx := rfl
@[simp] theorem refuse_rxLoop : (refuse s).rxLoop = s.rxLoop := rfl
@[simp] theorem refuse_events : (refuse s).events = s.events := rfl
@[simp] theorem refuse_por : (refuse s).por = s.por := rfl
@[simp] theorem refuse_op_result : (refuse s).op_result = s.op_result := rfl

end refuseFields

section snoopedFields

variable (s : State) (d : Descriptor) (v : Word)

@[simp] theorem snooped_bank : (snooped d v s).bank = if d.space = .dp ∧ slotOf d.offset = selectSlot s.cfg then some v else s.bank := rfl
@[simp] theorem snooped_tar : (snooped d v s).tar = if d.space = .ap ∧ d.offset.extractLsb' 0 8 = s.cfg.apTarOff then some v else s.tar := rfl
@[simp] theorem snooped_sess_dead : (snooped d v s).sess_dead = s.sess_dead := rfl
@[simp] theorem snooped_err_code : (snooped d v s).err_code = s.err_code := rfl
@[simp] theorem snooped_bu_state : (snooped d v s).bu_state = s.bu_state := rfl
@[simp] theorem snooped_t_phase : (snooped d v s).t_phase = s.t_phase := rfl
@[simp] theorem snooped_t_addr : (snooped d v s).t_addr = s.t_addr := rfl
@[simp] theorem snooped_t_apndp : (snooped d v s).t_apndp = s.t_apndp := rfl
@[simp] theorem snooped_t_rnw : (snooped d v s).t_rnw = s.t_rnw := rfl
@[simp] theorem snooped_t_par : (snooped d v s).t_par = s.t_par := rfl
@[simp] theorem snooped_t_hdr : (snooped d v s).t_hdr = s.t_hdr := rfl
@[simp] theorem snooped_t_val : (snooped d v s).t_val = s.t_val := rfl
@[simp] theorem snooped_t_vpar : (snooped d v s).t_vpar = s.t_vpar := rfl
@[simp] theorem snooped_fd_addr : (snooped d v s).fd_addr = s.fd_addr := rfl
@[simp] theorem snooped_fd_image : (snooped d v s).fd_image = s.fd_image := rfl
@[simp] theorem snooped_fd_busy : (snooped d v s).fd_busy = s.fd_busy := rfl
@[simp] theorem snooped_rsp_status : (snooped d v s).rsp_status = s.rsp_status := rfl
@[simp] theorem snooped_rsp_rdata : (snooped d v s).rsp_rdata = s.rsp_rdata := rfl
@[simp] theorem snooped_cfg : (snooped d v s).cfg = s.cfg := rfl
@[simp] theorem snooped_port : (snooped d v s).port = s.port := rfl
@[simp] theorem snooped_rx : (snooped d v s).rx = s.rx := rfl
@[simp] theorem snooped_rxLoop : (snooped d v s).rxLoop = s.rxLoop := rfl
@[simp] theorem snooped_events : (snooped d v s).events = s.events := rfl
@[simp] theorem snooped_por : (snooped d v s).por = s.por := rfl
@[simp] theorem snooped_op_result : (snooped d v s).op_result = s.op_result := rfl

end snoopedFields

section dumpAbortedFields

variable (s : State)

@[simp] theorem dumpAborted_bank : (dumpAborted s).bank = s.bank := rfl
@[simp] theorem dumpAborted_tar : (dumpAborted s).tar = s.tar := rfl
@[simp] theorem dumpAborted_sess_dead : (dumpAborted s).sess_dead = s.sess_dead := rfl
@[simp] theorem dumpAborted_err_code : (dumpAborted s).err_code = s.err_code := rfl
@[simp] theorem dumpAborted_bu_state : (dumpAborted s).bu_state = s.bu_state := rfl
@[simp] theorem dumpAborted_t_phase : (dumpAborted s).t_phase = s.t_phase := rfl
@[simp] theorem dumpAborted_t_addr : (dumpAborted s).t_addr = s.t_addr := rfl
@[simp] theorem dumpAborted_t_apndp : (dumpAborted s).t_apndp = s.t_apndp := rfl
@[simp] theorem dumpAborted_t_rnw : (dumpAborted s).t_rnw = s.t_rnw := rfl
@[simp] theorem dumpAborted_t_par : (dumpAborted s).t_par = s.t_par := rfl
@[simp] theorem dumpAborted_t_hdr : (dumpAborted s).t_hdr = s.t_hdr := rfl
@[simp] theorem dumpAborted_t_val : (dumpAborted s).t_val = s.t_val := rfl
@[simp] theorem dumpAborted_t_vpar : (dumpAborted s).t_vpar = s.t_vpar := rfl
@[simp] theorem dumpAborted_fd_addr : (dumpAborted s).fd_addr = none := rfl
@[simp] theorem dumpAborted_fd_image : (dumpAborted s).fd_image = [] := rfl
@[simp] theorem dumpAborted_fd_busy : (dumpAborted s).fd_busy = false := rfl
@[simp] theorem dumpAborted_rsp_status : (dumpAborted s).rsp_status = s.rsp_status := rfl
@[simp] theorem dumpAborted_rsp_rdata : (dumpAborted s).rsp_rdata = s.rsp_rdata := rfl
@[simp] theorem dumpAborted_cfg : (dumpAborted s).cfg = s.cfg := rfl
@[simp] theorem dumpAborted_port : (dumpAborted s).port = s.port := rfl
@[simp] theorem dumpAborted_rx : (dumpAborted s).rx = s.rx := rfl
@[simp] theorem dumpAborted_rxLoop : (dumpAborted s).rxLoop = s.rxLoop := rfl
@[simp] theorem dumpAborted_events : (dumpAborted s).events = s.events := rfl
@[simp] theorem dumpAborted_por : (dumpAborted s).por = s.por := rfl
@[simp] theorem dumpAborted_op_result : (dumpAborted s).op_result = s.op_result := rfl

end dumpAbortedFields

section dumpStartFields

variable (s : State)

@[simp] theorem dumpStart_bank : (dumpStart s).bank = s.bank := rfl
@[simp] theorem dumpStart_tar : (dumpStart s).tar = s.tar := rfl
@[simp] theorem dumpStart_sess_dead : (dumpStart s).sess_dead = s.sess_dead := rfl
@[simp] theorem dumpStart_err_code : (dumpStart s).err_code = s.err_code := rfl
@[simp] theorem dumpStart_bu_state : (dumpStart s).bu_state = s.bu_state := rfl
@[simp] theorem dumpStart_t_phase : (dumpStart s).t_phase = s.t_phase := rfl
@[simp] theorem dumpStart_t_addr : (dumpStart s).t_addr = s.t_addr := rfl
@[simp] theorem dumpStart_t_apndp : (dumpStart s).t_apndp = s.t_apndp := rfl
@[simp] theorem dumpStart_t_rnw : (dumpStart s).t_rnw = s.t_rnw := rfl
@[simp] theorem dumpStart_t_par : (dumpStart s).t_par = s.t_par := rfl
@[simp] theorem dumpStart_t_hdr : (dumpStart s).t_hdr = s.t_hdr := rfl
@[simp] theorem dumpStart_t_val : (dumpStart s).t_val = s.t_val := rfl
@[simp] theorem dumpStart_t_vpar : (dumpStart s).t_vpar = s.t_vpar := rfl
@[simp] theorem dumpStart_fd_addr : (dumpStart s).fd_addr = some s.cfg.flashStart := rfl
@[simp] theorem dumpStart_fd_image : (dumpStart s).fd_image = [] := rfl
@[simp] theorem dumpStart_fd_busy : (dumpStart s).fd_busy = true := rfl
@[simp] theorem dumpStart_rsp_status : (dumpStart s).rsp_status = s.rsp_status := rfl
@[simp] theorem dumpStart_rsp_rdata : (dumpStart s).rsp_rdata = s.rsp_rdata := rfl
@[simp] theorem dumpStart_cfg : (dumpStart s).cfg = s.cfg := rfl
@[simp] theorem dumpStart_port : (dumpStart s).port = s.port := rfl
@[simp] theorem dumpStart_rx : (dumpStart s).rx = s.rx := rfl
@[simp] theorem dumpStart_rxLoop : (dumpStart s).rxLoop = s.rxLoop := rfl
@[simp] theorem dumpStart_events : (dumpStart s).events = s.events := rfl
@[simp] theorem dumpStart_por : (dumpStart s).por = s.por := rfl
@[simp] theorem dumpStart_op_result : (dumpStart s).op_result = s.op_result := rfl

end dumpStartFields

section afterPointFields

variable (s : State)

@[simp] theorem afterPoint_bank : (afterPoint s).bank = s.bank := rfl
@[simp] theorem afterPoint_tar : (afterPoint s).tar = s.tar := rfl
@[simp] theorem afterPoint_sess_dead : (afterPoint s).sess_dead = s.sess_dead := rfl
@[simp] theorem afterPoint_err_code : (afterPoint s).err_code = s.err_code := rfl
@[simp] theorem afterPoint_bu_state : (afterPoint s).bu_state = s.bu_state := rfl
@[simp] theorem afterPoint_t_phase : (afterPoint s).t_phase = s.t_phase := rfl
@[simp] theorem afterPoint_t_addr : (afterPoint s).t_addr = s.t_addr := rfl
@[simp] theorem afterPoint_t_apndp : (afterPoint s).t_apndp = s.t_apndp := rfl
@[simp] theorem afterPoint_t_rnw : (afterPoint s).t_rnw = s.t_rnw := rfl
@[simp] theorem afterPoint_t_par : (afterPoint s).t_par = s.t_par := rfl
@[simp] theorem afterPoint_t_hdr : (afterPoint s).t_hdr = s.t_hdr := rfl
@[simp] theorem afterPoint_t_val : (afterPoint s).t_val = s.t_val := rfl
@[simp] theorem afterPoint_t_vpar : (afterPoint s).t_vpar = s.t_vpar := rfl
@[simp] theorem afterPoint_fd_addr : (afterPoint s).fd_addr = s.fd_addr := rfl
@[simp] theorem afterPoint_fd_image : (afterPoint s).fd_image = s.fd_image := rfl
@[simp] theorem afterPoint_fd_busy : (afterPoint s).fd_busy = s.fd_busy := rfl
@[simp] theorem afterPoint_rsp_status : (afterPoint s).rsp_status = s.rsp_status := rfl
@[simp] theorem afterPoint_rsp_rdata : (afterPoint s).rsp_rdata = s.rsp_rdata := rfl
@[simp] theorem afterPoint_cfg : (afterPoint s).cfg = s.cfg := rfl
@[simp] theorem afterPoint_port : (afterPoint s).port = s.port := rfl
@[simp] theorem afterPoint_rx : (afterPoint s).rx = s.rx := rfl
@[simp] theorem afterPoint_rxLoop : (afterPoint s).rxLoop = s.rxLoop := rfl
@[simp] theorem afterPoint_events : (afterPoint s).events = s.events := rfl
@[simp] theorem afterPoint_por : (afterPoint s).por = countdown s.por := rfl
@[simp] theorem afterPoint_op_result : (afterPoint s).op_result = s.op_result := rfl

end afterPointFields

section setPhaseFields

variable (s : State) (p : Phase)

@[simp] theorem setPhase_bank : (setPhase p s).bank = s.bank := rfl
@[simp] theorem setPhase_tar : (setPhase p s).tar = s.tar := rfl
@[simp] theorem setPhase_sess_dead : (setPhase p s).sess_dead = s.sess_dead := rfl
@[simp] theorem setPhase_err_code : (setPhase p s).err_code = s.err_code := rfl
@[simp] theorem setPhase_bu_state : (setPhase p s).bu_state = s.bu_state := rfl
@[simp] theorem setPhase_t_phase : (setPhase p s).t_phase = p := rfl
@[simp] theorem setPhase_t_addr : (setPhase p s).t_addr = s.t_addr := rfl
@[simp] theorem setPhase_t_apndp : (setPhase p s).t_apndp = s.t_apndp := rfl
@[simp] theorem setPhase_t_rnw : (setPhase p s).t_rnw = s.t_rnw := rfl
@[simp] theorem setPhase_t_par : (setPhase p s).t_par = s.t_par := rfl
@[simp] theorem setPhase_t_hdr : (setPhase p s).t_hdr = s.t_hdr := rfl
@[simp] theorem setPhase_t_val : (setPhase p s).t_val = s.t_val := rfl
@[simp] theorem setPhase_t_vpar : (setPhase p s).t_vpar = s.t_vpar := rfl
@[simp] theorem setPhase_fd_addr : (setPhase p s).fd_addr = s.fd_addr := rfl
@[simp] theorem setPhase_fd_image : (setPhase p s).fd_image = s.fd_image := rfl
@[simp] theorem setPhase_fd_busy : (setPhase p s).fd_busy = s.fd_busy := rfl
@[simp] theorem setPhase_rsp_status : (setPhase p s).rsp_status = s.rsp_status := rfl
@[simp] theorem setPhase_rsp_rdata : (setPhase p s).rsp_rdata = s.rsp_rdata := rfl
@[simp] theorem setPhase_cfg : (setPhase p s).cfg = s.cfg := rfl
@[simp] theorem setPhase_port : (setPhase p s).port = s.port := rfl
@[simp] theorem setPhase_rx : (setPhase p s).rx = s.rx := rfl
@[simp] theorem setPhase_rxLoop : (setPhase p s).rxLoop = s.rxLoop := rfl
@[simp] theorem setPhase_events : (setPhase p s).events = s.events := rfl
@[simp] theorem setPhase_por : (setPhase p s).por = s.por := rfl
@[simp] theorem setPhase_op_result : (setPhase p s).op_result = s.op_result := rfl

end setPhaseFields

section setInputsFields

variable (s : State) (apndp rnw : Bool) (a : BitVec 2)

@[simp] theorem setInputs_bank : (setInputs apndp rnw a s).bank = s.bank := rfl
@[simp] theorem setInputs_tar : (setInputs apndp rnw a s).tar = s.tar := rfl
@[simp] theorem setInputs_sess_dead : (setInputs apndp rnw a s).sess_dead = s.sess_dead := rfl
@[simp] theorem setInputs_err_code : (setInputs apndp rnw a s).err_code = s.err_code := rfl
@[simp] theorem setInputs_bu_state : (setInputs apndp rnw a s).bu_state = s.bu_state := rfl
@[simp] theorem setInputs_t_phase : (setInputs apndp rnw a s).t_phase = s.t_phase := rfl
@[simp] theorem setInputs_t_addr : (setInputs apndp rnw a s).t_addr = some a := rfl
@[simp] theorem setInputs_t_apndp : (setInputs apndp rnw a s).t_apndp = some apndp := rfl
@[simp] theorem setInputs_t_rnw : (setInputs apndp rnw a s).t_rnw = some rnw := rfl
@[simp] theorem setInputs_t_par : (setInputs apndp rnw a s).t_par = s.t_par := rfl
@[simp] theorem setInputs_t_hdr : (setInputs apndp rnw a s).t_hdr = s.t_hdr := rfl
@[simp] theorem setInputs_t_val : (setInputs apndp rnw a s).t_val = s.t_val := rfl
@[simp] theorem setInputs_t_vpar : (setInputs apndp rnw a s).t_vpar = s.t_vpar := rfl
@[simp] theorem setInputs_fd_addr : (setInputs apndp rnw a s).fd_addr = s.fd_addr := rfl
@[simp] theorem setInputs_fd_image : (setInputs apndp rnw a s).fd_image = s.fd_image := rfl
@[simp] theorem setInputs_fd_busy : (setInputs apndp rnw a s).fd_busy = s.fd_busy := rfl
@[simp] theorem setInputs_rsp_status : (setInputs apndp rnw a s).rsp_status = s.rsp_status := rfl
@[simp] theorem setInputs_rsp_rdata : (setInputs apndp rnw a s).rsp_rdata = s.rsp_rdata := rfl
@[simp] theorem setInputs_cfg : (setInputs apndp rnw a s).cfg = s.cfg := rfl
@[simp] theorem setInputs_port : (setInputs apndp rnw a s).port = s.port := rfl
@[simp] theorem setInputs_rx : (setInputs apndp rnw a s).rx = s.rx := rfl
@[simp] theorem setInputs_rxLoop : (setInputs apndp rnw a s).rxLoop = s.rxLoop := rfl
@[simp] theorem setInputs_events : (setInputs apndp rnw a s).events = s.events := rfl
@[simp] theorem setInputs_por : (setInputs apndp rnw a s).por = s.por := rfl
@[simp] theorem setInputs_op_result : (setInputs apndp rnw a s).op_result = s.op_result := rfl

end setInputsFields

section setHeaderFields

variable (s : State) (p : Bool) (h : Byte)

@[simp] theorem setHeader_bank : (setHeader p h s).bank = s.bank := rfl
@[simp] theorem setHeader_tar : (setHeader p h s).tar = s.tar := rfl
@[simp] theorem setHeader_sess_dead : (setHeader p h s).sess_dead = s.sess_dead := rfl
@[simp] theorem setHeader_err_code : (setHeader p h s).err_code = s.err_code := rfl
@[simp] theorem setHeader_bu_state : (setHeader p h s).bu_state = s.bu_state := rfl
@[simp] theorem setHeader_t_phase : (setHeader p h s).t_phase = s.t_phase := rfl
@[simp] theorem setHeader_t_addr : (setHeader p h s).t_addr = s.t_addr := rfl
@[simp] theorem setHeader_t_apndp : (setHeader p h s).t_apndp = s.t_apndp := rfl
@[simp] theorem setHeader_t_rnw : (setHeader p h s).t_rnw = s.t_rnw := rfl
@[simp] theorem setHeader_t_par : (setHeader p h s).t_par = some p := rfl
@[simp] theorem setHeader_t_hdr : (setHeader p h s).t_hdr = some h := rfl
@[simp] theorem setHeader_t_val : (setHeader p h s).t_val = s.t_val := rfl
@[simp] theorem setHeader_t_vpar : (setHeader p h s).t_vpar = s.t_vpar := rfl
@[simp] theorem setHeader_fd_addr : (setHeader p h s).fd_addr = s.fd_addr := rfl
@[simp] theorem setHeader_fd_image : (setHeader p h s).fd_image = s.fd_image := rfl
@[simp] theorem setHeader_fd_busy : (setHeader p h s).fd_busy = s.fd_busy := rfl
@[simp] theorem setHeader_rsp_status : (setHeader p h s).rsp_status = s.rsp_status := rfl
@[simp] theorem setHeader_rsp_rdata : (setHeader p h s).rsp_rdata = s.rsp_rdata := rfl
@[simp] theorem setHeader_cfg : (setHeader p h s).cfg = s.cfg := rfl
@[simp] theorem setHeader_port : (setHeader p h s).port = s.port := rfl
@[simp] theorem setHeader_rx : (setHeader p h s).rx = s.rx := rfl
@[simp] theorem setHeader_rxLoop : (setHeader p h s).rxLoop = s.rxLoop := rfl
@[simp] theorem setHeader_events : (setHeader p h s).events = s.events := rfl
@[simp] theorem setHeader_por : (setHeader p h s).por = s.por := rfl
@[simp] theorem setHeader_op_result : (setHeader p h s).op_result = s.op_result := rfl

end setHeaderFields

section setValueFields

variable (s : State) (v : Word) (p : Bool)

@[simp] theorem setValue_bank : (setValue v p s).bank = s.bank := rfl
@[simp] theorem setValue_tar : (setValue v p s).tar = s.tar := rfl
@[simp] theorem setValue_sess_dead : (setValue v p s).sess_dead = s.sess_dead := rfl
@[simp] theorem setValue_err_code : (setValue v p s).err_code = s.err_code := rfl
@[simp] theorem setValue_bu_state : (setValue v p s).bu_state = s.bu_state := rfl
@[simp] theorem setValue_t_phase : (setValue v p s).t_phase = s.t_phase := rfl
@[simp] theorem setValue_t_addr : (setValue v p s).t_addr = s.t_addr := rfl
@[simp] theorem setValue_t_apndp : (setValue v p s).t_apndp = s.t_apndp := rfl
@[simp] theorem setValue_t_rnw : (setValue v p s).t_rnw = s.t_rnw := rfl
@[simp] theorem setValue_t_par : (setValue v p s).t_par = s.t_par := rfl
@[simp] theorem setValue_t_hdr : (setValue v p s).t_hdr = s.t_hdr := rfl
@[simp] theorem setValue_t_val : (setValue v p s).t_val = some v := rfl
@[simp] theorem setValue_t_vpar : (setValue v p s).t_vpar = some p := rfl
@[simp] theorem setValue_fd_addr : (setValue v p s).fd_addr = s.fd_addr := rfl
@[simp] theorem setValue_fd_image : (setValue v p s).fd_image = s.fd_image := rfl
@[simp] theorem setValue_fd_busy : (setValue v p s).fd_busy = s.fd_busy := rfl
@[simp] theorem setValue_rsp_status : (setValue v p s).rsp_status = s.rsp_status := rfl
@[simp] theorem setValue_rsp_rdata : (setValue v p s).rsp_rdata = s.rsp_rdata := rfl
@[simp] theorem setValue_cfg : (setValue v p s).cfg = s.cfg := rfl
@[simp] theorem setValue_port : (setValue v p s).port = s.port := rfl
@[simp] theorem setValue_rx : (setValue v p s).rx = s.rx := rfl
@[simp] theorem setValue_rxLoop : (setValue v p s).rxLoop = s.rxLoop := rfl
@[simp] theorem setValue_events : (setValue v p s).events = s.events := rfl
@[simp] theorem setValue_por : (setValue v p s).por = s.por := rfl
@[simp] theorem setValue_op_result : (setValue v p s).op_result = s.op_result := rfl

end setValueFields

section setBankFields

variable (s : State) (v : Word)

@[simp] theorem setBank_bank : (setBank v s).bank = some v := rfl
@[simp] theorem setBank_tar : (setBank v s).tar = s.tar := rfl
@[simp] theorem setBank_sess_dead : (setBank v s).sess_dead = s.sess_dead := rfl
@[simp] theorem setBank_err_code : (setBank v s).err_code = s.err_code := rfl
@[simp] theorem setBank_bu_state : (setBank v s).bu_state = s.bu_state := rfl
@[simp] theorem setBank_t_phase : (setBank v s).t_phase = s.t_phase := rfl
@[simp] theorem setBank_t_addr : (setBank v s).t_addr = s.t_addr := rfl
@[simp] theorem setBank_t_apndp : (setBank v s).t_apndp = s.t_apndp := rfl
@[simp] theorem setBank_t_rnw : (setBank v s).t_rnw = s.t_rnw := rfl
@[simp] theorem setBank_t_par : (setBank v s).t_par = s.t_par := rfl
@[simp] theorem setBank_t_hdr : (setBank v s).t_hdr = s.t_hdr := rfl
@[simp] theorem setBank_t_val : (setBank v s).t_val = s.t_val := rfl
@[simp] theorem setBank_t_vpar : (setBank v s).t_vpar = s.t_vpar := rfl
@[simp] theorem setBank_fd_addr : (setBank v s).fd_addr = s.fd_addr := rfl
@[simp] theorem setBank_fd_image : (setBank v s).fd_image = s.fd_image := rfl
@[simp] theorem setBank_fd_busy : (setBank v s).fd_busy = s.fd_busy := rfl
@[simp] theorem setBank_rsp_status : (setBank v s).rsp_status = s.rsp_status := rfl
@[simp] theorem setBank_rsp_rdata : (setBank v s).rsp_rdata = s.rsp_rdata := rfl
@[simp] theorem setBank_cfg : (setBank v s).cfg = s.cfg := rfl
@[simp] theorem setBank_port : (setBank v s).port = s.port := rfl
@[simp] theorem setBank_rx : (setBank v s).rx = s.rx := rfl
@[simp] theorem setBank_rxLoop : (setBank v s).rxLoop = s.rxLoop := rfl
@[simp] theorem setBank_events : (setBank v s).events = s.events := rfl
@[simp] theorem setBank_por : (setBank v s).por = s.por := rfl
@[simp] theorem setBank_op_result : (setBank v s).op_result = s.op_result := rfl

end setBankFields

section setTarFields

variable (s : State) (v : Word)

@[simp] theorem setTar_bank : (setTar v s).bank = s.bank := rfl
@[simp] theorem setTar_tar : (setTar v s).tar = some v := rfl
@[simp] theorem setTar_sess_dead : (setTar v s).sess_dead = s.sess_dead := rfl
@[simp] theorem setTar_err_code : (setTar v s).err_code = s.err_code := rfl
@[simp] theorem setTar_bu_state : (setTar v s).bu_state = s.bu_state := rfl
@[simp] theorem setTar_t_phase : (setTar v s).t_phase = s.t_phase := rfl
@[simp] theorem setTar_t_addr : (setTar v s).t_addr = s.t_addr := rfl
@[simp] theorem setTar_t_apndp : (setTar v s).t_apndp = s.t_apndp := rfl
@[simp] theorem setTar_t_rnw : (setTar v s).t_rnw = s.t_rnw := rfl
@[simp] theorem setTar_t_par : (setTar v s).t_par = s.t_par := rfl
@[simp] theorem setTar_t_hdr : (setTar v s).t_hdr = s.t_hdr := rfl
@[simp] theorem setTar_t_val : (setTar v s).t_val = s.t_val := rfl
@[simp] theorem setTar_t_vpar : (setTar v s).t_vpar = s.t_vpar := rfl
@[simp] theorem setTar_fd_addr : (setTar v s).fd_addr = s.fd_addr := rfl
@[simp] theorem setTar_fd_image : (setTar v s).fd_image = s.fd_image := rfl
@[simp] theorem setTar_fd_busy : (setTar v s).fd_busy = s.fd_busy := rfl
@[simp] theorem setTar_rsp_status : (setTar v s).rsp_status = s.rsp_status := rfl
@[simp] theorem setTar_rsp_rdata : (setTar v s).rsp_rdata = s.rsp_rdata := rfl
@[simp] theorem setTar_cfg : (setTar v s).cfg = s.cfg := rfl
@[simp] theorem setTar_port : (setTar v s).port = s.port := rfl
@[simp] theorem setTar_rx : (setTar v s).rx = s.rx := rfl
@[simp] theorem setTar_rxLoop : (setTar v s).rxLoop = s.rxLoop := rfl
@[simp] theorem setTar_events : (setTar v s).events = s.events := rfl
@[simp] theorem setTar_por : (setTar v s).por = s.por := rfl
@[simp] theorem setTar_op_result : (setTar v s).op_result = s.op_result := rfl

end setTarFields

section setBuFields

variable (s : State) (x : BuState)

@[simp] theorem setBu_bank : (setBu x s).bank = s.bank := rfl
@[simp] theorem setBu_tar : (setBu x s).tar = s.tar := rfl
@[simp] theorem setBu_sess_dead : (setBu x s).sess_dead = s.sess_dead := rfl
@[simp] theorem setBu_err_code : (setBu x s).err_code = s.err_code := rfl
@[simp] theorem setBu_bu_state : (setBu x s).bu_state = x := rfl
@[simp] theorem setBu_t_phase : (setBu x s).t_phase = s.t_phase := rfl
@[simp] theorem setBu_t_addr : (setBu x s).t_addr = s.t_addr := rfl
@[simp] theorem setBu_t_apndp : (setBu x s).t_apndp = s.t_apndp := rfl
@[simp] theorem setBu_t_rnw : (setBu x s).t_rnw = s.t_rnw := rfl
@[simp] theorem setBu_t_par : (setBu x s).t_par = s.t_par := rfl
@[simp] theorem setBu_t_hdr : (setBu x s).t_hdr = s.t_hdr := rfl
@[simp] theorem setBu_t_val : (setBu x s).t_val = s.t_val := rfl
@[simp] theorem setBu_t_vpar : (setBu x s).t_vpar = s.t_vpar := rfl
@[simp] theorem setBu_fd_addr : (setBu x s).fd_addr = s.fd_addr := rfl
@[simp] theorem setBu_fd_image : (setBu x s).fd_image = s.fd_image := rfl
@[simp] theorem setBu_fd_busy : (setBu x s).fd_busy = s.fd_busy := rfl
@[simp] theorem setBu_rsp_status : (setBu x s).rsp_status = s.rsp_status := rfl
@[simp] theorem setBu_rsp_rdata : (setBu x s).rsp_rdata = s.rsp_rdata := rfl
@[simp] theorem setBu_cfg : (setBu x s).cfg = s.cfg := rfl
@[simp] theorem setBu_port : (setBu x s).port = s.port := rfl
@[simp] theorem setBu_rx : (setBu x s).rx = s.rx := rfl
@[simp] theorem setBu_rxLoop : (setBu x s).rxLoop = s.rxLoop := rfl
@[simp] theorem setBu_events : (setBu x s).events = s.events := rfl
@[simp] theorem setBu_por : (setBu x s).por = s.por := rfl
@[simp] theorem setBu_op_result : (setBu x s).op_result = s.op_result := rfl

end setBuFields

section ranFields

variable (s : State) (es : List Event) (rx : List RxItem)

@[simp] theorem ran_bank : (ran es rx s).bank = s.bank := rfl
@[simp] theorem ran_tar : (ran es rx s).tar = s.tar := rfl
@[simp] theorem ran_sess_dead : (ran es rx s).sess_dead = s.sess_dead := rfl
@[simp] theorem ran_err_code : (ran es rx s).err_code = s.err_code := rfl
@[simp] theorem ran_bu_state : (ran es rx s).bu_state = s.bu_state := rfl
@[simp] theorem ran_t_phase : (ran es rx s).t_phase = s.t_phase := rfl
@[simp] theorem ran_t_addr : (ran es rx s).t_addr = s.t_addr := rfl
@[simp] theorem ran_t_apndp : (ran es rx s).t_apndp = s.t_apndp := rfl
@[simp] theorem ran_t_rnw : (ran es rx s).t_rnw = s.t_rnw := rfl
@[simp] theorem ran_t_par : (ran es rx s).t_par = s.t_par := rfl
@[simp] theorem ran_t_hdr : (ran es rx s).t_hdr = s.t_hdr := rfl
@[simp] theorem ran_t_val : (ran es rx s).t_val = s.t_val := rfl
@[simp] theorem ran_t_vpar : (ran es rx s).t_vpar = s.t_vpar := rfl
@[simp] theorem ran_fd_addr : (ran es rx s).fd_addr = s.fd_addr := rfl
@[simp] theorem ran_fd_image : (ran es rx s).fd_image = s.fd_image := rfl
@[simp] theorem ran_fd_busy : (ran es rx s).fd_busy = s.fd_busy := rfl
@[simp] theorem ran_rsp_status : (ran es rx s).rsp_status = s.rsp_status := rfl
@[simp] theorem ran_rsp_rdata : (ran es rx s).rsp_rdata = s.rsp_rdata := rfl
@[simp] theorem ran_cfg : (ran es rx s).cfg = s.cfg := rfl
@[simp] theorem ran_port : (ran es rx s).port = s.port := rfl
@[simp] theorem ran_rx : (ran es rx s).rx = rx := rfl
@[simp] theorem ran_rxLoop : (ran es rx s).rxLoop = s.rxLoop := rfl
@[simp] theorem ran_events : (ran es rx s).events = s.events ++ es := rfl
@[simp] theorem ran_por : (ran es rx s).por = s.por := rfl
@[simp] theorem ran_op_result : (ran es rx s).op_result = s.op_result := rfl

end ranFields

section setResultFields

variable (s : State) (r : Option OpResult)

@[simp] theorem setResult_bank : (setResult r s).bank = s.bank := rfl
@[simp] theorem setResult_tar : (setResult r s).tar = s.tar := rfl
@[simp] theorem setResult_sess_dead : (setResult r s).sess_dead = s.sess_dead := rfl
@[simp] theorem setResult_err_code : (setResult r s).err_code = s.err_code := rfl
@[simp] theorem setResult_bu_state : (setResult r s).bu_state = s.bu_state := rfl
@[simp] theorem setResult_t_phase : (setResult r s).t_phase = s.t_phase := rfl
@[simp] theorem setResult_t_addr : (setResult r s).t_addr = s.t_addr := rfl
@[simp] theorem setResult_t_apndp : (setResult r s).t_apndp = s.t_apndp := rfl
@[simp] theorem setResult_t_rnw : (setResult r s).t_rnw = s.t_rnw := rfl
@[simp] theorem setResult_t_par : (setResult r s).t_par = s.t_par := rfl
@[simp] theorem setResult_t_hdr : (setResult r s).t_hdr = s.t_hdr := rfl
@[simp] theorem setResult_t_val : (setResult r s).t_val = s.t_val := rfl
@[simp] theorem setResult_t_vpar : (setResult r s).t_vpar = s.t_vpar := rfl
@[simp] theorem setResult_fd_addr : (setResult r s).fd_addr = s.fd_addr := rfl
@[simp] theorem setResult_fd_image : (setResult r s).fd_image = s.fd_image := rfl
@[simp] theorem setResult_fd_busy : (setResult r s).fd_busy = s.fd_busy := rfl
@[simp] theorem setResult_rsp_status : (setResult r s).rsp_status = s.rsp_status := rfl
@[simp] theorem setResult_rsp_rdata : (setResult r s).rsp_rdata = s.rsp_rdata := rfl
@[simp] theorem setResult_cfg : (setResult r s).cfg = s.cfg := rfl
@[simp] theorem setResult_port : (setResult r s).port = s.port := rfl
@[simp] theorem setResult_rx : (setResult r s).rx = s.rx := rfl
@[simp] theorem setResult_rxLoop : (setResult r s).rxLoop = s.rxLoop := rfl
@[simp] theorem setResult_events : (setResult r s).events = s.events := rfl
@[simp] theorem setResult_por : (setResult r s).por = s.por := rfl
@[simp] theorem setResult_op_result : (setResult r s).op_result = r := rfl

end setResultFields

section takenFields

variable (s : State) (rest : List Frame)

@[simp] theorem taken_bank : (taken rest s).bank = s.bank := rfl
@[simp] theorem taken_tar : (taken rest s).tar = s.tar := rfl
@[simp] theorem taken_sess_dead : (taken rest s).sess_dead = s.sess_dead := rfl
@[simp] theorem taken_err_code : (taken rest s).err_code = s.err_code := rfl
@[simp] theorem taken_bu_state : (taken rest s).bu_state = s.bu_state := rfl
@[simp] theorem taken_t_phase : (taken rest s).t_phase = s.t_phase := rfl
@[simp] theorem taken_t_addr : (taken rest s).t_addr = s.t_addr := rfl
@[simp] theorem taken_t_apndp : (taken rest s).t_apndp = s.t_apndp := rfl
@[simp] theorem taken_t_rnw : (taken rest s).t_rnw = s.t_rnw := rfl
@[simp] theorem taken_t_par : (taken rest s).t_par = s.t_par := rfl
@[simp] theorem taken_t_hdr : (taken rest s).t_hdr = s.t_hdr := rfl
@[simp] theorem taken_t_val : (taken rest s).t_val = s.t_val := rfl
@[simp] theorem taken_t_vpar : (taken rest s).t_vpar = s.t_vpar := rfl
@[simp] theorem taken_fd_addr : (taken rest s).fd_addr = s.fd_addr := rfl
@[simp] theorem taken_fd_image : (taken rest s).fd_image = s.fd_image := rfl
@[simp] theorem taken_fd_busy : (taken rest s).fd_busy = s.fd_busy := rfl
@[simp] theorem taken_rsp_status : (taken rest s).rsp_status = s.rsp_status := rfl
@[simp] theorem taken_rsp_rdata : (taken rest s).rsp_rdata = s.rsp_rdata := rfl
@[simp] theorem taken_cfg : (taken rest s).cfg = s.cfg := rfl
@[simp] theorem taken_port : (taken rest s).port = rest := rfl
@[simp] theorem taken_rx : (taken rest s).rx = s.rx := rfl
@[simp] theorem taken_rxLoop : (taken rest s).rxLoop = s.rxLoop := rfl
@[simp] theorem taken_events : (taken rest s).events = s.events := rfl
@[simp] theorem taken_por : (taken rest s).por = s.por := rfl
@[simp] theorem taken_op_result : (taken rest s).op_result = s.op_result := rfl

end takenFields

section presentFields

variable (s : State) (f : Frame)

@[simp] theorem present_bank : (present f s).bank = s.bank := rfl
@[simp] theorem present_tar : (present f s).tar = s.tar := rfl
@[simp] theorem present_sess_dead : (present f s).sess_dead = s.sess_dead := rfl
@[simp] theorem present_err_code : (present f s).err_code = s.err_code := rfl
@[simp] theorem present_bu_state : (present f s).bu_state = s.bu_state := rfl
@[simp] theorem present_t_phase : (present f s).t_phase = s.t_phase := rfl
@[simp] theorem present_t_addr : (present f s).t_addr = s.t_addr := rfl
@[simp] theorem present_t_apndp : (present f s).t_apndp = s.t_apndp := rfl
@[simp] theorem present_t_rnw : (present f s).t_rnw = s.t_rnw := rfl
@[simp] theorem present_t_par : (present f s).t_par = s.t_par := rfl
@[simp] theorem present_t_hdr : (present f s).t_hdr = s.t_hdr := rfl
@[simp] theorem present_t_val : (present f s).t_val = s.t_val := rfl
@[simp] theorem present_t_vpar : (present f s).t_vpar = s.t_vpar := rfl
@[simp] theorem present_fd_addr : (present f s).fd_addr = s.fd_addr := rfl
@[simp] theorem present_fd_image : (present f s).fd_image = s.fd_image := rfl
@[simp] theorem present_fd_busy : (present f s).fd_busy = false := rfl
@[simp] theorem present_rsp_status : (present f s).rsp_status = s.rsp_status := rfl
@[simp] theorem present_rsp_rdata : (present f s).rsp_rdata = s.rsp_rdata := rfl
@[simp] theorem present_cfg : (present f s).cfg = s.cfg := rfl
@[simp] theorem present_port : (present f s).port = f :: s.port := rfl
@[simp] theorem present_rx : (present f s).rx = s.rx := rfl
@[simp] theorem present_rxLoop : (present f s).rxLoop = s.rxLoop := rfl
@[simp] theorem present_events : (present f s).events = s.events := rfl
@[simp] theorem present_por : (present f s).por = [] := rfl
@[simp] theorem present_op_result : (present f s).op_result = s.op_result := rfl

end presentFields

/-- Two runs of events are one. -/
theorem ran_ran (es fs : List Event) (rx rx' : List RxItem) (s : State) :
    ran fs rx' (ran es rx s) = ran (es ++ fs) rx' s := by
  simp [ran]

/-- Power-on reset leaves the registers of `State.reset`; the parameters, the outside and the later resets stay. -/
theorem powerOnReset_eq_reset (s : State) :
    powerOnReset s = { State.reset with
      cfg := s.cfg, port := s.port, rx := s.rx, rxLoop := s.rxLoop, events := s.events,
      por := s.por.tail } := rfl

/-- A state at rest is unchanged by discarding the latches. -/
theorem clearLatches_of_atRest {s : State} (h : AtRest s) : clearLatches s = s := by
  obtain ⟨h1, h2, h3, h4, h5, h6, h7, h8⟩ := h
  cases s
  simp_all [clearLatches]

/-- Discarding the latches leaves a state at rest. -/
theorem atRest_clearLatches (s : State) : AtRest (clearLatches s) := ⟨rfl, rfl, rfl, rfl, rfl, rfl, rfl, rfl⟩

end Sys2Proof.Machine
end

