-- ==== Sys2Proof/Laws/Ops.lean ====
section
/-! SUPPORT. What each shared operation of Machine/Ops.lean can do, said once: how a sequence comes back, when
power-on reset lands, what `Recv` delivers, and the run of each operation when the transport answers. -/

namespace Sys2Proof.Machine

/-! ## Sequencing -/

@[simp] theorem ret_apply {α : Type} (a : α) (s : State) : ret a s = .done a s := rfl

@[simp] theorem look_apply {α : Type} (f : State → α) (s : State) : look f s = .done (f s) s := rfl

@[simp] theorem modify_apply (f : State → State) (s : State) : modify f s = .done () (f s) := rfl

@[simp] theorem raise_apply {α : Type} (e : ErrorKind) (s : State) : (raise e : Op α) s = .ended (raised e s) := rfl

@[simp] theorem record_apply (e : Event) (s : State) :
    record e s = .done () (ran [e] s.rx s) := rfl

theorem latched_some {α : Type} {f : State → Option α} {s : State} {a : α} (h : f s = some a) :
    latched f s = .done a s := by simp [latched, h]

theorem andThen_of_done {α β : Type} {m : Op α} {f : α → Op β} {s s' : State} {a : α} (h : m s = .done a s') :
    andThen m f s = f a s' := by simp [andThen, h]

theorem andThen_of_ended {α β : Type} {m : Op α} {f : α → Op β} {s s' : State} (h : m s = .ended s') :
    andThen m f s = .ended s' := by simp [andThen, h]

/-- A sequence has a result exactly where both parts have. -/
theorem andThen_eq_done {α β : Type} {m : Op α} {f : α → Op β} {s t : State} {b : β} :
    andThen m f s = .done b t ↔ ∃ a u, m s = .done a u ∧ f a u = .done b t := by
  unfold andThen
  cases h : m s <;> simp

/-- A sequence ends where its first part ends, or its second after the first. -/
theorem andThen_eq_ended {α β : Type} {m : Op α} {f : α → Op β} {s t : State} :
    andThen m f s = .ended t ↔ m s = .ended t ∨ ∃ a u, m s = .done a u ∧ f a u = .ended t := by
  unfold andThen
  cases h : m s <;> simp

/-- A sequence stops the model where one of its parts does. -/
theorem andThen_eq_halted {α β : Type} {m : Op α} {f : α → Op β} {s : State} {h : Halt} :
    andThen m f s = .halted h ↔ m s = .halted h ∨ ∃ a u, m s = .done a u ∧ f a u = .halted h := by
  unfold andThen
  cases hm : m s <;> simp

/-! ## The response port -/

@[simp] theorem responseWord_respond (r : Option Word) (s : State) : responseWord (respond r s) = r := rfl

@[simp] theorem responseWord_refuse (s : State) : responseWord (refuse s) = none := rfl

@[simp] theorem responseWord_raised (e : ErrorKind) (s : State) : responseWord (raised e s) = none := rfl

@[simp] theorem responseWord_sessionStart (s : State) : responseWord (sessionStart s) = none := rfl

@[simp] theorem responseWord_powerOnReset (s : State) : responseWord (powerOnReset s) = none := rfl

/-! ## The transport port -/

/-- The resets to come, the first of them perhaps nearer: `p` stands where `q` stood some points before. -/
structure SameResets (p q : List Nat) : Prop where
  nil_iff : p = [] ↔ q = []
  later : p.tail = q.tail

theorem SameResets.refl (p : List Nat) : SameResets p p := ⟨Iff.rfl, rfl⟩

theorem SameResets.trans {p q r : List Nat} (h : SameResets p q) (h' : SameResets q r) : SameResets p r :=
  ⟨h.nil_iff.trans h'.nil_iff, h.later.trans h'.later⟩

theorem sameResets_countdown (p : List Nat) : SameResets (countdown p) p := by
  cases p <;> exact ⟨by simp [countdown], rfl⟩

/-- With no power-on reset to come, a point passes without effect. -/
theorem afterPoint_noReset {s : State} (h : s.por = []) : afterPoint s = s := by
  cases s
  simp_all [afterPoint, countdown]

theorem tick_noReset {s : State} (h : s.por = []) : tick s = .done () s := by
  simp [tick, h, afterPoint_noReset h]

/-- A point at which power-on reset can land: it lands, or the countdown goes on. -/
theorem tick_cases (s : State) :
    (s.por.head? = some 0 ∧ tick s = .ended (powerOnReset s)) ∨ (s.por.head? ≠ some 0 ∧ tick s = .done () (afterPoint s)) := by
  by_cases h : s.por.head? = some 0
  · left; simp [tick, h]
  · right; simp [tick, h]

theorem send_noReset {s : State} (toks : List Token) (h : s.por = []) :
    send toks s = .done () (ran [.send toks] s.rx s) := by
  simp [send, andThen_of_done (tick_noReset h)]

theorem flush_noReset {s : State} (h : s.por = []) :
    flush s = .done () (ran [.flush] s.rx s) := by
  simp [flush, andThen_of_done (tick_noReset h)]

@[simp] theorem delivered_nil : delivered [] = [] := rfl

theorem delivered_append (us vs : List Byte) : delivered (us ++ vs) = delivered us ++ delivered vs := by
  simp [delivered]

/-- Units in the script are delivered in order. -/
theorem takeUnits_delivered (us : List Byte) (rest loop : List RxItem) :
    takeUnits us.length (delivered us ++ rest) loop = (some us, rest) := by
  induction us with
  | nil => rfl
  | cons u us ih => simp [takeUnits, nextRx, delivered] at ih ⊢; rw [ih]

/-- The time limit runs out before enough units: no delivery at all. -/
theorem takeUnits_timeLimit (us : List Byte) (rest loop : List RxItem) (n : Nat) (h : us.length < n) :
    takeUnits n (delivered us ++ .timeLimit :: rest) loop = (none, rest) := by
  induction us generalizing n with
  | nil =>
    cases n with
    | zero => simp at h
    | succ n => rfl
  | cons u us ih =>
    cases n with
    | zero => simp at h
    | succ n =>
      have := ih n (by simpa using h)
      simp [takeUnits, nextRx, delivered] at this ⊢
      rw [this]

/-- A delivery has exactly the units asked for (20_memory.md R63). -/
theorem takeUnits_length {n : Nat} {rx loop : List RxItem} {us : List Byte}
    (h : (takeUnits n rx loop).1 = some us) : us.length = n := by
  induction n generalizing rx us with
  | zero => simp [takeUnits] at h; simp [← h]
  | succ n ih =>
    unfold takeUnits at h
    split at h
    · simp at h
    · simp at h
    · rename_i u rest _
      have key := @ih rest
      revert h key
      cases takeUnits n rest loop with
      | mk o r =>
        cases o with
        | none => simp
        | some vs =>
          intro h key
          simp at h
          subst h
          simp [key rfl]

/-- `Recv(n)` when no reset lands: the delivery, and the event that records it. -/
theorem recv_noReset {s : State} (n : Nat) (h : s.por = []) :
    recv n s = .done (takeUnits n s.rx s.rxLoop).1
      (ran [.recv n (takeUnits n s.rx s.rxLoop).1] (takeUnits n s.rx s.rxLoop).2 s) := by
  simp [recv, andThen_of_done (tick_noReset h)]

/-- Units that are there are awaited with success. -/
theorem await_delivered {s : State} {us : List Byte} {rest : List RxItem} {n : Nat} (h : s.por = [])
    (hn : us.length = n) (hrx : s.rx = delivered us ++ rest) :
    await n s = .done us (ran [.recv n (some us)] rest s) := by
  subst hn
  simp [await, andThen_of_done (recv_noReset us.length h), hrx, takeUnits_delivered]

/-- The time limit runs out: `Timeout`, at the `Recv` that timed out (43_transaction_codec.md R148). -/
theorem await_timeLimit {s : State} {us : List Byte} {rest : List RxItem} {n : Nat} (h : s.por = [])
    (hn : us.length < n) (hrx : s.rx = delivered us ++ .timeLimit :: rest) :
    await n s = .ended (raised .timeout (ran [.recv n none] rest s)) := by
  simp [await, andThen_of_done (recv_noReset n h), hrx, takeUnits_timeLimit us rest s.rxLoop n hn]

/-- Confirmations that are there are consumed, whatever their values (43_transaction_codec.md R143). -/
theorem awaitConf_delivered {s : State} {us : List Byte} {rest : List RxItem} {n : Nat} (h : s.por = [])
    (hn : us.length = n) (hrx : s.rx = delivered us ++ rest) :
    awaitConf n s = .done () (ran (confEvents us) rest s) := by
  subst hn
  unfold awaitConf confEvents
  by_cases h0 : us.length = 0
  · have : us = [] := List.eq_nil_of_length_eq_zero h0
    subst this
    simp at hrx
    simp [← hrx, ran]
  · simp only [h0, if_false]
    rw [andThen_of_done (flush_noReset h)]
    rw [andThen_of_done (await_delivered (us := us) (rest := rest) (by simpa using h) rfl (by simpa using hrx))]
    simp [ran_ran]

end Sys2Proof.Machine
end

