-- ==== Sys2Proof/Laws/Transaction.lean ====
section
/-! SUPPORT. What each phase and each transaction does when the transport answers as the protocol wants
(43_transaction_codec.md R141 to R152): the frame in `events`, the units consumed, the result. -/

namespace Sys2Proof.Machine

/-- A usable session at rest may start a transaction. -/
theorem requireIdle_ok {s : State} (h : s.sess_dead = false) (hp : s.t_phase = .idle) :
    requireIdle s = .done () s := by simp [requireIdle, h, hp]

/-- In a dead session no transaction is started (10_state.md R24). -/
theorem requireIdle_dead {s : State} (h : s.sess_dead = true) : requireIdle s = .ended s := by simp [requireIdle, h]

/-- Phase `T_HDR` answered (R141). -/
theorem phaseHdr_good {s : State} {a : BitVec 2} {apndp rnw : Bool} {conf : List Byte} {rest : List RxItem}
    (hpor : s.por = []) (ha : s.t_addr = some a) (hap : s.t_apndp = some apndp) (hrw : s.t_rnw = some rnw)
    (hc : conf.length = 2) (hrx : s.rx = delivered conf ++ rest) :
    phaseHdr s = .done ()
      (ran [.send [.wr 1, .byte (wireByte a apndp rnw)], .flush, .recv 2 (some conf)] rest
        (setHeader (hpar a apndp rnw) (header a apndp rnw) (setPhase .hdr s))) := by
  unfold phaseHdr enterPhase
  rw [andThen_of_done (modify_apply _ s), andThen_of_done (latched_some (by simpa using ha)),
    andThen_of_done (latched_some (by simpa using hap)), andThen_of_done (latched_some (by simpa using hrw)),
    andThen_of_done (modify_apply _ _), andThen_of_done (send_noReset _ (by simpa using hpor)),
    andThen_of_done (flush_noReset (by simpa using hpor)),
    andThen_of_done (await_delivered (n := Config.hdrConf) (us := conf) (rest := rest) (by simpa using hpor) hc
      (by simpa using hrx))]
  simp [ran_ran, Config.hdrConf]

/-- Phase `T_ACK` answered with the one accepted triple (R142). -/
theorem phaseAck_good {s : State} {rest : List RxItem} (hpor : s.por = [])
    (hrx : s.rx = delivered [0x01#8, 0x00#8, 0x00#8] ++ rest) :
    phaseAck s = .done ()
      (ran [.send [.rdbit, .rdbit, .rdbit], .flush, .recv 3 (some [0x01#8, 0x00#8, 0x00#8])] rest
        (setPhase .ack s)) := by
  unfold phaseAck enterPhase
  rw [andThen_of_done (modify_apply _ s), andThen_of_done (send_noReset _ (by simpa using hpor)),
    andThen_of_done (flush_noReset (by simpa using hpor)),
    andThen_of_done (await_delivered (n := 3) (us := [0x01#8, 0x00#8, 0x00#8]) (rest := rest)
      (by simpa using hpor) rfl (by simpa using hrx))]
  simp [ran_ran, ackOk, Config.ackOk]

/-- Phase `T_ACK` answered with another triple: `AckMismatch`, and nothing more is sent (R142). -/
theorem phaseAck_mismatch {s : State} {us : List Byte} {rest : List RxItem} (hpor : s.por = [])
    (hn : us.length = 3) (hbad : us ≠ [0x01#8, 0x00#8, 0x00#8]) (hrx : s.rx = delivered us ++ rest) :
    phaseAck s = .ended (raised .ackMismatch
      (ran [.send [.rdbit, .rdbit, .rdbit], .flush, .recv 3 (some us)] rest (setPhase .ack s))) := by
  unfold phaseAck enterPhase
  rw [andThen_of_done (modify_apply _ s), andThen_of_done (send_noReset _ (by simpa using hpor)),
    andThen_of_done (flush_noReset (by simpa using hpor)),
    andThen_of_done (await_delivered (n := 3) (us := us) (rest := rest) (by simpa using hpor) hn
      (by simpa using hrx))]
  simp [ran_ran, ackOk, Config.ackOk, hbad]

/-- Phase `T_TRN` answered (R144). -/
theorem phaseTrn_good {s : State} {turn : List Byte} {rest : List RxItem} (hpor : s.por = [])
    (ht : turn.length = s.cfg.trnConf) (hrx : s.rx = delivered turn ++ rest) :
    phaseTrn s = .done () (ran (.send [.clk] :: confEvents turn) rest (setPhase .trn s)) := by
  unfold phaseTrn enterPhase
  rw [andThen_of_done (modify_apply _ s), andThen_of_done (send_noReset _ (by simpa using hpor)),
    andThen_of_done (look_apply _ _),
    awaitConf_delivered (us := turn) (rest := rest) (by simpa using hpor) (by simpa using ht) (by simpa using hrx)]
  simp [ran_ran]

@[simp] theorem wordBytes_length (w : Word) : (wordBytes w).length = 4 := rfl

/-- The bytes of a word, assembled again, are the word (20_memory.md R56). -/
theorem wordOfUnits_wordBytes (w : Word) : wordOfUnits (wordBytes w) = w := by
  simp only [wordOfUnits, wordBytes, List.getD_cons_zero, List.getD_cons_succ]
  apply BitVec.eq_of_getLsbD_eq
  intro i hi
  simp only [BitVec.getLsbD_append, BitVec.getLsbD_extractLsb']
  by_cases h1 : i < 8
  · simp [h1]
  · by_cases h2 : i - 8 < 8
    · simp [h1, h2]; congr 1; omega
    · by_cases h3 : i - 8 - 8 < 8
      · simp [h1, h2, h3]; congr 1; omega
      · have h4 : 24 + (i - 8 - 8 - 8) = i := by omega
        simp [h1, h2, h3, h4]
        omega

/-- Phases `T_DATA` and `T_TAIL` of a read answered with a word and its parity (R145). -/
theorem phaseRead_good {s : State} {w : Word} {fin : List Byte} {rest : List RxItem} (hpor : s.por = [])
    (hf : fin.length = s.cfg.rdIdleConf)
    (hrx : s.rx = delivered (wordBytes w) ++ (delivered [parityUnit w] ++ (delivered fin ++ rest))) :
    phaseRead s = .done w
      (ran ([.send [.rdbyte, .rdbyte, .rdbyte, .rdbyte, .rdbit], .flush, .recv 4 (some (wordBytes w)),
             .recv 1 (some [parityUnit w]), .send [.clk]] ++ confEvents fin) rest
        (setPhase .tail (setValue w ((parityUnit w).getLsbD 0) (setPhase .data s)))) := by
  unfold phaseRead enterPhase
  rw [andThen_of_done (modify_apply _ s), andThen_of_done (send_noReset _ (by simpa using hpor)),
    andThen_of_done (flush_noReset (by simpa using hpor)),
    andThen_of_done (await_delivered (n := 4) (us := wordBytes w)
      (rest := delivered [parityUnit w] ++ (delivered fin ++ rest)) (by simpa using hpor) rfl (by simpa using hrx)),
    andThen_of_done (await_delivered (n := 1) (us := [parityUnit w]) (rest := delivered fin ++ rest)
      (by simpa using hpor) rfl (by simp)),
    andThen_of_done (modify_apply _ _)]
  simp only [wordOfUnits_wordBytes, beq_self_eq_true, if_true]
  rw [andThen_of_done (modify_apply _ _), andThen_of_done (send_noReset _ (by simpa using hpor)),
    andThen_of_done (look_apply _ _),
    andThen_of_done (awaitConf_delivered (us := fin) (rest := rest) (by simpa using hpor) (by simpa using hf)
      (by simp))]
  simp [ran, setPhase, setValue]

/-- Phase `T_DATA` of a write answered (R146). -/
theorem phaseWrite_good {s : State} {v : Word} {p : Bool} {fin : List Byte} {rest : List RxItem}
    (hpor : s.por = []) (hv : s.t_val = some v) (hp : s.t_vpar = some p) (hf : fin.length = 2)
    (hrx : s.rx = delivered fin ++ rest) :
    phaseWrite s = .done ()
      (ran [.send (.wr 4 :: (wordBytes v).map .byte ++ [parityToken p]), .flush, .recv 2 (some fin)] rest
        (setPhase .data s)) := by
  unfold phaseWrite enterPhase
  rw [andThen_of_done (modify_apply _ s), andThen_of_done (latched_some (by simpa using hv)),
    andThen_of_done (latched_some (by simpa using hp)), andThen_of_done (send_noReset _ (by simpa using hpor)),
    andThen_of_done (flush_noReset (by simpa using hpor)),
    andThen_of_done (await_delivered (n := Config.wrConf) (us := fin) (rest := rest) (by simpa using hpor) hf
      (by simpa using hrx))]
  simp [ran_ran, Config.wrConf]

/-- `SWDRD` answered as the protocol wants (R150): the frame of 30_encoding.md R86 and the word, latches discarded. -/
theorem swdrd_good {s : State} {apndp : Bool} {a : BitVec 2} {r : Reply} {rest : List RxItem}
    (halive : s.sess_dead = false) (hidle : s.t_phase = .idle) (hpor : s.por = [])
    (hfit : replyFits s.cfg (.read apndp a, r)) (hrx : s.rx = delivered (replyUnits (.read apndp a, r)) ++ rest) :
    swdrd apndp a s = .done r.word (ran (frameEvents (.read apndp a, r)) rest (clearLatches s)) := by
  obtain ⟨hc, ht, hf⟩ := hfit
  unfold swdrd
  rw [andThen_of_done (requireIdle_ok halive hidle), andThen_of_done (modify_apply _ _),
    andThen_of_done (phaseHdr_good (a := a) (apndp := apndp) (rnw := true) (conf := r.conf)
      (rest := delivered [0x01#8, 0x00#8, 0x00#8] ++ (delivered r.turn ++ (delivered (wordBytes r.word) ++
        (delivered [parityUnit r.word] ++ (delivered r.fin ++ rest)))))
      (by simpa using hpor) rfl rfl rfl hc
      (by simpa [replyUnits, delivered] using hrx)),
    andThen_of_done (phaseAck_good (by simpa using hpor) rfl),
    andThen_of_done (phaseTrn_good (turn := r.turn) (by simpa using hpor) (by simpa using ht) rfl),
    andThen_of_done (phaseRead_good (w := r.word) (fin := r.fin) (by simpa using hpor) (by simpa using hf) rfl),
    andThen_of_done (modify_apply _ _)]
  simp [ran, setPhase, setValue, setHeader, setInputs, clearLatches, frameEvents, openingEvents]

/-- `SWDWR` answered as the protocol wants (R151): the frame of 30_encoding.md R87, latches discarded. -/
theorem swdwr_good {s : State} {apndp : Bool} {a : BitVec 2} {v : Word} {r : Reply} {rest : List RxItem}
    (halive : s.sess_dead = false) (hidle : s.t_phase = .idle) (hpor : s.por = [])
    (hfit : replyFits s.cfg (.write apndp a v, r)) (hrx : s.rx = delivered (replyUnits (.write apndp a v, r)) ++ rest) :
    swdwr apndp a v s = .done () (ran (frameEvents (.write apndp a v, r)) rest (clearLatches s)) := by
  obtain ⟨hc, ht, hf⟩ := hfit
  unfold swdwr
  rw [andThen_of_done (requireIdle_ok halive hidle), andThen_of_done (modify_apply _ _),
    andThen_of_done (modify_apply _ _),
    andThen_of_done (phaseHdr_good (a := a) (apndp := apndp) (rnw := false) (conf := r.conf)
      (rest := delivered [0x01#8, 0x00#8, 0x00#8] ++ (delivered r.turn ++ (delivered r.fin ++ rest)))
      (by simpa using hpor) rfl rfl rfl hc
      (by simpa [replyUnits, delivered] using hrx)),
    andThen_of_done (phaseAck_good (by simpa using hpor) rfl),
    andThen_of_done (phaseTrn_good (turn := r.turn) (by simpa using hpor) (by simpa using ht) rfl),
    andThen_of_done (phaseWrite_good (v := v) (p := wpar v) (fin := r.fin) (by simpa using hpor) rfl rfl hf rfl)]
  simp [ran, setPhase, setValue, setHeader, setInputs, clearLatches, frameEvents, openingEvents, wordBytes,
    parityToken]

/-- `RAWSEND` of a non-empty string answered (R152). -/
theorem rawSend_good {s : State} {bytes conf : List Byte} {rest : List RxItem} (hb : bytes ≠ [])
    (halive : s.sess_dead = false) (hidle : s.t_phase = .idle) (hpor : s.por = [])
    (hc : conf.length = s.cfg.rawConf) (hrx : s.rx = delivered conf ++ rest) :
    rawSend bytes s =
      .done () (ran (.send (.wr bytes.length :: bytes.map .byte) :: confEvents conf) rest s) := by
  unfold rawSend
  rw [andThen_of_done (requireIdle_ok halive hidle)]
  simp only [List.isEmpty_iff, hb, if_false]
  rw [andThen_of_done (send_noReset _ hpor), andThen_of_done (look_apply _ _),
    awaitConf_delivered (us := conf) (rest := rest) (by simpa using hpor) (by simpa using hc) (by simpa using hrx)]
  simp [ran_ran]

/-- `RAWSEND` of the empty string is no event at all (R152). -/
theorem rawSend_nil {s : State} (halive : s.sess_dead = false) (hidle : s.t_phase = .idle) :
    rawSend [] s = .done () s := by
  unfold rawSend
  rw [andThen_of_done (requireIdle_ok halive hidle)]
  simp

end Sys2Proof.Machine
end

