-- ==== Sys2Proof/Laws/Router.lean ====
section
/-! SUPPORT. What the cache controller's internal operations do when the transport answers as the protocol wants
(44_register_router.md R171 to R175, R182), stated over the transactions 30_encoding.md R99 lists for them. -/

namespace Sys2Proof.Machine

/-! ## States at rest -/

theorem atRest_ran {s : State} (es : List Event) (rx : List RxItem) (h : AtRest s) : AtRest (ran es rx s) :=
  ⟨h.phase, h.addr, h.apndp, h.rnw, h.par, h.hdr, h.val, h.vpar⟩

theorem atRest_setBank {s : State} (v : Word) (h : AtRest s) : AtRest (setBank v s) :=
  ⟨h.phase, h.addr, h.apndp, h.rnw, h.par, h.hdr, h.val, h.vpar⟩

theorem atRest_setTar {s : State} (v : Word) (h : AtRest s) : AtRest (setTar v s) :=
  ⟨h.phase, h.addr, h.apndp, h.rnw, h.par, h.hdr, h.val, h.vpar⟩

theorem atRest_setBu {s : State} (x : BuState) (h : AtRest s) : AtRest (setBu x s) :=
  ⟨h.phase, h.addr, h.apndp, h.rnw, h.par, h.hdr, h.val, h.vpar⟩

theorem atRest_snooped {s : State} (d : Descriptor) (v : Word) (h : AtRest s) : AtRest (snooped d v s) :=
  ⟨h.phase, h.addr, h.apndp, h.rnw, h.par, h.hdr, h.val, h.vpar⟩

theorem atRest_sessionStart (s : State) : AtRest (sessionStart s) := ⟨rfl, rfl, rfl, rfl, rfl, rfl, rfl, rfl⟩

theorem usable_ran {s : State} (es : List Event) (rx : List RxItem) (h : Usable s) : Usable (ran es rx s) :=
  ⟨h.alive, h.noReset⟩

theorem usable_setBank {s : State} (v : Word) (h : Usable s) : Usable (setBank v s) := ⟨h.alive, h.noReset⟩

theorem usable_setTar {s : State} (v : Word) (h : Usable s) : Usable (setTar v s) := ⟨h.alive, h.noReset⟩

theorem usable_setBu {s : State} (x : BuState) (h : Usable s) : Usable (setBu x s) := ⟨h.alive, h.noReset⟩

theorem usable_snooped {s : State} (d : Descriptor) (v : Word) (h : Usable s) : Usable (snooped d v s) :=
  ⟨h.alive, h.noReset⟩

theorem ran_nil (s : State) : ran [] s.rx s = s := by simp [ran]

theorem setBank_same {s : State} {v : Word} (h : s.bank = some v) : setBank v s = s := by
  cases s
  simp_all [setBank]

theorem setTar_same {s : State} {v : Word} (h : s.tar = some v) : setTar v s = s := by
  cases s
  simp_all [setTar]

theorem setBank_ran (v : Word) (es : List Event) (rx : List RxItem) (s : State) :
    setBank v (ran es rx s) = ran es rx (setBank v s) := rfl

theorem setTar_ran (v : Word) (es : List Event) (rx : List RxItem) (s : State) :
    setTar v (ran es rx s) = ran es rx (setTar v s) := rfl

theorem setBu_ran (x : BuState) (es : List Event) (rx : List RxItem) (s : State) :
    setBu x (ran es rx s) = ran es rx (setBu x s) := rfl

theorem snooped_ran (d : Descriptor) (v : Word) (es : List Event) (rx : List RxItem) (s : State) :
    snooped d v (ran es rx s) = ran es rx (snooped d v s) := rfl

/-! ## Scripts -/

@[simp] theorem scriptOf_nil : scriptOf [] = [] := rfl

@[simp] theorem eventsOf_nil : eventsOf [] = [] := rfl

theorem scriptOf_cons (x : Txn × Reply) (xs : List (Txn × Reply)) :
    scriptOf (x :: xs) = delivered (replyUnits x) ++ scriptOf xs := by
  simp [scriptOf, delivered_append]

theorem scriptOf_append (xs ys : List (Txn × Reply)) : scriptOf (xs ++ ys) = scriptOf xs ++ scriptOf ys := by
  simp [scriptOf, delivered_append]

theorem eventsOf_cons (x : Txn × Reply) (xs : List (Txn × Reply)) :
    eventsOf (x :: xs) = frameEvents x ++ eventsOf xs := by simp [eventsOf]

theorem eventsOf_append (xs ys : List (Txn × Reply)) : eventsOf (xs ++ ys) = eventsOf xs ++ eventsOf ys := by
  simp [eventsOf]

/-! ## Transactions and operations from a state at rest -/

/-- A read transaction from a usable state at rest changes only `rx` and `events` (R150, R154). -/
theorem swdrd_rest {s : State} {apndp : Bool} {a : BitVec 2} {r : Reply} {rest : List RxItem} (hr : AtRest s)
    (hu : Usable s) (hfit : replyFits s.cfg (.read apndp a, r))
    (hrx : s.rx = delivered (replyUnits (.read apndp a, r)) ++ rest) :
    swdrd apndp a s = .done r.word (ran (frameEvents (.read apndp a, r)) rest s) := by
  rw [swdrd_good hu.alive hr.phase hu.noReset hfit hrx, clearLatches_of_atRest hr]

/-- A write transaction from a usable state at rest changes only `rx` and `events` (R151, R154). -/
theorem swdwr_rest {s : State} {apndp : Bool} {a : BitVec 2} {v : Word} {r : Reply} {rest : List RxItem}
    (hr : AtRest s) (hu : Usable s) (hfit : replyFits s.cfg (.write apndp a v, r))
    (hrx : s.rx = delivered (replyUnits (.write apndp a v, r)) ++ rest) :
    swdwr apndp a v s = .done () (ran (frameEvents (.write apndp a v, r)) rest s) := by
  rw [swdwr_good hu.alive hr.phase hu.noReset hfit hrx, clearLatches_of_atRest hr]

/-- `ENSBANK` sends what R99 lists and leaves the bank in the cache (R172). -/
theorem ensBank_rest {s : State} {b : BitVec 8} {xs : List (Txn × Reply)} {rest : List RxItem} (hr : AtRest s)
    (hu : Usable s) (hx : xs.map Prod.fst = bankTxns s.cfg s.bank b) (hfit : ∀ x ∈ xs, replyFits s.cfg x)
    (hrx : s.rx = scriptOf xs ++ rest) :
    ensBank b s = .done () (ran (eventsOf xs) rest (setBank (selectValue b) s)) := by
  unfold bankTxns at hx
  unfold ensBank
  have hv : selectValue b = b.zeroExtend 32 := rfl
  rw [hv]
  by_cases h : s.bank = some (b.zeroExtend 32)
  · simp only [h, if_true, List.map_eq_nil_iff] at hx
    subst hx
    simp only [h, if_true, setBank_same h, eventsOf_nil]
    simp at hrx
    rw [← hrx, ran_nil]
  · simp only [h, if_false] at hx ⊢
    match xs, hx with
    | [(t, r)], hx =>
      simp only [List.map_cons, List.map_nil, List.cons.injEq, and_true] at hx
      subst hx
      rw [andThen_of_done (swdwr_rest (r := r) (rest := rest) hr hu (hfit _ (by simp))
        (by simpa [scriptOf_cons] using hrx))]
      simp [setBank_ran, eventsOf_cons]

/-- `ENSTAR` sends what R99 lists and leaves the value in the cache (R173). -/
theorem ensTar_rest {s : State} {t : Word} {xs : List (Txn × Reply)} {rest : List RxItem} (hr : AtRest s)
    (hu : Usable s) (hx : xs.map Prod.fst = tarTxns s.cfg s.bank s.tar t) (hfit : ∀ x ∈ xs, replyFits s.cfg x)
    (hrx : s.rx = scriptOf xs ++ rest) :
    ensTar t s = .done () (ran (eventsOf xs) rest
      { s with bank := bankAfterTar s.cfg s.bank s.tar t, tar := some t }) := by
  unfold tarTxns at hx
  unfold ensTar bankAfterTar
  by_cases h : s.tar = some t
  · simp only [h, if_true, List.map_eq_nil_iff] at hx
    subst hx
    simp at hrx
    simp only [h, if_true, eventsOf_nil]
    rw [← hrx]
    cases s
    simp_all [ran]
  · simp only [h, if_false] at hx ⊢
    obtain ⟨ys, zs, rfl, hy, hz⟩ := List.map_eq_append_iff.mp hx
    match zs, hz with
    | [(z, r)], hz =>
      simp at hz
      subst hz
      rw [scriptOf_append, List.append_assoc] at hrx
      rw [andThen_of_done (ensBank_rest hr hu (by rw [hy]; rfl) (fun x hx => hfit x (by simp [hx])) hrx),
        andThen_of_done (swdwr_rest (r := r) (rest := rest) (atRest_ran _ _ (atRest_setBank _ hr))
          (usable_ran _ _ (usable_setBank _ hu)) (hfit _ (by simp)) (by simp [scriptOf_cons]))]
      simp [ran, eventsOf_append, eventsOf_cons, setTar, setBank, selectValue, tarBank]

/-- The staged read of R175: the staged word is discarded, the RDBUF word is the result. -/
theorem stagedRead_rest {s : State} {a : BitVec 2} {r r' : Reply} {rest : List RxItem} (hr : AtRest s)
    (hu : Usable s) (hfit : replyFits s.cfg (.read true a, r))
    (hfit' : replyFits s.cfg (.read false (rdbufSlot s.cfg), r'))
    (hrx : s.rx = scriptOf [(.read true a, r), (.read false (rdbufSlot s.cfg), r')] ++ rest) :
    stagedRead a s = .done r'.word
      (ran (eventsOf [(.read true a, r), (.read false (rdbufSlot s.cfg), r')]) rest s) := by
  unfold stagedRead
  simp only [scriptOf_cons, scriptOf_nil, List.append_nil, List.append_assoc] at hrx
  rw [andThen_of_done (swdrd_rest hr hu hfit hrx), andThen_of_done (look_apply _ _)]
  rw [swdrd_rest (r := r') (rest := rest) (atRest_ran _ _ hr) (usable_ran _ _ hu) (by simpa using hfit') (by simp)]
  simp [ran_ran, eventsOf_cons]

end Sys2Proof.Machine
end

