-- ==== Sys2Proof/Laws/Outcome.lean ====
section
/-! SUPPORT. Everything each operation can do, said once, for every answer of the transport: how it comes back with a
result, how it ends, and that it never stops the model. A transaction that comes back has left exactly its frame in
`events`; one that ends was ended by `raise` or by power-on reset, with a guarded trace (20_memory.md R63, R65). -/

namespace Sys2Proof.Machine

/-! ## Judging an operation by how it comes back -/

/-- `m` run in `s` comes back with a result in `Q`, or ends in `E`; it never stops the model. -/
def Comes {α : Type} (m : Op α) (s : State) (Q : α → State → Prop) (E : State → Prop) : Prop :=
  match m s with
  | .done a t => Q a t
  | .ended t => E t
  | .halted _ => False

section
variable {α β : Type} {s : State} {E : State → Prop}

theorem comes_of_done {m : Op α} {a : α} {t : State} {Q : α → State → Prop} (h : m s = .done a t) (hq : Q a t) :
    Comes m s Q E := by simp [Comes, h, hq]

theorem comes_of_ended {m : Op α} {t : State} {Q : α → State → Prop} (h : m s = .ended t) (he : E t) :
    Comes m s Q E := by simp [Comes, h, he]

theorem comes_andThen {m : Op α} {f : α → Op β} {Q : β → State → Prop}
    (h : Comes m s (fun a t => Comes (f a) t Q E) E) : Comes (andThen m f) s Q E := by
  unfold Comes at h ⊢
  unfold andThen
  cases hm : m s <;> simp_all

theorem comes_mono {m : Op α} {Q Q' : α → State → Prop} {E' : State → Prop} (h : Comes m s Q E)
    (hq : ∀ a t, Q a t → Q' a t) (he : ∀ t, E t → E' t) : Comes m s Q' E' := by
  unfold Comes at h ⊢
  cases hm : m s <;> simp_all

/-- An operation that comes back with a result is in `Q`. -/
theorem Comes.of_done {m : Op α} {Q : α → State → Prop} (h : Comes m s Q E) {a : α} {t : State}
    (hm : m s = .done a t) : Q a t := by simpa [Comes, hm] using h

/-- An operation that ends is in `E`. -/
theorem Comes.of_ended {m : Op α} {Q : α → State → Prop} (h : Comes m s Q E) {t : State}
    (hm : m s = .ended t) : E t := by simpa [Comes, hm] using h

/-- An operation that is judged never stops the model. -/
theorem Comes.not_halted {m : Op α} {Q : α → State → Prop} (h : Comes m s Q E) (x : Halt) : m s ≠ .halted x := by
  intro hm
  simp [Comes, hm] at h

end

/-! ## Guarded traces -/

theorem recvFlushed_mono {es : List Event} (h : recvFlushed false es = true) (f : Bool) :
    recvFlushed f es = true := by
  cases f
  · exact h
  · cases es with
    | nil => rfl
    | cons e es => cases e <;> simp_all [recvFlushed]

theorem recvFlushed_append {es fs : List Event} {f : Bool} (h : recvFlushed f es = true)
    (h' : recvFlushed false fs = true) : recvFlushed f (es ++ fs) = true := by
  induction es generalizing f with
  | nil => exact recvFlushed_mono h' f
  | cons e es ih =>
    cases e with
    | send toks => exact ih h
    | flush => exact ih h
    | recv n o =>
      simp only [recvFlushed, Bool.and_eq_true, List.cons_append] at h ⊢
      exact ⟨h.1, ih h.2⟩

theorem guarded_nil : Guarded [] := ⟨rfl, by simp⟩

theorem guarded_append {es fs : List Event} (h : Guarded es) (h' : Guarded fs) : Guarded (es ++ fs) := by
  refine ⟨recvFlushed_append h.1 h'.1, fun n o hm => ?_⟩
  rcases List.mem_append.mp hm with hm | hm
  · exact h.2 n o hm
  · exact h'.2 n o hm

/-! ## How the transport port's operations come back -/

/-- The state after the events `es`, with `rx` left to be delivered and the reset countdown at `p`. -/
def later (es : List Event) (rx : List RxItem) (p : List Nat) (s : State) : State :=
  { s with rx := rx, por := p, events := s.events ++ es }

/-- `t` is `s` ended inside a transaction or a raw frame: by `raise` or, if one is to come, by power-on reset, with a
guarded trace. -/
def Broke (s t : State) : Prop :=
  ∃ es rx p, Guarded es ∧ SameResets p s.por ∧
    ((∃ e, t = raised e (later es rx p s)) ∨ (s.por ≠ [] ∧ t = powerOnReset (later es rx p s)))

theorem later_later (es fs : List Event) (rx rx' : List RxItem) (p q : List Nat) (s : State) :
    later fs rx' q (later es rx p s) = later (es ++ fs) rx' q s := by simp [later]

theorem later_self (s : State) : later [] s.rx s.por s = s := by simp [later]

theorem later_eq_ran (es : List Event) (rx : List RxItem) (s : State) : later es rx s.por s = ran es rx s := rfl

/-- A break after a guarded trace is a break. -/
theorem Broke.after {s t : State} {es : List Event} {rx : List RxItem} {p : List Nat} (hg : Guarded es)
    (hp : SameResets p s.por) (h : Broke (later es rx p s) t) : Broke s t := by
  obtain ⟨fs, rx', q, hf, hq, h⟩ := h
  refine ⟨es ++ fs, rx', q, guarded_append hg hf, hq.trans hp, ?_⟩
  rw [later_later] at h
  rcases h with ⟨e, h⟩ | ⟨h0, h⟩
  · exact .inl ⟨e, h⟩
  · exact .inr ⟨fun hn => h0 (hp.nil_iff.mpr hn), h⟩

theorem broke_raised {s : State} (e : ErrorKind) : Broke s (raised e s) :=
  ⟨[], s.rx, s.por, guarded_nil, (.refl _), .inl ⟨e, by rw [later_self]⟩⟩

theorem broke_reset {s : State} (h : s.por ≠ []) : Broke s (powerOnReset s) :=
  ⟨[], s.rx, s.por, guarded_nil, (.refl _), .inr ⟨h, by rw [later_self]⟩⟩

section
variable {α β : Type} {s : State} {E : State → Prop} {Q : β → State → Prop}

/-- A point at which power-on reset can land, and what follows it. -/
theorem comes_tick {K : Op β} (hK : ∀ p, SameResets p s.por → Comes K (later [] s.rx p s) Q E)
    (hE : s.por ≠ [] → E (powerOnReset s)) : Comes (andThen tick fun _ => K) s Q E := by
  apply comes_andThen
  rcases tick_cases s with ⟨h, ht⟩ | ⟨_, ht⟩
  · exact comes_of_ended ht (hE fun hn => by simp [hn] at h)
  · refine comes_of_done ht ?_
    have := hK (countdown s.por) (sameResets_countdown _)
    simpa [later, afterPoint] using this

theorem comes_send {toks : List Token} {K : Unit → Op β}
    (hK : ∀ p, SameResets p s.por → Comes (K ()) (later [.send toks] s.rx p s) Q E)
    (hE : s.por ≠ [] → E (powerOnReset s)) : Comes (andThen (send toks) K) s Q E := by
  apply comes_andThen
  refine comes_tick (fun p hp => comes_of_done (record_apply _ _) ?_) hE
  have := hK p hp
  simpa [later, ran] using this

theorem comes_flush {K : Unit → Op β}
    (hK : ∀ p, SameResets p s.por → Comes (K ()) (later [.flush] s.rx p s) Q E)
    (hE : s.por ≠ [] → E (powerOnReset s)) : Comes (andThen flush K) s Q E := by
  apply comes_andThen
  refine comes_tick (fun p hp => comes_of_done (record_apply _ _) ?_) hE
  have := hK p hp
  simpa [later, ran] using this

theorem comes_await {n : Nat} {K : List Byte → Op β}
    (hK : ∀ us rx p, us.length = n → SameResets p s.por →
      Comes (K us) (later [.recv n (some us)] rx p s) Q E)
    (hT : ∀ rx p, SameResets p s.por → E (raised .timeout (later [.recv n none] rx p s)))
    (hE : s.por ≠ [] → E (powerOnReset s)) : Comes (andThen (await n) K) s Q E := by
  apply comes_andThen
  apply comes_andThen
  unfold recv
  refine comes_tick (fun p hp => comes_of_done rfl ?_) hE
  have h1 := hK
  have h2 := hT (takeUnits n s.rx s.rxLoop).2 p hp
  have h3 := @takeUnits_length n s.rx s.rxLoop
  simp only [later] at h2 ⊢
  cases ho : (takeUnits n s.rx s.rxLoop).1 with
  | none =>
    refine comes_of_ended (raise_apply _ _) ?_
    simpa [ran, later] using h2
  | some us =>
    refine comes_of_done (ret_apply _ _) ?_
    have := hK us (takeUnits n s.rx s.rxLoop).2 p (h3 ho) hp
    simpa [ran, later] using this

theorem guarded_send (toks : List Token) : Guarded [.send toks] := ⟨rfl, by simp⟩

theorem guarded_ask {toks : List Token} {n : Nat} {us : List Byte} (hn : 0 < n) (h : us.length = n) :
    Guarded [.send toks, .flush, .recv n (some us)] := by
  refine ⟨rfl, fun m o hm => ?_⟩
  simp at hm
  obtain ⟨rfl, rfl⟩ := hm
  exact ⟨hn, by simpa using h⟩

theorem guarded_askTimeout {toks : List Token} {n : Nat} (hn : 0 < n) :
    Guarded [.send toks, .flush, .recv n none] := by
  refine ⟨rfl, fun m o hm => ?_⟩
  simp at hm
  obtain ⟨rfl, rfl⟩ := hm
  exact ⟨hn, by simp⟩

/-- `Send`, `Flush` and `Recv` of at least one unit, and what follows them. -/
theorem comes_ask {n : Nat} {toks : List Token} {K : List Byte → Op β} (hn : 0 < n)
    (hK : ∀ us rx p, us.length = n → SameResets p s.por →
      Comes (K us) (later [.send toks, .flush, .recv n (some us)] rx p s) Q E)
    (hE : ∀ t, Broke s t → E t) :
    Comes (andThen (send toks) fun _ => andThen flush fun _ => andThen (await n) K) s Q E := by
  have g2 : Guarded [.send toks, .flush] := ⟨rfl, by simp⟩
  refine comes_send (fun p hp => ?_) fun h => hE _ (broke_reset h)
  refine comes_flush (fun q hq => ?_) fun h => hE _ (Broke.after (guarded_send toks) hp (broke_reset h))
  have hq' : SameResets q s.por := hq.trans hp
  rw [later_later]
  refine comes_await (fun us rx r hu hr => ?_) (fun rx r hr => ?_) fun h => ?_
  · rw [later_later]
    exact hK us rx r hu (hr.trans hq')
  · refine hE _ ⟨[.send toks, .flush, .recv n none], rx, r, guarded_askTimeout hn, hr.trans hq', .inl ⟨.timeout, ?_⟩⟩
    rw [later_later]
    rfl
  · exact hE _ (Broke.after g2 hq' (broke_reset h))

theorem guarded_confEvents (us : List Byte) : Guarded (confEvents us) := by
  unfold confEvents
  split
  · exact guarded_nil
  · rename_i h
    refine ⟨rfl, fun m o hm => ?_⟩
    simp at hm
    obtain ⟨rfl, rfl⟩ := hm
    exact ⟨by omega, by simp⟩

/-- Confirmations: they arrive, whatever their values, or the operation breaks (43_transaction_codec.md R143). -/
theorem comes_awaitConf {n : Nat} {Q : Unit → State → Prop}
    (hK : ∀ us rx p, us.length = n → SameResets p s.por → Q () (later (confEvents us) rx p s))
    (hE : ∀ t, Broke s t → E t) : Comes (awaitConf n) s Q E := by
  unfold awaitConf
  split
  · rename_i h
    subst h
    refine comes_of_done (ret_apply _ _) ?_
    have := hK [] s.rx s.por rfl (.refl _)
    rwa [show confEvents [] = [] from rfl, later_self] at this
  · rename_i h
    have hn : 0 < n := by omega
    have g1 : Guarded [.flush] := ⟨rfl, by simp⟩
    refine comes_flush (fun q hq => ?_) fun h => hE _ (broke_reset h)
    refine comes_await (fun us rx r hu hr => ?_) (fun rx r hr => ?_) fun h => ?_
    · rw [later_later]
      refine comes_of_done (ret_apply _ _) ?_
      have := hK us rx r hu (hr.trans hq)
      simpa [confEvents, hu, h] using this
    · refine hE _ ⟨[.flush, .recv n none], rx, r, ⟨rfl, fun m o hm => ?_⟩, hr.trans hq, .inl ⟨.timeout, ?_⟩⟩
      · simp at hm
        obtain ⟨rfl, rfl⟩ := hm
        exact ⟨hn, by simp⟩
      · rw [later_later]
        rfl
    · exact hE _ (Broke.after g1 hq (broke_reset h))

end

/-! ## How the phases and the transactions come back -/

/-- A break does not see the latches: both `raise` and power-on reset discard them. -/
theorem Broke.of_latches {s u t : State} (h : clearLatches u = clearLatches s) (hb : Broke u t) : Broke s t := by
  obtain ⟨es, rx, p, hg, hp, hb⟩ := hb
  have hpor : (clearLatches u).por = (clearLatches s).por := congrArg State.por h
  simp only [clearLatches_por] at hpor
  have hl : clearLatches (later es rx p u) = clearLatches (later es rx p s) := by
    have hev : (clearLatches u).events = (clearLatches s).events := congrArg State.events h
    simp only [clearLatches_events] at hev
    have : ∀ x : State, clearLatches (later es rx p x) = { clearLatches x with rx := rx, por := p, events := x.events ++ es } :=
      fun _ => rfl
    rw [this, this, h, hev]
  refine ⟨es, rx, p, hg, hpor ▸ hp, ?_⟩
  rcases hb with ⟨e, rfl⟩ | ⟨h0, rfl⟩
  · refine .inl ⟨e, ?_⟩
    have : ∀ x : State, raised e x = raised e (clearLatches x) := fun _ => rfl
    rw [this, hl, ← this]
  · refine .inr ⟨by rwa [← hpor], ?_⟩
    have : ∀ x : State, powerOnReset x = powerOnReset (clearLatches x) := fun _ => rfl
    rw [this, hl, ← this]

section
variable {s : State} {E : State → Prop}

theorem comes_phaseHdr {a : BitVec 2} {apndp rnw : Bool} {Q : Unit → State → Prop} (ha : s.t_addr = some a)
    (hap : s.t_apndp = some apndp) (hrw : s.t_rnw = some rnw)
    (hQ : ∀ conf rx p, conf.length = 2 → SameResets p s.por →
      Q () (later [.send [.wr 1, .byte (wireByte a apndp rnw)], .flush, .recv 2 (some conf)] rx p
        (setHeader (hpar a apndp rnw) (header a apndp rnw) (setPhase .hdr s))))
    (hE : ∀ t, Broke s t → E t) : Comes phaseHdr s Q E := by
  refine comes_andThen (comes_of_done (modify_apply _ _) ?_)
  refine comes_andThen (comes_of_done (latched_some (by simpa using ha)) ?_)
  refine comes_andThen (comes_of_done (latched_some (by simpa using hap)) ?_)
  refine comes_andThen (comes_of_done (latched_some (by simpa using hrw)) ?_)
  refine comes_andThen (comes_of_done (modify_apply _ _) ?_)
  refine comes_ask (by decide) (fun us rx p hu hp => comes_of_done (ret_apply _ _) (hQ us rx p hu hp)) fun t h => ?_
  exact hE t (Broke.of_latches rfl h)

theorem comes_phaseAck {Q : Unit → State → Prop}
    (hQ : ∀ rx p, SameResets p s.por →
      Q () (later [.send [.rdbit, .rdbit, .rdbit], .flush, .recv 3 (some [0x01#8, 0x00#8, 0x00#8])] rx p
        (setPhase .ack s)))
    (hE : ∀ t, Broke s t → E t) : Comes phaseAck s Q E := by
  refine comes_andThen (comes_of_done (modify_apply _ _) ?_)
  refine comes_ask (by decide) (fun us rx p hu hp => ?_) fun t h => hE t (Broke.of_latches rfl h)
  split
  · rename_i h
    have : us = [0x01#8, 0x00#8, 0x00#8] := by simpa [ackOk, Config.ackOk] using h
    subst this
    exact comes_of_done (ret_apply _ _) (hQ rx p hp)
  · exact comes_of_ended (raise_apply _ _) (hE _ (Broke.of_latches (u := setPhase .ack s) rfl
      ⟨_, rx, p, guarded_ask (by decide) hu, hp, .inl ⟨_, rfl⟩⟩))

theorem comes_phaseTrn {Q : Unit → State → Prop}
    (hQ : ∀ turn rx p, turn.length = s.cfg.trnConf → SameResets p s.por →
      Q () (later (.send [.clk] :: confEvents turn) rx p (setPhase .trn s)))
    (hE : ∀ t, Broke s t → E t) : Comes phaseTrn s Q E := by
  refine comes_andThen (comes_of_done (modify_apply _ _) ?_)
  refine comes_send (fun q hq => ?_) fun h => hE _ (Broke.of_latches rfl (broke_reset h))
  refine comes_andThen (comes_of_done (look_apply _ _) ?_)
  refine comes_awaitConf (fun us rx p hu hp => ?_) fun t h => ?_
  · rw [later_later]
    exact hQ us rx p hu (hp.trans hq)
  · exact hE t (Broke.of_latches (u := setPhase .trn s) rfl (Broke.after (guarded_send _) hq h))

/-- Four units are the bytes of the word they spell (20_memory.md R56). -/
theorem wordBytes_wordOfUnits {us : List Byte} (h : us.length = 4) : wordBytes (wordOfUnits us) = us := by
  match us, h with
  | [b0, b1, b2, b3], _ =>
    simp only [wordOfUnits, wordBytes, List.getD_cons_zero, List.getD_cons_succ]
    refine List.cons_eq_cons.mpr ⟨?_, List.cons_eq_cons.mpr ⟨?_, List.cons_eq_cons.mpr ⟨?_, List.cons_eq_cons.mpr ⟨?_, rfl⟩⟩⟩⟩
    all_goals
      apply BitVec.eq_of_getLsbD_eq
      intro i hi
      simp only [BitVec.getLsbD_extractLsb', BitVec.getLsbD_append]
    · simp [hi]
    · simp [hi, show ¬ 8 + i < 8 by omega]
    · simp [hi, show ¬ 16 + i < 8 by omega, show ¬ 16 + i - 8 < 8 by omega, show 16 + i - 8 - 8 = i by omega]
    · simp [hi, show ¬ 24 + i < 8 by omega, show ¬ 24 + i - 8 < 8 by omega, show ¬ 24 + i - 8 - 8 < 8 by omega,
        show 24 + i - 8 - 8 - 8 = i by omega]

/-- The trailing clock of a read (43_transaction_codec.md R145). -/
theorem comes_readTail {w : Word} {Q : Word → State → Prop}
    (hQ : ∀ fin rx p, fin.length = s.cfg.rdIdleConf → SameResets p s.por →
      Q w (later (.send [.clk] :: confEvents fin) rx p (setPhase .tail s)))
    (hE : ∀ t, Broke s t → E t) :
    Comes (andThen (enterPhase .tail) fun _ => andThen (send [.clk]) fun _ =>
      andThen (look fun s => s.cfg.rdIdleConf) fun n => andThen (awaitConf n) fun _ => ret w) s Q E := by
  refine comes_andThen (comes_of_done (modify_apply _ _) ?_)
  refine comes_send (fun q hq => ?_) fun h => hE _ (Broke.of_latches rfl (broke_reset h))
  refine comes_andThen (comes_of_done (look_apply _ _) ?_)
  refine comes_andThen (comes_awaitConf (fun us rx p hu hp => ?_) fun t h => ?_)
  · rw [later_later]
    exact comes_of_done (ret_apply _ _) (hQ us rx p hu (hp.trans hq))
  · exact hE t (Broke.of_latches (u := setPhase .tail s) rfl (Broke.after (guarded_send _) hq h))

theorem guarded_read {d : List Byte} {o : Option (List Byte)} (hd : d.length = 4)
    (ho : ∀ q, o = some q → q.length = 1) :
    Guarded [.send [.rdbyte, .rdbyte, .rdbyte, .rdbyte, .rdbit], .flush, .recv 4 (some d), .recv 1 o] := by
  refine ⟨rfl, fun m x hm => ?_⟩
  simp at hm
  rcases hm with ⟨rfl, rfl⟩ | ⟨rfl, rfl⟩
  · simpa using hd
  · exact ⟨by decide, ho⟩

theorem comes_phaseRead {Q : Word → State → Prop}
    (hQ : ∀ w fin rx p, fin.length = s.cfg.rdIdleConf → SameResets p s.por →
      Q w (later ([.send [.rdbyte, .rdbyte, .rdbyte, .rdbyte, .rdbit], .flush, .recv 4 (some (wordBytes w)),
             .recv 1 (some [parityUnit w]), .send [.clk]] ++ confEvents fin) rx p
        (setPhase .tail (setValue w ((parityUnit w).getLsbD 0) (setPhase .data s)))))
    (hE : ∀ t, Broke s t → E t) : Comes phaseRead s Q E := by
  have back : ∀ {es : List Event} {rx : List RxItem} {r : List Nat} {u t : State}, Guarded es →
      SameResets r s.por → clearLatches u = clearLatches (later es rx r s) → Broke u t → E t :=
    fun hg hr hl h => hE _ (Broke.after hg hr (Broke.of_latches hl h))
  refine comes_andThen (comes_of_done (modify_apply _ _) ?_)
  refine comes_ask (by decide) (fun d rx p hd hp => ?_) fun t h => hE t (Broke.of_latches rfl h)
  refine comes_await (fun q rx' r hq hr => ?_) (fun rx' r hr => ?_) fun h => ?_
  · have hg := guarded_read (o := some q) hd (by simpa using hq)
    have hr' : SameResets r s.por := hr.trans hp
    rw [later_later]
    refine comes_andThen (comes_of_done (modify_apply _ _) ?_)
    split
    · rename_i heq
      have hq' : q = [parityUnit (wordOfUnits d)] := by simpa using heq
      subst hq'
      refine comes_readTail (fun fin rx2 y hu hy => ?_) fun t h => back (rx := rx') hg hr' (by rfl) h
      have := hQ (wordOfUnits d) fin rx2 y hu (hy.trans hr')
      rw [wordBytes_wordOfUnits hd] at this
      simpa [later, setPhase, setValue] using this
    · exact comes_of_ended (raise_apply _ _) (back (rx := rx') hg hr' (by rfl) (broke_raised _))
  · rw [later_later]
    exact back (rx := rx') (guarded_read (o := none) hd (by simp)) (hr.trans hp) (by rfl) (broke_raised _)
  · exact back (rx := rx) (guarded_ask (by decide) hd) hp (by rfl) (broke_reset h)

theorem comes_phaseWrite {v : Word} {p : Bool} {Q : Unit → State → Prop} (hv : s.t_val = some v)
    (hp : s.t_vpar = some p)
    (hQ : ∀ fin rx q, fin.length = 2 → SameResets q s.por →
      Q () (later [.send (.wr 4 :: (wordBytes v).map .byte ++ [parityToken p]), .flush, .recv 2 (some fin)] rx q
        (setPhase .data s)))
    (hE : ∀ t, Broke s t → E t) : Comes phaseWrite s Q E := by
  refine comes_andThen (comes_of_done (modify_apply _ _) ?_)
  refine comes_andThen (comes_of_done (latched_some (by simpa using hv)) ?_)
  refine comes_andThen (comes_of_done (latched_some (by simpa using hp)) ?_)
  refine comes_ask (by decide) (fun us rx q hu hq => comes_of_done (ret_apply _ _) (hQ us rx q hu hq)) fun t h => ?_
  exact hE t (Broke.of_latches rfl h)

theorem guarded_header {W : Byte} {c : List Byte} (hc : c.length = 2) :
    Guarded [.send [.wr 1, .byte W], .flush, .recv 2 (some c)] := guarded_ask (by decide) hc

theorem guarded_ackOk :
    Guarded [.send [.rdbit, .rdbit, .rdbit], .flush, .recv 3 (some [0x01#8, 0x00#8, 0x00#8])] :=
  guarded_ask (by decide) rfl

theorem guarded_turn (turn : List Byte) : Guarded (.send [.clk] :: confEvents turn) :=
  guarded_append (guarded_send _) (guarded_confEvents turn)

/-- Phases 1 to 3 of a transaction (43_transaction_codec.md R141, R142, R144) and what follows them. -/
theorem comes_opening {α : Type} {K : Op α} {a : BitVec 2} {apndp rnw : Bool} {Q : α → State → Prop}
    (ha : s.t_addr = some a) (hap : s.t_apndp = some apndp) (hrw : s.t_rnw = some rnw)
    (hK : ∀ (r : Reply) rx p, r.conf.length = 2 → r.turn.length = s.cfg.trnConf → SameResets p s.por →
      Guarded (openingEvents (wireByte a apndp rnw) r) →
      Comes K (later (openingEvents (wireByte a apndp rnw) r) rx p
        (setPhase .trn (setHeader (hpar a apndp rnw) (header a apndp rnw) s))) Q E)
    (hE : ∀ t, Broke s t → E t) :
    Comes (andThen phaseHdr fun _ => andThen phaseAck fun _ => andThen phaseTrn fun _ => K) s Q E := by
  refine comes_andThen (comes_phaseHdr ha hap hrw (fun conf rx p hc hp => ?_) hE)
  have g1 := guarded_header (W := wireByte a apndp rnw) hc
  have back1 : ∀ u t, clearLatches u = clearLatches (later [.send [.wr 1, .byte (wireByte a apndp rnw)], .flush,
      .recv 2 (some conf)] rx p s) → Broke u t → E t :=
    fun u t hl h => hE _ (Broke.after g1 hp (Broke.of_latches hl h))
  refine comes_andThen (comes_phaseAck (fun rx2 p2 hp2 => ?_) fun t h => back1 _ t (by rfl) h)
  have g2 := guarded_append g1 guarded_ackOk
  have hp2' : SameResets p2 s.por := hp2.trans hp
  have back2 : ∀ u t, clearLatches u = clearLatches (later ([.send [.wr 1, .byte (wireByte a apndp rnw)], .flush,
      .recv 2 (some conf)] ++ [.send [.rdbit, .rdbit, .rdbit], .flush, .recv 3 (some [0x01#8, 0x00#8, 0x00#8])])
      rx2 p2 s) → Broke u t → E t :=
    fun u t hl h => hE _ (Broke.after g2 hp2' (Broke.of_latches hl h))
  refine comes_andThen (comes_phaseTrn (fun turn rx3 p3 ht hp3 => ?_)
    fun t h => back2 _ t (by simp [later, setPhase, setHeader, clearLatches]) h)
  have := hK ⟨conf, turn, 0, []⟩ rx3 p3 hc ht (hp3.trans hp2')
    (by simpa [openingEvents] using guarded_append g2 (guarded_turn turn))
  simpa [later, setPhase, setHeader, openingEvents] using this

/-- A usable session at rest starts a transaction: a read leaves exactly its frame and its word, or breaks
(43_transaction_codec.md R150). -/
theorem comes_swdrd {apndp : Bool} {a : BitVec 2} {Q : Word → State → Prop} (halive : s.sess_dead = false)
    (hidle : s.t_phase = .idle)
    (hQ : ∀ (r : Reply) rx p, replyFits s.cfg (.read apndp a, r) → SameResets p s.por →
      Q r.word (later (frameEvents (.read apndp a, r)) rx p (clearLatches s)))
    (hE : ∀ t, Broke s t → E t) : Comes (swdrd apndp a) s Q E := by
  refine comes_andThen (comes_of_done (requireIdle_ok halive hidle) ?_)
  refine comes_andThen (comes_of_done (modify_apply _ _) ?_)
  refine comes_opening rfl rfl rfl (fun r rx p hc ht hp hg => ?_) fun t h => hE t (Broke.of_latches rfl h)
  refine comes_andThen (comes_phaseRead (fun w fin rx2 p2 hf hp2 => ?_) fun t h => hE t ?_)
  · refine comes_andThen (comes_of_done (modify_apply _ _) (comes_of_done (ret_apply _ _) ?_))
    have := hQ ⟨r.conf, r.turn, w, fin⟩ rx2 p2 ⟨hc, ht, hf⟩ (hp2.trans hp)
    simpa [later, setPhase, setHeader, setValue, setInputs, clearLatches, frameEvents, openingEvents] using this
  · exact Broke.after (rx := rx) hg hp (Broke.of_latches (by rfl) h)

/-- A usable session at rest starts a transaction: a write leaves exactly its frame, or breaks (R151). -/
theorem comes_swdwr {apndp : Bool} {a : BitVec 2} {v : Word} {Q : Unit → State → Prop}
    (halive : s.sess_dead = false) (hidle : s.t_phase = .idle)
    (hQ : ∀ (r : Reply) rx p, replyFits s.cfg (.write apndp a v, r) → SameResets p s.por →
      Q () (later (frameEvents (.write apndp a v, r)) rx p (clearLatches s)))
    (hE : ∀ t, Broke s t → E t) : Comes (swdwr apndp a v) s Q E := by
  refine comes_andThen (comes_of_done (requireIdle_ok halive hidle) ?_)
  refine comes_andThen (comes_of_done (modify_apply _ _) ?_)
  refine comes_andThen (comes_of_done (modify_apply _ _) ?_)
  refine comes_opening rfl rfl rfl (fun r rx p hc ht hp hg => ?_) fun t h => hE t (Broke.of_latches rfl h)
  refine comes_andThen (comes_phaseWrite rfl rfl (fun fin rx2 p2 hf hp2 => ?_) fun t h => hE t ?_)
  · refine comes_of_done (modify_apply _ _) ?_
    have := hQ ⟨r.conf, r.turn, 0, fin⟩ rx2 p2 ⟨hc, ht, hf⟩ (hp2.trans hp)
    simpa [later, setPhase, setHeader, setValue, setInputs, clearLatches, frameEvents, openingEvents, wordBytes,
      parityToken] using this
  · exact Broke.after (rx := rx) hg hp (Broke.of_latches (by rfl) h)

/-- A raw frame from a usable session at rest (R152). -/
theorem comes_rawSend {bytes : List Byte} {Q : Unit → State → Prop} (halive : s.sess_dead = false)
    (hidle : s.t_phase = .idle)
    (hQ : ∀ conf rx p, SameResets p s.por → (bytes ≠ [] → conf.length = s.cfg.rawConf) →
      Q () (later (if bytes = [] then [] else .send (.wr bytes.length :: bytes.map .byte) :: confEvents conf) rx p s))
    (hE : ∀ t, Broke s t → E t) : Comes (rawSend bytes) s Q E := by
  refine comes_andThen (comes_of_done (requireIdle_ok halive hidle) ?_)
  by_cases hb : bytes = []
  · subst hb
    refine comes_of_done (ret_apply _ _) ?_
    have := hQ [] s.rx s.por (.refl _) (by simp)
    rwa [if_pos rfl, later_self] at this
  · simp only [List.isEmpty_iff, hb, if_false]
    refine comes_send (fun q hq => ?_) fun h => hE _ (broke_reset h)
    refine comes_andThen (comes_of_done (look_apply _ _) ?_)
    refine comes_awaitConf (fun us rx p hu hp => ?_) fun t h => hE t (Broke.after (guarded_send _) hq h)
    rw [later_later]
    have := hQ us rx p (hp.trans hq) fun _ => hu
    simpa [hb] using this

end

end Sys2Proof.Machine
end

