-- ==== Sys2Proof/Laws/Access.lean ====
section
/-! SUPPORT. Everything the cache controller's operations can do (44_register_router.md), for every answer of the
transport: one that comes back has sent exactly the transactions 30_encoding.md R99 lists and left the caches as
R172 to R182 say; one that ends was ended by `raise` or by power-on reset, with every cache value justified by a
completed write. -/

namespace Sys2Proof.Machine

theorem HasFrame.left {x : Txn} {es : List Event} (fs : List Event) (h : HasFrame x es) : HasFrame x (es ++ fs) := by
  obtain ⟨a, b, r, rfl⟩ := h
  exact ⟨a, b ++ fs, r, by simp⟩

theorem HasFrame.right {x : Txn} {es : List Event} (fs : List Event) (h : HasFrame x es) : HasFrame x (fs ++ es) := by
  obtain ⟨a, b, r, rfl⟩ := h
  exact ⟨fs ++ a, b, r, by simp⟩

/-- The state after the transactions `xs`, with the caches at `b` and `t`. -/
def accessed (es : List Event) (rx : List RxItem) (p : List Nat) (b t : Option Word) (s : State) : State :=
  { s with bank := b, tar := t, rx := rx, por := p, events := s.events ++ es }

/-- `u` is a state inside an access begun in `s`: a guarded trace has been added, and a cache that changed holds the
value of a completed write of its register (44_register_router.md R184). -/
def Moved (s u : State) : Prop :=
  ∃ es rx p b t, Guarded es ∧ SameResets p s.por ∧ u = accessed es rx p b t s ∧
    (b = s.bank ∨ ∃ v, b = some v ∧ HasFrame (.write false (selectSlot s.cfg) v) es) ∧
    (t = s.tar ∨ ∃ v, t = some v ∧ HasFrame (.write true (tarSlot s.cfg) v) es)

/-- `t` is an access begun in `s` and ended by `raise` or by power-on reset. -/
def Ended (s t : State) : Prop :=
  ∃ u, Moved s u ∧ ((∃ e, t = raised e u) ∨ (s.por ≠ [] ∧ t = powerOnReset u))

theorem accessed_self (s : State) : accessed [] s.rx s.por s.bank s.tar s = s := by simp [accessed]

theorem accessed_accessed (es fs : List Event) (rx rx' : List RxItem) (p q : List Nat) (b c t u : Option Word)
    (s : State) : accessed fs rx' q c u (accessed es rx p b t s) = accessed (es ++ fs) rx' q c u s := by
  simp [accessed]

theorem moved_refl (s : State) : Moved s s :=
  ⟨[], s.rx, s.por, s.bank, s.tar, guarded_nil, (.refl _), (accessed_self s).symm, .inl rfl, .inl rfl⟩

theorem Moved.trans {s u v : State} (h : Moved s u) (h' : Moved u v) : Moved s v := by
  obtain ⟨es, rx, p, b, t, hg, hp, rfl, hb, ht⟩ := h
  obtain ⟨fs, rx', q, c, w, hf, hq, rfl, hc, hw⟩ := h'
  refine ⟨es ++ fs, rx', q, c, w, guarded_append hg hf, hq.trans hp, accessed_accessed .., ?_, ?_⟩
  · rcases hc with hc | ⟨x, hx, hfr⟩
    · rcases hb with hb | ⟨x, hx, hfr⟩
      · exact .inl (hc.trans hb)
      · exact .inr ⟨x, hc.trans hx, hfr.left fs⟩
    · exact .inr ⟨x, hx, hfr.right es⟩
  · rcases hw with hw | ⟨x, hx, hfr⟩
    · rcases ht with ht | ⟨x, hx, hfr⟩
      · exact .inl (hw.trans ht)
      · exact .inr ⟨x, hw.trans hx, hfr.left fs⟩
    · exact .inr ⟨x, hx, hfr.right es⟩

theorem Moved.sameResets {s u : State} (h : Moved s u) : SameResets u.por s.por := by
  obtain ⟨es, rx, p, b, t, hg, hp, rfl, hb, ht⟩ := h
  exact hp

theorem Moved.ended {s u t : State} (h : Moved s u) (h' : Ended u t) : Ended s t := by
  obtain ⟨v, hv, h'⟩ := h'
  refine ⟨v, h.trans hv, ?_⟩
  rcases h' with h' | ⟨h0, h'⟩
  · exact .inl h'
  · exact .inr ⟨fun hn => h0 (h.sameResets.nil_iff.mpr hn), h'⟩

theorem moved_later {s : State} {es : List Event} {rx : List RxItem} {p : List Nat} (hg : Guarded es)
    (hp : SameResets p s.por) : Moved s (later es rx p s) :=
  ⟨es, rx, p, s.bank, s.tar, hg, hp, rfl, .inl rfl, .inl rfl⟩

/-- A break of a transaction is an end of the access it stands in. -/
theorem Broke.ended {s t : State} (h : Broke s t) : Ended s t := by
  obtain ⟨es, rx, p, hg, hp, h⟩ := h
  exact ⟨_, moved_later hg hp, h⟩

theorem ended_raised {s : State} (e : ErrorKind) : Ended s (raised e s) := ⟨s, moved_refl s, .inl ⟨e, rfl⟩⟩

theorem Moved.atRest {s u : State} (h : Moved s u) (hr : AtRest s) : AtRest u := by
  obtain ⟨es, rx, p, b, t, hg, hp, rfl, hb, ht⟩ := h
  exact ⟨hr.phase, hr.addr, hr.apndp, hr.rnw, hr.par, hr.hdr, hr.val, hr.vpar⟩

theorem Moved.alive {s u : State} (h : Moved s u) (ha : s.sess_dead = false) : u.sess_dead = false := by
  obtain ⟨es, rx, p, b, t, hg, hp, rfl, hb, ht⟩ := h
  exact ha

theorem guarded_frame {c : Cfg} {x : Txn × Reply} (h : replyFits c x) : Guarded (frameEvents x) := by
  obtain ⟨x, r⟩ := x
  obtain ⟨hc, ht, hf⟩ := h
  have ho : ∀ W, Guarded (openingEvents W r) := fun W => by
    simpa [openingEvents] using guarded_append (guarded_append (guarded_header (W := W) hc) guarded_ackOk)
      (guarded_turn r.turn)
  cases x with
  | read apndp a =>
    simpa [frameEvents] using guarded_append (ho (wireByte a apndp true))
      (guarded_append (guarded_read (d := wordBytes r.word) (o := some [parityUnit r.word]) rfl (by simp))
        (guarded_turn r.fin))
  | write apndp a v => exact guarded_append (ho (wireByte a apndp false)) (guarded_ask (by decide) hf)

theorem guarded_events {c : Cfg} {xs : List (Txn × Reply)} (h : ∀ x ∈ xs, replyFits c x) : Guarded (eventsOf xs) := by
  induction xs with
  | nil => exact guarded_nil
  | cons x xs ih =>
    rw [eventsOf_cons]
    exact guarded_append (guarded_frame (h x (by simp))) (ih fun y hy => h y (by simp [hy]))

theorem hasFrame_self (x : Txn) (r : Reply) : HasFrame x (frameEvents (x, r)) := ⟨[], [], r, by simp⟩

section
variable {s : State} {E : State → Prop}

theorem comes_swdrd_rest {apndp : Bool} {a : BitVec 2} {Q : Word → State → Prop} (hr : AtRest s)
    (ha : s.sess_dead = false)
    (hQ : ∀ (r : Reply) rx p, replyFits s.cfg (.read apndp a, r) → SameResets p s.por →
      Moved s (later (frameEvents (.read apndp a, r)) rx p s) →
      Q r.word (later (frameEvents (.read apndp a, r)) rx p s))
    (hE : ∀ t, Ended s t → E t) : Comes (swdrd apndp a) s Q E := by
  refine comes_swdrd ha hr.phase (fun r rx p hf hp => ?_) fun t h => hE t h.ended
  rw [clearLatches_of_atRest hr]
  exact hQ r rx p hf hp (moved_later (guarded_frame hf) hp)

theorem comes_swdwr_rest {apndp : Bool} {a : BitVec 2} {v : Word} {Q : Unit → State → Prop} (hr : AtRest s)
    (ha : s.sess_dead = false)
    (hQ : ∀ (r : Reply) rx p, replyFits s.cfg (.write apndp a v, r) → SameResets p s.por →
      Moved s (later (frameEvents (.write apndp a v, r)) rx p s) →
      Q () (later (frameEvents (.write apndp a v, r)) rx p s))
    (hE : ∀ t, Ended s t → E t) : Comes (swdwr apndp a v) s Q E := by
  refine comes_swdwr ha hr.phase (fun r rx p hf hp => ?_) fun t h => hE t h.ended
  rw [clearLatches_of_atRest hr]
  exact hQ r rx p hf hp (moved_later (guarded_frame hf) hp)

theorem comes_ensBank {b : BitVec 8} {Q : Unit → State → Prop} (hr : AtRest s) (ha : s.sess_dead = false)
    (hQ : ∀ xs rx p, xs.map Prod.fst = bankTxns s.cfg s.bank b → (∀ x ∈ xs, replyFits s.cfg x) →
      SameResets p s.por → Moved s (accessed (eventsOf xs) rx p (some (b.zeroExtend 32)) s.tar s) →
      Q () (accessed (eventsOf xs) rx p (some (b.zeroExtend 32)) s.tar s))
    (hE : ∀ t, Ended s t → E t) : Comes (ensBank b) s Q E := by
  unfold ensBank Comes
  have hv : selectValue b = b.zeroExtend 32 := rfl
  rw [hv]
  by_cases h : s.bank = some (b.zeroExtend 32)
  · have := hQ [] s.rx s.por (by simp [bankTxns, h]) (by simp) (.refl _)
    rw [← h, eventsOf_nil, accessed_self] at this
    simpa [h] using this (moved_refl s)
  · simp only [h, if_false]
    refine comes_andThen (comes_swdwr_rest hr ha (fun r rx p hf hp _ => ?_) hE)
    refine comes_of_done (modify_apply _ _) ?_
    have hm : Moved s (accessed (eventsOf [(.write false (selectSlot s.cfg) (b.zeroExtend 32), r)]) rx p
        (some (b.zeroExtend 32)) s.tar s) :=
      ⟨_, rx, p, _, _, by simpa [eventsOf] using guarded_frame hf, hp, rfl,
        .inr ⟨_, rfl, by simpa [eventsOf] using hasFrame_self _ r⟩, .inl rfl⟩
    have := hQ [(.write false (selectSlot s.cfg) (b.zeroExtend 32), r)] rx p (by simp [bankTxns, h])
      (by simpa using hf) hp hm
    simpa [later, setBank, accessed, eventsOf] using this

theorem comes_ensTar {v : Word} {Q : Unit → State → Prop} (hr : AtRest s) (ha : s.sess_dead = false)
    (hQ : ∀ xs rx p, xs.map Prod.fst = tarTxns s.cfg s.bank s.tar v → (∀ x ∈ xs, replyFits s.cfg x) →
      SameResets p s.por →
      Moved s (accessed (eventsOf xs) rx p (bankAfterTar s.cfg s.bank s.tar v) (some v) s) →
      Q () (accessed (eventsOf xs) rx p (bankAfterTar s.cfg s.bank s.tar v) (some v) s))
    (hE : ∀ t, Ended s t → E t) : Comes (ensTar v) s Q E := by
  unfold ensTar Comes
  by_cases h : s.tar = some v
  · have := hQ [] s.rx s.por (by simp [tarTxns, h]) (by simp) (.refl _)
    simp only [bankAfterTar, h, if_true] at this
    rw [← h, eventsOf_nil, accessed_self] at this
    simpa [h] using this (moved_refl s)
  · simp only [h, if_false]
    refine comes_andThen (comes_ensBank hr ha (fun xs rx p hx hf hp hm => ?_) hE)
    refine comes_andThen (comes_swdwr_rest (hm.atRest hr) (hm.alive ha) (fun r rx' q hf' hq hm' => ?_)
      fun t h => hE t (hm.ended h))
    refine comes_of_done (modify_apply _ _) ?_
    have hq' : SameResets q s.por := hq.trans hp
    have hm2 : Moved s (accessed (eventsOf (xs ++ [(.write true (tarSlot s.cfg) v, r)])) rx' q
        (bankAfterTar s.cfg s.bank s.tar v) (some v) s) := by
      refine hm.trans ⟨_, rx', q, some ((tarBank s.cfg).zeroExtend 32), some v, guarded_frame hf', hq, ?_, .inl rfl,
        .inr ⟨v, rfl, hasFrame_self _ r⟩⟩
      simp [accessed, eventsOf_append, eventsOf_cons, bankAfterTar, h, tarBank]
    have := hQ (xs ++ [(.write true (tarSlot s.cfg) v, r)]) rx' q (by simp [hx, tarTxns, h, tarBank])
      (by
        intro y hy
        rcases List.mem_append.mp hy with hy | hy
        · exact hf y hy
        · simp at hy; subst hy; exact hf') hq' hm2
    simpa [later, setTar, accessed, eventsOf_append, eventsOf_cons, bankAfterTar, h, tarBank] using this

theorem comes_stagedRead {a : BitVec 2} {Q : Word → State → Prop} (hr : AtRest s) (ha : s.sess_dead = false)
    (hQ : ∀ (r r' : Reply) rx p, replyFits s.cfg (.read true a, r) →
      replyFits s.cfg (.read false (rdbufSlot s.cfg), r') → SameResets p s.por →
      Moved s (later (eventsOf [(.read true a, r), (.read false (rdbufSlot s.cfg), r')]) rx p s) →
      Q r'.word (later (eventsOf [(.read true a, r), (.read false (rdbufSlot s.cfg), r')]) rx p s))
    (hE : ∀ t, Ended s t → E t) : Comes (stagedRead a) s Q E := by
  refine comes_andThen (comes_swdrd_rest hr ha (fun r rx p hf hp hm => ?_) hE)
  refine comes_andThen (comes_of_done (look_apply _ _) ?_)
  refine comes_swdrd_rest (hm.atRest hr) (hm.alive ha) (fun r' rx' q hf' hq hm' => ?_) fun t h => hE t (hm.ended h)
  have := hQ r r' rx' q hf hf' (hq.trans hp)
  have e : later (frameEvents (.read false (rdbufSlot (later (frameEvents (.read true a, r)) rx p s).cfg), r')) rx' q
      (later (frameEvents (.read true a, r)) rx p s) =
      later (eventsOf [(.read true a, r), (.read false (rdbufSlot s.cfg), r')]) rx' q s := by
    rw [later_later]
    simp [eventsOf_cons, later]
  rw [e] at hm' ⊢
  exact this (hm.trans hm')

theorem comes_openWindow {addr : Word} {Q : Unit → State → Prop} (hr : AtRest s) (ha : s.sess_dead = false)
    (hQ : ∀ xs rx p, xs.map Prod.fst = windowTxns s.cfg s.bank s.tar addr → (∀ x ∈ xs, replyFits s.cfg x) →
      SameResets p s.por →
      Moved s (accessed (eventsOf xs) rx p (some 0x10#32) (some (addr &&& s.cfg.tarAlignMask)) s) →
      Q () (accessed (eventsOf xs) rx p (some 0x10#32) (some (addr &&& s.cfg.tarAlignMask)) s))
    (hE : ∀ t, Ended s t → E t) : Comes (openWindow addr) s Q E := by
  refine comes_andThen (comes_of_done (look_apply _ _) ?_)
  refine comes_andThen (comes_ensTar hr ha (fun xs rx p hx hf hp hm => ?_) hE)
  refine comes_ensBank (hm.atRest hr) (hm.alive ha) (fun ys rx' q hy hf' hq hm' => ?_) fun t h => hE t (hm.ended h)
  have := hQ (xs ++ ys) rx' q (by rw [List.map_append, hx, hy]; rfl)
    (by
      intro y h
      rcases List.mem_append.mp h with h | h
      · exact hf y h
      · exact hf' y h) (hq.trans hp)
  rw [accessed_accessed, ← eventsOf_append] at hm' ⊢
  exact this (hm.trans hm')

theorem lastWord_append_pair (xs : List (Txn × Reply)) (x : Txn × Reply) (t : Txn) (r : Reply) :
    lastWord (xs ++ [x, (t, r)]) = some r.word := by simp [lastWord]

/-- `RD` of a descriptor: the transactions of 30_encoding.md R99, the caches of 44_register_router.md R174 to R177,
the last word. -/
theorem comes_readDescriptor {d : Descriptor} {Q : Word → State → Prop} (hr : AtRest s) (ha : s.sess_dead = false)
    (hQ : ∀ w xs rx p, xs.map Prod.fst = expandRd s.cfg s.bank s.tar d → (∀ x ∈ xs, replyFits s.cfg x) →
      lastWord xs = some w → SameResets p s.por →
      Moved s (accessed (eventsOf xs) rx p (bankAfter s.bank d) (tarAfter s.cfg s.tar d) s) →
      Q w (accessed (eventsOf xs) rx p (bankAfter s.bank d) (tarAfter s.cfg s.tar d) s))
    (hE : ∀ t, Ended s t → E t) : Comes (readDescriptor d) s Q E := by
  have window : ∀ base : Word, expandRd s.cfg s.bank s.tar d = windowTxns s.cfg s.bank s.tar (base + d.offset.zeroExtend 32) ++
      [.read true (slotOfAddr (base + d.offset.zeroExtend 32)), .read false (rdbufSlot s.cfg)] →
      bankAfter s.bank d = some 0x10#32 →
      tarAfter s.cfg s.tar d = some ((base + d.offset.zeroExtend 32) &&& s.cfg.tarAlignMask) →
      Comes (readWindow base d.offset) s Q E := by
    intro base hx hb ht
    refine comes_andThen (comes_openWindow hr ha (fun xs rx p h1 h2 hp hm => ?_) hE)
    refine comes_stagedRead (hm.atRest hr) (hm.alive ha) (fun r r' rx' q hf hf' hq hm' => ?_) fun t h => hE t (hm.ended h)
    have := hQ r'.word (xs ++ [(.read true (slotOfAddr (base + d.offset.zeroExtend 32)), r),
      (.read false (rdbufSlot s.cfg), r')]) rx' q (by simp [h1, hx, targetAddr])
      (by
        intro y hy
        simp at hy
        rcases hy with hy | rfl | rfl
        · exact h2 y hy
        · exact hf
        · exact hf')
      (lastWord_append_pair ..) (hq.trans hp)
    rw [hb, ht] at this
    have e : later (eventsOf [(.read true (slotOfAddr (targetAddr base d.offset)), r),
        (.read false (rdbufSlot s.cfg), r')]) rx' q
        (accessed (eventsOf xs) rx p (some 0x10#32) (some (targetAddr base d.offset &&& s.cfg.tarAlignMask)) s) =
        accessed (eventsOf (xs ++ [(.read true (slotOfAddr (base + d.offset.zeroExtend 32)), r),
          (.read false (rdbufSlot s.cfg), r')])) rx' q (some 0x10#32)
          (some ((base + d.offset.zeroExtend 32) &&& s.cfg.tarAlignMask)) s := by
      simp [later, accessed, eventsOf_append, targetAddr]
    change Moved _ (later (eventsOf [(.read true (slotOfAddr (targetAddr base d.offset)), r),
        (.read false (rdbufSlot s.cfg), r')]) rx' q _) at hm'
    change Q _ (later (eventsOf [(.read true (slotOfAddr (targetAddr base d.offset)), r),
        (.read false (rdbufSlot s.cfg), r')]) rx' q _)
    rw [e] at hm' ⊢
    exact this (hm.trans hm')
  obtain ⟨off, sp⟩ := d
  cases sp with
  | dp =>
    refine comes_swdrd_rest hr ha (fun r rx p hf hp hm => ?_) hE
    have := hQ r.word [(.read false (slotOf off), r)] rx p rfl (by simpa using hf) rfl hp
    have e : later (frameEvents (.read false (slotOf off), r)) rx p s =
        accessed (eventsOf [(.read false (slotOf off), r)]) rx p s.bank s.tar s := by
      simp [later, accessed, eventsOf]
    rw [e] at hm ⊢
    exact this hm
  | ap =>
    refine comes_andThen (comes_ensBank hr ha (fun xs rx p h1 h2 hp hm => ?_) hE)
    refine comes_stagedRead (hm.atRest hr) (hm.alive ha) (fun r r' rx' q hf hf' hq hm' => ?_) fun t h => hE t (hm.ended h)
    have := hQ r'.word (xs ++ [(.read true (slotOf off), r), (.read false (rdbufSlot s.cfg), r')]) rx' q
      (by simp [h1, expandRd])
      (by
        intro y hy
        simp at hy
        rcases hy with hy | rfl | rfl
        · exact h2 y hy
        · exact hf
        · exact hf')
      (lastWord_append_pair ..) (hq.trans hp)
    have e : later (eventsOf [(.read true (slotOf off), r), (.read false (rdbufSlot s.cfg), r')]) rx' q
        (accessed (eventsOf xs) rx p (some ((bankOf off).zeroExtend 32)) s.tar s) =
        accessed (eventsOf (xs ++ [(.read true (slotOf off), r), (.read false (rdbufSlot s.cfg), r')])) rx' q
          (some ((bankOf off).zeroExtend 32)) s.tar s := by
      simp [later, accessed, eventsOf_append]
    change Moved _ (later (eventsOf [(.read true (slotOf off), r), (.read false (rdbufSlot s.cfg), r')]) rx' q _) at hm'
    change Q _ (later (eventsOf [(.read true (slotOf off), r), (.read false (rdbufSlot s.cfg), r')]) rx' q _)
    rw [e] at hm' ⊢
    exact this (hm.trans hm')
  | ficr => exact window s.cfg.ficrBase rfl rfl rfl
  | uicr => exact window s.cfg.uicrBase rfl rfl rfl
  | scs => exact window s.cfg.scsBase rfl rfl rfl

/-- `WR` of a descriptor: the transactions of R99, the caches of R178 to R182. -/
theorem comes_writeDescriptor {d : Descriptor} {v : Word} {Q : Unit → State → Prop} (hr : AtRest s)
    (ha : s.sess_dead = false)
    (hQ : ∀ xs rx p, xs.map Prod.fst = expandWr s.cfg s.bank s.tar d v → (∀ x ∈ xs, replyFits s.cfg x) →
      SameResets p s.por →
      Moved s (accessed (eventsOf xs) rx p (bankAfterWr s.cfg s.bank d v) (tarAfterWr s.cfg s.tar d v) s) →
      Q () (accessed (eventsOf xs) rx p (bankAfterWr s.cfg s.bank d v) (tarAfterWr s.cfg s.tar d v) s))
    (hE : ∀ t, Ended s t → E t) : Comes (writeDescriptor d v) s Q E := by
  have window : ∀ base : Word, expandWr s.cfg s.bank s.tar d v = windowTxns s.cfg s.bank s.tar (base + d.offset.zeroExtend 32) ++
      [.write true (slotOfAddr (base + d.offset.zeroExtend 32)) v] →
      bankAfterWr s.cfg s.bank d v = some 0x10#32 →
      tarAfterWr s.cfg s.tar d v = some ((base + d.offset.zeroExtend 32) &&& s.cfg.tarAlignMask) →
      Comes (writeWindow base d.offset v) s Q E := by
    intro base hx hb ht
    refine comes_andThen (comes_openWindow hr ha (fun xs rx p h1 h2 hp hm => ?_) hE)
    refine comes_swdwr_rest (hm.atRest hr) (hm.alive ha) (fun r rx' q hf hq hm' => ?_) fun t h => hE t (hm.ended h)
    have := hQ (xs ++ [(.write true (slotOfAddr (base + d.offset.zeroExtend 32)) v, r)]) rx' q
      (by simp [h1, hx, targetAddr])
      (by
        intro y hy
        simp at hy
        rcases hy with hy | rfl
        · exact h2 y hy
        · exact hf) (hq.trans hp)
    rw [hb, ht] at this
    have e : later (frameEvents (.write true (slotOfAddr (targetAddr base d.offset)) v, r)) rx' q
        (accessed (eventsOf xs) rx p (some 0x10#32) (some (targetAddr base d.offset &&& s.cfg.tarAlignMask)) s) =
        accessed (eventsOf (xs ++ [(.write true (slotOfAddr (base + d.offset.zeroExtend 32)) v, r)])) rx' q (some 0x10#32)
          (some ((base + d.offset.zeroExtend 32) &&& s.cfg.tarAlignMask)) s := by
      simp [later, accessed, eventsOf_append, eventsOf_cons, targetAddr]
    rw [e] at hm' ⊢
    exact this (hm.trans hm')
  obtain ⟨off, sp⟩ := d
  cases sp with
  | dp =>
    refine comes_andThen (comes_swdwr_rest hr ha (fun r rx p hf hp hm => ?_) hE)
    refine comes_of_done (modify_apply _ _) ?_
    have e : snooped ⟨off, .dp⟩ v (later (frameEvents (.write false (slotOf off) v, r)) rx p s) =
        accessed (eventsOf [(.write false (slotOf off) v, r)]) rx p (bankAfterWr s.cfg s.bank ⟨off, .dp⟩ v)
          (tarAfterWr s.cfg s.tar ⟨off, .dp⟩ v) s := by
      simp [later, accessed, eventsOf, snooped, bankAfterWr, tarAfterWr, bankAfter, tarAfter]
    rw [e]
    refine hQ [(.write false (slotOf off) v, r)] rx p rfl (by simpa using hf) hp
      ⟨_, rx, p, _, _, by simpa [eventsOf] using guarded_frame hf, hp, rfl, ?_, .inl (by simp [tarAfterWr, tarAfter])⟩
    simp only [bankAfterWr, bankAfter, true_and]
    split
    · rename_i h
      exact .inr ⟨v, rfl, by simpa [eventsOf, ← h] using hasFrame_self _ r⟩
    · exact .inl rfl
  | ap =>
    refine comes_andThen (comes_ensBank hr ha (fun xs rx p h1 h2 hp hm => ?_) hE)
    refine comes_andThen (comes_swdwr_rest (hm.atRest hr) (hm.alive ha) (fun r rx' q hf hq hm' => ?_)
      fun t h => hE t (hm.ended h))
    refine comes_of_done (modify_apply _ _) ?_
    have e : snooped ⟨off, .ap⟩ v (later (frameEvents (.write true (slotOf off) v, r)) rx' q
        (accessed (eventsOf xs) rx p (some ((bankOf off).zeroExtend 32)) s.tar s)) =
        accessed (frameEvents (.write true (slotOf off) v, r)) rx' q (some ((bankOf off).zeroExtend 32))
          (tarAfterWr s.cfg s.tar ⟨off, .ap⟩ v) (accessed (eventsOf xs) rx p (some ((bankOf off).zeroExtend 32)) s.tar s) := by
      simp [later, accessed, snooped, tarAfterWr, tarAfter]
    have e' : accessed (frameEvents (.write true (slotOf off) v, r)) rx' q (some ((bankOf off).zeroExtend 32))
          (tarAfterWr s.cfg s.tar ⟨off, .ap⟩ v) (accessed (eventsOf xs) rx p (some ((bankOf off).zeroExtend 32)) s.tar s) =
        accessed (eventsOf (xs ++ [(.write true (slotOf off) v, r)])) rx' q (bankAfterWr s.cfg s.bank ⟨off, .ap⟩ v)
          (tarAfterWr s.cfg s.tar ⟨off, .ap⟩ v) s := by
      simp [accessed, eventsOf_append, eventsOf_cons, bankAfterWr, bankAfter]
    have hm2 : Moved (accessed (eventsOf xs) rx p (some ((bankOf off).zeroExtend 32)) s.tar s)
        (accessed (frameEvents (.write true (slotOf off) v, r)) rx' q (some ((bankOf off).zeroExtend 32))
          (tarAfterWr s.cfg s.tar ⟨off, .ap⟩ v) (accessed (eventsOf xs) rx p (some ((bankOf off).zeroExtend 32)) s.tar s)) := by
      refine ⟨_, rx', q, _, _, guarded_frame hf, hq, rfl, .inl rfl, ?_⟩
      simp only [tarAfterWr, tarAfter, true_and]
      split
      · rename_i h
        refine .inr ⟨v, rfl, ?_⟩
        have hs : slotOf off = tarSlot s.cfg := by
          rw [tarSlot, slotOf, ← h]
          apply BitVec.eq_of_getLsbD_eq
          intro i hi
          simp only [BitVec.getLsbD_extractLsb']
          have : 2 + i < 8 := by omega
          simp [hi, this]
        rw [hs]
        exact hasFrame_self _ r
      · exact .inl rfl
    rw [e]
    have hm3 := hm.trans hm2
    rw [e'] at hm3 ⊢
    refine hQ (xs ++ [(.write true (slotOf off) v, r)]) rx' q (by simp [h1, expandWr]) ?_ (hq.trans hp) hm3
    intro y hy
    simp at hy
    rcases hy with hy | rfl
    · exact h2 y hy
    · exact hf
  | ficr => exact window s.cfg.ficrBase rfl rfl rfl
  | uicr => exact window s.cfg.uicrBase rfl rfl rfl
  | scs => exact window s.cfg.scsBase rfl rfl rfl

theorem comes_resolveId {id : BitVec 8} {Q : Descriptor → State → Prop}
    (hQ : ∀ d, lookup s.cfg.regtab id = some d → Q d s) (hE : ∀ t, Ended s t → E t) :
    Comes (resolveId id) s Q E := by
  refine comes_andThen (comes_of_done (look_apply _ _) ?_)
  cases h : lookup s.cfg.regtab id with
  | none => exact comes_of_ended (raise_apply _ _) (hE _ (ended_raised _))
  | some d => exact comes_of_done (ret_apply _ _) (hQ d h)

/-- `RD id` (44_register_router.md R170). -/
theorem comes_readReg {id : BitVec 8} {Q : Word → State → Prop} (hr : AtRest s) (ha : s.sess_dead = false)
    (hQ : ∀ d w xs rx p, lookup s.cfg.regtab id = some d → xs.map Prod.fst = expandRd s.cfg s.bank s.tar d →
      (∀ x ∈ xs, replyFits s.cfg x) → lastWord xs = some w → SameResets p s.por →
      Moved s (accessed (eventsOf xs) rx p (bankAfter s.bank d) (tarAfter s.cfg s.tar d) s) →
      Q w (accessed (eventsOf xs) rx p (bankAfter s.bank d) (tarAfter s.cfg s.tar d) s))
    (hE : ∀ t, Ended s t → E t) : Comes (readReg id) s Q E :=
  comes_andThen (comes_resolveId (fun d hd => comes_readDescriptor hr ha (fun w xs rx p => hQ d w xs rx p hd) hE) hE)

/-- `WR id, v` (R170). -/
theorem comes_writeReg {id : BitVec 8} {v : Word} {Q : Unit → State → Prop} (hr : AtRest s) (ha : s.sess_dead = false)
    (hQ : ∀ d xs rx p, lookup s.cfg.regtab id = some d → xs.map Prod.fst = expandWr s.cfg s.bank s.tar d v →
      (∀ x ∈ xs, replyFits s.cfg x) → SameResets p s.por →
      Moved s (accessed (eventsOf xs) rx p (bankAfterWr s.cfg s.bank d v) (tarAfterWr s.cfg s.tar d v) s) →
      Q () (accessed (eventsOf xs) rx p (bankAfterWr s.cfg s.bank d v) (tarAfterWr s.cfg s.tar d v) s))
    (hE : ∀ t, Ended s t → E t) : Comes (writeReg id v) s Q E :=
  comes_andThen (comes_resolveId (fun d hd => comes_writeDescriptor hr ha (fun xs rx p => hQ d xs rx p hd) hE) hE)

end

end Sys2Proof.Machine
end

