-- ==== Sys2Proof/Laws/Failure.lean ====
section
/-! SUPPORT. What each phase and each transaction does when the transport's answer fails at it (43_transaction_codec.md
R142, R145 to R148): the error of that point, the events up to it, the units consumed. -/

namespace Sys2Proof.Machine

/-- The time limit runs out during confirmations (R143, R148). -/
theorem awaitConf_timeLimit {s : State} {us : List Byte} {rest : List RxItem} {n : Nat} (h : s.por = [])
    (hn : us.length < n) (hrx : s.rx = delivered us ++ .timeLimit :: rest) :
    awaitConf n s = .ended (raised .timeout (ran [.flush, .recv n none] rest s)) := by
  unfold awaitConf
  rw [if_neg (by omega), andThen_of_done (flush_noReset h),
    andThen_of_ended (await_timeLimit (us := us) (rest := rest) (by simpa using h) hn (by simpa using hrx))]
  simp [ran_ran]

/-- The time limit runs out during the confirmations of a raw frame (R152). -/
theorem rawSend_timeLimit {s : State} {bytes us : List Byte} {rest : List RxItem} (hb : bytes ≠ [])
    (halive : s.sess_dead = false) (hidle : s.t_phase = .idle) (h : s.por = []) (hn : us.length < s.cfg.rawConf)
    (hrx : s.rx = delivered us ++ .timeLimit :: rest) :
    rawSend bytes s = .ended (raised .timeout
      (ran [.send (.wr bytes.length :: bytes.map .byte), .flush, .recv s.cfg.rawConf none] rest s)) := by
  unfold rawSend
  rw [andThen_of_done (requireIdle_ok halive hidle)]
  simp only [List.isEmpty_iff, hb, if_false]
  rw [andThen_of_done (send_noReset _ h), andThen_of_done (look_apply _ _),
    awaitConf_timeLimit (us := us) (rest := rest) (by simpa using h) (by simpa using hn) (by simpa using hrx)]
  simp [ran_ran]

/-- The time limit runs out in phase `T_HDR` (R141). -/
theorem phaseHdr_timeout {s : State} {a : BitVec 2} {apndp rnw : Bool} {us : List Byte} {rest : List RxItem}
    (hpor : s.por = []) (ha : s.t_addr = some a) (hap : s.t_apndp = some apndp) (hrw : s.t_rnw = some rnw)
    (hn : us.length < 2) (hrx : s.rx = delivered us ++ .timeLimit :: rest) :
    phaseHdr s = .ended (raised .timeout
      (ran [.send [.wr 1, .byte (wireByte a apndp rnw)], .flush, .recv 2 none] rest s)) := by
  unfold phaseHdr enterPhase
  rw [andThen_of_done (modify_apply _ s), andThen_of_done (latched_some (by simpa using ha)),
    andThen_of_done (latched_some (by simpa using hap)), andThen_of_done (latched_some (by simpa using hrw)),
    andThen_of_done (modify_apply _ _), andThen_of_done (send_noReset _ (by simpa using hpor)),
    andThen_of_done (flush_noReset (by simpa using hpor)),
    andThen_of_ended (await_timeLimit (n := Config.hdrConf) (us := us) (rest := rest) (by simpa using hpor) hn
      (by simpa using hrx))]
  simp [ran, raised, clearLatches, setPhase, setHeader, Config.hdrConf]

/-- The time limit runs out in phase `T_ACK` (R142). -/
theorem phaseAck_timeout {s : State} {us : List Byte} {rest : List RxItem} (hpor : s.por = [])
    (hn : us.length < 3) (hrx : s.rx = delivered us ++ .timeLimit :: rest) :
    phaseAck s = .ended (raised .timeout
      (ran [.send [.rdbit, .rdbit, .rdbit], .flush, .recv 3 none] rest s)) := by
  unfold phaseAck enterPhase
  rw [andThen_of_done (modify_apply _ s), andThen_of_done (send_noReset _ (by simpa using hpor)),
    andThen_of_done (flush_noReset (by simpa using hpor)),
    andThen_of_ended (await_timeLimit (n := 3) (us := us) (rest := rest)
      (by simpa using hpor) hn (by simpa using hrx))]
  simp [ran, raised, clearLatches, setPhase]

/-- The time limit runs out in phase `T_TRN` (R144). -/
theorem phaseTrn_timeout {s : State} {us : List Byte} {rest : List RxItem} (hpor : s.por = [])
    (hn : us.length < s.cfg.trnConf) (hrx : s.rx = delivered us ++ .timeLimit :: rest) :
    phaseTrn s = .ended (raised .timeout (ran [.send [.clk], .flush, .recv s.cfg.trnConf none] rest s)) := by
  unfold phaseTrn enterPhase
  rw [andThen_of_done (modify_apply _ s), andThen_of_done (send_noReset _ (by simpa using hpor)),
    andThen_of_done (look_apply _ _),
    awaitConf_timeLimit (us := us) (rest := rest) (by simpa using hpor) (by simpa using hn) (by simpa using hrx)]
  simp [ran, raised, clearLatches, setPhase]

/-- The time limit runs out in phase `T_DATA` of a write (R146). -/
theorem phaseWrite_timeout {s : State} {v : Word} {p : Bool} {us : List Byte} {rest : List RxItem}
    (hpor : s.por = []) (hv : s.t_val = some v) (hp : s.t_vpar = some p) (hn : us.length < 2)
    (hrx : s.rx = delivered us ++ .timeLimit :: rest) :
    phaseWrite s = .ended (raised .timeout
      (ran [.send (.wr 4 :: (wordBytes v).map .byte ++ [parityToken p]), .flush, .recv 2 none] rest s)) := by
  unfold phaseWrite enterPhase
  rw [andThen_of_done (modify_apply _ s), andThen_of_done (latched_some (by simpa using hv)),
    andThen_of_done (latched_some (by simpa using hp)), andThen_of_done (send_noReset _ (by simpa using hpor)),
    andThen_of_done (flush_noReset (by simpa using hpor)),
    andThen_of_ended (await_timeLimit (n := Config.wrConf) (us := us) (rest := rest) (by simpa using hpor) hn
      (by simpa using hrx))]
  simp [ran, raised, clearLatches, setPhase, Config.wrConf]

section
variable {α : Type} {K : Op α} {s : State} {a : BitVec 2} {apndp rnw : Bool} {rest : List RxItem}

/-- The phases before the data phase, answered. -/
theorem opening_good {r : Reply} (hpor : s.por = []) (ha : s.t_addr = some a) (hap : s.t_apndp = some apndp)
    (hrw : s.t_rnw = some rnw) (hc : r.conf.length = 2) (ht : r.turn.length = s.cfg.trnConf)
    (hrx : s.rx = delivered (openingUnits r) ++ rest) :
    (andThen phaseHdr fun _ => andThen phaseAck fun _ => andThen phaseTrn fun _ => K) s =
      K (ran (openingEvents (wireByte a apndp rnw) r) rest
        (setPhase .trn (setHeader (hpar a apndp rnw) (header a apndp rnw) s))) := by
  simp only [openingUnits, delivered_append, List.append_assoc] at hrx
  rw [andThen_of_done (phaseHdr_good hpor ha hap hrw hc hrx),
    andThen_of_done (phaseAck_good (by simpa using hpor) rfl),
    andThen_of_done (phaseTrn_good (by simpa using hpor) (by simpa using ht) rfl)]
  simp [ran, setPhase, setHeader, openingEvents]

/-- Is the failure one of the phases before the data phase? -/
def Early (st : Stop) : Prop :=
  (∃ us, st = .headerTimeout us) ∨ (∃ us, st = .ackTimeout us) ∨ (∃ us, st = .ackMismatch us) ∨
    ∃ us, st = .turnTimeout us

/-- The phases before the data phase, one of which fails. -/
theorem opening_stop {x : Txn × Reply} {st : Stop} (hW : x.1.wire = wireByte a apndp rnw) (hpor : s.por = [])
    (ha : s.t_addr = some a) (hap : s.t_apndp = some apndp) (hrw : s.t_rnw = some rnw) (hc : x.2.conf.length = 2)
    (hst : stopFits s.cfg x st) (hrx : s.rx = stopScript x st ++ rest) (he : Early st) :
    (andThen phaseHdr fun _ => andThen phaseAck fun _ => andThen phaseTrn fun _ => K) s =
      .ended (raised (stopError st) (ran (stopEvents s.cfg x st) rest s)) := by
  rcases he with ⟨us, rfl⟩ | ⟨us, rfl⟩ | ⟨us, rfl⟩ | ⟨us, rfl⟩ <;>
    simp only [stopScript, List.append_assoc, List.singleton_append, delivered_append] at hrx
  · rw [andThen_of_ended (phaseHdr_timeout hpor ha hap hrw hst hrx)]
    simp [stopError, stopEvents, hW]
  · rw [andThen_of_done (phaseHdr_good hpor ha hap hrw hc hrx),
      andThen_of_ended (phaseAck_timeout (us := us) (rest := rest) (by simpa using hpor) hst rfl)]
    simp [stopError, stopEvents, hW, ran, raised, clearLatches, setPhase, setHeader]
  · rw [andThen_of_done (phaseHdr_good hpor ha hap hrw hc hrx),
      andThen_of_ended (phaseAck_mismatch (us := us) (rest := rest) (by simpa using hpor) hst.1 hst.2 rfl)]
    simp [stopError, stopEvents, hW, ran, raised, clearLatches, setPhase, setHeader]
  · rw [andThen_of_done (phaseHdr_good hpor ha hap hrw hc hrx),
      andThen_of_done (phaseAck_good (by simpa using hpor) rfl),
      andThen_of_ended (phaseTrn_timeout (us := us) (rest := rest) (by simpa using hpor)
        (by simpa [stopFits] using hst) (by simp))]
    simp [stopError, stopEvents, hW, ran, raised, clearLatches, setPhase, setHeader]

end

/-- The part of a failing read's script and trace that belongs to its data phase and tail. -/
inductive ReadTail (c : Cfg) (r : Reply) : Stop → List RxItem → List Event → Prop where
  | data (us : List Byte) : us.length < 4 → ReadTail c r (.dataTimeout us) (delivered us ++ [.timeLimit])
      [.send [.rdbyte, .rdbyte, .rdbyte, .rdbyte, .rdbit], .flush, .recv 4 none]
  | parity : ReadTail c r .parityTimeout (delivered (wordBytes r.word) ++ [.timeLimit])
      [.send [.rdbyte, .rdbyte, .rdbyte, .rdbyte, .rdbit], .flush, .recv 4 (some (wordBytes r.word)), .recv 1 none]
  | wrong (q : Byte) : q ≠ parityUnit r.word → ReadTail c r (.parityError q) (delivered (wordBytes r.word ++ [q]))
      [.send [.rdbyte, .rdbyte, .rdbyte, .rdbyte, .rdbit], .flush, .recv 4 (some (wordBytes r.word)),
       .recv 1 (some [q])]
  | fin (us : List Byte) : us.length < c.rdIdleConf →
      ReadTail c r (.finTimeout us) (delivered (wordBytes r.word ++ [parityUnit r.word] ++ us) ++ [.timeLimit])
        [.send [.rdbyte, .rdbyte, .rdbyte, .rdbyte, .rdbit], .flush, .recv 4 (some (wordBytes r.word)),
         .recv 1 (some [parityUnit r.word]), .send [.clk], .flush, .recv c.rdIdleConf none]

/-- The data phase or the tail of a read fails (R145, R148). -/
theorem phaseRead_stop {s : State} {r : Reply} {st : Stop} {script rest : List RxItem} {es : List Event}
    (hpor : s.por = []) (h : ReadTail s.cfg r st script es) (hrx : s.rx = script ++ rest) :
    phaseRead s = .ended (raised (stopError st) (ran es rest s)) := by
  unfold phaseRead enterPhase
  rw [andThen_of_done (modify_apply _ s), andThen_of_done (send_noReset _ (by simpa using hpor)),
    andThen_of_done (flush_noReset (by simpa using hpor))]
  cases h with
  | data us hn =>
    rw [andThen_of_ended (await_timeLimit (n := 4) (us := us) (rest := rest) (by simpa using hpor) hn
      (by simpa using hrx))]
    simp [ran, raised, clearLatches, setPhase, stopError]
  | parity =>
    rw [andThen_of_done (await_delivered (n := 4) (us := wordBytes r.word) (rest := .timeLimit :: rest)
        (by simpa using hpor) rfl (by simpa using hrx)),
      andThen_of_ended (await_timeLimit (n := 1) (us := []) (rest := rest) (by simpa using hpor) (by decide) (by simp))]
    simp [ran, raised, clearLatches, setPhase, stopError]
  | wrong q hq =>
    rw [andThen_of_done (await_delivered (n := 4) (us := wordBytes r.word) (rest := delivered [q] ++ rest)
        (by simpa using hpor) rfl (by simpa [delivered_append] using hrx)),
      andThen_of_done (await_delivered (n := 1) (us := [q]) (rest := rest) (by simpa using hpor) rfl (by simp)),
      andThen_of_done (modify_apply _ _)]
    simp only [wordOfUnits_wordBytes]
    rw [if_neg (by simpa using hq)]
    simp [ran, raised, clearLatches, setPhase, stopError, setValue]
  | fin us hn =>
    rw [andThen_of_done (await_delivered (n := 4) (us := wordBytes r.word)
        (rest := delivered [parityUnit r.word] ++ (delivered us ++ .timeLimit :: rest)) (by simpa using hpor) rfl
        (by simpa [delivered] using hrx)),
      andThen_of_done (await_delivered (n := 1) (us := [parityUnit r.word])
        (rest := delivered us ++ .timeLimit :: rest) (by simpa using hpor) rfl (by simp)),
      andThen_of_done (modify_apply _ _)]
    simp only [wordOfUnits_wordBytes, beq_self_eq_true, if_true]
    rw [andThen_of_done (modify_apply _ _), andThen_of_done (send_noReset _ (by simpa using hpor)),
      andThen_of_done (look_apply _ _),
      andThen_of_ended (awaitConf_timeLimit (us := us) (rest := rest) (by simpa using hpor) (by simpa using hn)
        (by simp))]
    simp [ran, raised, clearLatches, setPhase, stopError, setValue]

/-- A failure of a read that is not early is one of its data phase or tail. -/
theorem readTail_of_late {c : Cfg} {apndp : Bool} {a : BitVec 2} {r : Reply} {st : Stop} (he : ¬ Early st)
    (hst : stopFits c (.read apndp a, r) st) : ∃ script es, ReadTail c r st script es ∧
      stopScript (.read apndp a, r) st = delivered (openingUnits r) ++ script ∧
      stopEvents c (.read apndp a, r) st = openingEvents (wireByte a apndp true) r ++ es := by
  cases st with
  | headerTimeout us => simp [Early] at he
  | ackTimeout us => simp [Early] at he
  | ackMismatch us => simp [Early] at he
  | turnTimeout us => simp [Early] at he
  | dataTimeout us => exact ⟨_, _, .data us hst.2, by simp [stopScript, delivered_append], rfl⟩
  | parityTimeout => exact ⟨_, _, .parity, by simp [stopScript, delivered_append], rfl⟩
  | parityError q => exact ⟨_, _, .wrong q hst.2, by simp [stopScript, delivered_append], rfl⟩
  | finTimeout us => exact ⟨_, _, .fin us hst, by simp [stopScript, delivered_append], rfl⟩

/-- `SWDRD` whose answer fails (R150): the error of the point, the events up to it. -/
theorem swdrd_stop {s : State} {apndp : Bool} {a : BitVec 2} {r : Reply} {st : Stop} {rest : List RxItem}
    (halive : s.sess_dead = false) (hidle : s.t_phase = .idle) (hpor : s.por = [])
    (hf : replyFits s.cfg (.read apndp a, r)) (hst : stopFits s.cfg (.read apndp a, r) st)
    (hrx : s.rx = stopScript (.read apndp a, r) st ++ rest) :
    swdrd apndp a s = .ended (raised (stopError st) (ran (stopEvents s.cfg (.read apndp a, r) st) rest s)) := by
  obtain ⟨hc, ht, _⟩ := hf
  unfold swdrd
  rw [andThen_of_done (requireIdle_ok halive hidle), andThen_of_done (modify_apply _ _)]
  by_cases he : Early st
  · rw [opening_stop (s := setInputs apndp true a s)
      (K := andThen phaseRead fun word => andThen (modify clearLatches) fun _ => ret word) (x := (.read apndp a, r))
      (a := a) (apndp := apndp) (rnw := true) (rest := rest) rfl (by simpa using hpor) rfl rfl rfl hc hst hrx he]
    rfl
  · obtain ⟨script, es, h, h1, h2⟩ := readTail_of_late he hst
    rw [opening_good (s := setInputs apndp true a s) (r := r) (a := a) (apndp := apndp) (rnw := true)
      (rest := script ++ rest) (by simpa using hpor) rfl rfl rfl hc ht (by simp [hrx, h1]),
      andThen_of_ended (phaseRead_stop (script := script) (es := es) (rest := rest) (by simpa using hpor)
        (by simpa using h) (by simp)), h2]
    simp [ran, raised, clearLatches, setPhase, setHeader, setInputs]

/-- `SWDWR` whose answer fails (R151). -/
theorem swdwr_stop {s : State} {apndp : Bool} {a : BitVec 2} {v : Word} {r : Reply} {st : Stop} {rest : List RxItem}
    (halive : s.sess_dead = false) (hidle : s.t_phase = .idle) (hpor : s.por = [])
    (hf : replyFits s.cfg (.write apndp a v, r)) (hst : stopFits s.cfg (.write apndp a v, r) st)
    (hrx : s.rx = stopScript (.write apndp a v, r) st ++ rest) :
    swdwr apndp a v s = .ended (raised (stopError st) (ran (stopEvents s.cfg (.write apndp a v, r) st) rest s)) := by
  obtain ⟨hc, ht, _⟩ := hf
  unfold swdwr
  rw [andThen_of_done (requireIdle_ok halive hidle), andThen_of_done (modify_apply _ _),
    andThen_of_done (modify_apply _ _)]
  by_cases he : Early st
  · rw [opening_stop (s := setValue v (wpar v) (setInputs apndp false a s))
      (K := andThen phaseWrite fun _ => modify clearLatches) (x := (.write apndp a v, r))
      (a := a) (apndp := apndp) (rnw := false) (rest := rest) rfl (by simpa using hpor) rfl rfl rfl hc hst hrx he]
    rfl
  · cases st with
    | headerTimeout us => simp [Early] at he
    | ackTimeout us => simp [Early] at he
    | ackMismatch us => simp [Early] at he
    | turnTimeout us => simp [Early] at he
    | dataTimeout us => simp [stopFits, Txn.isRead] at hst
    | parityTimeout => simp [stopFits, Txn.isRead] at hst
    | parityError q => simp [stopFits, Txn.isRead] at hst
    | finTimeout us =>
      rw [opening_good (s := setValue v (wpar v) (setInputs apndp false a s)) (r := r) (a := a) (apndp := apndp)
        (rnw := false) (rest := (delivered us ++ [.timeLimit]) ++ rest) (by simpa using hpor) rfl rfl rfl hc ht
        (by simp [hrx, stopScript, delivered_append]),
        andThen_of_ended (phaseWrite_timeout (v := v) (p := wpar v) (us := us) (rest := rest) (by simpa using hpor)
          rfl rfl hst (by simp))]
      simp [ran, raised, clearLatches, setPhase, setHeader, setInputs, setValue, stopError, stopEvents, Txn.wire,
        Txn.dataTokens, wordBytes, parityToken]

end Sys2Proof.Machine
end

