-- ==== Sys2Proof/Laws/Run.lean ====
section
/-! SUPPORT. What each operation of the cache controller does under a script, said once over the transactions
30_encoding.md R99 lists for it: all of them answered, or all up to one whose answer fails (44_register_router.md R172 to
R184, 60_exceptions.md R271). -/

namespace Sys2Proof.Machine

/-- `m` run in `s` is exactly the transactions `txns`: answered, it comes back with a result `val` admits and the caches
at `c`; where one of them fails, it ends with that one's error and the caches as the completed ones left them. -/
structure Performs {α : Type} (m : Op α) (s : State) (txns : List Txn) (val : List (Txn × Reply) → α → Prop)
    (c : Option Word × Option Word) : Prop where
  good : ∀ xs rest, xs.map Prod.fst = txns → (∀ x ∈ xs, replyFits s.cfg x) → s.rx = scriptOf xs ++ rest →
    ∃ a, m s = .done a (accessed (eventsOf xs) rest s.por c.1 c.2 s) ∧ val xs a
  stop : ∀ xs x st later rest, xs.map Prod.fst ++ x.1 :: later = txns → (∀ y ∈ xs, replyFits s.cfg y) →
    replyFits s.cfg x → stopFits s.cfg x st → s.rx = scriptOf xs ++ stopScript x st ++ rest →
    m s = .ended (raised (stopError st) (accessed (eventsOf xs ++ stopEvents s.cfg x st) rest s.por
      (cachesAfter (s.bank, s.tar) (xs.map Prod.fst)).1 (cachesAfter (s.bank, s.tar) (xs.map Prod.fst)).2 s))

theorem cachesAfter_append (c : Option Word × Option Word) (xs ys : List Txn) :
    cachesAfter c (xs ++ ys) = cachesAfter (cachesAfter c xs) ys := by
  induction xs generalizing c with
  | nil => rfl
  | cons x xs ih =>
    match x with
    | .read _ _ => exact ih _
    | .write false _ _ => exact ih _
    | .write true _ _ => exact ih _

section
variable {α β : Type} {s : State} {c c' : Option Word × Option Word}

theorem performs_ret (a : α) : Performs (ret a) s [] (fun _ b => b = a) (s.bank, s.tar) where
  good xs rest hx _ hrx := by
    simp at hx
    subst hx
    simp at hrx
    exact ⟨a, by rw [← hrx, eventsOf_nil, accessed_self]; rfl, rfl⟩
  stop xs x st later rest h := by simp at h

/-- An operation after one that has a result and changes nothing. -/
theorem performs_pure {γ : Type} {m : Op γ} {g : γ} {K : γ → Op α} {txns : List Txn}
    {val : List (Txn × Reply) → α → Prop} (hm : m s = .done g s) (h : Performs (K g) s txns val c) :
    Performs (andThen m K) s txns val c := by
  have e : andThen m K s = K g s := andThen_of_done hm
  exact ⟨fun xs rest h1 h2 h3 => by rw [e]; exact h.good xs rest h1 h2 h3,
    fun xs x st later rest h1 h2 h3 h4 h5 => by rw [e]; exact h.stop xs x st later rest h1 h2 h3 h4 h5⟩

/-- An operation after a look at the state. -/
theorem performs_look {γ : Type} {f : State → γ} {K : γ → Op α} {txns : List Txn}
    {val : List (Txn × Reply) → α → Prop} (h : Performs (K (f s)) s txns val c) :
    Performs (andThen (look f) K) s txns val c := ⟨h.good, h.stop⟩

/-- A sequence is the transactions of both parts, if the first leaves in the caches what it wrote. -/
theorem performs_bind {m : Op α} {f : α → Op β} {xs ys : List Txn} {val : List (Txn × Reply) → α → Prop}
    {val' : α → List (Txn × Reply) → β → Prop} (h : Performs m s xs val c) (hc : cachesAfter (s.bank, s.tar) xs = c)
    (h' : ∀ a es rest, Performs (f a) (accessed es rest s.por c.1 c.2 s) ys (val' a) c') :
    Performs (andThen m f) s (xs ++ ys) 
      (fun zs b => ∃ us vs a, zs = us ++ vs ∧ us.map Prod.fst = xs ∧ val us a ∧ val' a vs b) c' where
  good zs rest hz hf hrx := by
    obtain ⟨us, vs, rfl, hu, hv⟩ := List.map_eq_append_iff.mp hz
    rw [scriptOf_append, List.append_assoc] at hrx
    obtain ⟨a, hm, ha⟩ := h.good us _ hu (fun x hx => hf x (by simp [hx])) hrx
    obtain ⟨b, hm', hb⟩ := (h' a (eventsOf us) (scriptOf vs ++ rest)).good vs rest hv
      (fun x hx => hf x (by simp [hx])) rfl
    refine ⟨b, ?_, us, vs, a, rfl, hu, ha, hb⟩
    rw [andThen_of_done hm, hm', accessed_accessed, eventsOf_append]
    rfl
  stop zs x st later rest hz hf hfx hst hrx := by
    rcases List.append_eq_append_iff.mp hz with ⟨ws, h1, h2⟩ | ⟨ws, h1, h2⟩
    · cases ws with
      | nil =>
        simp only [List.append_nil, List.nil_append] at h1 h2
        obtain ⟨a, hm, _⟩ := h.good zs (stopScript x st ++ rest) h1.symm hf (by simpa using hrx)
        rw [andThen_of_done hm]
        have := (h' a (eventsOf zs) (stopScript x st ++ rest)).stop [] x st later rest (by simpa using h2) (by simp)
          hfx hst (by simp [accessed])
        rw [this, accessed_accessed]
        subst hc
        simp [h1, accessed, cachesAfter]
      | cons w ws =>
        simp only [List.cons_append, List.cons.injEq] at h2
        obtain ⟨rfl, rfl⟩ := h2
        rw [andThen_of_ended (h.stop zs x st ws rest h1.symm hf hfx hst hrx)]
    · obtain ⟨us, vs, rfl, hu, hv⟩ := List.map_eq_append_iff.mp h1
      rw [scriptOf_append, List.append_assoc, List.append_assoc] at hrx
      obtain ⟨a, hm, _⟩ := h.good us (scriptOf vs ++ (stopScript x st ++ rest)) hu (fun y hy => hf y (by simp [hy])) hrx
      rw [andThen_of_done hm]
      have := (h' a (eventsOf us) (scriptOf vs ++ (stopScript x st ++ rest))).stop vs x st later rest (by rw [hv, h2])
        (fun y hy => hf y (by simp [hy])) hfx hst (by simp [accessed])
      rw [this, accessed_accessed]
      subst hc
      simp [accessed, cachesAfter_append, hu, eventsOf_append]

theorem Performs.mono {m : Op α} {txns : List Txn} {val val' : List (Txn × Reply) → α → Prop}
    (h : Performs m s txns val c) (hv : ∀ xs a, xs.map Prod.fst = txns → val xs a → val' xs a) :
    Performs m s txns val' c where
  good xs rest h1 h2 h3 := by
    obtain ⟨a, hm, ha⟩ := h.good xs rest h1 h2 h3
    exact ⟨a, hm, hv xs a h1 ha⟩
  stop := h.stop

/-- The same where the result of the first part does not matter. -/
theorem performs_andThen {m : Op α} {f : α → Op β} {xs ys : List Txn} {val : List (Txn × Reply) → α → Prop}
    {val' : List (Txn × Reply) → β → Prop} (h : Performs m s xs val c) (hc : cachesAfter (s.bank, s.tar) xs = c)
    (h' : ∀ a es rest, Performs (f a) (accessed es rest s.por c.1 c.2 s) ys val' c') :
    Performs (andThen m f) s (xs ++ ys) (fun zs b => ∃ us vs, zs = us ++ vs ∧ us.map Prod.fst = xs ∧ val' vs b) c' :=
  (performs_bind h hc h').mono fun _ _ _ ⟨us, vs, _, h1, h2, _, h3⟩ => ⟨us, vs, h1, h2, h3⟩

/-- The last part of an operation: what it leaves in the caches may be another thing than what it sent. -/
theorem performs_modify {m : Op Unit} {f : State → State} {txns : List Txn} {val : List (Txn × Reply) → Unit → Prop}
    (h : Performs m s txns val c)
    (hf : ∀ es rest, f (accessed es rest s.por c.1 c.2 s) = accessed es rest s.por c'.1 c'.2 s) :
    Performs (andThen m fun _ => modify f) s txns val c' where
  good xs rest hx hfit hrx := by
    obtain ⟨a, hm, ha⟩ := h.good xs rest hx hfit hrx
    exact ⟨(), by rw [andThen_of_done hm, modify_apply, hf], ha⟩
  stop xs x st later rest h1 h2 h3 h4 h5 := by rw [andThen_of_ended (h.stop xs x st later rest h1 h2 h3 h4 h5)]

/-- A state at rest with a usable session, and so it stays inside an access. -/
theorem ready_accessed {es : List Event} {rx : List RxItem} {b t : Option Word} (h : AtRest s ∧ Usable s) :
    AtRest (accessed es rx s.por b t s) ∧ Usable (accessed es rx s.por b t s) :=
  ⟨⟨h.1.phase, h.1.addr, h.1.apndp, h.1.rnw, h.1.par, h.1.hdr, h.1.val, h.1.vpar⟩, ⟨h.2.alive, h.2.noReset⟩⟩

theorem ran_eq_accessed (es : List Event) (rest : List RxItem) :
    ran es rest s = accessed es rest s.por s.bank s.tar s := rfl

/-- A read transaction (43_transaction_codec.md R150). -/
theorem performs_swdrd (h : AtRest s ∧ Usable s) (apndp : Bool) (a : BitVec 2) :
    Performs (swdrd apndp a) s [.read apndp a] (fun xs w => lastWord xs = some w) (s.bank, s.tar) where
  good xs rest hx hf hrx := by
    match xs, hx with
    | [(t, r)], hx =>
      simp at hx
      subst hx
      exact ⟨r.word, by
        rw [swdrd_rest (r := r) (rest := rest) h.1 h.2 (hf _ (by simp)) (by simpa [scriptOf_cons] using hrx)]
        simp [eventsOf_cons, ran_eq_accessed], rfl⟩
  stop xs x st later rest hx _ hfx hst hrx := by
    obtain ⟨t, r⟩ := x
    cases xs with
    | cons y ys => simp at hx
    | nil =>
      simp at hx
      obtain ⟨rfl, rfl⟩ := hx
      rw [swdrd_stop (rest := rest) h.2.alive h.1.phase h.2.noReset hfx hst (by simpa using hrx)]
      simp [ran_eq_accessed, cachesAfter]

/-- A write transaction (R151). -/
theorem performs_swdwr (h : AtRest s ∧ Usable s) (apndp : Bool) (a : BitVec 2) (v : Word) :
    Performs (swdwr apndp a v) s [.write apndp a v] (fun _ _ => True) (s.bank, s.tar) where
  good xs rest hx hf hrx := by
    match xs, hx with
    | [(t, r)], hx =>
      simp at hx
      subst hx
      exact ⟨(), by
        rw [swdwr_rest (r := r) (rest := rest) h.1 h.2 (hf _ (by simp)) (by simpa [scriptOf_cons] using hrx)]
        simp [eventsOf_cons, ran_eq_accessed], trivial⟩
  stop xs x st later rest hx _ hfx hst hrx := by
    obtain ⟨t, r⟩ := x
    cases xs with
    | cons y ys => simp at hx
    | nil =>
      simp at hx
      obtain ⟨rfl, rfl⟩ := hx
      rw [swdwr_stop (rest := rest) h.2.alive h.1.phase h.2.noReset hfx hst (by simpa using hrx)]
      simp [ran_eq_accessed, cachesAfter]

/-- What the cache transactions leave in the caches. -/
theorem cachesAfter_bankTxns (k : Cfg) (b : BitVec 8) (c : Option Word × Option Word) :
    cachesAfter c (bankTxns k c.1 b) = (some (b.zeroExtend 32), c.2) := by
  obtain ⟨c1, c2⟩ := c
  unfold bankTxns
  split
  · rename_i h
    simp only at h
    simp [cachesAfter, h]
  · rfl

theorem cachesAfter_tarTxns (k : Cfg) (v : Word) (c : Option Word × Option Word) :
    cachesAfter c (tarTxns k c.1 c.2 v) = (bankAfterTar k c.1 c.2 v, some v) := by
  obtain ⟨c1, c2⟩ := c
  unfold tarTxns bankAfterTar
  split
  · rename_i h
    simp only at h
    simp [cachesAfter, h]
  · rename_i h
    simp only at h
    rw [cachesAfter_append, cachesAfter_bankTxns k (k.apTarOff &&& 0xF0#8) (c1, c2)]
    simp [cachesAfter]

/-- `ENSBANK` (44_register_router.md R172, R184). -/
theorem performs_ensBank (h : AtRest s ∧ Usable s) (b : BitVec 8) :
    Performs (ensBank b) s (bankTxns s.cfg s.bank b) (fun _ _ => True) (some (b.zeroExtend 32), s.tar) := by
  have hv : selectValue b = b.zeroExtend 32 := rfl
  by_cases hb : s.bank = some (b.zeroExtend 32)
  · have e : ensBank b s = ret () s := by simp [ensBank, hv, hb]
    have := (performs_ret (s := s) ()).mono (val' := fun _ _ => True) fun _ _ _ _ => trivial
    rw [hb] at this
    simp only [bankTxns, hb, if_true]
    exact ⟨fun xs rest h1 h2 h3 => by rw [e]; exact this.good xs rest h1 h2 h3, fun xs x st later rest hx => by simp at hx⟩
  · have e : ensBank b s = andThen (swdwr false (selectSlot s.cfg) (selectValue b))
        (fun _ => modify (setBank (selectValue b))) s := by simp [ensBank, hv, hb]
    have := performs_modify (c' := (some (b.zeroExtend 32), s.tar)) (performs_swdwr h false (selectSlot s.cfg) (b.zeroExtend 32))
      (f := setBank (selectValue b)) fun es rest => by simp [setBank, accessed, hv]
    simp only [bankTxns, hb, if_false]
    exact ⟨fun xs rest h1 h2 h3 => by rw [e]; exact this.good xs rest h1 h2 h3,
      fun xs x st later rest h1 h2 h3 h4 h5 => by rw [e]; exact this.stop xs x st later rest h1 h2 h3 h4 h5⟩

/-- `ENSTAR` (R173, R184). -/
theorem performs_ensTar (h : AtRest s ∧ Usable s) (v : Word) :
    Performs (ensTar v) s (tarTxns s.cfg s.bank s.tar v) (fun _ _ => True)
      (bankAfterTar s.cfg s.bank s.tar v, some v) := by
  by_cases ht : s.tar = some v
  · have e : ensTar v s = ret () s := by simp [ensTar, ht]
    have := (performs_ret (s := s) ()).mono (val' := fun _ _ => True) fun _ _ _ _ => trivial
    rw [ht] at this
    simp only [tarTxns, bankAfterTar, ht, if_true]
    exact ⟨fun xs rest h1 h2 h3 => by rw [e]; exact this.good xs rest h1 h2 h3, fun xs x st later rest hx => by simp at hx⟩
  · have e : ensTar v s = andThen (ensBank (tarBank s.cfg))
        (fun _ => andThen (swdwr true (tarSlot s.cfg) v) (fun _ => modify (setTar v))) s := by simp [ensTar, ht]
    have key := performs_andThen (performs_ensBank h (tarBank s.cfg)) (cachesAfter_bankTxns ..)
      (f := fun _ => andThen (swdwr true (tarSlot s.cfg) v) (fun _ => modify (setTar v)))
      (ys := [.write true (tarSlot s.cfg) v]) (val' := fun _ _ => True)
      (c' := (some ((tarBank s.cfg).zeroExtend 32), some v))
      fun _ _ _ => performs_modify (performs_swdwr (ready_accessed h) _ _ _) fun es' rest' => by
        simp [setTar, accessed]
    have := key.mono (val' := fun _ _ => True) fun _ _ _ _ => trivial
    simp only [tarTxns, bankAfterTar, ht, if_false]
    exact ⟨fun xs rest h1 h2 h3 => by rw [e]; exact this.good xs rest h1 h2 h3,
      fun xs x st later rest h1 h2 h3 h4 h5 => by rw [e]; exact this.stop xs x st later rest h1 h2 h3 h4 h5⟩

/-- The window of bank `0x10` (R176, R183). -/
theorem performs_openWindow (h : AtRest s ∧ Usable s) (addr : Word) :
    Performs (openWindow addr) s (windowTxns s.cfg s.bank s.tar addr) (fun _ _ => True)
      (some 0x10#32, some (addr &&& s.cfg.tarAlignMask)) :=
  performs_look (Performs.mono (performs_andThen (performs_ensTar h _) (cachesAfter_tarTxns ..) fun _ _ _ =>
    performs_ensBank (ready_accessed h) _) fun _ _ _ _ => trivial)

theorem cachesAfter_windowTxns (k : Cfg) (addr : Word) (c : Option Word × Option Word) :
    cachesAfter c (windowTxns k c.1 c.2 addr) = (some 0x10#32, some (addr &&& k.tarAlignMask)) := by
  unfold windowTxns
  rw [cachesAfter_append, cachesAfter_tarTxns]
  exact cachesAfter_bankTxns k 0x10#8 (_, _)

/-- The staged read (R175). -/
theorem performs_stagedRead (h : AtRest s ∧ Usable s) (a : BitVec 2) :
    Performs (stagedRead a) s [.read true a, .read false (rdbufSlot s.cfg)] (fun xs w => lastWord xs = some w)
      (s.bank, s.tar) := by
  refine Performs.mono (performs_andThen (ys := [.read false (rdbufSlot s.cfg)]) (performs_swdrd h true a) rfl
    fun _ _ _ => performs_look (performs_swdrd (ready_accessed h) _ _)) ?_
  rintro xs w - ⟨us, vs, rfl, -, hw⟩
  cases vs with
  | nil => simp [lastWord] at hw
  | cons v vs => simpa [lastWord] using hw

theorem lastWord_append {us vs : List (Txn × Reply)} {w : Word} (h : lastWord vs = some w) :
    lastWord (us ++ vs) = some w := by
  cases vs with
  | nil => simp [lastWord] at h
  | cons v vs => simpa [lastWord] using h

/-- The `RD` path of a descriptor (R174 to R177, R184). -/
theorem performs_readDescriptor (h : AtRest s ∧ Usable s) (d : Descriptor) :
    Performs (readDescriptor d) s (expandRd s.cfg s.bank s.tar d) (fun xs w => lastWord xs = some w)
      (bankAfter s.bank d, tarAfter s.cfg s.tar d) := by
  have window : ∀ base : Word, Performs (readWindow base d.offset) s
      (windowTxns s.cfg s.bank s.tar (base + d.offset.zeroExtend 32) ++
        [.read true (slotOfAddr (base + d.offset.zeroExtend 32)), .read false (rdbufSlot s.cfg)])
      (fun xs w => lastWord xs = some w)
      (some 0x10#32, some ((base + d.offset.zeroExtend 32) &&& s.cfg.tarAlignMask)) := fun base => by
    refine Performs.mono (performs_andThen (performs_openWindow h _) (cachesAfter_windowTxns ..) fun _ _ _ =>
      performs_stagedRead (ready_accessed h) _) ?_
    rintro xs w - ⟨us, vs, rfl, -, hw⟩
    exact lastWord_append hw
  obtain ⟨off, sp⟩ := d
  cases sp with
  | dp => exact performs_swdrd h _ _
  | ap =>
    refine Performs.mono (performs_andThen (performs_ensBank h _) (cachesAfter_bankTxns ..) fun _ _ _ =>
      performs_stagedRead (ready_accessed h) _) ?_
    rintro xs w - ⟨us, vs, rfl, -, hw⟩
    exact lastWord_append hw
  | ficr =>
    have := performs_look (f := fun s => s.cfg.ficrBase) (K := fun base => readWindow base off) (window s.cfg.ficrBase)
    simpa only [readDescriptor, expandRd, addrOf, spaceBase, bankAfter, tarAfter] using this
  | uicr =>
    have := performs_look (f := fun s => s.cfg.uicrBase) (K := fun base => readWindow base off) (window s.cfg.uicrBase)
    simpa only [readDescriptor, expandRd, addrOf, spaceBase, bankAfter, tarAfter] using this
  | scs =>
    have := performs_look (f := fun s => s.cfg.scsBase) (K := fun base => readWindow base off) (window s.cfg.scsBase)
    simpa only [readDescriptor, expandRd, addrOf, spaceBase, bankAfter, tarAfter] using this

/-- The `WR` path of a descriptor (R178 to R182, R184). -/
theorem performs_writeDescriptor (h : AtRest s ∧ Usable s) (d : Descriptor) (v : Word) :
    Performs (writeDescriptor d v) s (expandWr s.cfg s.bank s.tar d v) (fun _ _ => True)
      (bankAfterWr s.cfg s.bank d v, tarAfterWr s.cfg s.tar d v) := by
  have window : ∀ base : Word, Performs (writeWindow base d.offset v) s
      (windowTxns s.cfg s.bank s.tar (base + d.offset.zeroExtend 32) ++
        [.write true (slotOfAddr (base + d.offset.zeroExtend 32)) v]) (fun _ _ => True)
      (some 0x10#32, some ((base + d.offset.zeroExtend 32) &&& s.cfg.tarAlignMask)) := fun base =>
    Performs.mono (performs_andThen (performs_openWindow h _) (cachesAfter_windowTxns ..) fun _ _ _ =>
      performs_swdwr (ready_accessed h) _ _ _) fun _ _ _ _ => trivial
  obtain ⟨off, sp⟩ := d
  cases sp with
  | dp =>
    refine performs_modify (performs_swdwr h _ _ _) fun es rest => ?_
    simp [snooped, accessed, bankAfterWr, tarAfterWr, bankAfter, tarAfter]
  | ap =>
    refine Performs.mono (performs_andThen (performs_ensBank h _) (cachesAfter_bankTxns ..)
      (c' := (bankAfterWr s.cfg s.bank ⟨off, .ap⟩ v, tarAfterWr s.cfg s.tar ⟨off, .ap⟩ v)) fun _ _ _ =>
      performs_modify (performs_swdwr (ready_accessed h) _ _ _) fun es' rest' => ?_) fun _ _ _ _ => trivial
    simp [snooped, accessed, bankAfterWr, tarAfterWr, bankAfter, tarAfter]
  | ficr =>
    have := performs_look (f := fun s => s.cfg.ficrBase) (K := fun base => writeWindow base off v) (window s.cfg.ficrBase)
    simpa [writeDescriptor, expandWr, addrOf, spaceBase, bankAfter, tarAfter, bankAfterWr, tarAfterWr] using this
  | uicr =>
    have := performs_look (f := fun s => s.cfg.uicrBase) (K := fun base => writeWindow base off v) (window s.cfg.uicrBase)
    simpa [writeDescriptor, expandWr, addrOf, spaceBase, bankAfter, tarAfter, bankAfterWr, tarAfterWr] using this
  | scs =>
    have := performs_look (f := fun s => s.cfg.scsBase) (K := fun base => writeWindow base off v) (window s.cfg.scsBase)
    simpa [writeDescriptor, expandWr, addrOf, spaceBase, bankAfter, tarAfter, bankAfterWr, tarAfterWr] using this

/-- An Id of the table stands for its descriptor (R170, R171). -/
theorem readReg_of_lookup {id : BitVec 8} {d : Descriptor} (h : lookup s.cfg.regtab id = some d) :
    readReg id s = readDescriptor d s := by
  unfold readReg
  exact andThen_of_done (by simp [resolveId, andThen, h])

theorem writeReg_of_lookup {id : BitVec 8} {d : Descriptor} {v : Word} (h : lookup s.cfg.regtab id = some d) :
    writeReg id v s = writeDescriptor d v s := by
  unfold writeReg
  exact andThen_of_done (f := fun d => writeDescriptor d v) (by simp [resolveId, andThen, h])

/-- `RD id` (R170). -/
theorem performs_readReg (h : AtRest s ∧ Usable s) {id : BitVec 8} {d : Descriptor}
    (hd : lookup s.cfg.regtab id = some d) :
    Performs (readReg id) s (expandRd s.cfg s.bank s.tar d) (fun xs w => lastWord xs = some w)
      (bankAfter s.bank d, tarAfter s.cfg s.tar d) := by
  obtain ⟨h1, h2⟩ := performs_readDescriptor h d
  rw [← readReg_of_lookup hd] at h1 h2
  exact ⟨h1, h2⟩

/-- `WR id, v` (R170). -/
theorem performs_writeReg (h : AtRest s ∧ Usable s) {id : BitVec 8} {d : Descriptor} {v : Word}
    (hd : lookup s.cfg.regtab id = some d) :
    Performs (writeReg id v) s (expandWr s.cfg s.bank s.tar d v) (fun _ _ => True)
      (bankAfterWr s.cfg s.bank d v, tarAfterWr s.cfg s.tar d v) := by
  obtain ⟨h1, h2⟩ := performs_writeDescriptor h d v
  rw [← writeReg_of_lookup hd] at h1 h2
  exact ⟨h1, h2⟩

/-! ## One page of a dump -/

theorem bankOf_zeroExtend (b : BitVec 8) : bankOf (b.zeroExtend 12) = b &&& 0xF0#8 := by
  have : (b.zeroExtend 12).extractLsb' 0 8 = b := by
    apply BitVec.eq_of_getLsbD_eq
    intro i hi
    simp [hi]
    omega
  rw [bankOf, this]

theorem slotOf_zeroExtend (b : BitVec 8) : slotOf (b.zeroExtend 12) = b.extractLsb' 2 2 := by
  apply BitVec.eq_of_getLsbD_eq
  intro i hi
  simp [slotOf, hi]
  omega

/-- Reading `n` words through DRW with its bank selected (46_flash_dump.md R242): the word of each RDBUF read. -/
theorem performs_readWords (h : AtRest s ∧ Usable s) (n : Nat) (page : List Byte)
    (hb : s.bank = some ((s.cfg.apDrwOff &&& 0xF0#8).zeroExtend 32)) :
    Performs (readWords (drwDescriptor s.cfg) n page) s
      (List.replicate n [Txn.read true (s.cfg.apDrwOff.extractLsb' 2 2), Txn.read false (rdbufSlot s.cfg)]).flatten
      (fun xs out => out = page ++ pageBytesOf s.cfg xs) (s.bank, s.tar) := by
  induction n generalizing s page with
  | zero =>
    refine (performs_ret page).mono fun xs a hx ha => ?_
    simp at hx
    subst hx
    simp [ha, pageBytesOf, pageWordsOf]
  | succ n ih =>
    have h1 := performs_readDescriptor h (drwDescriptor s.cfg)
    have e : expandRd s.cfg s.bank s.tar (drwDescriptor s.cfg) =
        [Txn.read true (s.cfg.apDrwOff.extractLsb' 2 2), Txn.read false (rdbufSlot s.cfg)] := by
      simp only [expandRd, drwDescriptor, bankOf_zeroExtend, slotOf_zeroExtend, bankTxns, hb, if_true, List.nil_append]
    have eb : bankAfter s.bank (drwDescriptor s.cfg) = s.bank := by
      simp only [bankAfter, drwDescriptor, bankOf_zeroExtend, hb]
    have et : tarAfter s.cfg s.tar (drwDescriptor s.cfg) = s.tar := rfl
    rw [e, eb, et] at h1
    refine (performs_bind (val' := fun w xs out => out = page ++ wordBytes w ++ pageBytesOf s.cfg xs) h1 rfl
      fun w es rest => ih (s := accessed es rest s.por s.bank s.tar s) (ready_accessed h)
      (page ++ wordBytes w) hb).mono ?_
    rintro xs out - ⟨us, vs, w, rfl, hu, hw, rfl⟩
    match us, hu with
    | [(t, r), (t', r')], hu =>
      simp at hu
      obtain ⟨rfl, rfl⟩ := hu
      simp only [lastWord, List.getLast?_cons_cons, List.getLast?_singleton, Option.map_some, Option.some.injEq] at hw
      subst hw
      simp [pageBytesOf, pageWordsOf]

/-- The same from any bank: the first of the reads selects DRW's. -/
theorem performs_readWords_any (h : AtRest s ∧ Usable s) (n : Nat) :
    Performs (readWords (drwDescriptor s.cfg) (n + 1) []) s
      (bankTxns s.cfg s.bank (s.cfg.apDrwOff &&& 0xF0#8) ++ (List.replicate (n + 1)
        [Txn.read true (s.cfg.apDrwOff.extractLsb' 2 2), Txn.read false (rdbufSlot s.cfg)]).flatten)
      (fun xs out => out = pageBytesOf s.cfg xs) (bankAfterPage s.cfg, s.tar) := by
  have h1 := performs_readDescriptor h (drwDescriptor s.cfg)
  have e : expandRd s.cfg s.bank s.tar (drwDescriptor s.cfg) = bankTxns s.cfg s.bank (s.cfg.apDrwOff &&& 0xF0#8) ++
      [Txn.read true (s.cfg.apDrwOff.extractLsb' 2 2), Txn.read false (rdbufSlot s.cfg)] := by
    simp only [expandRd, drwDescriptor, bankOf_zeroExtend, slotOf_zeroExtend]
  have eb : bankAfter s.bank (drwDescriptor s.cfg) = bankAfterPage s.cfg := by
    simp only [bankAfter, drwDescriptor, bankOf_zeroExtend, bankAfterPage]
  have et : tarAfter s.cfg s.tar (drwDescriptor s.cfg) = s.tar := rfl
  rw [e, eb, et] at h1
  have hc : cachesAfter (s.bank, s.tar) (bankTxns s.cfg s.bank (s.cfg.apDrwOff &&& 0xF0#8) ++
      [Txn.read true (s.cfg.apDrwOff.extractLsb' 2 2), Txn.read false (rdbufSlot s.cfg)]) =
      (bankAfterPage s.cfg, s.tar) := by
    rw [cachesAfter_append, cachesAfter_bankTxns s.cfg (s.cfg.apDrwOff &&& 0xF0#8) (s.bank, s.tar)]
    rfl
  have h2 : ∀ w es rest, Performs (readWords (drwDescriptor s.cfg) n ([] ++ wordBytes w))
      (accessed es rest s.por (bankAfterPage s.cfg) s.tar s)
      (List.replicate n [Txn.read true (s.cfg.apDrwOff.extractLsb' 2 2), Txn.read false (rdbufSlot s.cfg)]).flatten
      (fun xs out => out = wordBytes w ++ pageBytesOf s.cfg xs) (bankAfterPage s.cfg, s.tar) := fun w es rest =>
    performs_readWords (s := accessed es rest s.por (bankAfterPage s.cfg) s.tar s) (ready_accessed h) n
      ([] ++ wordBytes w) rfl
  have key := performs_bind (f := fun w => readWords (drwDescriptor s.cfg) n ([] ++ wordBytes w)) h1 hc h2
  rw [List.append_assoc] at key
  refine Performs.mono key ?_
  rintro xs out - ⟨us, vs, w, rfl, hu, hw, rfl⟩
  obtain ⟨ps, qs, rfl, hp, hq⟩ := List.map_eq_append_iff.mp hu
  match qs, hq with
  | [(t, r), (t', r')], hq =>
    simp at hq
    obtain ⟨rfl, rfl⟩ := hq
    have hl : r'.word = w := by simpa [lastWord] using hw
    subst hl
    have hn : ps.filter (fun x => decide (x.1 = .read false (rdbufSlot s.cfg))) = [] := by
      rw [List.filter_eq_nil_iff]
      intro x hx hd
      have hm : x.1 ∈ ps.map Prod.fst := List.mem_map_of_mem hx
      simp only [decide_eq_true_eq] at hd
      rw [hp, hd] at hm
      unfold bankTxns at hm
      split at hm <;> simp at hm
    simp [pageBytesOf, pageWordsOf, hn]

theorem findReg_of_mem {tab : List (BitVec 8 × Descriptor)} {d : Descriptor} (h : d ∈ tab.map Prod.snd) :
    findReg tab d = some d := by
  induction tab with
  | nil => simp at h
  | cons e tab ih =>
    by_cases he : e.2 = d
    · simp [findReg, he]
    · have : d ∈ tab.map Prod.snd := by
        simp only [List.map_cons, List.mem_cons] at h
        exact h.resolve_left fun h => he h.symm
      simp [findReg, he, ih this]

theorem findReg_of_not_mem {tab : List (BitVec 8 × Descriptor)} {d : Descriptor} (h : d ∉ tab.map Prod.snd) :
    findReg tab d = none := by
  induction tab with
  | nil => rfl
  | cons e tab ih =>
    simp only [List.map_cons, List.mem_cons, not_or] at h
    have : e.2 ≠ d := fun he => h.1 he.symm
    simp [findReg, this, ih h.2]

/-- One page (R242). -/
theorem performs_readPage (h : AtRest s ∧ Usable s) {addr : Word} (ha : s.fd_addr = some addr) (hd : dumpable s.cfg) :
    Performs readPage s (pageTxns s.cfg s.bank addr) (fun xs page => page = pageBytesOf s.cfg xs)
      (bankAfterPage s.cfg, some addr) := by
  have reg : ∀ d, findReg s.cfg.regtab d = some d → requireReg d s = .done d s := fun d hf => by
    unfold requireReg
    rw [andThen_of_done (look_apply _ _)]
    simp only [hf, ret_apply]
  refine performs_pure (latched_some ha) (performs_look (performs_look ?_))
  refine performs_pure (reg _ (findReg_of_mem hd.1)) (performs_pure (reg _ (findReg_of_mem hd.2)) ?_)
  have hw := performs_writeDescriptor h (tarDescriptor s.cfg) addr
  have et : tarDescriptor s.cfg = ⟨s.cfg.apTarOff.zeroExtend 12, .ap⟩ := rfl
  have e8 : (s.cfg.apTarOff.zeroExtend 12).extractLsb' 0 8 = s.cfg.apTarOff := by
    apply BitVec.eq_of_getLsbD_eq
    intro i hi
    simp [hi]
    omega
  have e1 : expandWr s.cfg s.bank s.tar (tarDescriptor s.cfg) addr =
      bankTxns s.cfg s.bank (s.cfg.apTarOff &&& 0xF0#8) ++ [.write true (tarSlot s.cfg) addr] := by
    simp only [et, expandWr, bankOf_zeroExtend, slotOf_zeroExtend, tarSlot]
  have e2 : bankAfterWr s.cfg s.bank (tarDescriptor s.cfg) addr = some ((s.cfg.apTarOff &&& 0xF0#8).zeroExtend 32) := by
    simp only [et, bankAfterWr, bankAfter, bankOf_zeroExtend]
    simp
  have e3 : tarAfterWr s.cfg s.tar (tarDescriptor s.cfg) addr = some addr := by
    simp only [et, tarAfterWr, e8]
    simp
  rw [e1, e2, e3] at hw
  have hc : cachesAfter (s.bank, s.tar) (bankTxns s.cfg s.bank (s.cfg.apTarOff &&& 0xF0#8) ++
      [.write true (tarSlot s.cfg) addr]) = (some ((s.cfg.apTarOff &&& 0xF0#8).zeroExtend 32), some addr) := by
    rw [cachesAfter_append, cachesAfter_bankTxns s.cfg (s.cfg.apTarOff &&& 0xF0#8) (s.bank, s.tar)]
    rfl
  have h2 : ∀ (_ : Unit) es rest, Performs (readWords (drwDescriptor s.cfg) (255 + 1) [])
      (accessed es rest s.por (some ((s.cfg.apTarOff &&& 0xF0#8).zeroExtend 32)) (some addr) s)
      (bankTxns s.cfg (some ((s.cfg.apTarOff &&& 0xF0#8).zeroExtend 32)) (s.cfg.apDrwOff &&& 0xF0#8) ++
        (List.replicate (255 + 1)
          [Txn.read true (s.cfg.apDrwOff.extractLsb' 2 2), Txn.read false (rdbufSlot s.cfg)]).flatten)
      (fun xs out => out = pageBytesOf s.cfg xs) (bankAfterPage s.cfg, some addr) := fun _ es rest =>
    performs_readWords_any (s := accessed es rest s.por (some ((s.cfg.apTarOff &&& 0xF0#8).zeroExtend 32)) (some addr) s)
      (ready_accessed h) 255
  have key := performs_andThen (f := fun _ => readWords (drwDescriptor s.cfg) (255 + 1) []) hw hc h2
  have ep : pageTxns s.cfg s.bank addr = bankTxns s.cfg s.bank (s.cfg.apTarOff &&& 0xF0#8) ++
      [.write true (tarSlot s.cfg) addr] ++ (bankTxns s.cfg (some ((s.cfg.apTarOff &&& 0xF0#8).zeroExtend 32))
        (s.cfg.apDrwOff &&& 0xF0#8) ++ (List.replicate (255 + 1)
        [Txn.read true (s.cfg.apDrwOff.extractLsb' 2 2), Txn.read false (rdbufSlot s.cfg)]).flatten) := by
    simp only [pageTxns, List.append_assoc, Config.pageWords]
  rw [ep]
  refine Performs.mono key ?_
  rintro xs out - ⟨us, vs, rfl, hu, rfl⟩
  have hn : us.filter (fun x => decide (x.1 = .read false (rdbufSlot s.cfg))) = [] := by
    rw [List.filter_eq_nil_iff]
    intro x hx hd
    have hm : x.1 ∈ us.map Prod.fst := List.mem_map_of_mem hx
    simp only [decide_eq_true_eq] at hd
    rw [hu, hd] at hm
    unfold bankTxns at hm
    split at hm <;> simp at hm
  simp [pageBytesOf, pageWordsOf, hn]

/-! ## From an operation to the instruction that runs it -/

theorem andThen_ret {m : Op α} {g : α → β} {t : State} {a : α} (h : m s = .done a t) :
    andThen m (fun x => ret (g x)) s = .done (g a) t := by rw [andThen_of_done h, ret_apply]

theorem runCommand_of_done {m : Op (Option Word)} {t : State} {a : Option Word} (h : m s = .done a t) :
    runCommand m s = .next (respond a t) := by simp only [runCommand, h]

theorem runCommand_of_ended {m : Op (Option Word)} {t : State} (h : m s = .ended t) : runCommand m s = .next t := by
  simp only [runCommand, h]

theorem runChecked_alive {m : Op (Option Word)} (ha : s.sess_dead = false) : runChecked m s = runCommand m s := by
  simp [runChecked, ha]

theorem runInternal_of_done {m : Op (Option OpResult)} {t : State} {r : Option OpResult} (ha : s.sess_dead = false)
    (h : m (setResult none s) = .done r t) : runInternal m s = .next (setResult r t) := by
  simp only [runInternal, ha, Bool.false_eq_true, if_false, h]

theorem runInternal_of_ended {m : Op (Option OpResult)} {t : State} (ha : s.sess_dead = false)
    (h : m (setResult none s) = .ended t) : runInternal m s = .next t := by
  simp only [runInternal, ha, Bool.false_eq_true, if_false, h]

theorem noResult_of_done {m : Op Unit} {t : State} {a : Unit} (h : m s = .done a t) : noResult m s = .done none t :=
  andThen_of_done h

theorem noResult_of_ended {m : Op Unit} {t : State} (h : m s = .ended t) : noResult m s = .ended t :=
  andThen_of_ended h

end

end Sys2Proof.Machine
end

