-- ==== Sys2Proof/Laws/Bringup.lean ====
section
/-! SUPPORT. The sequencer of 45_bringup.md against its list of parts (Safety.lean, `bringupParts`), said once over any
run of the parts: all of them answered, or all up to one that raises (R211, R223). -/

namespace Sys2Proof.Machine

/-- Inside a bring-up begun in `s`: the last step that completed, the events sent, the units to come, the caches. -/
def bringing (b : BuState) (es : List Event) (rx : List RxItem) (k : Caches) (s : State) : State :=
  setBu b (accessed es rx s.por k.1 k.2 (sessionStart s))

theorem bringing_ready {b : BuState} {es : List Event} {rx : List RxItem} {k : Caches} {s : State} (hp : s.por = []) :
    AtRest (bringing b es rx k s) ∧ Usable (bringing b es rx k s) :=
  ⟨⟨rfl, rfl, rfl, rfl, rfl, rfl, rfl, rfl⟩, rfl, hp⟩

/-- What `m`, begun with `b` as the last completed step, makes of the parts `ps`: all of them succeed and `bu_state` is
`b'`; or one raises and `bu_state` stays at the last step that completed. -/
structure Plays (m : Op Unit) (c : Cfg) (b : BuState) (ps : List BringupPart) (b' : BuState) : Prop where
  good : ∀ {s es rest k script es' k'}, s.cfg = c → s.por = [] → PartsDone c k ps script es' k' →
    m (bringing b es (script ++ rest) k s) = .done () (bringing b' (es ++ es') rest k' s)
  fails : ∀ {s es rest k script es' e x k'}, s.cfg = c → s.por = [] → PartsFail c k ps script es' e x k' →
    m (bringing b es (script ++ rest) k s) = .ended (raised e (bringing x (es ++ es') rest k' s))

section
variable {c : Cfg} {b b' b'' : BuState} {ps qs : List BringupPart} {m m' : Op Unit}

theorem partsDone_append {k k' : Caches} {script : List RxItem} {es : List Event}
    (h : PartsDone c k (ps ++ qs) script es k') : ∃ k₁ s₁ e₁ s₂ e₂, PartsDone c k ps s₁ e₁ k₁ ∧
      PartsDone c k₁ qs s₂ e₂ k' ∧ script = s₁ ++ s₂ ∧ es = e₁ ++ e₂ := by
  induction ps generalizing k script es with
  | nil => exact ⟨k, [], [], script, es, .nil k, h, rfl, rfl⟩
  | cons p ps ih =>
    cases h with
    | cons hp h =>
      obtain ⟨k₁, s₁, e₁, s₂, e₂, h1, h2, rfl, rfl⟩ := ih h
      exact ⟨k₁, _, _, s₂, e₂, .cons hp h1, h2, by simp, by simp⟩

theorem partsFail_append {k k' : Caches} {script : List RxItem} {es : List Event} {e : ErrorKind} {x : BuState}
    (h : PartsFail c k (ps ++ qs) script es e x k') : PartsFail c k ps script es e x k' ∨
      ∃ k₁ s₁ e₁ s₂ e₂, PartsDone c k ps s₁ e₁ k₁ ∧ PartsFail c k₁ qs s₂ e₂ e x k' ∧ script = s₁ ++ s₂ ∧
        es = e₁ ++ e₂ := by
  induction ps generalizing k script es with
  | nil => exact .inr ⟨k, [], [], script, es, .nil k, h, rfl, rfl⟩
  | cons p ps ih =>
    cases h with
    | here hp => exact .inl (.here hp)
    | later hp h =>
      rcases ih h with h1 | ⟨k₁, s₁, e₁, s₂, e₂, h1, h2, rfl, rfl⟩
      · exact .inl (.later hp h1)
      · exact .inr ⟨k₁, _, _, s₂, e₂, .cons hp h1, h2, by simp, by simp⟩

/-- One part after another. -/
theorem Plays.seq (h : Plays m c b ps b') (h' : Plays m' c b' qs b'') :
    Plays (andThen m fun _ => m') c b (ps ++ qs) b'' where
  good hc hp hr := by
    obtain ⟨k₁, s₁, e₁, s₂, e₂, h1, h2, rfl, rfl⟩ := partsDone_append hr
    rw [List.append_assoc, andThen_of_done (h.good hc hp h1), h'.good hc hp h2, List.append_assoc]
  fails hc hp hr := by
    rcases partsFail_append hr with h1 | ⟨k₁, s₁, e₁, s₂, e₂, h1, h2, rfl, rfl⟩
    · rw [andThen_of_ended (h.fails hc hp h1)]
    · rw [List.append_assoc, andThen_of_done (h.good hc hp h1), h'.fails hc hp h2, List.append_assoc]

/-- The advance of `bu_state` (R211). -/
theorem plays_advanceTo : Plays (advanceTo b') c b [] b' where
  good _ _ hr := by
    cases hr
    rw [List.append_nil]
    rfl
  fails _ _ hr := nomatch hr

/-- A look at the configuration. -/
theorem plays_look {γ : Type} {f : State → γ} {g : γ} {K : γ → Op Unit} (hf : ∀ s, s.cfg = c → f s = g)
    (h : Plays (K g) c b ps b') : Plays (andThen (look f) K) c b ps b' where
  good {s es rest k script es' k'} hc hp hr := by
    rw [andThen_of_done (look_apply _ _), hf _ (by exact hc)]
    exact h.good hc hp hr
  fails {s es rest k script es' e x k'} hc hp hr := by
    rw [andThen_of_done (look_apply _ _), hf _ (by exact hc)]
    exact h.fails hc hp hr

/-- One part on its own. -/
theorem plays_one {p : BringupPart} (hb : p.last = b)
    (hg : ∀ {s es rest k script es' k'}, s.cfg = c → s.por = [] → PartDone c k p script es' k' →
      m (bringing b es (script ++ rest) k s) = .done () (bringing b' (es ++ es') rest k' s))
    (hf : ∀ {s es rest k script es' e k'}, s.cfg = c → s.por = [] → PartFails c k p script es' e k' →
      m (bringing b es (script ++ rest) k s) = .ended (raised e (bringing b (es ++ es') rest k' s))) :
    Plays m c b [p] b' where
  good hc hp hr := by
    cases hr with
    | cons h1 h2 =>
      cases h2
      simpa using hg hc hp h1
  fails hc hp hr := by
    cases hr with
    | here h => exact hb ▸ hf hc hp h
    | later _ h => cases h

/-- A raw frame (R212 to R215, 43_transaction_codec.md R152). -/
theorem plays_rawSend (bytes : List Byte) : Plays (rawSend bytes) c b [⟨b, .rawsend bytes, none⟩] b := by
  refine plays_one rfl (fun {s es rest k script es' k'} hc hp h => ?_) (fun {s es rest k script es' e k'} hc hp h => ?_)
  · cases h with
    | nothing h =>
      cases h
      rw [rawSend_nil rfl rfl]
      simp
    | frame bs conf h hne hn =>
      cases h
      subst hc
      rw [rawSend_good (s := bringing b es (delivered conf ++ rest) k s) (conf := conf) (rest := rest) hne rfl rfl hp hn rfl]
      simp [ran, bringing, setBu, accessed]
    | access xs h => simp [partTxns] at h
  · cases h with
    | frame bs us h hne hn =>
      cases h
      subst hc
      rw [rawSend_timeLimit (s := bringing b es (delivered us ++ [RxItem.timeLimit] ++ rest) k s) (us := us) (rest := rest)
        hne rfl rfl hp hn (List.append_assoc ..)]
      simp [ran, bringing, setBu, accessed]
    | unknown id h => simp at h
    | transport xs x st later h => simp [partTxns] at h
    | word xs w e h => simp at h

/-- The Id is not in the table (44_register_router.md R171). -/
theorem readReg_of_unknown {s : State} {id : BitVec 8} (h : lookup s.cfg.regtab id = none) :
    readReg id s = .ended (raised .unknownRegister s) := by
  unfold readReg
  exact andThen_of_ended (by simp [resolveId, andThen, h, raise])

theorem writeReg_of_unknown {s : State} {id : BitVec 8} {v : Word} (h : lookup s.cfg.regtab id = none) :
    writeReg id v s = .ended (raised .unknownRegister s) := by
  unfold writeReg
  exact andThen_of_ended (by simp [resolveId, andThen, h, raise])

/-- An operation that performs transactions, run inside a bring-up. -/
theorem performs_bringing_good {α : Type} {op : Op α} {s : State} {es : List Event} {rest : List RxItem} {k k' : Caches}
    {txns : List Txn} {val : List (Txn × Reply) → α → Prop} {xs : List (Txn × Reply)}
    (h : Performs op (bringing b es (scriptOf xs ++ rest) k s) txns val k') (hx : txns = xs.map Prod.fst)
    (hf : ∀ x ∈ xs, replyFits s.cfg x) :
    ∃ a, op (bringing b es (scriptOf xs ++ rest) k s) = .done a (bringing b (es ++ eventsOf xs) rest k' s) ∧ val xs a := by
  obtain ⟨a, h1, h2⟩ := h.good xs rest hx.symm hf rfl
  refine ⟨a, h1.trans ?_, h2⟩
  simp [bringing, setBu, accessed]

theorem performs_bringing_stop {α : Type} {op : Op α} {s : State} {es : List Event} {rest : List RxItem} {k k' : Caches}
    {txns : List Txn} {val : List (Txn × Reply) → α → Prop} {xs : List (Txn × Reply)} {x : Txn × Reply} {st : Stop}
    {later : List Txn} (h : Performs op (bringing b es (scriptOf xs ++ stopScript x st ++ rest) k s) txns val k')
    (hx : txns = xs.map Prod.fst ++ x.1 :: later) (hf : ∀ y ∈ xs, replyFits s.cfg y) (hfx : replyFits s.cfg x)
    (hst : stopFits s.cfg x st) :
    op (bringing b es (scriptOf xs ++ stopScript x st ++ rest) k s) = .ended (raised (stopError st)
      (bringing b (es ++ (eventsOf xs ++ stopEvents s.cfg x st)) rest (cachesAfter k (xs.map Prod.fst)) s)) := by
  rw [h.stop xs x st later rest hx.symm hf hfx hst rfl]
  simp [bringing, setBu, accessed]

/-- A bank selection (R218). -/
theorem plays_ensBank (n : BitVec 8) : Plays (ensBank n) c b [⟨b, .ensbank n, none⟩] b := by
  refine plays_one rfl (fun {s es rest k script es' k'} hc hp h => ?_) (fun {s es rest k script es' e k'} hc hp h => ?_)
  · subst hc
    cases h with
    | nothing h => cases h
    | frame bs conf h => cases h
    | access xs h hf =>
      obtain ⟨_, h1, _⟩ := performs_bringing_good (performs_ensBank (s := bringing b es (scriptOf xs ++ rest) k s)
        (bringing_ready hp) n) (Option.some.inj h) hf
      exact h1
  · subst hc
    cases h with
    | frame bs us h => cases h
    | unknown id h => simp at h
    | transport xs x st later h hf hfx hst =>
      exact performs_bringing_stop (performs_ensBank
        (s := bringing b es (scriptOf xs ++ stopScript x st ++ rest) k s) (bringing_ready hp) n) (Option.some.inj h) hf hfx hst
    | word xs w e h => simp at h

/-- A write of a register (R217, R219, R221). -/
theorem plays_writeReg (id : BitVec 8) (v : Word) : Plays (writeReg id v) c b [⟨b, .wr id v, none⟩] b := by
  refine plays_one rfl (fun {s es rest k script es' k'} hc hp h => ?_) (fun {s es rest k script es' e k'} hc hp h => ?_)
  · subst hc
    cases h with
    | nothing h => cases h
    | frame bs conf h => cases h
    | access xs h hf =>
      obtain ⟨d, hd, hT⟩ := Option.map_eq_some_iff.mp h
      obtain ⟨_, h1, _⟩ := performs_bringing_good (performs_writeReg (s := bringing b es (scriptOf xs ++ rest) k s)
        (v := v) (bringing_ready hp) hd) hT hf
      rw [h1]
      simp only [partCaches, hd]
      rfl
  · subst hc
    cases h with
    | frame bs us h => cases h
    | unknown i h hl =>
      simp only [reduceCtorEq, Instr.wr.injEq, false_or] at h
      obtain ⟨_, rfl, _⟩ := h
      rw [List.append_nil]
      exact writeReg_of_unknown (s := bringing b es rest k s) hl
    | transport xs x st later h hf hfx hst =>
      obtain ⟨d, hd, hT⟩ := Option.map_eq_some_iff.mp h
      exact performs_bringing_stop (performs_writeReg
        (s := bringing b es (scriptOf xs ++ stopScript x st ++ rest) k s) (v := v) (bringing_ready hp) hd) hT hf hfx hst
    | word xs w e h => simp at h

/-- A read with its check and the advance after it (R216, R219 to R221). -/
theorem plays_checked {id : BitVec 8} {w : Word} {e : ErrorKind} {K : Word → Op Unit}
    (hK : ∀ v u, u.cfg = c → K v u = andThen (expectWord w e v) (fun _ => advanceTo b') u) :
    Plays (andThen (readReg id) K) c b [⟨b, .rd id, some (w, e)⟩] b' := by
  refine plays_one rfl (fun {s es rest k script es' k'} hc hp h => ?_) (fun {s es rest k script es' e' k'} hc hp h => ?_)
  · subst hc
    cases h with
    | nothing h => cases h
    | frame bs conf h => cases h
    | access xs h hf hw =>
      obtain ⟨d, hd, hT⟩ := Option.map_eq_some_iff.mp h
      obtain ⟨a, h1, h2⟩ := performs_bringing_good (performs_readReg (s := bringing b es (scriptOf xs ++ rest) k s)
        (bringing_ready hp) hd) hT hf
      obtain rfl : a = w := Option.some.inj (h2.symm.trans (hw w e rfl))
      rw [andThen_of_done h1, hK a (bringing b _ rest _ s) rfl, andThen_of_done (by simp only [expectWord, if_true]; rfl)]
      simp only [partCaches, hd]
      rfl
  · subst hc
    cases h with
    | frame bs us h => cases h
    | unknown i h hl =>
      simp only [Instr.rd.injEq, reduceCtorEq, exists_false, or_false] at h
      subst h
      rw [List.append_nil]
      exact andThen_of_ended (readReg_of_unknown (s := bringing b es rest k s) hl)
    | transport xs x st later h hf hfx hst =>
      obtain ⟨d, hd, hT⟩ := Option.map_eq_some_iff.mp h
      exact andThen_of_ended (performs_bringing_stop (performs_readReg
        (s := bringing b es (scriptOf xs ++ stopScript x st ++ rest) k s) (bringing_ready hp) hd) hT hf hfx hst)
    | word xs w' e' he h hf hw =>
      simp only [Option.some.injEq, Prod.mk.injEq] at he
      obtain ⟨rfl, rfl⟩ := he
      obtain ⟨d, hd, hT⟩ := Option.map_eq_some_iff.mp h
      obtain ⟨a, h1, h2⟩ := performs_bringing_good (performs_readReg (s := bringing b es (scriptOf xs ++ rest) k s)
        (bringing_ready hp) hd) hT hf
      have ha : a ≠ w := fun ha => hw (by rw [h2, ha])
      rw [andThen_of_done h1, hK a (bringing b _ rest _ s) rfl, andThen_of_ended (by simp only [expectWord, ha, if_false]; rfl)]
      simp only [partCaches, hd]
      rfl

/-- A look at a parameter. -/
theorem plays_parameter {γ : Type} (f : Cfg → γ) {K : γ → Op Unit} (h : Plays (K (f c)) c b ps b') :
    Plays (andThen (look fun s => f s.cfg) K) c b ps b' := plays_look (fun _ hc => by rw [hc]) h

/-- The steps of raw frames (R212 to R215). -/
theorem plays_bringupRaw : Plays bringupRaw c .idle ((bringupParts c).take 4) .modeSwitch := by
  have raw : ∀ {b b' : BuState} (bytes : List Byte), Plays (andThen (rawSend bytes) fun _ => advanceTo b') c b
      [⟨b, .rawsend bytes, none⟩] b' := fun bytes => (plays_rawSend bytes).seq plays_advanceTo
  have h1 : Plays stepLineReset1 c .idle _ .lineReset1 := raw _
  have h2 : Plays stepProtocolSwitch c .lineReset1 _ .protocolSwitch := plays_parameter (fun c => c.jtag2swdMagic) (raw _)
  have h3 : Plays stepLineReset2 c .protocolSwitch _ .lineReset2 := raw _
  have h4 : Plays stepModeSwitch c .lineReset2 _ .modeSwitch := plays_parameter (fun c => c.modeswitchBytes) (raw _)
  exact h1.seq (h2.seq (h3.seq h4))

/-- The steps of transactions (R216 to R221). -/
theorem plays_bringupTransactions :
    Plays bringupTransactions c .modeSwitch ((bringupParts c).drop 4) .cswConfigured := by
  have h1 : Plays stepIdCodeCheck c .modeSwitch _ .idCodeCheck :=
    plays_parameter (fun c => c.ids.idcode) (plays_checked fun _ _ _ => rfl)
  have h2 : Plays stepAbortCleared c .idCodeCheck _ .abortCleared :=
    plays_parameter (fun c => c.ids.abort) (plays_parameter (fun c => c.abortClear)
      ((plays_writeReg _ _).seq plays_advanceTo))
  have h3 : Plays stepApBankSelected c .abortCleared _ .apBankSelected :=
    plays_parameter (fun c => c.bringupBank) ((plays_ensBank _).seq plays_advanceTo)
  have h4 : Plays stepCtrlStatNegotiated c .apBankSelected _ .ctrlStatNegotiated :=
    plays_parameter (fun c => c.ids.ctrlstat) (plays_parameter (fun c => c.ctrlstatReq)
      ((plays_writeReg _ _).seq (plays_checked (w := c.ctrlstatExpect) fun v u hc => by
        rw [andThen_of_done (look_apply _ _), hc])))
  have h5 : Plays stepIdrValidated c .ctrlStatNegotiated _ .idrValidated :=
    plays_parameter (fun c => c.ids.idr) (plays_checked (w := c.expectedIdr) fun v u hc => by
      rw [andThen_of_done (look_apply _ _), hc])
  have h6 : Plays stepCswConfigured c .idrValidated _ .cswConfigured :=
    plays_parameter (fun c => c.ids.csw) (plays_parameter (fun c => c.cswConfig)
      ((plays_writeReg _ _).seq (plays_checked fun _ _ _ => rfl)))
  exact h1.seq (h2.seq (h3.seq (h4.seq (h5.seq h6))))

/-- The whole sequence after the session start (R225). -/
theorem plays_bringup : Plays (andThen bringupRaw fun _ => bringupTransactions) c .idle (bringupParts c) .cswConfigured :=
  plays_bringupRaw.seq plays_bringupTransactions

end

end Sys2Proof.Machine
end

