-- ==== Sys2Proof/Laws/Closure.lean ====
section
/-! SUPPORT. A relation between the state before and after that every state update of the transaction codec keeps is
kept by every transaction, however it comes back; with the cache updates, by every access path. An invariant is then
its closure under the updates, each a fact about one record update. -/

namespace Sys2Proof.Machine

/-- `m` relates the state it starts in to the state it comes back with, with a result or ended. -/
def Within {α : Type} (R : State → State → Prop) (m : Op α) : Prop :=
  ∀ s, (∀ a t, m s = .done a t → R s t) ∧ ∀ t, m s = .ended t → R s t

/-- The relation is kept by the updates of the transaction codec (43_transaction_codec.md). -/
structure TxnClosed (R : State → State → Prop) : Prop where
  refl : ∀ s, R s s
  trans : ∀ {s t u}, R s t → R t u → R s u
  setPhase : ∀ p s, R s (setPhase p s)
  setInputs : ∀ apndp rnw a s, R s (setInputs apndp rnw a s)
  setHeader : ∀ p h s, R s (setHeader p h s)
  setValue : ∀ v p s, R s (setValue v p s)
  clearLatches : ∀ s, R s (clearLatches s)
  ran : ∀ es rx s, R s (ran es rx s)
  afterPoint : ∀ s, R s (afterPoint s)
  raised : ∀ e s, R s (raised e s)
  powerOnReset : ∀ s, s.por.head? = some 0 → R s (powerOnReset s)

/-- The relation is also kept by the updates of the cache controller (44_register_router.md R172, R173, R182). -/
structure AccessClosed (R : State → State → Prop) : Prop extends TxnClosed R where
  setBank : ∀ v s, R s (setBank v s)
  setTar : ∀ v s, R s (setTar v s)
  snooped : ∀ d v s, R s (snooped d v s)

section
variable {R : State → State → Prop}

theorem within_andThen {α β : Type} {m : Op α} {f : α → Op β} (ht : ∀ {s t u}, R s t → R t u → R s u)
    (hm : Within R m) (hf : ∀ a, Within R (f a)) : Within R (andThen m f) := by
  intro s
  refine ⟨fun b t h => ?_, fun t h => ?_⟩
  · obtain ⟨a, u, h1, h2⟩ := andThen_eq_done.mp h
    exact ht ((hm s).1 _ _ h1) ((hf a u).1 _ _ h2)
  · rcases andThen_eq_ended.mp h with h1 | ⟨a, u, h1, h2⟩
    · exact (hm s).2 _ h1
    · exact ht ((hm s).1 _ _ h1) ((hf a u).2 _ h2)

theorem within_ret {α : Type} (a : α) (hr : ∀ s, R s s) : Within R (ret a) := by
  intro s; simp [hr]

theorem within_look {α : Type} (f : State → α) (hr : ∀ s, R s s) : Within R (look f) := by
  intro s; simp [hr]

theorem within_modify {f : State → State} (hf : ∀ s, R s (f s)) : Within R (modify f) := by
  intro s; simp [hf]

theorem within_latched {α : Type} (f : State → Option α) (hr : ∀ s, R s s) : Within R (latched f) := by
  intro s
  unfold latched
  cases f s <;> simp [hr]

theorem within_raise {α : Type} (e : ErrorKind) (hr : ∀ s, R s (raised e s)) : Within R (raise e : Op α) := by
  intro s; simp [hr]

theorem within_tick (hc : TxnClosed R) : Within R tick := by
  intro s
  rcases tick_cases s with ⟨h0, h⟩ | ⟨_, h⟩
  · simp [h, hc.powerOnReset s h0]
  · simp [h, hc.afterPoint]

theorem within_record (e : Event) (hc : TxnClosed R) : Within R (record e) := by
  intro s; simp [hc.ran]

theorem within_send (toks : List Token) (hc : TxnClosed R) : Within R (send toks) :=
  within_andThen hc.trans (within_tick hc) fun _ => within_record _ hc

theorem within_flush (hc : TxnClosed R) : Within R flush :=
  within_andThen hc.trans (within_tick hc) fun _ => within_record _ hc

theorem within_recv (n : Nat) (hc : TxnClosed R) : Within R (recv n) :=
  within_andThen hc.trans (within_tick hc) fun _ s => by simp [hc.ran]

theorem within_await (n : Nat) (hc : TxnClosed R) : Within R (await n) :=
  within_andThen hc.trans (within_recv n hc) fun c => by
    cases c
    · exact within_raise _ (hc.raised _)
    · exact within_ret _ hc.refl

theorem within_awaitConf (n : Nat) (hc : TxnClosed R) : Within R (awaitConf n) := by
  unfold awaitConf
  split
  · exact within_ret _ hc.refl
  · exact within_andThen hc.trans (within_flush hc) fun _ =>
      within_andThen hc.trans (within_await n hc) fun _ => within_ret _ hc.refl

theorem within_requireIdle (hc : TxnClosed R) : Within R requireIdle := by
  intro s
  unfold requireIdle
  split
  · simp [hc.refl]
  · split <;> simp [hc.refl]

theorem within_phaseHdr (hc : TxnClosed R) : Within R phaseHdr :=
  within_andThen hc.trans (within_modify (hc.setPhase _)) fun _ =>
  within_andThen hc.trans (within_latched _ hc.refl) fun _ =>
  within_andThen hc.trans (within_latched _ hc.refl) fun _ =>
  within_andThen hc.trans (within_latched _ hc.refl) fun _ =>
  within_andThen hc.trans (within_modify (hc.setHeader _ _)) fun _ =>
  within_andThen hc.trans (within_send _ hc) fun _ =>
  within_andThen hc.trans (within_flush hc) fun _ =>
  within_andThen hc.trans (within_await _ hc) fun _ => within_ret _ hc.refl

theorem within_phaseAck (hc : TxnClosed R) : Within R phaseAck :=
  within_andThen hc.trans (within_modify (hc.setPhase _)) fun _ =>
  within_andThen hc.trans (within_send _ hc) fun _ =>
  within_andThen hc.trans (within_flush hc) fun _ =>
  within_andThen hc.trans (within_await _ hc) fun us => by
    split
    · exact within_ret _ hc.refl
    · exact within_raise _ (hc.raised _)

theorem within_phaseTrn (hc : TxnClosed R) : Within R phaseTrn :=
  within_andThen hc.trans (within_modify (hc.setPhase _)) fun _ =>
  within_andThen hc.trans (within_send _ hc) fun _ =>
  within_andThen hc.trans (within_look _ hc.refl) fun n => within_awaitConf n hc

theorem within_phaseRead (hc : TxnClosed R) : Within R phaseRead :=
  within_andThen hc.trans (within_modify (hc.setPhase _)) fun _ =>
  within_andThen hc.trans (within_send _ hc) fun _ =>
  within_andThen hc.trans (within_flush hc) fun _ =>
  within_andThen hc.trans (within_await _ hc) fun d =>
  within_andThen hc.trans (within_await _ hc) fun q =>
  within_andThen hc.trans (within_modify (hc.setValue _ _)) fun _ => by
    split
    · exact within_andThen hc.trans (within_modify (hc.setPhase _)) fun _ =>
        within_andThen hc.trans (within_send _ hc) fun _ =>
        within_andThen hc.trans (within_look _ hc.refl) fun n =>
        within_andThen hc.trans (within_awaitConf n hc) fun _ => within_ret _ hc.refl
    · exact within_raise _ (hc.raised _)

theorem within_phaseWrite (hc : TxnClosed R) : Within R phaseWrite :=
  within_andThen hc.trans (within_modify (hc.setPhase _)) fun _ =>
  within_andThen hc.trans (within_latched _ hc.refl) fun _ =>
  within_andThen hc.trans (within_latched _ hc.refl) fun _ =>
  within_andThen hc.trans (within_send _ hc) fun _ =>
  within_andThen hc.trans (within_flush hc) fun _ =>
  within_andThen hc.trans (within_await _ hc) fun _ => within_ret _ hc.refl

/-- A read transaction keeps what its updates keep. -/
theorem within_swdrd (apndp : Bool) (a : BitVec 2) (hc : TxnClosed R) : Within R (swdrd apndp a) :=
  within_andThen hc.trans (within_requireIdle hc) fun _ =>
  within_andThen hc.trans (within_modify (hc.setInputs _ _ _)) fun _ =>
  within_andThen hc.trans (within_phaseHdr hc) fun _ =>
  within_andThen hc.trans (within_phaseAck hc) fun _ =>
  within_andThen hc.trans (within_phaseTrn hc) fun _ =>
  within_andThen hc.trans (within_phaseRead hc) fun _ =>
  within_andThen hc.trans (within_modify hc.clearLatches) fun _ => within_ret _ hc.refl

/-- A write transaction keeps what its updates keep. -/
theorem within_swdwr (apndp : Bool) (a : BitVec 2) (v : Word) (hc : TxnClosed R) : Within R (swdwr apndp a v) :=
  within_andThen hc.trans (within_requireIdle hc) fun _ =>
  within_andThen hc.trans (within_modify (hc.setInputs _ _ _)) fun _ =>
  within_andThen hc.trans (within_modify (hc.setValue _ _)) fun _ =>
  within_andThen hc.trans (within_phaseHdr hc) fun _ =>
  within_andThen hc.trans (within_phaseAck hc) fun _ =>
  within_andThen hc.trans (within_phaseTrn hc) fun _ =>
  within_andThen hc.trans (within_phaseWrite hc) fun _ => within_modify hc.clearLatches

/-- A raw frame keeps what its updates keep. -/
theorem within_rawSend (bytes : List Byte) (hc : TxnClosed R) : Within R (rawSend bytes) :=
  within_andThen hc.trans (within_requireIdle hc) fun _ => by
    split
    · exact within_ret _ hc.refl
    · exact within_andThen hc.trans (within_send _ hc) fun _ =>
        within_andThen hc.trans (within_look _ hc.refl) fun n => within_awaitConf n hc

theorem within_resolveId (id : BitVec 8) (hc : TxnClosed R) : Within R (resolveId id) :=
  within_andThen hc.trans (within_look _ hc.refl) fun d => by
    cases d
    · exact within_raise _ (hc.raised _)
    · exact within_ret _ hc.refl

theorem within_ensBank (b : BitVec 8) (hc : AccessClosed R) : Within R (ensBank b) := by
  intro s
  unfold ensBank
  split
  · simp [hc.refl]
  · have h : Within R (andThen (swdwr false (selectSlot s.cfg) (selectValue b))
        fun _ => modify (setBank (selectValue b))) :=
      within_andThen hc.trans (within_swdwr _ _ _ hc.toTxnClosed) fun _ => within_modify (hc.setBank _)
    exact h s

theorem within_ensTar (t : Word) (hc : AccessClosed R) : Within R (ensTar t) := by
  intro s
  unfold ensTar
  split
  · simp [hc.refl]
  · have h : Within R (andThen (ensBank (tarBank s.cfg)) fun _ =>
        andThen (swdwr true (tarSlot s.cfg) t) fun _ => modify (setTar t)) :=
      within_andThen hc.trans (within_ensBank _ hc) fun _ =>
        within_andThen hc.trans (within_swdwr _ _ _ hc.toTxnClosed) fun _ => within_modify (hc.setTar _)
    exact h s

theorem within_snoopOp (d : Descriptor) (v : Word) (hc : AccessClosed R) : Within R (snoopOp d v) :=
  within_modify (hc.snooped d v)

theorem within_stagedRead (a : BitVec 2) (hc : TxnClosed R) : Within R (stagedRead a) :=
  within_andThen hc.trans (within_swdrd _ _ hc) fun _ =>
  within_andThen hc.trans (within_look _ hc.refl) fun _ => within_swdrd _ _ hc

theorem within_openWindow (addr : Word) (hc : AccessClosed R) : Within R (openWindow addr) :=
  within_andThen hc.trans (within_look _ hc.refl) fun _ =>
  within_andThen hc.trans (within_ensTar _ hc) fun _ => within_ensBank _ hc

theorem within_readWindow (base : Word) (off : BitVec 12) (hc : AccessClosed R) : Within R (readWindow base off) :=
  within_andThen hc.trans (within_openWindow _ hc) fun _ => within_stagedRead _ hc.toTxnClosed

theorem within_writeWindow (base : Word) (off : BitVec 12) (v : Word) (hc : AccessClosed R) :
    Within R (writeWindow base off v) :=
  within_andThen hc.trans (within_openWindow _ hc) fun _ => within_swdwr _ _ _ hc.toTxnClosed

/-- The `RD` path of a descriptor keeps what its updates keep. -/
theorem within_readDescriptor (d : Descriptor) (hc : AccessClosed R) : Within R (readDescriptor d) := by
  unfold readDescriptor
  split
  · exact within_swdrd _ _ hc.toTxnClosed
  · exact within_andThen hc.trans (within_ensBank _ hc) fun _ => within_stagedRead _ hc.toTxnClosed
  all_goals exact within_andThen hc.trans (within_look _ hc.refl) fun _ => within_readWindow _ _ hc

/-- The `WR` path of a descriptor keeps what its updates keep. -/
theorem within_writeDescriptor (d : Descriptor) (v : Word) (hc : AccessClosed R) :
    Within R (writeDescriptor d v) := by
  unfold writeDescriptor
  split
  · exact within_andThen hc.trans (within_swdwr _ _ _ hc.toTxnClosed) fun _ => within_snoopOp _ _ hc
  · exact within_andThen hc.trans (within_ensBank _ hc) fun _ =>
      within_andThen hc.trans (within_swdwr _ _ _ hc.toTxnClosed) fun _ => within_snoopOp _ _ hc
  all_goals exact within_andThen hc.trans (within_look _ hc.refl) fun _ => within_writeWindow _ _ _ hc

theorem within_readReg (id : BitVec 8) (hc : AccessClosed R) : Within R (readReg id) :=
  within_andThen hc.trans (within_resolveId _ hc.toTxnClosed) fun d => within_readDescriptor d hc

theorem within_writeReg (id : BitVec 8) (v : Word) (hc : AccessClosed R) : Within R (writeReg id v) :=
  within_andThen hc.trans (within_resolveId _ hc.toTxnClosed) fun d => within_writeDescriptor d v hc

theorem within_readWords (drw : Descriptor) (n : Nat) (page : List Byte) (hc : AccessClosed R) :
    Within R (readWords drw n page) := by
  induction n generalizing page with
  | zero => exact within_ret _ hc.refl
  | succ n ih => exact within_andThen hc.trans (within_readDescriptor _ hc) fun _ => ih _

theorem within_requireReg (d : Descriptor) (hc : TxnClosed R) : Within R (requireReg d) :=
  within_andThen hc.trans (within_look _ hc.refl) fun r => by
    cases r
    · exact within_raise _ (hc.raised _)
    · exact within_ret _ hc.refl

/-- One page of a dump keeps what its updates keep. -/
theorem within_readPage (hc : AccessClosed R) : Within R readPage :=
  within_andThen hc.trans (within_latched _ hc.refl) fun _ =>
  within_andThen hc.trans (within_look _ hc.refl) fun _ =>
  within_andThen hc.trans (within_look _ hc.refl) fun _ =>
  within_andThen hc.trans (within_requireReg _ hc.toTxnClosed) fun _ =>
  within_andThen hc.trans (within_requireReg _ hc.toTxnClosed) fun _ =>
  within_andThen hc.trans (within_writeDescriptor _ _ hc) fun _ => within_readWords _ _ _ hc

/-- The bring-up sequence keeps what its updates keep. -/
theorem within_bringupSequence (hc : AccessClosed R) (hs : ∀ s, R s (sessionStart s))
    (hb : ∀ x s, R s (setBu x s)) : Within R bringupSequence := by
  have adv : ∀ x, Within R (advanceTo x) := fun x => within_modify (hb x)
  have exp : ∀ w e v, Within R (expectWord w e v) := fun w e v => by
    unfold expectWord
    split
    · exact within_ret _ hc.refl
    · exact within_raise _ (hc.raised _)
  have raw : ∀ bs, Within R (rawSend bs) := fun bs => within_rawSend bs hc.toTxnClosed
  have lk : ∀ {α : Type} (f : State → α), Within R (look f) := fun f => within_look f hc.refl
  have t := @hc.trans
  unfold bringupSequence bringupRaw bringupTransactions stepLineReset1 stepProtocolSwitch stepLineReset2 stepModeSwitch
    stepIdCodeCheck stepAbortCleared stepApBankSelected stepCtrlStatNegotiated stepIdrValidated stepCswConfigured
  repeat' first
    | exact raw _
    | exact adv _
    | exact exp _ _ _
    | exact lk _
    | exact within_readReg _ hc
    | exact within_writeReg _ _ hc
    | exact within_ensBank _ hc
    | exact within_ret _ hc.refl
    | exact within_modify hs
    | refine within_andThen t ?_ fun _ => ?_

end

end Sys2Proof.Machine
end

