-- ==== Sys2Proof/Laws/Exec.lean ====
section
/-! SUPPORT. Everything the sequencers and `exec` can do: the bring-up sequence, one page of a dump, and the outcome of
an instruction whose operation is judged; and the lifting of a closed relation to every instruction. -/

namespace Sys2Proof.Machine

/-! ## The bring-up sequence -/

theorem Moved.setBu {s u : State} (x : BuState) (h : Moved s u) :
    Moved (Sys2Proof.Machine.setBu x s) (Sys2Proof.Machine.setBu x u) := by
  obtain ⟨es, rx, p, b, t, hg, hp, rfl, hb, ht⟩ := h
  exact ⟨es, rx, p, b, t, hg, hp, rfl, hb, ht⟩

section
variable {s₀ s : State} {E : State → Prop} {x : BuState}

/-- What holds after the step `x` of a bring-up begun in `s₀`. -/
structure Stands (x : BuState) (s₀ s : State) : Prop where
  moved : Moved (setBu x s₀) s
  rest : AtRest s
  alive : s.sess_dead = false

/-- A bring-up begun in `s₀` and ended at a step before `Ready`. -/
def Aborted (s₀ t : State) : Prop := ∃ x, x ≠ .ready ∧ Ended (setBu x s₀) t

theorem Stands.aborted {t : State} (h : Stands x s₀ s) (hx : x ≠ .ready) (he : Ended s t) : Aborted s₀ t :=
  ⟨x, hx, h.moved.ended he⟩

theorem Stands.move {u : State} (h : Stands x s₀ s) (hm : Moved s u) : Stands x s₀ u :=
  ⟨h.moved.trans hm, hm.atRest h.rest, hm.alive h.alive⟩

theorem Stands.advance {y : BuState} (h : Stands x s₀ s) : Stands y s₀ (setBu y s) :=
  ⟨h.moved.setBu y, atRest_setBu y h.rest, h.alive⟩

theorem stands_advanceTo {y : BuState} {β : Type} {K : Unit → Op β} {Q : β → State → Prop} (h : Stands x s₀ s)
    (hK : ∀ u, Stands y s₀ u → Comes (K ()) u Q (Aborted s₀)) :
    Comes (andThen (advanceTo y) K) s Q (Aborted s₀) :=
  comes_andThen (comes_of_done (modify_apply _ _) (hK _ h.advance))

theorem stands_rawSend {bytes : List Byte} {Q : Unit → State → Prop} (h : Stands x s₀ s) (hx : x ≠ .ready)
    (hQ : ∀ u, Stands x s₀ u → Q () u) : Comes (rawSend bytes) s Q (Aborted s₀) := by
  refine comes_rawSend h.alive h.rest.phase (fun conf rx p hp _ => hQ _ (h.move (moved_later ?_ hp)))
    fun t ht => h.aborted hx ht.ended
  split
  · exact guarded_nil
  · exact guarded_append (guarded_send _) (guarded_confEvents conf)

theorem stands_readReg {id : BitVec 8} {Q : Word → State → Prop} (h : Stands x s₀ s) (hx : x ≠ .ready)
    (hQ : ∀ w u, Stands x s₀ u → Q w u) : Comes (readReg id) s Q (Aborted s₀) :=
  comes_readReg h.rest h.alive (fun _ w _ _ _ _ _ _ _ _ hm => hQ w _ (h.move hm)) fun _ ht => h.aborted hx ht

theorem stands_writeReg {id : BitVec 8} {v : Word} {Q : Unit → State → Prop} (h : Stands x s₀ s) (hx : x ≠ .ready)
    (hQ : ∀ u, Stands x s₀ u → Q () u) : Comes (writeReg id v) s Q (Aborted s₀) :=
  comes_writeReg h.rest h.alive (fun _ _ _ _ _ _ _ _ hm => hQ _ (h.move hm)) fun _ ht => h.aborted hx ht

theorem stands_ensBank {b : BitVec 8} {Q : Unit → State → Prop} (h : Stands x s₀ s) (hx : x ≠ .ready)
    (hQ : ∀ u, Stands x s₀ u → Q () u) : Comes (ensBank b) s Q (Aborted s₀) :=
  comes_ensBank h.rest h.alive (fun _ _ _ _ _ _ hm => hQ _ (h.move hm)) fun _ ht => h.aborted hx ht

theorem stands_expectWord {w v : Word} {e : ErrorKind} {Q : Unit → State → Prop} (h : Stands x s₀ s) (hx : x ≠ .ready)
    (hQ : Q () s) : Comes (expectWord w e v) s Q (Aborted s₀) := by
  unfold expectWord
  split
  · exact comes_of_done (ret_apply _ _) hQ
  · exact comes_of_ended (raise_apply _ _) (h.aborted hx (ended_raised e))

theorem stands_look {β γ : Type} {f : State → β} {K : β → Op γ} {Q : γ → State → Prop}
    (hK : Comes (K (f s)) s Q E) : Comes (andThen (look f) K) s Q E :=
  comes_andThen (comes_of_done (look_apply _ _) hK)

theorem stands_rawStep {bytes : List Byte} {y : BuState} {Q : Unit → State → Prop} (h : Stands x s₀ s)
    (hx : x ≠ .ready) (hQ : ∀ u, Stands y s₀ u → Q () u) :
    Comes (andThen (rawSend bytes) fun _ => advanceTo y) s Q (Aborted s₀) :=
  comes_andThen (stands_rawSend h hx fun _ hu => comes_of_done (modify_apply _ _) (hQ _ hu.advance))

theorem stands_bringupRaw {Q : Unit → State → Prop} (h : Stands .idle s₀ s)
    (hQ : ∀ u, Stands .modeSwitch s₀ u → Q () u) : Comes bringupRaw s Q (Aborted s₀) := by
  refine comes_andThen (stands_rawStep h (by decide) fun _ h => ?_)
  refine comes_andThen (stands_look (stands_rawStep h (by decide) fun _ h => ?_))
  refine comes_andThen (stands_rawStep h (by decide) fun _ h => ?_)
  exact stands_look (stands_rawStep h (by decide) fun _ h => hQ _ h)

theorem stands_bringupTransactions {Q : Unit → State → Prop} (h : Stands .modeSwitch s₀ s)
    (hQ : ∀ u, Stands .cswConfigured s₀ u → Q () u) : Comes bringupTransactions s Q (Aborted s₀) := by
  have fin : ∀ {y : BuState} {z : BuState} {t : State} {Q : Unit → State → Prop}, Stands z s₀ t →
      (∀ u, Stands y s₀ u → Q () u) → Comes (advanceTo y) t Q (Aborted s₀) :=
    fun h hQ => comes_of_done (modify_apply _ _) (hQ _ h.advance)
  refine comes_andThen (stands_look (comes_andThen (stands_readReg h (by decide) fun w _ h =>
    comes_andThen (stands_expectWord h (by decide) (fin h fun _ h => ?_)))))
  refine comes_andThen (stands_look (stands_look (comes_andThen (stands_writeReg h (by decide) fun _ h =>
    fin h fun _ h => ?_))))
  refine comes_andThen (stands_look (comes_andThen (stands_ensBank h (by decide) fun _ h => fin h fun _ h => ?_)))
  refine comes_andThen (stands_look (stands_look (comes_andThen (stands_writeReg h (by decide) fun _ h =>
    comes_andThen (stands_readReg h (by decide) fun w _ h => stands_look (comes_andThen
      (stands_expectWord h (by decide) (fin h fun _ h => ?_))))))))
  refine comes_andThen (stands_look (comes_andThen (stands_readReg h (by decide) fun w _ h =>
    stands_look (comes_andThen (stands_expectWord h (by decide) (fin h fun _ h => ?_))))))
  exact stands_look (stands_look (comes_andThen (stands_writeReg h (by decide) fun _ h =>
    comes_andThen (stands_readReg h (by decide) fun w _ h => comes_andThen
      (stands_expectWord h (by decide) (fin h fun _ h => hQ _ h))))))

/-- `BRINGUP` (45_bringup.md R225): it comes back standing at `Ready`, or is aborted before (R223). -/
theorem comes_bringupSequence (s : State) :
    Comes bringupSequence s (fun r t => r = none ∧ Stands .ready (sessionStart s) t) (Aborted (sessionStart s)) := by
  have h0 : Stands .idle (sessionStart s) (sessionStart s) := ⟨moved_refl _, atRest_sessionStart s, rfl⟩
  refine comes_andThen (comes_of_done (modify_apply _ _) ?_)
  refine comes_andThen (stands_bringupRaw h0 fun _ h => ?_)
  refine comes_andThen (stands_bringupTransactions h fun _ h => ?_)
  exact stands_advanceTo h fun _ h => comes_of_done (ret_apply _ _) ⟨rfl, h⟩

end

/-! ## One page of a dump -/

theorem comes_requireReg {d : Descriptor} {s : State} {E : State → Prop} {Q : Descriptor → State → Prop}
    (hQ : ∀ d', findReg s.cfg.regtab d = some d' → Q d' s) (hE : ∀ t, Ended s t → E t) : Comes (requireReg d) s Q E := by
  refine comes_andThen (comes_of_done (look_apply _ _) ?_)
  cases h : findReg s.cfg.regtab d with
  | none => exact comes_of_ended (raise_apply _ _) (hE _ (ended_raised _))
  | some d => exact comes_of_done (ret_apply _ _) (hQ d h)

theorem comes_readWords {drw : Descriptor} {n : Nat} {page : List Byte} {s : State} (hr : AtRest s)
    (ha : s.sess_dead = false) :
    Comes (readWords drw n page) s (fun out t => out.length = page.length + 4 * n ∧ Moved s t) (Ended s) := by
  induction n generalizing page s with
  | zero => exact comes_of_done (ret_apply _ _) ⟨by simp, moved_refl s⟩
  | succ n ih =>
    refine comes_andThen (comes_readDescriptor hr ha (fun w xs rx p _ _ _ _ hm => ?_) fun _ h => h)
    refine comes_mono (ih (hm.atRest hr) (hm.alive ha)) (fun out t h => ⟨?_, hm.trans h.2⟩) fun t h => hm.ended h
    rw [h.1]
    simp
    omega

/-- One page (46_flash_dump.md R242): 1024 bytes, or an end. -/
theorem comes_readPage {s : State} {addr : Word} (hr : AtRest s) (ha : s.sess_dead = false) (hf : s.fd_addr = some addr) :
    Comes readPage s (fun page t => page.length = Config.pageBytes ∧ Moved s t) (Ended s) := by
  refine comes_andThen (comes_of_done (latched_some hf) ?_)
  refine stands_look (stands_look ?_)
  refine comes_andThen (comes_requireReg (fun d _ => ?_) fun _ h => h)
  refine comes_andThen (comes_requireReg (fun d' _ => ?_) fun _ h => h)
  refine comes_andThen (comes_writeDescriptor hr ha (fun xs rx p _ _ _ hm => ?_) fun _ h => h)
  refine comes_mono (comes_readWords (hm.atRest hr) (hm.alive ha)) (fun out t h => ⟨?_, hm.trans h.2⟩)
    fun t h => hm.ended h
  rw [h.1]
  rfl

/-! ## Outcomes -/

theorem runCommand_of_comes {m : Op (Option Word)} {s : State} {Q : Option Word → State → Prop} {E : State → Prop}
    (h : Comes m s Q E) : ∃ t, runCommand m s = .next t ∧ ((∃ r u, Q r u ∧ t = respond r u) ∨ E t) := by
  unfold Comes at h
  unfold runCommand
  cases hm : m s with
  | done a u => exact ⟨_, rfl, .inl ⟨a, u, by simpa [hm] using h, rfl⟩⟩
  | ended u => exact ⟨_, rfl, .inr (by simpa [hm] using h)⟩
  | halted x => simp [hm] at h

theorem runInternal_of_comes {m : Op (Option OpResult)} {s : State} {Q : Option OpResult → State → Prop}
    {E : State → Prop} (ha : s.sess_dead = false) (h : Comes m (setResult none s) Q E) :
    ∃ t, runInternal m s = .next t ∧ ((∃ r u, Q r u ∧ t = setResult r u) ∨ E t) := by
  unfold Comes at h
  unfold runInternal
  simp only [ha, Bool.false_eq_true, if_false]
  cases hm : m (setResult none s) with
  | done a u => exact ⟨_, rfl, .inl ⟨a, u, by simpa [hm] using h, rfl⟩⟩
  | ended u => exact ⟨_, rfl, .inr (by simpa [hm] using h)⟩
  | halted x => simp [hm] at h

/-! ## Relations every instruction keeps -/

/-- The relation is kept by every update an instruction makes. -/
structure ExecClosed (R : State → State → Prop) : Prop extends AccessClosed R where
  respond : ∀ r s, R s (respond r s)
  refuse : ∀ s, R s (refuse s)
  setResult : ∀ r s, R s (setResult r s)
  sessionStart : ∀ s, R s (sessionStart s)
  setBu : ∀ x s, R s (setBu x s)
  dumpStart : ∀ s, R s (dumpStart s)
  afterPage : ∀ page s, R s (afterPage page s)
  dumpAborted : ∀ s, R s (dumpAborted s)

section
variable {R : State → State → Prop} {s t : State}

theorem within_runCommand {m : Op (Option Word)} (hc : ExecClosed R) (hm : Within R m)
    (h : runCommand m s = .next t) : R s t := by
  unfold runCommand at h
  cases hs : m s with
  | done a u =>
    simp only [hs, Host.Outcome.next.injEq] at h
    exact h ▸ hc.trans ((hm s).1 _ _ hs) (hc.respond _ _)
  | ended u =>
    simp only [hs, Host.Outcome.next.injEq] at h
    exact h ▸ (hm s).2 _ hs
  | halted x => cases x <;> simp [hs, haltOutcome] at h

theorem within_runChecked {m : Op (Option Word)} (hc : ExecClosed R) (hm : Within R m)
    (h : runChecked m s = .next t) : R s t := by
  unfold runChecked at h
  split at h
  · simp only [Host.Outcome.next.injEq] at h
    exact h ▸ hc.refuse s
  · exact within_runCommand hc hm h

theorem within_runInternal {m : Op (Option OpResult)} (hc : ExecClosed R) (hm : Within R m)
    (h : runInternal m s = .next t) : R s t := by
  unfold runInternal at h
  split at h
  · simp only [Host.Outcome.next.injEq] at h
    exact h ▸ hc.refl s
  · cases hs : m (setResult none s) with
    | done a u =>
      simp only [hs, Host.Outcome.next.injEq] at h
      exact h ▸ hc.trans (hc.setResult _ s) (hc.trans ((hm _).1 _ _ hs) (hc.setResult _ _))
    | ended u =>
      simp only [hs, Host.Outcome.next.injEq] at h
      exact h ▸ hc.trans (hc.setResult _ s) ((hm _).2 _ hs)
    | halted x => cases x <;> simp [hs, haltOutcome] at h

theorem within_dumpStep (hc : ExecClosed R) (h : dumpStep s = .next t) : R s t := by
  have hm := within_readPage hc.toAccessClosed
  unfold dumpStep at h
  cases hs : readPage s with
  | done a u =>
    simp only [hs, Host.Outcome.next.injEq] at h
    exact h ▸ hc.trans ((hm s).1 _ _ hs) (hc.afterPage _ _)
  | ended u =>
    simp only [hs, Host.Outcome.next.injEq] at h
    exact h ▸ hc.trans ((hm s).2 _ hs) (hc.dumpAborted _)
  | halted x => cases x <;> simp [hs, haltOutcome] at h

/-- Every instruction keeps what its updates keep. -/
theorem exec_within {i : Instr} (hc : ExecClosed R) (h : exec i s = .next t) : R s t := by
  have hr : ∀ apndp a, readOnItsOwn apndp a s = .next t → R s t := fun apndp a h =>
    within_runInternal hc (within_andThen hc.trans (within_swdrd _ _ hc.toTxnClosed) fun _ => within_ret _ hc.refl) h
  have hn : ∀ {m : Op Unit}, Within R m → runInternal (noResult m) s = .next t → R s t := fun hm h =>
    within_runInternal hc (within_andThen hc.trans hm fun _ => within_ret _ hc.refl) h
  have hw : ∀ apndp a v, writeOnItsOwn apndp a v s = .next t → R s t := fun apndp a v h =>
    hn (within_swdwr _ _ _ hc.toTxnClosed) h
  have hp : ∀ w, runPure w s = .next t → R s t := fun w h => by
    simp only [runPure, Host.Outcome.next.injEq] at h
    exact h ▸ hc.respond _ s
  have hf : Host.Outcome.next (refuse s) = (.next t : Host.Outcome State Fault Refusal) → R s t := fun h => by
    simp only [Host.Outcome.next.injEq] at h
    exact h ▸ hc.refuse s
  cases i with
  | sreset =>
    simp only [exec, execSreset, Host.Outcome.next.injEq] at h
    exact h ▸ hc.sessionStart s
  | rd id =>
    exact within_runChecked hc (within_andThen hc.trans (within_readReg _ hc.toAccessClosed) fun _ => within_ret _ hc.refl) h
  | wr id v =>
    exact within_runChecked hc (within_andThen hc.trans (within_writeReg _ _ hc.toAccessClosed) fun _ => within_ret _ hc.refl) h
  | bringup => exact within_runCommand hc (within_bringupSequence hc.toAccessClosed hc.sessionStart hc.setBu) h
  | dump =>
    simp only [exec, execDump] at h
    split at h
    · exact hf h
    · exact hc.trans (hc.dumpStart s) (within_dumpStep hc h)
  | revb b => exact hp _ h
  | wpar w => exact hp _ h
  | hpar a apndp rnw => exact hp _ h
  | enchdr a apndp rnw => exact hp _ h
  | ackchk u0 u1 u2 => exact hp _ h
  | reserved0 => exact hf h
  | reserved6 => exact hf h
  | reserved7 => exact hf h
  | reservedD => exact hf h
  | reservedE => exact hf h
  | reservedF => exact hf h
  | rawsend bytes => exact hn (within_rawSend _ hc.toTxnClosed) h
  | resolve id =>
    exact within_runInternal hc (within_andThen hc.trans (within_resolveId _ hc.toTxnClosed) fun _ => within_ret _ hc.refl) h
  | ensbank b => exact hn (within_ensBank _ hc.toAccessClosed) h
  | enstar v => exact hn (within_ensTar _ hc.toAccessClosed) h
  | snoop d v => exact hn (within_snoopOp _ _ hc.toAccessClosed) h
  | dprd a => exact hr _ _ h
  | aprd a => exact hr _ _ h
  | dprd0 => exact hr _ _ h
  | dprd1 => exact hr _ _ h
  | dprd2 => exact hr _ _ h
  | dprd3 => exact hr _ _ h
  | aprd0 => exact hr _ _ h
  | aprd1 => exact hr _ _ h
  | aprd2 => exact hr _ _ h
  | aprd3 => exact hr _ _ h
  | swdrd apndp a => exact hr _ _ h
  | dpwr a v => exact hw _ _ _ h
  | apwr a v => exact hw _ _ _ h
  | dpwr0 v => exact hw _ _ _ h
  | dpwr1 v => exact hw _ _ _ h
  | dpwr2 v => exact hw _ _ _ h
  | dpwr3 v => exact hw _ _ _ h
  | apwr0 v => exact hw _ _ _ h
  | apwr1 v => exact hw _ _ _ h
  | apwr2 v => exact hw _ _ _ h
  | apwr3 v => exact hw _ _ _ h
  | swdwr apndp a v => exact hw _ _ _ h

/-- Every step keeps what its updates keep. -/
theorem step_within (hc : ExecClosed R) (ht : ∀ rest s, R s (taken rest s)) (h : step s = .next t) : R s t := by
  unfold step at h
  split at h
  · split at h
    · rename_i h0
      simp only [Host.Outcome.next.injEq] at h
      exact h ▸ hc.powerOnReset s h0
    · refine hc.trans (hc.afterPoint s) ?_
      unfold stepRunning at h
      split at h
      · exact within_dumpStep hc h
      · unfold fetch at h
        split at h
        · simp only [Host.Outcome.next.injEq] at h
          exact h ▸ hc.refl _
        · simp at h
        · rename_i i u hf
          split at hf
          · simp at hf
          · split at hf
            · simp only [Fetched.instr.injEq] at hf
              obtain ⟨rfl, rfl⟩ := hf
              exact hc.trans (ht _ _) (exec_within hc h)
            · simp at hf
  · simp at h

end

end Sys2Proof.Machine
end

