-- ==== Sys2Proof/Laws/Did.lean ====
section
/-! SUPPORT. What an instruction executed from a state at rest can do, said once: it is turned away, answers at once,
starts a session, completes an access, or is ended by `raise` or power-on reset; every instruction answers a next
state. And what a step from a coherent state can do. -/

namespace Sys2Proof.Machine

/-- What executing `i` in a state `s` at rest has done, `t` being the next state. -/
inductive Did (i : Instr) (s : State) : State → Prop where
  | pure (r : Word) : isPure i = true → Did i s (respond (some r) s)
  | refused : (isReserved i = true ∨ (sessionChecked i = true ∧ s.sess_dead = true) ∨
      (i = .dump ∧ s.bu_state ≠ .ready)) → Did i s (refuse s)
  | sreset : i = .sreset → Did i s (sessionStart s)
  | notStarted : isInternal i = true → s.sess_dead = true → Did i s s
  | internal (r : Option OpResult) (u : State) : isInternal i = true → s.sess_dead = false →
      Moved (setResult none s) u → Did i s (setResult r u)
  | snoop (d : Descriptor) (v : Word) : i = .snoop d v → s.sess_dead = false →
      Did i s (setResult none (snooped d v (setResult none s)))
  | internalEnded (t : State) : isInternal i = true → s.sess_dead = false → Ended (setResult none s) t → Did i s t
  | access (r : Option Word) (u : State) : (∃ id, i = .rd id ∨ ∃ v, i = .wr id v) → s.sess_dead = false →
      Moved s u → Did i s (respond r u)
  | accessEnded (t : State) : (∃ id, i = .rd id ∨ ∃ v, i = .wr id v) → s.sess_dead = false → Ended s t → Did i s t
  | bringup (u : State) : i = .bringup → Stands .ready (sessionStart s) u → Did i s (respond none u)
  | bringupEnded (t : State) : i = .bringup → Aborted (sessionStart s) t → Did i s t
  | page (page : List Byte) (u : State) : i = .dump → s.sess_dead = false → s.bu_state = .ready →
      page.length = Config.pageBytes → Moved (dumpStart s) u → Did i s (afterPage page u)
  | pageEnded (u : State) : i = .dump → s.sess_dead = false → s.bu_state = .ready → Ended (dumpStart s) u →
      Did i s (dumpAborted u)

theorem atRest_dumpStart {s : State} (h : AtRest s) : AtRest (dumpStart s) :=
  ⟨h.phase, h.addr, h.apndp, h.rnw, h.par, h.hdr, h.val, h.vpar⟩

theorem atRest_setResult {s : State} (r : Option OpResult) (h : AtRest s) : AtRest (setResult r s) :=
  ⟨h.phase, h.addr, h.apndp, h.rnw, h.par, h.hdr, h.val, h.vpar⟩

theorem atRest_taken {s : State} (rest : List Frame) (h : AtRest s) : AtRest (taken rest s) :=
  ⟨h.phase, h.addr, h.apndp, h.rnw, h.par, h.hdr, h.val, h.vpar⟩

theorem atRest_afterPoint {s : State} (h : AtRest s) : AtRest (afterPoint s) :=
  ⟨h.phase, h.addr, h.apndp, h.rnw, h.par, h.hdr, h.val, h.vpar⟩

/-- One page of a dump: read, or ended. -/
theorem dumpStep_did {s : State} {addr : Word} (hr : AtRest s) (ha : s.sess_dead = false) (hf : s.fd_addr = some addr) :
    (∃ page u, page.length = Config.pageBytes ∧ Moved s u ∧ dumpStep s = .next (afterPage page u)) ∨
      ∃ u, Ended s u ∧ dumpStep s = .next (dumpAborted u) := by
  have h := comes_readPage hr ha hf
  unfold Comes at h
  unfold dumpStep
  cases hm : readPage s with
  | done page u =>
    rw [hm] at h
    exact .inl ⟨page, u, h.1, h.2, rfl⟩
  | ended u =>
    rw [hm] at h
    exact .inr ⟨u, h, rfl⟩
  | halted x => simp [hm] at h

section
variable {i : Instr} {s : State}

theorem did_internal {m : Op (Option OpResult)} (hi : isInternal i = true)
    (hm : s.sess_dead = false → Comes m (setResult none s) (fun _ u => Moved (setResult none s) u)
      (Ended (setResult none s))) : ∃ t, runInternal m s = .next t ∧ Did i s t := by
  by_cases ha : s.sess_dead = true
  · exact ⟨s, by simp [runInternal, ha], .notStarted hi ha⟩
  · simp only [Bool.not_eq_true] at ha
    obtain ⟨t, ht, h⟩ := runInternal_of_comes ha (hm ha)
    refine ⟨t, ht, ?_⟩
    rcases h with ⟨r, u, hq, rfl⟩ | he
    · exact .internal r u hi ha hq
    · exact .internalEnded t hi ha he

theorem did_access {m : Op (Option Word)} (hi : ∃ id, i = .rd id ∨ ∃ v, i = .wr id v)
    (hm : s.sess_dead = false → Comes m s (fun _ u => Moved s u) (Ended s)) :
    ∃ t, runChecked m s = .next t ∧ Did i s t := by
  by_cases ha : s.sess_dead = true
  · refine ⟨refuse s, by simp [runChecked, ha], .refused (.inr (.inl ⟨?_, ha⟩))⟩
    obtain ⟨id, rfl | ⟨v, rfl⟩⟩ := hi <;> rfl
  · simp only [Bool.not_eq_true] at ha
    obtain ⟨t, ht, h⟩ := runCommand_of_comes (hm ha)
    refine ⟨t, by simpa [runChecked, ha] using ht, ?_⟩
    rcases h with ⟨r, u, hq, rfl⟩ | he
    · exact .access r u hi ha hq
    · exact .accessEnded t hi ha he

/-- Every instruction answers a next state, and this is what it has done. -/
theorem exec_did (i : Instr) (hr : AtRest s) : ∃ t, exec i s = .next t ∧ Did i s t := by
  have hr0 : AtRest (setResult none s) := atRest_setResult none hr
  have rd : ∀ apndp a, isInternal i = true → ∃ t, readOnItsOwn apndp a s = .next t ∧ Did i s t := fun apndp a hi =>
    did_internal hi fun ha => comes_andThen (comes_swdrd_rest hr0 ha
      (fun _ _ _ _ _ hm => comes_of_done (ret_apply _ _) hm) fun _ h => h)
  have wr : ∀ apndp a v, isInternal i = true → ∃ t, writeOnItsOwn apndp a v s = .next t ∧ Did i s t :=
    fun apndp a v hi => did_internal hi fun ha => comes_andThen (comes_swdwr_rest hr0 ha
      (fun _ _ _ _ _ hm => comes_of_done (ret_apply _ _) hm) fun _ h => h)
  cases i with
  | dpwr a v => exact wr _ _ _ rfl
  | dprd a => exact rd _ _ rfl
  | apwr a v => exact wr _ _ _ rfl
  | aprd a => exact rd _ _ rfl
  | dpwr0 v => exact wr _ _ _ rfl
  | dpwr1 v => exact wr _ _ _ rfl
  | dpwr2 v => exact wr _ _ _ rfl
  | dpwr3 v => exact wr _ _ _ rfl
  | dprd0 => exact rd _ _ rfl
  | dprd1 => exact rd _ _ rfl
  | dprd2 => exact rd _ _ rfl
  | dprd3 => exact rd _ _ rfl
  | apwr0 v => exact wr _ _ _ rfl
  | apwr1 v => exact wr _ _ _ rfl
  | apwr2 v => exact wr _ _ _ rfl
  | apwr3 v => exact wr _ _ _ rfl
  | aprd0 => exact rd _ _ rfl
  | aprd1 => exact rd _ _ rfl
  | aprd2 => exact rd _ _ rfl
  | aprd3 => exact rd _ _ rfl
  | swdrd apndp a => exact rd _ _ rfl
  | swdwr apndp a v => exact wr _ _ _ rfl
  | sreset => exact ⟨_, rfl, .sreset rfl⟩
  | rd id =>
    exact did_access ⟨id, .inl rfl⟩ fun ha => comes_andThen (comes_readReg hr ha
      (fun _ _ _ _ _ _ _ _ _ _ hm => comes_of_done (ret_apply _ _) hm) fun _ h => h)
  | wr id v =>
    exact did_access ⟨id, .inr ⟨v, rfl⟩⟩ fun ha => comes_andThen (comes_writeReg hr ha
      (fun _ _ _ _ _ _ _ _ hm => comes_of_done (ret_apply _ _) hm) fun _ h => h)
  | bringup =>
    obtain ⟨t, ht, h⟩ := runCommand_of_comes (comes_bringupSequence s)
    refine ⟨t, ht, ?_⟩
    rcases h with ⟨r, u, ⟨rfl, hs⟩, rfl⟩ | he
    · exact .bringup u rfl hs
    · exact .bringupEnded t rfl he
  | dump =>
    simp only [exec, execDump]
    split
    · rename_i h
      refine ⟨_, rfl, .refused ?_⟩
      rcases h with h | h
      · exact .inr (.inl ⟨rfl, h⟩)
      · exact .inr (.inr ⟨rfl, h⟩)
    · rename_i h
      simp only [not_or, Bool.not_eq_true, not_not] at h
      rcases dumpStep_did (s := dumpStart s) (atRest_dumpStart hr) h.1 rfl with ⟨p, u, hl, hm, e⟩ | ⟨u, he, e⟩
      · exact ⟨_, e, .page p u rfl h.1 h.2 hl hm⟩
      · exact ⟨_, e, .pageEnded u rfl h.1 h.2 he⟩
  | revb b => exact ⟨_, rfl, .pure _ rfl⟩
  | wpar w => exact ⟨_, rfl, .pure _ rfl⟩
  | hpar a apndp rnw => exact ⟨_, rfl, .pure _ rfl⟩
  | enchdr a apndp rnw => exact ⟨_, rfl, .pure _ rfl⟩
  | ackchk u0 u1 u2 => exact ⟨_, rfl, .pure _ rfl⟩
  | reserved0 => exact ⟨_, rfl, .refused (.inl rfl)⟩
  | reserved6 => exact ⟨_, rfl, .refused (.inl rfl)⟩
  | reserved7 => exact ⟨_, rfl, .refused (.inl rfl)⟩
  | reservedD => exact ⟨_, rfl, .refused (.inl rfl)⟩
  | reservedE => exact ⟨_, rfl, .refused (.inl rfl)⟩
  | reservedF => exact ⟨_, rfl, .refused (.inl rfl)⟩
  | rawsend bytes =>
    refine did_internal rfl fun ha => comes_andThen (comes_rawSend ha hr0.phase (fun conf rx p hp _ =>
      comes_of_done (ret_apply _ _) (moved_later ?_ hp)) fun _ h => h.ended)
    split
    · exact guarded_nil
    · exact guarded_append (guarded_send _) (guarded_confEvents conf)
  | resolve id =>
    exact did_internal rfl fun _ => comes_andThen (comes_resolveId
      (fun _ _ => comes_of_done (ret_apply _ _) (moved_refl _)) fun _ h => h)
  | ensbank b =>
    exact did_internal rfl fun ha => comes_andThen (comes_ensBank hr0 ha
      (fun _ _ _ _ _ _ hm => comes_of_done (ret_apply _ _) hm) fun _ h => h)
  | enstar v =>
    exact did_internal rfl fun ha => comes_andThen (comes_ensTar hr0 ha
      (fun _ _ _ _ _ _ hm => comes_of_done (ret_apply _ _) hm) fun _ h => h)
  | snoop d v =>
    by_cases ha : s.sess_dead = true
    · exact ⟨s, by simp [exec, execSnoop, runInternal, ha], .notStarted rfl ha⟩
    · simp only [Bool.not_eq_true] at ha
      exact ⟨_, by simp only [exec, execSnoop, runInternal, ha]; rfl, .snoop d v rfl ha⟩

theorem did_of_exec {t : State} (hr : AtRest s) (h : exec i s = .next t) : Did i s t := by
  obtain ⟨u, hu, hd⟩ := exec_did i hr
  rw [h] at hu
  cases hu
  exact hd

/-! ## What an end leaves -/

/-- An ended access in a session without power-on reset: raised, with the caches and trace of what had completed. -/
theorem Ended.raised_of_noReset {t : State} (h : Ended s t) (hp : s.por = []) :
    ∃ e u, Moved s u ∧ t = raised e u := by
  obtain ⟨u, hm, ⟨e, rfl⟩ | ⟨h0, _⟩⟩ := h
  · exact ⟨e, u, hm, rfl⟩
  · exact absurd hp h0

end

/-! ## One step -/

/-- What a step from a coherent state has done, `t` being the next state. -/
inductive StepDid (s : State) : State → Prop where
  | reset : s.por.head? = some 0 → StepDid s (powerOnReset s)
  | waited : s.por.head? ≠ some 0 → s.fd_busy = false → s.port = [] → StepDid s (afterPoint s)
  | page (page : List Byte) (u : State) : s.por.head? ≠ some 0 → s.fd_busy = true → page.length = Config.pageBytes →
      Moved (afterPoint s) u → StepDid s (afterPage page u)
  | pageEnded (u : State) : s.por.head? ≠ some 0 → s.fd_busy = true → Ended (afterPoint s) u → StepDid s (dumpAborted u)
  | ran (f : Frame) (rest : List Frame) (i : Instr) (t : State) : s.por.head? ≠ some 0 → s.fd_busy = false →
      s.port = f :: rest → decode f = .ok i → exec i (taken rest (afterPoint s)) = .next t →
      Did i (taken rest (afterPoint s)) t → StepDid s t

/-- A step from a coherent state: power-on reset, waiting, a page of the dump in progress, or the next command. -/
theorem step_did {s t : State} (hc : Coherent s) (h : step s = .next t) : StepDid s t := by
  unfold step at h
  split at h
  · split at h
    · rename_i h0
      simp only [Host.Outcome.next.injEq] at h
      exact h ▸ .reset h0
    · rename_i h0
      unfold stepRunning at h
      split at h
      · rename_i hb
        obtain ⟨ha, _, _, addr, hf, _⟩ := hc.busy hb
        rcases dumpStep_did (s := afterPoint s) (atRest_afterPoint hc.rest) ha hf with ⟨p, u, hl, hm, e⟩ | ⟨u, he, e⟩
        · rw [e, Host.Outcome.next.injEq] at h
          exact h ▸ .page p u h0 hb hl hm
        · rw [e, Host.Outcome.next.injEq] at h
          exact h ▸ .pageEnded u h0 hb he
      · rename_i hb
        have hb : s.fd_busy = false := by simpa using hb
        unfold fetch at h
        cases hp : s.port with
        | nil =>
          simp only [afterPoint_port, hp, Host.Outcome.next.injEq] at h
          exact h ▸ .waited h0 hb hp
        | cons f rest =>
          simp only [afterPoint_port, hp] at h
          cases hd : decode f with
          | error e => simp [hd] at h
          | ok i =>
            simp only [hd] at h
            exact .ran f rest i t h0 hb hp hd h (did_of_exec (atRest_taken rest (atRest_afterPoint hc.rest)) h)
  · simp at h

end Sys2Proof.Machine
end

