-- ==== Sys2Proof/Laws/Encoding.lean ====
section
/-! SUPPORT. The fields of a command word (30_encoding.md R92), and the header of each row (R82). -/

namespace Sys2Proof

variable (op : BitVec 4) (id : BitVec 8) (w : Word)

theorem command_op : (op ++ id ++ w).extractLsb' 40 4 = op := by
  apply BitVec.eq_of_getLsbD_eq
  intro i hi
  rw [BitVec.getLsbD_extractLsb', BitVec.getLsbD_append, BitVec.getLsbD_append, if_neg (by omega), if_neg (by omega),
    show 40 + i - 32 - 8 = i by omega]
  simp [hi]

theorem command_id : (op ++ id ++ w).extractLsb' 32 8 = id := by
  apply BitVec.eq_of_getLsbD_eq
  intro i hi
  rw [BitVec.getLsbD_extractLsb', BitVec.getLsbD_append, BitVec.getLsbD_append, if_neg (by omega), if_pos (by omega),
    show 32 + i - 32 = i by omega]
  simp [hi]

/-- A bit of `cmd_wdata`. -/
theorem command_bit {i : Nat} (h : i < 32) : (op ++ id ++ w).getLsbD i = w.getLsbD i := by
  rw [BitVec.getLsbD_append, if_pos h]

/-- A field inside `cmd_wdata`. -/
theorem command_field {start len : Nat} (h : start + len ≤ 32) :
    (op ++ id ++ w).extractLsb' start len = w.extractLsb' start len := by
  apply BitVec.eq_of_getLsbD_eq
  intro i hi
  rw [BitVec.getLsbD_extractLsb', BitVec.getLsbD_extractLsb', command_bit op id w (by omega)]

theorem command_wdata : (op ++ id ++ w).extractLsb' 0 32 = w := by
  rw [command_field op id w (by omega)]
  simp

/-- The decoder takes a header as the row whose header it is. -/
theorem decodeRequest_header (a : BitVec 2) (apndp rnw : Bool) (v : Word) :
    decodeRequest (Machine.header a apndp rnw) v = .ok (requestRow apndp rnw a v) := by
  have bits : ∀ a : BitVec 2, a = 0 ∨ a = 1 ∨ a = 2 ∨ a = 3 := by decide
  rcases bits a with rfl | rfl | rfl | rfl <;> cases apndp <;> cases rnw <;> rfl

end Sys2Proof
end

