-- ==== Sys2Proof/Laws/Mirror.lean ====
section
/-! SUPPORT. The target's SELECT and TAR as the block's writes leave them (Machine/Wire.lean), and that every operation
of the cache controller and every sequencer keeps the caches equal to them (10_state.md R37(b), 44_register_router.md
R172 to R182, 70_reset_and_hazards.md R313), wherever it comes back with a result. -/

namespace Sys2Proof.Machine

/-! ## The writes of a trace -/

/-- The events `es` send the writes `ws`, whatever stands before and after them. -/
def Wrote (ws : List (Byte × Word)) (es : List Event) : Prop :=
  ∀ W rest, ∃ W', writesSent W (es ++ rest) = ws ++ writesSent W' rest

theorem wrote_nil : Wrote [] [] := fun W _ => ⟨W, rfl⟩

theorem Wrote.append {ws vs : List (Byte × Word)} {es fs : List Event} (h : Wrote ws es) (h' : Wrote vs fs) :
    Wrote (ws ++ vs) (es ++ fs) := fun W rest => by
  obtain ⟨W', e⟩ := h W (fs ++ rest)
  obtain ⟨W'', e'⟩ := h' W' rest
  exact ⟨W'', by rw [List.append_assoc, e, e', List.append_assoc]⟩

theorem Wrote.eq {ws : List (Byte × Word)} {es : List Event} (h : Wrote ws es) (W : Byte) : writesSent W es = ws := by
  obtain ⟨W', e⟩ := h W []
  simpa [writesSent] using e

/-- The writes of a transaction: the header's wire byte and the word. -/
def txnWrites : Txn → List (Byte × Word)
  | .read _ _ => []
  | .write apndp a v => [(wireByte a apndp false, v)]

theorem wrote_confEvents (us : List Byte) : Wrote [] (confEvents us) := by
  unfold confEvents
  split
  · exact wrote_nil
  · exact fun W rest => ⟨W, rfl⟩

theorem wordBytes_join (v : Word) :
    v.extractLsb' 24 8 ++ v.extractLsb' 16 8 ++ v.extractLsb' 8 8 ++ v.extractLsb' 0 8 = v := by
  apply BitVec.eq_of_getLsbD_eq
  intro i hi
  simp only [BitVec.getLsbD_append, BitVec.getLsbD_extractLsb']
  by_cases h0 : i < 8
  · simp [h0]
  · by_cases h1 : i < 16
    · simp [h0, show i - 8 < 8 by omega, show 8 + (i - 8) = i by omega]
    · by_cases h2 : i < 24
      · simp [h0, show ¬ i - 8 < 8 by omega, show i - 8 - 8 < 8 by omega, show 16 + (i - 8 - 8) = i by omega]
      · simp [h0, show ¬ i - 8 < 8 by omega, show ¬ i - 8 - 8 < 8 by omega, show i - 8 - 8 - 8 < 8 by omega,
          show 24 + (i - 8 - 8 - 8) = i by omega]

theorem wrote_opening (W₀ : Byte) (r : Reply) (rest : List Event) (W : Byte) :
    ∃ W', writesSent W (openingEvents W₀ r ++ rest) = writesSent W' rest ∧ W' = W₀ := by
  obtain ⟨W', e⟩ := wrote_confEvents r.turn W₀ rest
  unfold confEvents at e
  unfold openingEvents confEvents
  split <;> exact ⟨W₀, rfl, rfl⟩

/-- A frame sends its one write, a read's none (30_encoding.md R86, R87). -/
theorem wrote_frame (x : Txn × Reply) : Wrote (txnWrites x.1) (frameEvents x) := fun W rest => by
  obtain ⟨t, r⟩ := x
  cases t with
  | read apndp a =>
    simp only [frameEvents, List.append_assoc]
    obtain ⟨_, e, rfl⟩ := wrote_opening (wireByte a apndp true) r
      ([.send [.rdbyte, .rdbyte, .rdbyte, .rdbyte, .rdbit], .flush, .recv 4 (some (wordBytes r.word)),
        .recv 1 (some [parityUnit r.word]), .send [.clk]] ++ (confEvents r.fin ++ rest)) W
    obtain ⟨W', e'⟩ := wrote_confEvents r.fin (wireByte a apndp true) rest
    exact ⟨W', e.trans e'⟩
  | write apndp a v =>
    simp only [frameEvents, List.append_assoc]
    obtain ⟨_, e, rfl⟩ := wrote_opening (wireByte a apndp false) r
      ([.send [.wr 4, .byte (v.extractLsb' 0 8), .byte (v.extractLsb' 8 8), .byte (v.extractLsb' 16 8),
        .byte (v.extractLsb' 24 8), if wpar v then .pset else .pclr], .flush, .recv 2 (some r.fin)] ++ rest) W
    refine ⟨wireByte a apndp false, e.trans ?_⟩
    simp [writesSent, txnWrites, wordBytes_join]

theorem wrote_events (xs : List (Txn × Reply)) : Wrote ((xs.map Prod.fst).flatMap txnWrites) (eventsOf xs) := by
  induction xs with
  | nil => exact wrote_nil
  | cons x xs ih =>
    rw [eventsOf_cons]
    simpa using (wrote_frame x).append ih

/-- A raw frame sends no write (43_transaction_codec.md R152). -/
theorem wrote_raw (bytes : List Byte) : Wrote [] [.send (.wr bytes.length :: bytes.map .byte)] := fun W _ =>
  match bytes with
  | [] => ⟨W, rfl⟩
  | [b] => ⟨b, rfl⟩
  | [_, _] => ⟨W, rfl⟩
  | [_, _, _] => ⟨W, rfl⟩
  | [_, _, _, _] => ⟨W, rfl⟩
  | [_, _, _, _, _] => ⟨W, rfl⟩
  | _ :: _ :: _ :: _ :: _ :: _ :: _ => ⟨W, rfl⟩

/-! ## The target under the block's transactions -/

/-- The target after transactions that were taken. -/
def targetAfter (c : Cfg) (r : TargetRegs) (ts : List Txn) : TargetRegs := (ts.flatMap txnWrites).foldl (targetWrite c) r

theorem targetAfter_nil (c : Cfg) (r : TargetRegs) : targetAfter c r [] = r := rfl

theorem targetAfter_append (c : Cfg) (r : TargetRegs) (ts us : List Txn) :
    targetAfter c r (ts ++ us) = targetAfter c (targetAfter c r ts) us := by simp [targetAfter]

/-- What the caches (bank, then TAR) have to do with the target's registers. -/
abbrev Agreement := Option Word → Option Word → TargetRegs → Prop

/-- What the caches hold is what the target's registers hold. -/
structure Agree (b t : Option Word) (r : TargetRegs) : Prop where
  select : ∀ v, b = some v → r.select = v
  tar : ∀ v, t = some v → r.tar = v

theorem agree_unknown (r : TargetRegs) : Agree none none r := ⟨by simp, by simp⟩

section
variable {c : Cfg} {b t : Option Word} {r : TargetRegs}

/-- Two write headers are the same only for the same port and slot (41_request_encoder.md R123). -/
theorem wireByte_write_inj : ∀ {a a' : BitVec 2} {p p' : Bool}, wireByte a p false = wireByte a' p' false →
    a = a' ∧ p = p' := by
  decide

theorem agree_select (v : Word) (h : Agree b t r) :
    Agree (some v) t (targetAfter c r [.write false (selectSlot c) v]) ∧
      (targetAfter c r [.write false (selectSlot c) v]).select = v := by
  have : targetAfter c r [.write false (selectSlot c) v] = { r with select := v } := by
    simp [targetAfter, txnWrites, targetWrite]
  rw [this]
  exact ⟨⟨by simp, h.tar⟩, rfl⟩

/-- A write of the access port writes TAR, or nothing the caches mirror. -/
theorem targetAfter_ap (a : BitVec 2) (v : Word) :
    targetAfter c r [.write true a v] =
      if a = tarSlot c ∧ r.select = selectValue (tarBank c) then { r with tar := v } else r := by
  have h1 : wireByte a true false ≠ wireByte (selectSlot c) false false := fun h => by
    simpa using (wireByte_write_inj h).2
  have h2 : wireByte a true false = wireByte (tarSlot c) true false ↔ a = tarSlot c :=
    ⟨fun h => (wireByte_write_inj h).1, fun h => by rw [h]⟩
  simp [targetAfter, txnWrites, targetWrite, h1, h2]

/-- A write of the debug port writes SELECT, or nothing the caches mirror. -/
theorem targetAfter_dp (a : BitVec 2) (v : Word) :
    targetAfter c r [.write false a v] = if a = selectSlot c then { r with select := v } else r := by
  have h1 : wireByte a false false ≠ wireByte (tarSlot c) true false := fun h => by
    simpa using (wireByte_write_inj h).2
  have h2 : wireByte a false false = wireByte (selectSlot c) false false ↔ a = selectSlot c :=
    ⟨fun h => (wireByte_write_inj h).1, fun h => by rw [h]⟩
  simp [targetAfter, txnWrites, targetWrite, h1, h2]

/-- `ENSBANK` leaves the bank in the cache and in the target (44_register_router.md R172). -/
theorem agree_bankTxns (k : BitVec 8) (h : Agree b t r) :
    Agree (some (k.zeroExtend 32)) t (targetAfter c r (bankTxns c b k)) ∧
      (targetAfter c r (bankTxns c b k)).select = k.zeroExtend 32 := by
  unfold bankTxns
  split
  · rename_i hb
    exact ⟨⟨fun v hv => (h.select _ hb).trans (by simpa using hv), h.tar⟩, h.select _ hb⟩
  · exact agree_select _ h

/-- `ENSTAR` leaves the value in the cache and in the target (R173). -/
theorem agree_tarTxns (v : Word) (h : Agree b t r) :
    Agree (bankAfterTar c b t v) (some v) (targetAfter c r (tarTxns c b t v)) := by
  unfold tarTxns bankAfterTar
  split
  · rename_i ht
    exact ⟨h.select, fun w hw => (h.tar _ ht).trans (by simpa using hw)⟩
  · rw [targetAfter_append, targetAfter_ap]
    obtain ⟨h1, h2⟩ := agree_bankTxns (c := c) (c.apTarOff &&& 0xF0#8) h
    have : (targetAfter c r (bankTxns c b (c.apTarOff &&& 0xF0#8))).select = selectValue (tarBank c) := h2
    rw [if_pos ⟨rfl, this⟩]
    exact ⟨h1.select, by simp⟩

/-- The window of bank `0x10` stands open in the caches and in the target (R176). -/
theorem agree_windowTxns (addr : Word) (h : Agree b t r) :
    Agree (some 0x10#32) (some (addr &&& c.tarAlignMask)) (targetAfter c r (windowTxns c b t addr)) ∧
      (targetAfter c r (windowTxns c b t addr)).select = 0x10#32 := by
  unfold windowTxns
  rw [targetAfter_append]
  exact agree_bankTxns 0x10#8 (agree_tarTxns _ h)

theorem targetAfter_reads (p q : Bool) (a a' : BitVec 2) : targetAfter c r [.read p a, .read q a'] = r := rfl

/-- `RD` keeps the caches equal to the target (R174 to R177). -/
theorem agree_expandRd (d : Descriptor) (h : Agree b t r) :
    Agree (bankAfter b d) (tarAfter c t d) (targetAfter c r (expandRd c b t d)) := by
  obtain ⟨off, sp⟩ := d
  cases sp with
  | dp => exact h
  | ap =>
    simp only [expandRd, bankAfter, tarAfter, targetAfter_append, targetAfter_reads]
    exact (agree_bankTxns _ h).1
  | ficr | uicr | scs =>
    simp only [expandRd, bankAfter, tarAfter, targetAfter_append, targetAfter_reads]
    exact (agree_windowTxns _ h).1

/-- The value written to SELECT tells its bank (30_encoding.md R90). -/
theorem selectValue_inj {x y : BitVec 8} (h : selectValue x = selectValue y) : x = y := by
  have := congrArg BitVec.toNat h
  simp only [selectValue, BitVec.truncate_eq_setWidth, BitVec.toNat_setWidth] at this
  exact BitVec.eq_of_toNat_eq (by omega)

/-- An aligned offset is its bank and its slot. -/
theorem offset_of_bank_slot : ∀ {x y : BitVec 8}, x.extractLsb' 0 2 = 0#2 → y.extractLsb' 0 2 = 0#2 →
    x &&& 0xF0#8 = y &&& 0xF0#8 → x.extractLsb' 2 2 = y.extractLsb' 2 2 → x = y := by
  intro x y hx hy hb hs
  apply BitVec.eq_of_getLsbD_eq
  intro i hi
  by_cases h0 : i < 2
  · have e := congrArg (fun z => z.getLsbD i) (hx.trans hy.symm)
    simpa [h0] using e
  · by_cases h1 : i < 4
    · have e := congrArg (fun z => z.getLsbD (i - 2)) hs
      simpa [show i - 2 < 2 by omega, show 2 + (i - 2) = i by omega] using e
    · have e := congrArg (fun z => z.getLsbD i) hb
      have hm : ∀ i, 4 ≤ i → i < 8 → (0xF0#8).getLsbD i = true := by decide
      simpa [hm i (by omega) hi] using e

/-- `WR` keeps the caches equal to the target, its snoop among it (R178 to R182), at a descriptor of a well-formed table
(10_state.md R32), where TAR stands apart from the window. -/
theorem agree_expandWr {d : Descriptor} (v : Word) (hd : d.offset.extractLsb' 0 2 = 0#2) (hc : TarApart c)
    (h : Agree b t r) :
    Agree (bankAfterWr c b d v) (tarAfterWr c t d v) (targetAfter c r (expandWr c b t d v)) := by
  have hw : ∀ addr a, Agree (some 0x10#32) (some (addr &&& c.tarAlignMask))
      (targetAfter c r (windowTxns c b t addr ++ [.write true a v])) := fun addr a => by
    obtain ⟨h1, h2⟩ := agree_windowTxns (c := c) addr h
    rw [targetAfter_append, targetAfter_ap, if_neg]
    · exact h1
    · exact fun hn => hc.bank (selectValue_inj (hn.2.symm.trans h2))
  obtain ⟨off, sp⟩ := d
  cases sp with
  | dp =>
    simp only [expandWr, bankAfterWr, tarAfterWr, bankAfter, tarAfter, targetAfter_dp, true_and]
    split
    · exact ⟨by simp, by simpa using h.tar⟩
    · exact ⟨h.select, by simpa using h.tar⟩
  | ap =>
    obtain ⟨h1, h2⟩ := agree_bankTxns (c := c) (bankOf off) h
    simp only [expandWr, bankAfterWr, tarAfterWr, bankAfter, tarAfter, targetAfter_append, targetAfter_ap, h2, true_and]
    have hiff : off.extractLsb' 0 8 = c.apTarOff ↔
        slotOf off = tarSlot c ∧ (bankOf off).zeroExtend 32 = selectValue (tarBank c) := by
      have e2 : slotOf off = (off.extractLsb' 0 8).extractLsb' 2 2 := by
        apply BitVec.eq_of_getLsbD_eq
        intro i hi
        simp [slotOf, hi]
      constructor
      · intro e
        exact ⟨by rw [e2, e]; rfl, by rw [bankOf, e]; rfl⟩
      · rintro ⟨hs, hb⟩
        refine offset_of_bank_slot ?_ hc.aligned (selectValue_inj hb) (by rw [← e2]; exact hs)
        rw [← hd]
        apply BitVec.eq_of_getLsbD_eq
        intro i hi
        simp [hi]
    by_cases hn : off.extractLsb' 0 8 = c.apTarOff
    · rw [if_pos hn, if_pos (hiff.mp hn)]
      exact ⟨by simp, by simp⟩
    · rw [if_neg hn, if_neg fun h => hn (hiff.mpr h)]
      exact ⟨by simpa using h1.select, h1.tar⟩
  | ficr | uicr | scs => simp [expandWr, bankAfterWr, tarAfterWr, bankAfter, tarAfter, hw]

/-- The SELECT value the cache holds is what the target's SELECT holds, whatever TAR does. -/
def AgreeSelect (b _t : Option Word) (r : TargetRegs) : Prop := ∀ v, b = some v → r.select = v

/-- SELECT follows the writes of SELECT alone. -/
theorem select_foldl (ws : List (Byte × Word)) (r : TargetRegs) :
    (ws.foldl (targetWrite c) r).select = ws.foldl (targetSelect c) r.select := by
  induction ws generalizing r with
  | nil => rfl
  | cons w ws ih =>
    rw [List.foldl_cons, List.foldl_cons, ih]
    congr 1
    unfold targetWrite targetSelect
    split
    · rfl
    · split <;> rfl

theorem select_targetAfter_ap (a : BitVec 2) (v : Word) : (targetAfter c r [.write true a v]).select = r.select := by
  rw [targetAfter_ap]
  split <;> rfl

theorem agreeSelect_bankTxns (k : BitVec 8) (h : AgreeSelect b t r) :
    AgreeSelect (some (k.zeroExtend 32)) t (targetAfter c r (bankTxns c b k)) :=
  (agree_bankTxns (t := none) k ⟨h, by simp⟩).1.select

theorem agreeSelect_tarTxns (v : Word) (h : AgreeSelect b t r) :
    AgreeSelect (bankAfterTar c b t v) (some v) (targetAfter c r (tarTxns c b t v)) := by
  unfold tarTxns bankAfterTar
  split
  · exact h
  · rw [targetAfter_append]
    exact fun w hw => (select_targetAfter_ap _ _).trans (agreeSelect_bankTxns (t := t) _ h w hw)

theorem agreeSelect_windowTxns (addr : Word) (h : AgreeSelect b t r) :
    AgreeSelect (some 0x10#32) (some (addr &&& c.tarAlignMask)) (targetAfter c r (windowTxns c b t addr)) := by
  unfold windowTxns
  rw [targetAfter_append]
  exact agreeSelect_bankTxns (t := none) 0x10#8 (agreeSelect_tarTxns _ h)

/-- `RD` keeps the bank cache equal to the target's SELECT (R174 to R177). -/
theorem agreeSelect_expandRd (d : Descriptor) (h : AgreeSelect b t r) :
    AgreeSelect (bankAfter b d) (tarAfter c t d) (targetAfter c r (expandRd c b t d)) := by
  obtain ⟨off, sp⟩ := d
  cases sp with
  | dp => exact h
  | ap =>
    simp only [expandRd, bankAfter, tarAfter, targetAfter_append, targetAfter_reads]
    exact agreeSelect_bankTxns _ h
  | ficr | uicr | scs =>
    simp only [expandRd, bankAfter, tarAfter, targetAfter_append, targetAfter_reads]
    exact agreeSelect_windowTxns _ h

/-- `WR` keeps it so, its snoop among it (R178 to R182), wherever TAR stands. -/
theorem agreeSelect_expandWr (d : Descriptor) (v : Word) (h : AgreeSelect b t r) :
    AgreeSelect (bankAfterWr c b d v) (tarAfterWr c t d v) (targetAfter c r (expandWr c b t d v)) := by
  obtain ⟨off, sp⟩ := d
  cases sp with
  | dp =>
    simp only [expandWr, bankAfterWr, bankAfter, targetAfter_dp, true_and]
    split
    · exact fun w hw => Option.some.inj hw
    · exact h
  | ap =>
    simp only [expandWr, bankAfterWr, bankAfter, targetAfter_append, reduceCtorEq, false_and, if_false]
    exact fun w hw => (select_targetAfter_ap _ _).trans (agreeSelect_bankTxns (t := t) _ h w hw)
  | ficr | uicr | scs =>
    simp only [expandWr, bankAfterWr, bankAfter, targetAfter_append, reduceCtorEq, false_and, if_false]
    exact fun w hw => (select_targetAfter_ap _ _).trans (agreeSelect_windowTxns _ h w hw)

/-- What an agreement of the caches with the target must do to be kept by every operation of a block over `c`: survive
`ENSBANK`, `RD` and `WR` at a descriptor of the table. -/
structure Mirrorable (A : Agreement) (c : Cfg) : Prop where
  bank : ∀ {b t r} (k : BitVec 8), A b t r → A (some (k.zeroExtend 32)) t (targetAfter c r (bankTxns c b k))
  rd : ∀ {b t r} (d : Descriptor), A b t r →
    A (bankAfter b d) (tarAfter c t d) (targetAfter c r (expandRd c b t d))
  wr : ∀ {b t r} {d : Descriptor} (v : Word), d ∈ c.regtab.map Prod.snd → A b t r →
    A (bankAfterWr c b d v) (tarAfterWr c t d v) (targetAfter c r (expandWr c b t d v))

/-- SELECT alone, over any table. -/
theorem mirrorable_select : Mirrorable AgreeSelect c :=
  ⟨agreeSelect_bankTxns, agreeSelect_expandRd, fun v _ => agreeSelect_expandWr _ v⟩

/-- Both, over a well-formed table (10_state.md R32), where TAR stands apart from the window. -/
theorem mirrorable_both (h : c.wellFormed = true) (ha : TarApart c) : Mirrorable Agree c := by
  refine ⟨fun k h => (agree_bankTxns k h).1, agree_expandRd, fun {b t r d} v hd hr => agree_expandWr v ?_ ha hr⟩
  obtain ⟨e, he, rfl⟩ := List.mem_map.mp hd
  simp only [Cfg.wellFormed, Bool.and_eq_true, List.all_eq_true] at h
  have := h.1.1.1.1.1.2 e he
  simp only [Descriptor.wellFormed, Bool.and_eq_true, beq_iff_eq] at this
  exact this.1

end

/-! ## The operations -/

/-- From `s` to `u` the block has sent the writes of which the caches know: what agreed with the target agrees after them. -/
def Kept (A : Agreement) (s u : State) : Prop :=
  u.cfg = s.cfg ∧ ∃ es ws, u.events = s.events ++ es ∧ Wrote ws es ∧
    ∀ r, A s.bank s.tar r → A u.bank u.tar (ws.foldl (targetWrite s.cfg) r)

section
variable {A : Agreement}

theorem kept_refl (s : State) : Kept A s s := ⟨rfl, [], [], by simp, wrote_nil, fun _ h => h⟩

theorem Kept.trans {s u v : State} (h : Kept A s u) (h' : Kept A u v) : Kept A s v := by
  obtain ⟨hc, es, ws, he, hw, ha⟩ := h
  obtain ⟨hc', fs, vs, he', hw', ha'⟩ := h'
  refine ⟨hc'.trans hc, es ++ fs, ws ++ vs, by rw [he', he, List.append_assoc], hw.append hw', fun r hr => ?_⟩
  rw [List.foldl_append, ← hc]
  exact ha' _ (hc ▸ ha r hr)

/-- An access that ran its expansion, the caches agreeing with the target after it. -/
theorem kept_accessed {s : State} {xs : List (Txn × Reply)} {ts : List Txn} {rx : List RxItem} {p : List Nat}
    {b t : Option Word} (hx : xs.map Prod.fst = ts)
    (ha : ∀ r, A s.bank s.tar r → A b t (targetAfter s.cfg r ts)) : Kept A s (accessed (eventsOf xs) rx p b t s) :=
  ⟨rfl, _, _, rfl, wrote_events xs, by rw [hx]; exact ha⟩

theorem mem_of_lookup {tab : List (BitVec 8 × Descriptor)} {id : BitVec 8} {d : Descriptor}
    (h : lookup tab id = some d) : d ∈ tab.map Prod.snd := by
  induction tab with
  | nil => simp [lookup] at h
  | cons e rest ih =>
    simp only [lookup] at h
    split at h
    · simp_all
    · exact List.mem_cons_of_mem _ (ih h)

theorem mem_of_findReg {tab : List (BitVec 8 × Descriptor)} {d d' : Descriptor} (h : findReg tab d = some d') :
    d' ∈ tab.map Prod.snd := by
  induction tab with
  | nil => simp [findReg] at h
  | cons e rest ih =>
    simp only [findReg] at h
    split at h
    · simp_all
    · exact List.mem_cons_of_mem _ (ih h)

/-- A usable session at rest, reached from `s₀` with the mirror kept. -/
structure Held (A : Agreement) (s₀ s : State) : Prop where
  kept : Kept A s₀ s
  rest : AtRest s
  alive : s.sess_dead = false

section
variable {s₀ s : State} {β : Type}

theorem Held.step {u : State} (h : Held A s₀ s) (hk : Kept A s u) (hm : Moved s u) : Held A s₀ u :=
  ⟨h.kept.trans hk, hm.atRest h.rest, hm.alive h.alive⟩

theorem keeps_ensBank {b : BitVec 8} {Q : Unit → State → Prop} (h : Held A s₀ s) (hc : Mirrorable A s₀.cfg)
    (hQ : ∀ u, Held A s₀ u → Q () u) :
    Comes (ensBank b) s Q fun _ => True :=
  comes_ensBank h.rest h.alive (fun _ _ _ hx _ _ hm => hQ _ (h.step (kept_accessed hx fun _ ha =>
    (h.kept.1 ▸ hc).bank _ ha) hm)) fun _ _ => trivial

theorem keeps_readDescriptor {d : Descriptor} {Q : Word → State → Prop} (h : Held A s₀ s) (hc : Mirrorable A s₀.cfg)
    (hQ : ∀ w u, Held A s₀ u → Q w u) : Comes (readDescriptor d) s Q fun _ => True :=
  comes_readDescriptor h.rest h.alive (fun _ _ _ _ hx _ _ _ hm => hQ _ _ (h.step (kept_accessed hx fun _ ha =>
    (h.kept.1 ▸ hc).rd _ ha) hm)) fun _ _ => trivial

theorem keeps_writeDescriptor {d : Descriptor} {v : Word} {Q : Unit → State → Prop} (h : Held A s₀ s)
    (hd : d ∈ s₀.cfg.regtab.map Prod.snd) (hc : Mirrorable A s₀.cfg) (hQ : ∀ u, Held A s₀ u → Q () u) :
    Comes (writeDescriptor d v) s Q fun _ => True :=
  comes_writeDescriptor h.rest h.alive (fun _ _ _ hx _ _ hm => hQ _ (h.step (kept_accessed hx fun _ ha =>
    (h.kept.1 ▸ hc).wr v (h.kept.1 ▸ hd) ha) hm)) fun _ _ => trivial

theorem keeps_resolveId {id : BitVec 8} {Q : Descriptor → State → Prop} (h : Held A s₀ s)
    (hQ : ∀ d : Descriptor, d ∈ s₀.cfg.regtab.map Prod.snd → Q d s) : Comes (resolveId id) s Q fun _ => True :=
  comes_resolveId (fun d hd => hQ d (h.kept.1 ▸ mem_of_lookup hd)) fun _ _ => trivial

theorem keeps_readReg {id : BitVec 8} {Q : Word → State → Prop} (h : Held A s₀ s) (hc : Mirrorable A s₀.cfg)
    (hQ : ∀ w u, Held A s₀ u → Q w u) : Comes (readReg id) s Q fun _ => True :=
  comes_andThen (keeps_resolveId h fun _ _ => keeps_readDescriptor h hc hQ)

theorem keeps_writeReg {id : BitVec 8} {v : Word} {Q : Unit → State → Prop} (h : Held A s₀ s) (hc : Mirrorable A s₀.cfg)
    (hQ : ∀ u, Held A s₀ u → Q () u) : Comes (writeReg id v) s Q fun _ => True :=
  comes_andThen (keeps_resolveId h fun _ hd => keeps_writeDescriptor h hd hc hQ)

/-! ## Bring-up -/

theorem keeps_advanceTo {x : BuState} {Q : Unit → State → Prop} (h : Held A s₀ s) (hQ : ∀ u, Held A s₀ u → Q () u) :
    Comes (advanceTo x) s Q fun _ => True :=
  comes_of_done (modify_apply _ _) (hQ _ ⟨h.kept, atRest_setBu x h.rest, h.alive⟩)

theorem keeps_look {γ : Type} {f : State → γ} {K : γ → Op β} {Q : β → State → Prop} {E : State → Prop}
    (h : Comes (K (f s)) s Q E) : Comes (andThen (look f) K) s Q E :=
  comes_andThen (comes_of_done (look_apply _ _) h)

theorem keeps_expectWord {w v : Word} {e : ErrorKind} {Q : Unit → State → Prop} (hQ : Q () s) :
    Comes (expectWord w e v) s Q fun _ => True := by
  unfold expectWord
  split
  · exact comes_of_done (ret_apply _ _) hQ
  · exact comes_of_ended (raise_apply _ _) trivial

theorem keeps_rawSend {bytes : List Byte} {Q : Unit → State → Prop} (h : Held A s₀ s) (hQ : ∀ u, Held A s₀ u → Q () u) :
    Comes (rawSend bytes) s Q fun _ => True := by
  refine comes_rawSend h.alive h.rest.phase (fun conf rx p hp _ => hQ _ (h.step ⟨rfl, _, [], rfl, ?_, fun _ ha => ha⟩
    (moved_later ?_ hp))) fun _ _ => trivial
  · split
    · exact wrote_nil
    · exact (wrote_raw bytes).append (wrote_confEvents conf)
  · split
    · exact guarded_nil
    · exact guarded_append (guarded_send _) (guarded_confEvents conf)

theorem keeps_bringupRaw {Q : Unit → State → Prop} (h : Held A s₀ s) (hQ : ∀ u, Held A s₀ u → Q () u) :
    Comes bringupRaw s Q fun _ => True := by
  have raw : ∀ {bytes : List Byte} {x : BuState} {t : State} {Q : Unit → State → Prop}, Held A s₀ t →
      (∀ u, Held A s₀ u → Q () u) → Comes (andThen (rawSend bytes) fun _ => advanceTo x) t Q fun _ => True :=
    fun h hQ => comes_andThen (keeps_rawSend h fun _ h => keeps_advanceTo h hQ)
  exact comes_andThen (raw h fun _ h => comes_andThen (keeps_look (raw h fun _ h => comes_andThen (raw h fun _ h =>
    keeps_look (raw h hQ)))))

theorem keeps_bringupTransactions {Q : Unit → State → Prop} (h : Held A s₀ s) (hc : Mirrorable A s₀.cfg)
    (hQ : ∀ u, Held A s₀ u → Q () u) : Comes bringupTransactions s Q fun _ => True := by
  refine comes_andThen (keeps_look (comes_andThen (keeps_readReg h hc fun w _ h => comes_andThen
    (keeps_expectWord (keeps_advanceTo h fun _ h => ?_)))))
  refine comes_andThen (keeps_look (keeps_look (comes_andThen (keeps_writeReg h hc fun _ h =>
    keeps_advanceTo h fun _ h => ?_))))
  refine comes_andThen (keeps_look (comes_andThen (keeps_ensBank h hc fun _ h => keeps_advanceTo h fun _ h => ?_)))
  refine comes_andThen (keeps_look (keeps_look (comes_andThen (keeps_writeReg h hc fun _ h => comes_andThen
    (keeps_readReg h hc fun w _ h => keeps_look (comes_andThen (keeps_expectWord (keeps_advanceTo h fun _ h => ?_))))))))
  refine comes_andThen (keeps_look (comes_andThen (keeps_readReg h hc fun w _ h => keeps_look (comes_andThen
    (keeps_expectWord (keeps_advanceTo h fun _ h => ?_))))))
  exact keeps_look (keeps_look (comes_andThen (keeps_writeReg h hc fun _ h => comes_andThen
    (keeps_readReg h hc fun w _ h => comes_andThen (keeps_expectWord (keeps_advanceTo h hQ))))))

/-- `BRINGUP` begins with both caches unknown and keeps them equal to the target (45_bringup.md R225). -/
theorem keeps_bringupSequence (s : State) (hc : Mirrorable A s.cfg) :
    Comes bringupSequence s (fun _ t => Held A (sessionStart s) t) fun _ => True := by
  have h0 : Held A (sessionStart s) (sessionStart s) := ⟨kept_refl _, atRest_sessionStart s, rfl⟩
  refine comes_andThen (comes_of_done (modify_apply _ _) ?_)
  refine comes_andThen (keeps_bringupRaw h0 fun _ h => ?_)
  refine comes_andThen (keeps_bringupTransactions h hc fun _ h => ?_)
  exact comes_andThen (keeps_advanceTo h fun _ h => comes_of_done (ret_apply _ _) h)

/-! ## One page of a dump -/

theorem keeps_readWords {drw : Descriptor} {n : Nat} {page : List Byte} (h : Held A s₀ s) (hc : Mirrorable A s₀.cfg) :
    Comes (readWords drw n page) s (fun _ t => Held A s₀ t) fun _ => True := by
  induction n generalizing page s with
  | zero => exact comes_of_done (ret_apply _ _) h
  | succ n ih => exact comes_andThen (keeps_readDescriptor h hc fun _ _ h => ih h)

/-- One page (46_flash_dump.md R242). -/
theorem keeps_readPage {addr : Word} (h : Held A s₀ s) (hf : s.fd_addr = some addr) (hc : Mirrorable A s₀.cfg) :
    Comes readPage s (fun _ t => Held A s₀ t) fun _ => True := by
  refine comes_andThen (comes_of_done (latched_some hf) (keeps_look (keeps_look ?_)))
  refine comes_andThen (comes_requireReg (fun d hd => ?_) fun _ _ => trivial)
  refine comes_andThen (comes_requireReg (fun d' _ => ?_) fun _ _ => trivial)
  exact comes_andThen (keeps_writeDescriptor h (h.kept.1 ▸ mem_of_findReg hd) hc fun _ h => keeps_readWords h hc)

end

end

end Sys2Proof.Machine
end

