-- ==== Sys2Proof/Laws/PerInstr.lean ====
section
/-! SUPPORT. A fact about every instruction as syntax, said per constructor: the row the decoder answers for an
instruction's word (log 6) is fixed, is well-formed where the instruction is, and has the same word. -/

namespace Sys2Proof.Laws.CanonicalRow

open Sys2Proof

/-- The decoder's choice among rows that share a word is settled: choosing again changes nothing, the chosen row is
well-formed where the instruction is, and its word is the instruction's. -/
def Statement (i : Instr) : Prop :=
  canonical (canonical i) = canonical i ∧ (i.wellFormed = true → (canonical i).wellFormed = true) ∧
    encode (canonical i) = encode i

/-- The exact row of a header is its own choice, and has that header (41_request_encoder.md R122). -/
theorem requestRow_settled (apndp rnw : Bool) (a : BitVec 2) (v : Word) :
    canonical (requestRow apndp rnw a v) = requestRow apndp rnw a v ∧ (requestRow apndp rnw a v).wellFormed = true ∧
      encode (requestRow apndp rnw a v) = some (.request (Machine.header a apndp rnw) (if rnw then 0#32 else v)) := by
  have h : a = 0#2 ∨ a = 1#2 ∨ a = 2#2 ∨ a = 3#2 := by revert a; decide
  rcases h with rfl | rfl | rfl | rfl <;> cases apndp <;> cases rnw <;> exact ⟨rfl, rfl, rfl⟩

theorem of_requestRow {apndp rnw : Bool} {a : BitVec 2} {v : Word} {i : Instr}
    (hc : canonical i = requestRow apndp rnw a v)
    (he : encode i = some (.request (Machine.header a apndp rnw) (if rnw then 0#32 else v))) : Statement i := by
  obtain ⟨h1, h2, h3⟩ := requestRow_settled apndp rnw a v
  exact ⟨by rw [hc, h1], fun _ => by rw [hc, h2], by rw [hc, h3, he]⟩

theorem of_self {i : Instr} (h : canonical i = i) : Statement i := ⟨by rw [h, h], fun hw => by rw [h, hw], by rw [h]⟩

theorem dpwr (a : BitVec 2) (v : Word) : Statement (.dpwr a v) :=
  of_requestRow (apndp := false) (rnw := false) (a := a) (v := v) rfl rfl

theorem dprd (a : BitVec 2) : Statement (.dprd a) :=
  of_requestRow (apndp := false) (rnw := true) (a := a) (v := 0#32) rfl rfl

theorem apwr (a : BitVec 2) (v : Word) : Statement (.apwr a v) :=
  of_requestRow (apndp := true) (rnw := false) (a := a) (v := v) rfl rfl

theorem aprd (a : BitVec 2) : Statement (.aprd a) :=
  of_requestRow (apndp := true) (rnw := true) (a := a) (v := 0#32) rfl rfl

theorem dpwr0 (v : Word) : Statement (.dpwr0 v) := of_self rfl

theorem dpwr1 (v : Word) : Statement (.dpwr1 v) := of_self rfl

theorem dpwr2 (v : Word) : Statement (.dpwr2 v) := of_self rfl

theorem dpwr3 (v : Word) : Statement (.dpwr3 v) := of_self rfl

theorem dprd0 : Statement .dprd0 := of_self rfl

theorem dprd1 : Statement .dprd1 := of_self rfl

theorem dprd2 : Statement .dprd2 := of_self rfl

theorem dprd3 : Statement .dprd3 := of_self rfl

theorem apwr0 (v : Word) : Statement (.apwr0 v) := of_self rfl

theorem apwr1 (v : Word) : Statement (.apwr1 v) := of_self rfl

theorem apwr2 (v : Word) : Statement (.apwr2 v) := of_self rfl

theorem apwr3 (v : Word) : Statement (.apwr3 v) := of_self rfl

theorem aprd0 : Statement .aprd0 := of_self rfl

theorem aprd1 : Statement .aprd1 := of_self rfl

theorem aprd2 : Statement .aprd2 := of_self rfl

theorem aprd3 : Statement .aprd3 := of_self rfl

theorem sreset : Statement .sreset := of_self rfl

theorem rd (id : BitVec 8) : Statement (.rd id) := of_self rfl

theorem wr (id : BitVec 8) (v : Word) : Statement (.wr id v) := of_self rfl

theorem bringup : Statement .bringup := of_self rfl

theorem dump : Statement .dump := of_self rfl

theorem revb (b : Byte) : Statement (.revb b) := of_self rfl

theorem wpar (w : Word) : Statement (.wpar w) := of_self rfl

theorem hpar (a : BitVec 2) (apndp rnw : Bool) : Statement (.hpar a apndp rnw) := of_self rfl

theorem enchdr (a : BitVec 2) (apndp rnw : Bool) : Statement (.enchdr a apndp rnw) := of_self rfl

theorem ackchk (u0 u1 u2 : Byte) : Statement (.ackchk u0 u1 u2) := of_self rfl

theorem reserved0 : Statement .reserved0 := of_self rfl

theorem reserved6 : Statement .reserved6 := of_self rfl

theorem reserved7 : Statement .reserved7 := of_self rfl

theorem reservedD : Statement .reservedD := of_self rfl

theorem reservedE : Statement .reservedE := of_self rfl

theorem reservedF : Statement .reservedF := of_self rfl

theorem swdrd (apndp : Bool) (a : BitVec 2) : Statement (.swdrd apndp a) :=
  of_requestRow (apndp := apndp) (rnw := true) (a := a) (v := 0#32) rfl rfl

theorem swdwr (apndp : Bool) (a : BitVec 2) (v : Word) : Statement (.swdwr apndp a v) :=
  of_requestRow (apndp := apndp) (rnw := false) (a := a) (v := v) rfl rfl

theorem rawsend (bytes : List Byte) : Statement (.rawsend bytes) := of_self rfl

theorem resolve (id : BitVec 8) : Statement (.resolve id) := of_self rfl

theorem ensbank (b : BitVec 8) : Statement (.ensbank b) := of_self rfl

theorem enstar (t : Word) : Statement (.enstar t) := of_self rfl

theorem snoop (d : Descriptor) (v : Word) : Statement (.snoop d v) := of_self rfl

end Sys2Proof.Laws.CanonicalRow
end

