-- ==== Sys2Proof/Tests/Slice0.lean ====
section
/-! SUPPORT. Tests: an ill-formed term for each check of WellFormed.lean; the words of the instructions, written out from
the encoding tables of the spec; single steps against the vectors of 95_test_vectors.md; and a witness for the hypotheses
of each statement. -/

namespace Sys2Proof.Tests

open Sys2Proof Sys2Proof.Machine

/-! ## WellFormed -/

theorem test_ensbank_low_nibble : (Instr.ensbank 0x13).wellFormed = false := by decide
theorem test_ensbank_bank : (Instr.ensbank 0xF0).wellFormed = true := by decide
theorem test_snoop_misaligned : (Instr.snoop ⟨0x006, .ap⟩ 0).wellFormed = false := by decide
theorem test_snoop_dp_too_high : (Instr.snoop ⟨0x010, .dp⟩ 0).wellFormed = false := by decide
theorem test_snoop_dp_highest : (Instr.snoop ⟨0x00C, .dp⟩ 0).wellFormed = true := by decide
theorem test_snoop_ap_too_high : (Instr.snoop ⟨0x100, .ap⟩ 0).wellFormed = false := by decide
theorem test_snoop_ap_highest : (Instr.snoop ⟨0x0FC, .ap⟩ 0).wellFormed = true := by decide
theorem test_default_config : Cfg.default.wellFormed = true := by decide
theorem test_config_id_twice :
    { Cfg.default with regtab := (3, ⟨0x000, .ap⟩) :: Cfg.defaultRegtab }.wellFormed = false := by decide
theorem test_config_offset_misaligned : { Cfg.default with regtab := [(3, ⟨0x002, .ficr⟩)] }.wellFormed = false := by decide
theorem test_config_ficr_misaligned : { Cfg.default with ficrBase := 0x10000008 }.wellFormed = false := by decide
theorem test_config_uicr_too_high : { Cfg.default with uicrBase := 0xFFFFF010 }.wellFormed = false := by decide
theorem test_config_scs_misaligned : { Cfg.default with scsBase := 0xE000E001 }.wellFormed = false := by decide
theorem test_config_mask_low_bits : { Cfg.default with tarAlignMask := 0xFFFFFFFF }.wellFormed = false := by decide
theorem test_config_flash_misaligned : { Cfg.default with flashStart := 0x00000200 }.wellFormed = false := by decide

/-! ## Decoding: words from 30_encoding.md R93 and 41_request_encoder.md R122 -/

theorem test_decode_request_headers :
    [0x81, 0x95, 0x8D, 0x99, 0xA5, 0xB1, 0xA9, 0xBD, 0xC5, 0xD1, 0xC9, 0xDD, 0xE1, 0xF5, 0xED, 0xF9].map (decodeTableWord 8) =
    [some (.dpwr0 0), some (.dpwr1 0), some (.dpwr2 0), some (.dpwr3 0), some .dprd0, some .dprd1, some .dprd2, some .dprd3,
     some (.apwr0 0), some (.apwr1 0), some (.apwr2 0), some (.apwr3 0), some .aprd0, some .aprd1, some .aprd2,
     some .aprd3] := by decide

theorem test_decode_write_value : decode (.request 0xD1 0x10000010) = .ok (.apwr1 0x10000010) := by decide

/-- `H[7]` clear, `H[1]` set, `H[0]` clear, `H[2]` wrong (30_encoding.md R95). -/
theorem test_decode_rejects_by_name :
    decode (.request 0x25 0) = .error .startBit ∧ decode (.request 0xA7 0) = .error .stopBit ∧
    decode (.request 0xA4 0) = .error .parkBit ∧ decode (.request 0xA1 0) = .error .headerParity := by decide

theorem test_decode_session_commands :
    decodeTableWord 48 0x10000000000 = some .sreset ∧ decodeTableWord 48 0x20C00000000 = some (.rd 12) ∧
    decodeTableWord 48 0x3010000001E = some (.wr 1 0x1E) ∧ decodeTableWord 48 0x40000000000 = some .bringup ∧
    decodeTableWord 48 0x50000000000 = some .dump := by decide

theorem test_decode_pure_commands :
    decodeTableWord 48 0x800FFFFFFB1 = some (.revb 0xB1) ∧ decodeTableWord 48 0x9000BB11477 = some (.wpar 0x0BB11477) ∧
    decodeTableWord 48 0xA0000000006 = some (.hpar 2 true false) ∧
    decodeTableWord 48 0xB0000000008 = some (.enchdr 0 false true) ∧
    decodeTableWord 48 0xC0000030201 = some (.ackchk 1 2 3) := by decide

theorem test_decode_reserved :
    decodeTableWord 48 0x00000000000 = some .reserved0 ∧ decodeTableWord 48 0x60000000000 = some .reserved6 ∧
    decodeTableWord 48 0x70000000000 = some .reserved7 ∧ decodeTableWord 48 0xD0000000000 = some .reservedD ∧
    decodeTableWord 48 0xE0000000000 = some .reservedE ∧ decodeTableWord 48 0xF0000000000 = some .reservedF := by decide

/-- The class rows and `SWDRD`, `SWDWR` have the words of their operands, which decode to the exact rows (log 6). -/
theorem test_encode_classes :
    encode (.dprd 0) = some (.request 0xA5 0) ∧ encode (.dpwr 2 7) = some (.request 0x8D 7) ∧
    encode (.aprd 3) = some (.request 0xF9 0) ∧ encode (.apwr 1 7) = some (.request 0xD1 7) ∧
    encode (.swdrd true 0) = some (.request 0xE1 0) ∧ encode (.swdwr false 3 7) = some (.request 0x99 7) ∧
    canonical (.apwr 1 7) = .apwr1 7 ∧ canonical (.swdrd true 0) = .aprd0 := by decide

/-! ## Single steps -/

/-- Something of the next state, if there is one. -/
def nextField {α : Type} (o : Host.Outcome State Fault Refusal) (f : State → α) : Option α :=
  match o with
  | .next t => some (f t)
  | .fault _ => none
  | .refused _ => none

theorem next_of_field {α : Type} {o : Host.Outcome State Fault Refusal} {f : State → α} {a : α}
    (h : nextField o f = some a) : ∃ t, o = .next t ∧ f t = a := by
  cases o with
  | next t => exact ⟨t, rfl, by simpa [nextField] using h⟩
  | fault r => simp [nextField] at h
  | refused r => simp [nextField] at h

/-- The state after reset, with the transport answering `us` and then silent. -/
def answered (us : List Byte) : State := { State.reset with rx := delivered us }

/-- A reply with the word `w` and the default counts; `f` closes it. -/
def reply (w : Word) (f : List Byte) : Reply := ⟨[0x06, 0x07], [], w, f⟩

/-- The answer to a read. -/
def readReply (w : Word) : Reply := reply w []

/-- The answer to a write. -/
def writeReply : Reply := reply 0 [0x08, 0x09]

/-- A state whose transport answers the transactions `xs`. -/
def scripted (bank tar : Option Word) (xs : List (Txn × Reply)) : State :=
  { State.reset with bank := bank, tar := tar, rx := scriptOf xs }

/-- T1: the word, and the twelve events. -/
theorem test_t1 :
    nextField (exec .dprd0 (answered [0x10, 0x20, 1, 0, 0, 0x77, 0x14, 0xB1, 0x0B, 1]))
      (fun t => (t.op_result, t.events.length, t.sess_dead)) = some (some (.word 0x0BB11477), 12, false) := by decide +kernel

/-- T2: the header is never confirmed. -/
theorem test_t2 :
    nextField (exec (.dprd 0) (answered [])) (fun t => (t.err_code, t.rsp_status, t.events.length, t.t_phase)) =
      some (some .timeout, .error .timeout, 3, .idle) := by decide +kernel

/-- T4: the wrong acknowledgment. -/
theorem test_t4 :
    nextField (exec (.swdrd false 0) (answered [0x10, 0x20, 1, 1, 0])) (fun t => (t.err_code, t.events.length)) =
      some (some .ackMismatch, 6) := by decide +kernel

/-- T5: whole units are compared. -/
theorem test_t5 :
    nextField (exec (.dprd 0) (answered [0x10, 0x20, 3, 0, 0])) (fun t => t.err_code) = some (some .ackMismatch) := by
  decide +kernel

/-- T8, T9: the wrong parity unit, by its value and by its upper bits; the trailing clock is not sent. -/
theorem test_t8_t9 :
    nextField (exec .dprd0 (answered [0x10, 0x20, 1, 0, 0, 0x77, 0x14, 0xB1, 0x0B, 0]))
      (fun t => (t.err_code, t.events.length)) = some (some .parityError, 11) ∧
    nextField (exec (.swdrd false 0) (answered [0x10, 0x20, 1, 0, 0, 0x77, 0x14, 0xB1, 0x0B, 3]))
      (fun t => (t.err_code, t.events.length)) = some (some .parityError, 11) := by decide +kernel

/-- T12: the last byte received is the most significant. -/
theorem test_t12 :
    nextField (exec .aprd0 (answered [0x10, 0x20, 1, 0, 0, 0, 0, 0, 0x80, 1])) (fun t => t.op_result) =
      some (some (.word 0x80000000)) := by decide +kernel

/-- X1: the counts of confirmations that the parameters set. -/
theorem test_x1 :
    nextField (exec .dprd0
        { answered [0x10, 0x20, 1, 0, 0, 9, 0x77, 0x14, 0xB1, 0x0B, 1, 7, 7] with
          cfg := { Cfg.default with trnConf := 1, rdIdleConf := 2 } })
      (fun t => (t.op_result, t.events.length)) = some (some (.word 0x0BB11477), 16) := by decide +kernel

/-- W1: the data tokens of a write. -/
theorem test_w1 :
    nextField (exec (.apwr1 0x10000010) (answered [0x10, 0x20, 1, 0, 0, 5, 6]))
      (fun t => (t.events.length, t.events[7]?, t.sess_dead)) =
      some (10, some (.send [.wr 4, .byte 0x10, .byte 0, .byte 0, .byte 0x10, .pclr]), false) := by decide +kernel

/-- W3: the data confirmations do not come. -/
theorem test_w3 :
    nextField (exec (.apwr 1 0x10000010) (answered [0x10, 0x20, 1, 0, 0])) (fun t => (t.err_code, t.events.length)) =
      some (some .timeout, 10) := by decide +kernel

/-- W4, W5: the wire byte, and the parity token of an odd word. -/
theorem test_w4_w5 :
    nextField (exec (.dpwr3 0xFFFFFFFE) (answered [0x10, 0x20, 1, 0, 0, 5, 6]))
      (fun t => (t.events[0]?, t.events[7]?)) =
      some (some (.send [.wr 1, .byte 0x99]), some (.send [.wr 4, .byte 0xFE, .byte 0xFF, .byte 0xFF, .byte 0xFF, .pset])) ∧
    nextField (exec (.swdwr true 3 1) (answered [0x10, 0x20, 1, 0, 0, 5, 6])) (fun t => t.events[0]?) =
      some (some (.send [.wr 1, .byte 0xBB])) := by decide +kernel

/-- The wire bytes of the sixteen exact rows and the four classes (R122). -/
theorem test_wire_bytes :
    [.dpwr0 0, .dpwr1 0, .dpwr2 0, .dpwr3 0, .dprd0, .dprd1, .dprd2, .dprd3, .apwr0 0, .apwr1 0, .apwr2 0, .apwr3 0,
     .aprd0, .aprd1, .aprd2, .aprd3, .dpwr 2 0, .dprd 3, .apwr 0 0, .aprd 1].map
      (fun i => nextField (exec i (answered [])) fun t => t.events[0]?) =
    [0x81, 0xA9, 0xB1, 0x99, 0xA5, 0x8D, 0x95, 0xBD, 0xA3, 0x8B, 0x93, 0xBB, 0x87, 0xAF, 0xB7, 0x9F, 0xB1, 0xBD, 0xA3,
     0xAF].map (fun W => some (some (.send [.wr 1, .byte W]))) := by decide +kernel

/-- X2, X3: a raw frame with confirmations. -/
theorem test_x2_x3 :
    nextField (exec (.rawsend [0x9E, 0xE7]) { answered [1, 2] with cfg := { Cfg.default with rawConf := 2 } })
      (fun t => t.events) = some [.send [.wr 2, .byte 0x9E, .byte 0xE7], .flush, .recv 2 (some [1, 2])] ∧
    nextField (exec (.rawsend [0x9E, 0xE7]) { answered [1] with cfg := { Cfg.default with rawConf := 2 } })
      (fun t => t.err_code) = some (some .timeout) := by decide +kernel

/-- X4, X5: the empty string, and the default counts. -/
theorem test_x4_x5 :
    nextField (exec (.rawsend []) (answered [])) (fun t => (t.events, t.sess_dead)) = some ([], false) ∧
    nextField (exec (.rawsend (List.replicate 7 0xFF)) (answered [])) (fun t => t.events.length) = some 1 := by
  decide +kernel

/-- C1: the DP path ignores the caches. -/
theorem test_c1 :
    nextField (exec (.rd 0) (scripted none none [(.read false 0, readReply 0x0BB11477)]))
      (fun t => (t.rsp_status, t.rsp_rdata, t.bank)) = some (.ok, some 0x0BB11477, none) := by decide +kernel

/-- C7: the five transactions of a FICR read. -/
theorem test_c7 :
    nextField (exec (.rd 13) (scripted (some 0xF0) none
        [(.write false 2 0, writeReply), (.write true 1 0x10000010, writeReply), (.write false 2 0x10, writeReply),
         (.read true 0, readReply 0xDEADBEEF), (.read false 3, readReply 0x00000400)]))
      (fun t => (t.rsp_rdata, t.bank, t.tar, t.events.length)) =
      some (some 0x00000400, some 0x10, some 0x10000010, 54) := by decide +kernel

/-- C5: an AP write retrieves nothing. -/
theorem test_c5 :
    nextField (exec (.wr 5 0x03000052) (scripted (some 0xF0) none
        [(.write false 2 0, writeReply), (.write true 0 0x03000052, writeReply)]))
      (fun t => (t.rsp_status, t.rsp_rdata, t.bank, t.events.length)) = some (.ok, none, some 0, 20) := by decide +kernel

/-- C12: the snoop of TAR. -/
theorem test_c12 :
    nextField (exec (.wr 6 0x10000010) (scripted (some 0x10) (some 0xE000ED00)
        [(.write false 2 0, writeReply), (.write true 1 0x10000010, writeReply)])) (fun t => (t.bank, t.tar)) =
      some (some 0, some 0x10000010) := by decide +kernel

/-- C20, C21: an Id the table does not hold, and a dead session. -/
theorem test_c20_c21 :
    nextField (exec (.rd 200) State.reset) (fun t => (t.err_code, t.rsp_status, t.events)) =
      some (some .unknownRegister, .error .unknownRegister, []) ∧
    nextField (exec (.rd 0) { State.reset with sess_dead := true, err_code := some .timeout })
      (fun t => (t.err_code, t.rsp_status)) = some (some .timeout, .refused) := by decide +kernel

/-- C22: the session start. -/
theorem test_c22 :
    nextField (exec .sreset { State.reset with
        sess_dead := true, err_code := some .timeout, bank := some 0, tar := some 1, bu_state := .ready })
      (fun t => t) = some State.reset := by decide +kernel

/-- C23: the reserved opcodes. -/
theorem test_c23 :
    [.reserved0, .reserved6, .reserved7, .reservedD, .reservedE, .reservedF].map
      (fun i => nextField (exec i State.reset) fun t => (t.rsp_status, t.sess_dead)) =
    List.replicate 6 (some (.refused, false)) := by decide +kernel

/-- V1 to V5 as host commands. -/
theorem test_pure_commands :
    [.revb 0xB1, .wpar 0x0BB11477, .hpar 2 true false, .enchdr 3 true true, .ackchk 1 0 0, .ackchk 1 1 0].map
      (fun i => nextField (exec i State.reset) fun t => t.rsp_rdata) =
    [0x8D, 1, 0, 0x9FF9, 1, 0].map (fun w => some (some w)) := by decide +kernel

/-- The internal operations of the cache controller on their own: RESOLVE, ENSBANK and ENSTAR (hit), SNOOP. -/
theorem test_router_operations :
    nextField (exec (.resolve 16) State.reset) (fun t => t.op_result) = some (some (.descriptor ⟨0xD00, .scs⟩)) ∧
    nextField (exec (.ensbank 0xF0) (scripted (some 0xF0) none [])) (fun t => (t.bank, t.events)) = some (some 0xF0, []) ∧
    nextField (exec (.enstar 0x10) (scripted none (some 0x10) [])) (fun t => (t.tar, t.events)) = some (some 0x10, []) ∧
    nextField (exec (.snoop ⟨0x008, .dp⟩ 0x010000F0) State.reset) (fun t => (t.bank, t.tar)) =
      some (some 0x010000F0, none) := by decide +kernel

/-- ENSTAR on a miss: the bank that holds TAR, then TAR. -/
theorem test_enstar_miss :
    nextField (exec (.enstar 0x10001000) (scripted none none
        [(.write false 2 0, writeReply), (.write true 1 0x10001000, writeReply)])) (fun t => (t.bank, t.tar)) =
      some (some 0, some 0x10001000) := by decide +kernel

/-- What the transport answers in a bring-up (program P2), but for the word of the read at `k`. -/
def bringupAnswers (k : Nat) (w : Word) : List (Txn × Reply) :=
  ((bringupTxns.zip bringupWants).zipIdx).map fun p =>
    (p.1.1, reply (if p.2 = k then w else p.1.2.getD 0xDEADBEEF) (if p.1.1.isRead then [] else [0x08, 0x09]))

/-- Another configuration: other Ids, other parameters of bring-up, no bytes for `ModeSwitch`, confirmations of raw
frames, and the bank of IDR as `BRINGUP_BANK`. -/
def otherConfig : Cfg := { Cfg.default with
  regtab := [(20, ⟨0x000, .dp⟩), (21, ⟨0x000, .dp⟩), (22, ⟨0x004, .dp⟩), (23, ⟨0x000, .ap⟩), (24, ⟨0x0FC, .ap⟩)]
  ids := { idcode := 20, abort := 21, ctrlstat := 22, idr := 24, csw := 23 }
  jtag2swdMagic := 0x1234, modeswitchBytes := [], abortClear := 0x1F, bringupBank := 0xF0, ctrlstatReq := 0x40000000
  ctrlstatExpect := 0x80000000, expectedIdr := 0x24770011, cswConfig := 0x23000052, rawConf := 1 }

/-- The transactions of a bring-up with it, by R216 to R221: IDR's bank is selected already. -/
def otherAnswers : List (Txn × Reply) :=
  [(.read false 0, readReply 0x0BB11477), (.write false 0 0x1F, writeReply), (.write false 2 0xF0, writeReply),
   (.write false 1 0x40000000, writeReply), (.read false 1, readReply 0x80000000),
   (.read true 3, readReply 0xDEADBEEF), (.read false 3, readReply 0x24770011),
   (.write false 2 0, writeReply), (.write true 0 0x23000052, writeReply),
   (.read true 0, readReply 0xDEADBEEF), (.read false 3, readReply 0x23000052)]

/-- B7: a bring-up; and one with other parameters, its raw frames (R212 to R215) and its transactions. -/
theorem test_b7 :
    nextField (exec .bringup (scripted (some 5) (some 6) (bringupAnswers 12 0)))
      (fun t => (t.rsp_status, t.bu_state, t.bank, t.tar, t.events.length)) =
      some (.ok, .ready, some 0, none, 4 + 6 * 10 + 6 * 12) ∧
    nextField (exec .bringup { State.reset with
        cfg := otherConfig, rx := delivered [0xA0, 0xA1, 0xA2] ++ scriptOf otherAnswers })
      (fun t => (t.rsp_status, t.bu_state, t.bank, decide (t.events =
        [.send (.wr 7 :: List.replicate 7 (.byte 0xFF)), .flush, .recv 1 (some [0xA0]),
         .send [.wr 2, .byte 0x34, .byte 0x12], .flush, .recv 1 (some [0xA1]),
         .send (.wr 7 :: List.replicate 7 (.byte 0xFF)), .flush, .recv 1 (some [0xA2])] ++ eventsOf otherAnswers))) =
      some (.ok, .ready, some 0, true) := by
  constructor <;> decide +kernel

/-- B2, B3 and B6: the first acknowledgment, the read-back of CTRL/STAT, and the confirmations of the SELECT write. -/
theorem test_b2_b3_b6 :
    [stopScript (.read false 0, readReply 0) (.ackMismatch [1, 1, 0]), scriptOf (bringupAnswers 4 0x50000000),
      scriptOf ((bringupAnswers 12 0).take 2) ++ stopScript (.write false 2 0, writeReply) (.finTimeout [])].map
      (fun rx => nextField (exec .bringup { State.reset with rx := rx }) fun t => (t.rsp_status, t.bu_state, t.bank)) =
    [some (.error .ackMismatch, .modeSwitch, none), some (.error .unexpectedCtrlStat, .apBankSelected, some 0),
     some (.error .timeout, .abortCleared, none)] := by decide +kernel

/-- `DUMP` before a bring-up is refused, and one whose transport is silent ends without an image (R241, R246). -/
theorem test_dump :
    nextField (exec .dump State.reset) (fun t => (t.rsp_status, t.sess_dead)) = some (.refused, false) ∧
    nextField (exec .dump { scripted (some 0) none [] with bu_state := .ready })
      (fun t => (t.err_code, t.fd_image, t.bu_state, t.fd_busy)) = some (some .timeout, [], .ready, false) := by
  decide +kernel

/-- V9, the third row in small: the byte before the trailing run is lost. -/
theorem test_trim :
    trim [0x11, 0x34, 0x12, 0xFF, 0xFF, 0xFF] = [0x11, 0x34] ∧ trim [0xFF, 0xFF] = [] ∧ trim [] = [] := by decide

/-- A step takes the word at the port: program P1, step 1. -/
theorem test_step_takes_the_word :
    nextField (step (State.reset.withFetchWord 48 0x10000000000)) (fun t => (t.rsp_status, t.port)) =
      some (.ok, []) := by decide +kernel

/-- Power-on reset inside a transaction: what was sent stays sent, nothing more is. -/
theorem test_reset_inside :
    nextField (exec .dprd0 { answered [0x10, 0x20, 1, 0, 0] with por := [4], bank := some 3 })
      (fun t => (t.bank, t.events.length, t.por, t.t_phase, t.rsp_status)) = some (none, 4, [], .idle, .ok) := by
  decide +kernel

/-- Power-on reset is asserted again (R300, "at any time"): the first cuts the transaction, the second the next step. -/
theorem test_reset_twice :
    nextField (exec .dprd0 { answered [0x10, 0x20, 1, 0, 0] with por := [4, 0], bank := some 3 })
      (fun t => (t.por, nextField (step { t with bank := some 5 }) fun u => (u.por, u.bank))) =
      some ([0], some ([], none)) := by
  decide +kernel

/-- The word an earlier `RD` left is no longer read after a command that is refused (10_state.md R30). -/
theorem test_response_word :
    responseWord { State.reset with rsp_rdata := some 7 } = some 7 ∧
    nextField (exec .reserved6 { State.reset with rsp_rdata := some 7 }) responseWord = some none := by decide

/-! ## Witnesses: states and operands that meet the hypotheses of the statements -/

theorem rest_scripted (bank tar : Option Word) (xs : List (Txn × Reply)) : AtRest (scripted bank tar xs) :=
  ⟨rfl, rfl, rfl, rfl, rfl, rfl, rfl, rfl⟩

theorem usable_scripted (bank tar : Option Word) (xs : List (Txn × Reply)) : Usable (scripted bank tar xs) := ⟨rfl, rfl⟩

/-- A session that has died. -/
def deadState : State := { State.reset with sess_dead := true, err_code := some .timeout, rsp_status := .error .timeout }

/-- A ready session. -/
def readyState (rx : List RxItem) : State := { State.reset with bank := some 0, bu_state := .ready, rx := rx }

/-- A dump in progress, with the DUMP that began it taken from the port. -/
def dumping : State := { readyState [] with fd_busy := true, fd_addr := some 0x400, fd_image := List.replicate 1024 0x00 }

theorem dumping_coherent : Coherent dumping :=
  ⟨⟨rfl, rfl, rfl, rfl, rfl, rfl, rfl, rfl⟩, by decide, by decide,
    fun _ => ⟨rfl, rfl, by decide +kernel, 0x400, rfl, by decide⟩, by decide⟩

theorem coherent_with_por {s : State} (h : Coherent s) (p : List Nat) : Coherent { s with por := p } :=
  ⟨⟨h.rest.phase, h.rest.addr, h.rest.apndp, h.rest.rnw, h.rest.par, h.rest.hdr, h.rest.val, h.rest.vpar⟩, h.deadErr,
    h.modes, h.busy, h.notBusy⟩

theorem deadState_coherent : Coherent deadState :=
  ⟨⟨rfl, rfl, rfl, rfl, rfl, rfl, rfl, rfl⟩, by decide, by decide, by decide, by decide⟩

/-- A configuration in which every count of confirmations is set. -/
def countedConfig : Cfg := { Cfg.default with trnConf := 1, rdIdleConf := 2, rawConf := 2 }

/-- The state after reset with such a configuration and a script. -/
def counted (rx : List RxItem) : State := { State.reset with cfg := countedConfig, rx := rx }

/-- A reply with its counts. -/
def countedReply (f : List Byte) : Reply := ⟨[0x06, 0x07], [0x05], 0x0BB11477, f⟩

theorem witness_RevbMirrorsTheByte : (0 : Nat) < 8 ∧ (7 : Nat) < 8 ∧
    (revb 0x01).getLsbD 7 = true ∧ (revb 0x80).getLsbD 0 = true := by decide

theorem witness_WparFoldsTheWord : (0 : Nat) < 32 ∧ (31 : Nat) < 32 ∧
    wpar (0 ^^^ (1#32 <<< 0)) = true ∧ wpar (0 ^^^ (1#32 <<< 31)) = true := by decide

theorem witness_HeaderBitsAndWireBits : (0 : Nat) < 8 ∧ (7 : Nat) < 8 ∧
    (wireByte 2 false false).getLsbD 0 = true ∧ (header 2 false false).getLsbD 7 = true := by decide

theorem witness_HeaderProperties : header 1 true false = header 1 true false ∧ wireByte 3 true true = wireByte 3 true true :=
  ⟨rfl, rfl⟩

theorem witness_AckchkAcceptsOneTriple : (answered [1, 1, 0]).por = [] ∧
    (answered [1, 1, 0]).rx = delivered [1, 1, 0] ++ [] ∧ ackOk [1, 1, 0] = false ∧ ackOk [0x01, 0x00, 0x80] = false := by
  decide

theorem witness_ReservedAndUnknownAreTurnedAway : isReserved .reservedD = true ∧
    State.reset.sess_dead = false ∧ lookup State.reset.cfg.regtab 17 = none ∧ lookup State.reset.cfg.regtab 255 = none := by
  decide

theorem witness_CommandsDecodeByOpcode : isPure (.ackchk 1 1 0) = true ∧ (0xF#4 : BitVec 4) ∈ [0x0#4, 0xF#4] := by decide

/-- A byte for each clause: a header, and one for each check that fails. -/
theorem witness_HeaderDecoderAcceptsTheSixteen : (0xA5#8 = header 0 false true) ∧ (0x7F#8).getLsbD 7 = false ∧
    ((0xA7#8).getLsbD 7 = true ∧ (0xA7#8).getLsbD 1 = true) ∧
    ((0xA4#8).getLsbD 7 = true ∧ (0xA4#8).getLsbD 1 = false ∧ (0xA4#8).getLsbD 0 = false) := by decide

theorem witness_DecodeInvertsEncode : (Instr.apwr 3 7).wellFormed = true ∧ encode (.apwr 3 7) = some (.request 0xDD 7) ∧
    (Instr.wr 0xFF 0xFFFFFFFF).wellFormed = true ∧ encode (.wr 0xFF 0xFFFFFFFF) = some (.command 0x3FFFFFFFFFF#44) := by
  decide

theorem witness_StepRunsTheDecodedInstruction :
    (State.reset.withFetchWord 8 0xA5).cfg.wellFormed = true ∧ (State.reset.withFetchWord 8 0xA5).por.head? ≠ some 0 ∧
       (State.reset.withFetchWord 8 0xA5).fd_busy = false ∧ (State.reset.withFetchWord 8 0xA5).port = .request 0xA5 0 :: [] ∧
    decode (.request 0xA5 0) = .ok .dprd0 := by decide

/-- A state for each clause: nothing at the port, a dump in progress, a byte that is no header, a configuration that is
ill-formed. -/
theorem witness_StepWithoutAnInstruction :
    (State.reset.cfg.wellFormed = true ∧ State.reset.por.head? ≠ some 0 ∧ State.reset.fd_busy = false ∧ State.reset.port = []) ∧
    (∃ s : State, s.cfg.wellFormed = true ∧ s.por.head? ≠ some 0 ∧ s.fd_busy = true) ∧
    (∃ s : State, s.cfg.wellFormed = true ∧ s.por.head? ≠ some 0 ∧ s.fd_busy = false ∧ s.port = .request 0xA7 0 :: [] ∧
      decode (.request 0xA7 0) = .error .stopBit) ∧
    ∃ s : State, s.cfg.wellFormed = false :=
  ⟨by decide, ⟨{ State.reset with fd_busy := true }, by decide⟩,
    ⟨{ State.reset with port := [.request 0xA7 0] }, by decide⟩,
    ⟨{ State.reset with cfg := { Cfg.default with flashStart := 1 } }, by decide⟩⟩

/-- Reset between commands with one more to come, at the first point of a transaction and at a later one, inside a later
page of a dump, and the state of the last clause. -/
theorem witness_PowerOnResetAtAnyTime :
    (∃ s : State, s.cfg.wellFormed = true ∧ s.por.head? = some 0) ∧
    (∀ n ∈ [0, 5], ∃ s t, AtRest s ∧ s.por = [n, 7] ∧
      exec .dprd0 s = .next t ∧ t.por = [7]) ∧
    (∃ s t, Coherent s ∧ s.fd_busy = true ∧ s.por = [2, 7] ∧ step s = .next t ∧ t.por.length < s.por.length) ∧
    ∃ s : State, s.por.head? = some 0 := by
  refine ⟨⟨{ State.reset with por := [0, 3] }, by decide⟩, ?_, ?_, ⟨{ State.reset with por := [0] }, rfl⟩⟩
  · intro n hn
    have h : nextField (exec .dprd0 { answered [6, 7, 1, 0, 0, 0, 0, 0, 0, 0] with por := [n, 7] }) (fun t => t.por) =
        some [7] := by
      simp only [List.mem_cons, List.not_mem_nil, or_false] at hn
      rcases hn with rfl | rfl <;> decide +kernel
    obtain ⟨t, ht, hp⟩ := next_of_field h
    exact ⟨_, t, ⟨rfl, rfl, rfl, rfl, rfl, rfl, rfl, rfl⟩, rfl, ht, hp⟩
  · have h : nextField (step { dumping with por := [2, 7] }) (fun t => t.por) = some [7] := by decide +kernel
    obtain ⟨t, ht, hp⟩ := next_of_field h
    exact ⟨{ dumping with por := [2, 7] }, t, coherent_with_por dumping_coherent _, rfl, rfl, ht, by rw [hp]; decide⟩

theorem witness_ReadRequestsComplete : readRow (.aprd 3) = some (true, 3) ∧
    Usable (counted (scriptOf [(.read true 3, countedReply [8, 9])])) ∧
    replyFits countedConfig (.read true 3, countedReply [8, 9]) ∧
    scriptOf [(.read true 3, countedReply [8, 9])] = delivered (replyUnits (.read true 3, countedReply [8, 9])) ++ [] :=
  ⟨rfl, ⟨rfl, rfl⟩, ⟨rfl, rfl, rfl⟩, by decide +kernel⟩

theorem witness_WriteRequestsComplete : writeRow (.dpwr2 0xF0) = some (false, 2, 0xF0) ∧
    Usable (counted (scriptOf [(.write false 2 0xF0, countedReply [8, 9])])) ∧
    replyFits countedConfig (.write false 2 0xF0, countedReply [8, 9]) ∧
    scriptOf [(.write false 2 0xF0, countedReply [8, 9])] =
      delivered (replyUnits (.write false 2 0xF0, countedReply [8, 9])) ++ [] :=
  ⟨rfl, ⟨rfl, rfl⟩, ⟨rfl, rfl, rfl⟩, by decide +kernel⟩

/-- The three clauses: the empty string, an answered frame, one unit short. -/
theorem witness_RawsendCompletes : (Usable (counted []) ∧ (counted []).t_phase = .idle) ∧
    ([0x00#8] ≠ [] ∧ Usable (counted (delivered [1, 2])) ∧ [1#8, 2#8].length = countedConfig.rawConf ∧
      (counted (delivered [1, 2])).rx = delivered [1, 2] ++ []) ∧
    (Usable (counted (delivered [1] ++ [.timeLimit])) ∧ [1#8].length < countedConfig.rawConf ∧
      (counted (delivered [1] ++ [.timeLimit])).rx = delivered [1] ++ .timeLimit :: []) :=
  ⟨⟨⟨rfl, rfl⟩, rfl⟩, ⟨by decide, ⟨rfl, rfl⟩, rfl, by decide⟩, ⟨rfl, rfl⟩, by decide, rfl⟩

/-- A failure of each kind, for a read and, where it can happen, for a write. -/
theorem witness_FailedTransactionIsFatal :
    (∀ st ∈ [Stop.headerTimeout [1], .ackTimeout [1, 0], .ackMismatch [1, 1, 0], .turnTimeout [], .dataTimeout [1, 2, 3],
        .parityTimeout, .parityError 3, .finTimeout [1]],
      Usable (counted (stopScript (.read false 0, countedReply [8, 9]) st ++ [])) ∧
      stopFits countedConfig (.read false 0, countedReply [8, 9]) st) ∧
    (∀ st ∈ [Stop.headerTimeout [], .ackTimeout [], .ackMismatch [2, 0, 0], .turnTimeout [], .finTimeout [1]],
      Usable (counted (stopScript (.write true 1 7, countedReply [8, 9]) st ++ [])) ∧
      stopFits countedConfig (.write true 1 7, countedReply [8, 9]) st) ∧
    replyFits countedConfig (.read false 0, countedReply [8, 9]) ∧
    replyFits countedConfig (.write true 1 7, countedReply [8, 9]) ∧
    readRow .dprd0 = some (false, 0) ∧ writeRow (.apwr1 7) = some (true, 1, 7) := by
  refine ⟨fun st h => ⟨⟨rfl, rfl⟩, ?_⟩, fun st h => ⟨⟨rfl, rfl⟩, ?_⟩, ⟨rfl, rfl, rfl⟩, ⟨rfl, rfl, rfl⟩, rfl, rfl⟩
  · simp only [List.mem_cons, List.not_mem_nil, or_false] at h
    rcases h with rfl | rfl | rfl | rfl | rfl | rfl | rfl | rfl <;> simp only [stopFits] <;> decide +kernel
  · simp only [List.mem_cons, List.not_mem_nil, or_false] at h
    rcases h with rfl | rfl | rfl | rfl | rfl <;> simp only [stopFits] <;> decide +kernel

/-- The transport in the mode that 70_reset_and_hazards.md R303 makes a premise, for the counted configuration. -/
def countedMode : TransportMode := ⟨[.clock, .data], .lsbFirst, .lsbFirst, 1, 2, 2, 1, 2, 2⟩

theorem witness_TransactionClocks : TransportConfigured countedMode countedConfig ∧
    (readRow (.swdrd false 3) = some (false, 3) ∧ replyFits countedConfig (.read false 3, countedReply [8, 9]) ∧
      Usable (counted (delivered (replyUnits (.read false 3, countedReply [8, 9])) ++ []))) ∧
    (writeRow (.swdwr true 0 5) = some (true, 0, 5) ∧ replyFits countedConfig (.write true 0 5, countedReply [8, 9]) ∧
      Usable (counted (delivered (replyUnits (.write true 0 5, countedReply [8, 9])) ++ []))) :=
  ⟨⟨rfl, rfl, rfl, rfl, rfl, rfl, rfl, rfl, rfl⟩, ⟨rfl, ⟨rfl, rfl, rfl⟩, ⟨rfl, rfl⟩⟩, rfl, ⟨rfl, rfl, rfl⟩, ⟨rfl, rfl⟩⟩

/-- After a `Recv` of the acknowledgment that timed out, and after a reset that cut the phase before its `Recv`, the
confirmations of the next header are no sampled bits (log 37). -/
theorem test_sampled_given_up :
    sampledBits countedMode [] [.send [.rdbit, .rdbit, .rdbit], .flush, .recv 3 none,
      .send [.wr 1, .byte 0xA5], .flush, .recv 2 (some [0xFF, 0xFF])] = [] ∧
    sampledBits countedMode [] [.send [.rdbit, .rdbit, .rdbit],
      .send [.wr 1, .byte 0xA5], .flush, .recv 2 (some [0xFF, 0xFF])] = [] := by decide

theorem witness_HeaderPhaseLatchesAndSends (rx : List RxItem) :
    let s : State := { State.reset with t_addr := some 1, t_apndp := some true, t_rnw := some false, rx := rx }
    (s.por = [] ∧ s.t_addr = some 1 ∧ s.t_apndp = some true ∧ s.t_rnw = some false) ∧
    (rx = delivered [6, 7] ++ [] → [6#8, 7#8].length = 2 ∧ s.rx = delivered [6, 7] ++ []) ∧
    (rx = delivered [6] ++ [.timeLimit] → [6#8].length < 2 ∧ s.rx = delivered [6] ++ .timeLimit :: []) :=
  ⟨⟨rfl, rfl, rfl, rfl⟩, fun h => ⟨rfl, h⟩, fun h => ⟨by decide, h⟩⟩

theorem witness_InternalOperationsNotStartedWhenDead : isInternal (.apwr1 7) = true ∧ isInternal (.enstar 0) = true ∧
    deadState.sess_dead = true := by decide

theorem witness_ResolveLooksUpTheTable : State.reset.sess_dead = false ∧
    lookup State.reset.cfg.regtab 16 = some ⟨0xD00, .scs⟩ ∧ lookup State.reset.cfg.regtab 17 = none := by decide

/-- The SELECT write of bank `0xF0` and its answer. -/
def selectF0 : Txn × Reply := (.write false 2 0xF0, writeReply)

theorem witness_EnsbankWritesOnAMissOnly :
    (Usable (scripted (some 0xF0) none []) ∧ (scripted (some 0xF0) none []).bank = some ((0xF0 : BitVec 8).zeroExtend 32)) ∧
    (AtRest (scripted none none [selectF0]) ∧ Usable (scripted none none [selectF0]) ∧
      (scripted none none [selectF0]).bank ≠ some ((0xF0 : BitVec 8).zeroExtend 32) ∧
      selectF0 = (.write false (selectSlot Cfg.default) ((0xF0 : BitVec 8).zeroExtend 32), writeReply) ∧
      replyFits Cfg.default selectF0 ∧ (scripted none none [selectF0]).rx = delivered (replyUnits selectF0) ++ []) ∧
    ∀ st ∈ [Stop.headerTimeout [], .ackMismatch [1, 1, 0], .finTimeout [1]], stopFits Cfg.default selectF0 st := by
  refine ⟨⟨⟨rfl, rfl⟩, by decide⟩, ⟨rest_scripted .., ⟨rfl, rfl⟩, by decide, by decide, ⟨rfl, rfl, rfl⟩, by decide⟩,
    fun st h => ?_⟩
  simp only [List.mem_cons, List.not_mem_nil, or_false] at h
  rcases h with rfl | rfl | rfl <;> simp only [stopFits] <;> decide

/-- The two transactions of a TAR write with an unknown bank. -/
def tarMiss : List (Txn × Reply) := [(.write false 2 0, writeReply), (.write true 1 0x10001000, writeReply)]

theorem witness_EnstarMissOnAMissOnly :
    (Usable (scripted none (some 0x10) []) ∧ (scripted none (some 0x10) []).tar = some 0x10) ∧
    (AtRest (scripted none none tarMiss) ∧ Usable (scripted none none tarMiss) ∧
      (scripted none none tarMiss).tar ≠ some 0x10001000 ∧
      tarMiss.map Prod.fst = [.write false (selectSlot Cfg.default) ((Cfg.default.apTarOff &&& 0xF0#8).zeroExtend 32)] ++
        [.write true (tarSlot Cfg.default) 0x10001000] ∧ (∀ x ∈ tarMiss, replyFits Cfg.default x) ∧
      (scripted none none tarMiss).rx = scriptOf tarMiss ++ []) := by
  refine ⟨⟨⟨rfl, rfl⟩, rfl⟩, rest_scripted .., ⟨rfl, rfl⟩, by decide, by decide, fun x h => ?_, by decide⟩
  simp only [tarMiss, List.mem_cons, List.not_mem_nil, or_false] at h
  rcases h with rfl | rfl <;> exact ⟨rfl, rfl, rfl⟩

/-- The SELECT write succeeds, the TAR write is not acknowledged. -/
theorem witness_FailedEnstarKeepsTheBank :
    [tarMiss[0]].map Prod.fst ++ tarMiss[1].1 :: [] = tarTxns Cfg.default none none 0x10001000 ∧
    (∀ y ∈ [tarMiss[0]], replyFits Cfg.default y) ∧ replyFits Cfg.default tarMiss[1] ∧
    stopFits Cfg.default tarMiss[1] (.ackMismatch [1, 1, 0]) ∧
    ∃ s, AtRest s ∧ Usable s ∧ s.cfg = Cfg.default ∧ s.bank = none ∧ s.tar = none ∧
      s.rx = scriptOf [tarMiss[0]] ++ stopScript tarMiss[1] (.ackMismatch [1, 1, 0]) ++ [] := by
  refine ⟨by decide, fun y h => ?_, ⟨rfl, rfl, rfl⟩, by simp only [stopFits]; decide,
    ⟨{ State.reset with rx := scriptOf [tarMiss[0]] ++ stopScript tarMiss[1] (.ackMismatch [1, 1, 0]) ++ [] },
      ⟨rfl, rfl, rfl, rfl, rfl, rfl, rfl, rfl⟩, ⟨rfl, rfl⟩, rfl, rfl, rfl, rfl⟩⟩
  simp only [List.mem_singleton] at h
  subst h
  exact ⟨rfl, rfl, rfl⟩

/-- A descriptor for each clause: SELECT, TAR, and one that is neither. -/
theorem witness_SnoopRecordsSelectAndTar : State.reset.sess_dead = false ∧
    (⟨0x008, .dp⟩ : Descriptor).offset.extractLsb' 2 2 = Cfg.default.dpSelectOff.extractLsb' 2 2 ∧
    (⟨0x004, .ap⟩ : Descriptor).offset &&& 0xFF#12 = Cfg.default.apTarOff.zeroExtend 12 ∧
    (⟨0x014, .ap⟩ : Descriptor).offset &&& 0xFF#12 ≠ Cfg.default.apTarOff.zeroExtend 12 := by decide

/-- Any list of transactions, each answered as the protocol wants. -/
def answeredAll (w : Word) (ts : List Txn) : List (Txn × Reply) :=
  ts.map fun t => (t, reply w (if t.isRead then [] else [0x08, 0x09]))

theorem answeredAll_fst (w : Word) (ts : List Txn) : (answeredAll w ts).map Prod.fst = ts := by
  simp [answeredAll, Function.comp_def]

theorem answeredAll_fits_of {c : Cfg} (ht : c.trnConf = 0) (hr : c.rdIdleConf = 0) (w : Word) (ts : List Txn) :
    ∀ x ∈ answeredAll w ts, replyFits c x := by
  intro x h
  obtain ⟨t, _, rfl⟩ := List.mem_map.mp h
  cases t
  · exact ⟨rfl, ht.symm, hr.symm⟩
  · exact ⟨rfl, ht.symm, rfl⟩

theorem answeredAll_fits (w : Word) (ts : List Txn) : ∀ x ∈ answeredAll w ts, replyFits Cfg.default x :=
  answeredAll_fits_of rfl rfl w ts

/-- A descriptor of each space, read with unknown caches. -/
theorem witness_RdRunsItsExpansion (id : BitVec 8) (d : Descriptor)
    (h : (id, d) ∈ [(0#8, (⟨0x000, .dp⟩ : Descriptor)), (5#8, ⟨0x000, .ap⟩), (13#8, ⟨0x010, .ficr⟩),
      (15#8, ⟨0x000, .uicr⟩), (16#8, ⟨0xD00, .scs⟩)]) :
    let xs := answeredAll 7 (expandRd Cfg.default none none d)
    AtRest (scripted none none xs) ∧ Usable (scripted none none xs) ∧
    lookup (scripted none none xs).cfg.regtab id = some d ∧
    xs.map Prod.fst = expandRd Cfg.default none none d ∧ (∀ x ∈ xs, replyFits Cfg.default x) ∧
    (scripted none none xs).rx = scriptOf xs ++ [] := by
  refine ⟨rest_scripted .., usable_scripted .., ?_, answeredAll_fst .., answeredAll_fits _ _, (List.append_nil _).symm⟩
  simp only [List.mem_cons, List.not_mem_nil, or_false, Prod.mk.injEq] at h
  rcases h with ⟨rfl, rfl⟩ | ⟨rfl, rfl⟩ | ⟨rfl, rfl⟩ | ⟨rfl, rfl⟩ | ⟨rfl, rfl⟩ <;> decide

/-- A descriptor of each space, SELECT and TAR among them, written with unknown caches. -/
theorem witness_WrRunsItsExpansion (id : BitVec 8) (d : Descriptor)
    (h : (id, d) ∈ [(3#8, (⟨0x008, .dp⟩ : Descriptor)), (6#8, ⟨0x004, .ap⟩), (13#8, ⟨0x010, .ficr⟩),
      (15#8, ⟨0x000, .uicr⟩), (16#8, ⟨0xD00, .scs⟩)]) :
    let xs := answeredAll 7 (expandWr Cfg.default none none d 0x010000F0)
    AtRest (scripted none none xs) ∧ Usable (scripted none none xs) ∧
    lookup (scripted none none xs).cfg.regtab id = some d ∧
    xs.map Prod.fst = expandWr Cfg.default none none d 0x010000F0 ∧ (∀ x ∈ xs, replyFits Cfg.default x) ∧
    (scripted none none xs).rx = scriptOf xs ++ [] := by
  refine ⟨rest_scripted .., usable_scripted .., ?_, answeredAll_fst .., answeredAll_fits _ _, (List.append_nil _).symm⟩
  simp only [List.mem_cons, List.not_mem_nil, or_false, Prod.mk.injEq] at h
  rcases h with ⟨rfl, rfl⟩ | ⟨rfl, rfl⟩ | ⟨rfl, rfl⟩ | ⟨rfl, rfl⟩ | ⟨rfl, rfl⟩ <;> decide

/-- C18: the SELECT write succeeds, the access that follows is not acknowledged. -/
theorem witness_FailedAccessKeepsCompletedWrites :
    let x : Txn × Reply := (.read true 3, readReply 0)
    let s : State := { State.reset with
      bank := some 0, rx := scriptOf [selectF0] ++ stopScript x (.ackMismatch [1, 1, 0]) ++ [] }
    accessTxns s (.rd 12) = some ([selectF0].map Prod.fst ++ x.1 :: [.read false 3]) ∧ AtRest s ∧ Usable s ∧
    (∀ y ∈ [selectF0], replyFits s.cfg y) ∧ replyFits s.cfg x ∧ stopFits s.cfg x (.ackMismatch [1, 1, 0]) := by
  refine ⟨by decide, ⟨rfl, rfl, rfl, rfl, rfl, rfl, rfl, rfl⟩, ⟨rfl, rfl⟩, fun y h => ?_, ⟨rfl, rfl, rfl⟩,
    by simp only [stopFits]; decide⟩
  simp only [List.mem_singleton] at h
  subst h
  exact ⟨rfl, rfl, rfl⟩

/-- Reading AP_IDR with the bank unknown. -/
def idrRead : State := scripted none none (answeredAll 7 [.write false 2 0xF0, .read true 3, .read false 3])

/-- The step of a dump's later page that writes SELECT and TAR and then fails: both are recorded. -/
def pageCut : State := { dumping with
  bank := none, tar := some 0, rx := scriptOf [(.write false 2 0, writeReply), (.write true 1 0x400, writeReply)] }

theorem pageCut_coherent : Coherent pageCut :=
  ⟨⟨rfl, rfl, rfl, rfl, rfl, rfl, rfl, rfl⟩, by decide, by decide,
    fun _ => ⟨rfl, rfl, by decide +kernel, 0x400, rfl, by decide⟩, by decide⟩

/-- What that step leaves: both caches, in a session that has died. -/
theorem pageCut_step : ∃ t, step pageCut = .next t ∧ t.bank = some 0 ∧ t.tar = some 0x400 ∧ t.sess_dead = true := by
  have h : nextField (step pageCut) (fun t => (t.bank, t.tar, t.sess_dead)) = some (some 0, some 0x400, true) := by
    decide +kernel
  obtain ⟨t, ht, hb⟩ := next_of_field h
  simp only [Prod.mk.injEq] at hb
  exact ⟨t, ht, hb⟩

/-- Reading AP_IDR as a host command, with the bank unknown and the target's SELECT at bank `0x10`. -/
def idrCommand : State := { idrRead with port := [.command 0x20C00000000#44] }

theorem idrCommand_coherent : Coherent idrCommand :=
  ⟨⟨rfl, rfl, rfl, rfl, rfl, rfl, rfl, rfl⟩, by decide, by decide, by decide, by decide⟩

/-- Reading AP_DRW as a host command, with the bank unknown. -/
def drwCommand : State := { scripted none (some 0x400) (answeredAll 7 [.write false 2 0, .read true 3, .read false 3]) with
  port := [.command 0x20700000000#44] }

/-- An access, a dump page that fails half way, a read of DRW during which the target's TAR counts up (so that the premise
on both registers does not hold, and that on SELECT does), and a read whose SELECT write changes the target. -/
theorem witness_CacheValuesWereWritten :
    (AtRest idrRead ∧ ∃ t, exec (.rd 12) idrRead = .next t ∧ t.bank = some 0xF0 ∧ t.bank ≠ idrRead.bank) ∧
    (Coherent pageCut ∧ ∃ t, step pageCut = .next t ∧ t.bank ≠ pageCut.bank ∧ t.tar ≠ pageCut.tar) ∧
    (Coherent drwCommand ∧ ThroughRouter drwCommand ∧ MirrorsSelect drwCommand 0x10 ∧
      ∃ t es, step drwCommand = .next t ∧ t.sess_dead = false ∧ t.bank = some 0 ∧ t.tar = some 0x400 ∧
        t.events = drwCommand.events ++ es ∧ SelectUndisturbed drwCommand.cfg es 0x10 0 ∧
        ¬ NoInterference drwCommand.cfg es ⟨0x10, 0x400⟩ ⟨0, 0x404⟩) ∧
    (Coherent idrCommand ∧ ThroughRouter idrCommand ∧ TarApart idrCommand.cfg ∧ Mirrors idrCommand ⟨0x10, 0⟩ ∧
      ∃ t es, step idrCommand = .next t ∧ t.sess_dead = false ∧ t.bank = some 0xF0 ∧
        t.events = idrCommand.events ++ es ∧ NoInterference idrCommand.cfg es ⟨0x10, 0⟩ ⟨0xF0, 0⟩) := by
  refine ⟨?_, ⟨pageCut_coherent, ?_⟩, ⟨?_, ?_, fun _ v h => ?_, ?_⟩, idrCommand_coherent, ?_,
    ⟨by decide, by decide⟩, ⟨fun _ v h => ?_, fun _ v h => ?_⟩, ?_⟩
  · have h : nextField (exec (.rd 12) idrRead) (fun t => t.bank) = some (some 0xF0) := by decide +kernel
    obtain ⟨t, ht, hb⟩ := next_of_field h
    exact ⟨rest_scripted .., t, ht, hb, by rw [hb]; decide⟩
  · obtain ⟨t, ht, hb, hv, _⟩ := pageCut_step
    exact ⟨t, ht, by rw [hb]; decide, by rw [hv]; decide⟩
  · exact ⟨⟨rfl, rfl, rfl, rfl, rfl, rfl, rfl, rfl⟩, by decide, by decide, by decide, by decide⟩
  · intro h v rest hp
    simp [drwCommand] at hp
  · simp [drwCommand, scripted] at h
  · have h : nextField (step drwCommand) (fun t => (t.sess_dead, t.bank, t.tar,
        decide ((writesSent 0#8 t.events).foldl (targetSelect Cfg.default) 0x10 = 0),
        decide ((writesSent 0#8 t.events).foldl (targetWrite Cfg.default) ⟨0x10, 0x400⟩ = ⟨0, 0x400⟩))) =
        some (false, some 0, some 0x400, true, true) := by decide +kernel
    obtain ⟨t, ht, hb⟩ := next_of_field h
    simp only [Prod.mk.injEq, decide_eq_true_eq] at hb
    refine ⟨t, t.events, ht, hb.1, hb.2.1, hb.2.2.1, rfl, hb.2.2.2.1.symm, fun hn => ?_⟩
    exact absurd (hn.trans hb.2.2.2.2) (by decide)
  · intro h v rest hp
    simp [idrCommand] at hp
  · simp [idrCommand, idrRead, scripted] at h
  · simp [idrCommand, idrRead, scripted] at h
  · have h : nextField (step idrCommand) (fun t => (t.sess_dead, t.bank,
        decide ((writesSent 0#8 t.events).foldl (targetWrite Cfg.default) ⟨0x10, 0⟩ = ⟨0xF0, 0⟩))) =
        some (false, some 0xF0, true) := by decide +kernel
    obtain ⟨t, ht, hb⟩ := next_of_field h
    simp only [Prod.mk.injEq, decide_eq_true_eq] at hb
    exact ⟨t, t.events, ht, hb.1, hb.2.1, rfl, hb.2.2.symm⟩

/-- An access and a dump page, each of which fails. -/
theorem witness_CachesClearedBySessionStartOnly :
    (AtRest (scripted (some 0) (some 1) []) ∧ (scripted (some 0) (some 1) []).por = [] ∧
      startsSession (.rd 12) = false ∧ (∃ t, exec (.rd 12) (scripted (some 0) (some 1) []) = .next t) ∧
      (scripted (some 0) (some 1) []).bank.isSome = true ∧ (scripted (some 0) (some 1) []).tar.isSome = true) ∧
    (Coherent pageCut ∧ pageCut.por = [] ∧ pageCut.fd_busy = true ∧ pageCut.tar.isSome = true ∧
      ∃ t, step pageCut = .next t ∧ t.sess_dead = true) ∧
    (Coherent idrCommand ∧ idrCommand.por = [] ∧ idrCommand.fd_busy = false ∧
      (∀ f rest i, idrCommand.port = f :: rest → decode f = .ok i → startsSession i = false) ∧
      ∃ t, step idrCommand = .next t ∧ t.sess_dead = false) := by
  have h : nextField (exec (.rd 12) (scripted (some 0) (some 1) [])) (fun t => t.sess_dead) = some true := by
    decide +kernel
  have h' : nextField (step idrCommand) (fun t => t.sess_dead) = some false := by decide +kernel
  obtain ⟨t, ht, _⟩ := next_of_field h
  obtain ⟨u, hu, _, _, hd⟩ := pageCut_step
  refine ⟨⟨rest_scripted .., rfl, rfl, ⟨t, ht⟩, rfl, rfl⟩, ⟨pageCut_coherent, rfl, rfl, rfl, u, hu, hd⟩,
    idrCommand_coherent, rfl, rfl, fun f rest i hp hi => ?_, next_of_field h'⟩
  cases hp
  have : i = .rd 12 := by
    have hd : decode (.command 0x20C00000000#44) = .ok (.rd 12) := by decide
    simpa [hd] using hi.symm
  rw [this]
  rfl

/-- An access, a bring-up over the default table, and a page of a dump. -/
theorem witness_RecordedSelectIsABank :
    (AtRest idrRead ∧ (Instr.rd 12).wellFormed = true ∧
      (∀ v, idrRead.bank = some v → v &&& 0xFFFFFF0F#32 = 0#32) ∧
      ∃ t, exec (.rd 12) idrRead = .next t ∧ t.bank = some 0xF0) ∧
    (Cfg.default.bringupBank &&& 0x0F#8 = 0#8 ∧
      (∀ id ∈ [Cfg.default.ids.abort, Cfg.default.ids.ctrlstat, Cfg.default.ids.csw], ∀ d,
        lookup Cfg.default.regtab id = some d → d.space = .dp → slotOf d.offset ≠ selectSlot Cfg.default) ∧
      ∃ t, exec .bringup (scripted none none (bringupAnswers 12 0)) = .next t ∧ t.bank = some 0) ∧
    (Coherent pageCut ∧ pageCut.fd_busy = true ∧ (∀ v, pageCut.bank = some v → v &&& 0xFFFFFF0F#32 = 0#32) ∧
      ∃ t, step pageCut = .next t ∧ t.bank = some 0) := by
  have h : nextField (exec (.rd 12) idrRead) (fun t => t.bank) = some (some 0xF0) := by decide +kernel
  have h' : nextField (exec .bringup (scripted none none (bringupAnswers 12 0))) (fun t => t.bank) = some (some 0) := by
    decide +kernel
  obtain ⟨u, hu, hb, _⟩ := pageCut_step
  refine ⟨⟨rest_scripted .., rfl, fun v hv => ?_, next_of_field h⟩, ⟨by decide, fun id hid d hd => ?_, next_of_field h'⟩,
    pageCut_coherent, rfl, fun v hv => ?_, u, hu, hb⟩
  · simp [idrRead, scripted] at hv
  · simp only [List.mem_cons, List.not_mem_nil, or_false] at hid
    rcases hid with rfl | rfl | rfl <;> cases hd <;> decide
  · simp [pageCut] at hv

theorem witness_SelectWriteStandsBeforeItsAccess : AtRest idrRead ∧ Usable idrRead ∧
    (∃ t, exec (.rd 12) idrRead = .next t ∧ t.sess_dead = false) ∧
    accessTxns idrRead (.rd 12) = some [.write false 2 0xF0, .read true 3, .read false 3] ∧
    selectSlot idrRead.cfg = 2 := by
  have h : nextField (exec (.rd 12) idrRead) (fun t => t.sess_dead) = some false := by decide +kernel
  exact ⟨rest_scripted .., usable_scripted .., next_of_field h, by decide, by decide⟩

/-- Two instructions, one after the other. -/
theorem two_of_fields {α β : Type} {i j : Instr} {s : State} {f : State → α} {g : State → β} {a : α} {b : β}
    (h : nextField (exec i s) (fun t => (f t, nextField (exec j t) g)) = some (a, some b)) :
    ∃ t u, exec i s = .next t ∧ f t = a ∧ exec j t = .next u ∧ g u = b := by
  obtain ⟨t, ht, hf⟩ := next_of_field h
  simp only [Prod.mk.injEq] at hf
  obtain ⟨u, hu, hg⟩ := next_of_field hf.2
  exact ⟨t, u, ht, hf.1, hu, hg⟩

/-- Two accesses in one bank, and two in two. -/
theorem witness_BankCaching :
    lookup Cfg.defaultRegtab 5 = some ⟨0x000, .ap⟩ ∧ lookup Cfg.defaultRegtab 6 = some ⟨0x004, .ap⟩ ∧
    lookup Cfg.defaultRegtab 12 = some ⟨0x0FC, .ap⟩ ∧
    (∃ s t u, AtRest s ∧ Usable s ∧ s.cfg = Cfg.default ∧ s.bank ≠ some ((bankOf 0x000).zeroExtend 32) ∧
      exec (.rd 5) s = .next t ∧ t.sess_dead = false ∧ exec (.rd 6) t = .next u ∧ u.sess_dead = false) ∧
    ∃ s t u, AtRest s ∧ Usable s ∧ s.cfg = Cfg.default ∧ s.bank ≠ some ((bankOf 0x000).zeroExtend 32) ∧
      exec (.wr 5 7) s = .next t ∧ t.sess_dead = false ∧ exec (.rd 12) t = .next u ∧ u.sess_dead = false := by
  refine ⟨by decide, by decide, by decide, ?_, ?_⟩
  · have h : nextField (exec (.rd 5) (scripted none none (answeredAll 7
        [.write false 2 0, .read true 0, .read false 3, .read true 1, .read false 3])))
        (fun t => (t.sess_dead, nextField (exec (.rd 6) t) fun u => u.sess_dead)) = some (false, some false) := by
      decide +kernel
    obtain ⟨t, u, h1, h2, h3, h4⟩ := two_of_fields h
    exact ⟨_, t, u, rest_scripted .., usable_scripted .., rfl, by decide, h1, h2, h3, h4⟩
  · have h : nextField (exec (.wr 5 7) (scripted none none (answeredAll 7
        [.write false 2 0, .write true 0 7, .write false 2 0xF0, .read true 3, .read false 3])))
        (fun t => (t.sess_dead, nextField (exec (.rd 12) t) fun u => u.sess_dead)) = some (false, some false) := by
      decide +kernel
    obtain ⟨t, u, h1, h2, h3, h4⟩ := two_of_fields h
    exact ⟨_, t, u, rest_scripted .., usable_scripted .., rfl, by decide, h1, h2, h3, h4⟩

/-- C7 and C8: a read and then a write with one aligned base, and a write and then a read, of which the first writes the
base itself at TAR's own slot; and a cache that already holds the base. -/
theorem witness_TarCaching :
    lookup Cfg.defaultRegtab 13 = some ⟨0x010, .ficr⟩ ∧ lookup Cfg.defaultRegtab 14 = some ⟨0x014, .ficr⟩ ∧
    addrOf Cfg.default ⟨0x010, .ficr⟩ &&& Cfg.default.tarAlignMask = 0x10000010 ∧
    addrOf Cfg.default ⟨0x014, .ficr⟩ &&& Cfg.default.tarAlignMask = 0x10000010 ∧
    (∃ s t u, AtRest s ∧ Usable s ∧ s.cfg = Cfg.default ∧ s.tar = none ∧
      exec (.rd 13) s = .next t ∧ t.sess_dead = false ∧ exec (.wr 14 7) t = .next u ∧ u.sess_dead = false) ∧
    (∃ s t u, AtRest s ∧ Usable s ∧ s.cfg = Cfg.default ∧ s.tar = some 0 ∧
      exec (.wr 14 0x10000010) s = .next t ∧ t.sess_dead = false ∧ exec (.rd 13) t = .next u ∧ u.sess_dead = false) ∧
    ∃ s t u, AtRest s ∧ Usable s ∧ s.cfg = Cfg.default ∧ s.tar = some 0x10000010 ∧
      exec (.rd 13) s = .next t ∧ t.sess_dead = false ∧ exec (.rd 14) t = .next u ∧ u.sess_dead = false := by
  refine ⟨by decide, by decide, by decide, by decide, ?_, ?_, ?_⟩
  · have h : nextField (exec (.rd 13) (scripted (some 0xF0) none (answeredAll 7
        [.write false 2 0, .write true 1 0x10000010, .write false 2 0x10, .read true 0, .read false 3,
         .write true 1 7])))
        (fun t => (t.sess_dead, nextField (exec (.wr 14 7) t) fun u => u.sess_dead)) = some (false, some false) := by
      decide +kernel
    obtain ⟨t, u, h1, h2, h3, h4⟩ := two_of_fields h
    exact ⟨_, t, u, rest_scripted .., usable_scripted .., rfl, rfl, h1, h2, h3, h4⟩
  · have h : nextField (exec (.wr 14 0x10000010) (scripted (some 0) (some 0) (answeredAll 7
        [.write true 1 0x10000010, .write false 2 0x10, .write true 1 0x10000010, .read true 0, .read false 3])))
        (fun t => (t.sess_dead, nextField (exec (.rd 13) t) fun u => u.sess_dead)) = some (false, some false) := by
      decide +kernel
    obtain ⟨t, u, h1, h2, h3, h4⟩ := two_of_fields h
    exact ⟨_, t, u, rest_scripted .., usable_scripted .., rfl, rfl, h1, h2, h3, h4⟩
  · have h : nextField (exec (.rd 13) (scripted (some 0x10) (some 0x10000010) (answeredAll 7
        [.read true 0, .read false 3, .read true 1, .read false 3])))
        (fun t => (t.sess_dead, nextField (exec (.rd 14) t) fun u => u.sess_dead)) = some (false, some false) := by
      decide +kernel
    obtain ⟨t, u, h1, h2, h3, h4⟩ := two_of_fields h
    exact ⟨_, t, u, rest_scripted .., usable_scripted .., rfl, rfl, h1, h2, h3, h4⟩

/-- The counts of TAR writes: the base itself written through the window at TAR's own slot is counted apart. -/
theorem test_tar_writes :
    nextField (exec (.wr 14 0x10000010) (scripted (some 0) (some 0) (answeredAll 7
        [.write true 1 0x10000010, .write false 2 0x10, .write true 1 0x10000010])))
      (fun t => (tarWrites Cfg.default 0x10000010 t.events,
        ownWrites Cfg.default 0x10000010 ⟨0x014, .ficr⟩ (.wr 14 0x10000010))) = some (2, 1) ∧
    nextField (exec (.rd 13) (scripted (some 0x10) (some 0x10000010) (answeredAll 7 [.read true 0, .read false 3])))
      (fun t => tarWrites Cfg.default 0x10000010 t.events) = some 0 := by decide +kernel

/-- A dead session, and a read that leaves a word. -/
theorem witness_DeadSessionRefuses :
    (sessionChecked (.rd 0) = true ∧ sessionChecked .dump = true ∧ deadState.sess_dead = true) ∧
    AtRest idrRead ∧ isInternal (.rd 12) = false ∧ ∃ t, exec (.rd 12) idrRead = .next t ∧ responseWord t ≠ none := by
  have h : nextField (exec (.rd 12) idrRead) responseWord = some (some 7) := by decide +kernel
  obtain ⟨t, ht, hw⟩ := next_of_field h
  exact ⟨by decide, rest_scripted .., rfl, t, ht, by rw [hw]; decide⟩

theorem witness_DeadSessionStaysDead : deadState.sess_dead = true ∧ startsSession (.dprd 0) = false ∧
    ∃ t, exec (.dprd 0) deadState = .next t := ⟨rfl, rfl, _, rfl⟩

/-- An instruction and a state of each session state. -/
theorem witness_SessionStatesLimitCommands :
    (AtRest State.reset ∧ isPure (.wpar 1) = true ∧ startsSession .sreset = true ∧ sessionMode State.reset = .fresh) ∧
    (AtRest deadState ∧ sessionMode deadState = .dead) ∧
    (∃ s, AtRest s ∧ sessionMode s = .ready) ∧ ∃ s, AtRest s ∧ sessionMode s = .bringingUp :=
  ⟨⟨⟨rfl, rfl, rfl, rfl, rfl, rfl, rfl, rfl⟩, by decide⟩, ⟨⟨rfl, rfl, rfl, rfl, rfl, rfl, rfl, rfl⟩, by decide⟩,
    ⟨{ State.reset with bu_state := .ready }, ⟨rfl, rfl, rfl, rfl, rfl, rfl, rfl, rfl⟩, by decide⟩,
    ⟨{ State.reset with bu_state := .modeSwitch }, ⟨rfl, rfl, rfl, rfl, rfl, rfl, rfl, rfl⟩, by decide⟩⟩

theorem bringupAnswers_fit (k : Nat) (w : Word) : ∀ x ∈ bringupAnswers k w, replyFits Cfg.default x := by
  intro x h
  obtain ⟨p, _, rfl⟩ := List.mem_map.mp h
  obtain ⟨⟨t, _⟩, _⟩ := p
  cases t <;> exact ⟨rfl, rfl, rfl⟩

/-- A part of a bring-up answered as wanted, by a transport that gives the confirmations `0xAA`. -/
def partAnswer (c : Cfg) (k : Caches) (p : BringupPart) : Option (List RxItem × List Event × Caches) :=
  match p.run with
  | .rawsend bytes =>
    if bytes = [] then some ([], [], k)
    else some (delivered (List.replicate c.rawConf 0xAA#8),
      .send (.wr bytes.length :: bytes.map .byte) :: confEvents (List.replicate c.rawConf 0xAA#8), k)
  | i =>
    match partTxns c k i with
    | none => none
    | some ts =>
      let xs := answeredAll ((p.check.map Prod.fst).getD 0xDEADBEEF#32) ts
      if p.check = none ∨ lastWord xs = p.check.map Prod.fst then some (scriptOf xs, eventsOf xs, partCaches c k i) else none

theorem partAnswer_done {c : Cfg} {k k' : Caches} {p : BringupPart} {script : List RxItem} {es : List Event}
    (ht : c.trnConf = 0) (hr : c.rdIdleConf = 0) (h : partAnswer c k p = some (script, es, k')) :
    PartDone c k p script es k' := by
  unfold partAnswer at h
  split at h
  · rename_i bytes hp
    split at h
    · rename_i hb
      cases h
      exact .nothing (hb ▸ hp)
    · rename_i hb
      cases h
      exact .frame bytes _ hp hb (by simp)
  · split at h
    · cases h
    · rename_i ts hts
      dsimp only at h
      split at h
      · rename_i hw
        cases h
        refine .access _ (by rw [hts, answeredAll_fst]) (answeredAll_fits_of ht hr _ _) fun w e hc => ?_
        rw [hc] at hw ⊢
        simpa using hw
      · cases h

/-- The parts of a bring-up, one after another. -/
def partsAnswer (c : Cfg) : Caches → List BringupPart → Option (List RxItem × List Event × Caches)
  | k, [] => some ([], [], k)
  | k, p :: ps =>
    match partAnswer c k p with
    | none => none
    | some (script, es, k') => (partsAnswer c k' ps).map fun r => (script ++ r.1, es ++ r.2.1, r.2.2)

theorem partsAnswer_done {c : Cfg} (ht : c.trnConf = 0) (hr : c.rdIdleConf = 0) {ps : List BringupPart} {k k' : Caches}
    {script : List RxItem} {es : List Event} (h : partsAnswer c k ps = some (script, es, k')) :
    PartsDone c k ps script es k' := by
  induction ps generalizing k script es with
  | nil =>
    cases h
    exact .nil _
  | cons p ps ih =>
    unfold partsAnswer at h
    split at h
    · cases h
    · rename_i s₁ e₁ k₁ hp
      obtain ⟨⟨s₂, e₂, k₂⟩, h2, h3⟩ := Option.map_eq_some_iff.mp h
      cases h3
      exact .cons (partAnswer_done ht hr hp) (ih h2)

/-- What the transport answers to the first `n` parts of a bring-up. -/
theorem parts_before {c : Cfg} {k : Caches} {n : Nat} (ht : c.trnConf = 0) (hr : c.rdIdleConf = 0)
    (h : (partsAnswer c (none, none) ((bringupParts c).take n)).map (fun r => r.2.2) = some k) :
    ∃ script es, PartsDone c (none, none) ((bringupParts c).take n) script es k := by
  obtain ⟨⟨script, es, k'⟩, h1, h2⟩ := Option.map_eq_some_iff.mp h
  cases h2
  exact ⟨script, es, partsAnswer_done ht hr h1⟩

/-- With the defaults, and with other parameters. -/
theorem witness_BringupReachesReady :
    ((scripted none none (bringupAnswers 12 0)).cfg = Cfg.default ∧ (scripted none none (bringupAnswers 12 0)).por = [] ∧
      (bringupAnswers 12 0).map Prod.fst = bringupTxns ∧ (∀ x ∈ bringupAnswers 12 0, replyFits Cfg.default x) ∧
      (∀ p ∈ (bringupAnswers 12 0).zip bringupWants, wordWanted p) ∧
      (scripted none none (bringupAnswers 12 0)).rx = scriptOf (bringupAnswers 12 0) ++ []) ∧
    ∀ c ∈ [Cfg.default, otherConfig], ∃ (s : State) (script : List RxItem) (es : List Event), s.cfg = c ∧ s.por = [] ∧
      PartsDone s.cfg (none, none) (bringupParts s.cfg) script es (some 0, none) ∧ s.rx = script ++ [] := by
  refine ⟨⟨rfl, rfl, by decide, bringupAnswers_fit 12 0, ?_, (List.append_nil _).symm⟩, fun c hc => ?_⟩
  · simp [bringupAnswers, bringupTxns, bringupWants, wordWanted, reply]
  · simp only [List.mem_cons, List.not_mem_nil, or_false] at hc
    rcases hc with rfl | rfl
    · obtain ⟨script, es, h⟩ := parts_before (c := Cfg.default) (n := 12) (k := (some 0, none)) rfl rfl (by decide +kernel)
      exact ⟨{ State.reset with rx := script }, script, es, rfl, rfl, h, (List.append_nil _).symm⟩
    · obtain ⟨script, es, h⟩ := parts_before (c := otherConfig) (n := 12) (k := (some 0, none)) rfl rfl (by decide +kernel)
      exact ⟨{ State.reset with cfg := otherConfig, rx := script }, script, es, rfl, rfl, h, (List.append_nil _).symm⟩

/-- Some state meets the premises with this configuration, error and last completed step. -/
def BringupCanFail (c : Cfg) (e : ErrorKind) (b : BuState) : Prop :=
  ∃ (s : State) (script : List RxItem) (es : List Event) (k : Caches), s.cfg = c ∧ s.por = [] ∧ PartsFail s.cfg (none, none) (bringupParts s.cfg) script es e b k ∧
    s.rx = script ++ []

theorem canFail_at {c : Cfg} {n : Nat} {qs : List BringupPart} {p : BringupPart} {k k' : Caches} {s₂ : List RxItem}
    {e₂ : List Event} {e : ErrorKind} (ht : c.trnConf = 0) (hr : c.rdIdleConf = 0)
    (hk : (partsAnswer c (none, none) ((bringupParts c).take n)).map (fun r => r.2.2) = some k)
    (hd : (bringupParts c).drop n = p :: qs) (hf : PartFails c k p s₂ e₂ e k') : BringupCanFail c e p.last := by
  obtain ⟨s₁, e₁, h⟩ := parts_before ht hr hk
  have key : ∀ {k₀ k₁ s₁ e₁} {ps : List BringupPart}, PartsDone c k₀ ps s₁ e₁ k₁ → PartFails c k₁ p s₂ e₂ e k' →
      PartsFail c k₀ (ps ++ p :: qs) (s₁ ++ s₂) (e₁ ++ e₂) e p.last k' := by
    intro k₀ k₁ s₁ e₁ ps h hf
    induction h with
    | nil => exact .here hf
    | cons hp _ ih => simpa using PartsFail.later hp (ih hf)
  have hs : bringupParts c = (bringupParts c).take n ++ p :: qs := by rw [← hd, List.take_append_drop]
  have h' := key h hf
  rw [← hs] at h'
  exact ⟨{ State.reset with cfg := c, rx := s₁ ++ s₂ }, _, _, _, rfl, rfl, h', (List.append_nil _).symm⟩

/-- The `i`-th transaction of the access at part `n` of a bring-up with the defaults fails, those before it answered. -/
theorem canFail_transport {n : Nat} {qs : List BringupPart} {p : BringupPart} {k : Caches} {ts later : List Txn} {t : Txn}
    (st : Stop) (hk : (partsAnswer Cfg.default (none, none) ((bringupParts Cfg.default).take n)).map (fun r => r.2.2) = some k)
    (hd : (bringupParts Cfg.default).drop n = p :: qs) (hT : partTxns Cfg.default k p.run = some (ts ++ t :: later))
    (hst : stopFits Cfg.default (t, reply 0 (if t.isRead then [] else [0x08, 0x09])) st) :
    BringupCanFail Cfg.default (stopError st) p.last :=
  canFail_at rfl rfl hk hd (.transport (answeredAll 0 ts) _ st later (by rw [answeredAll_fst]; exact hT)
    (answeredAll_fits 0 ts) (answeredAll_fits 0 [t] _ (by simp [answeredAll])) hst)

/-- Every raw frame without its confirmation (R212 to R215); every access whose first transaction is not acknowledged (B2
the first of them), B6, and the last transaction of all; every word that is checked, with another (B1, B3 to B5); and a
table that holds no register. -/
theorem witness_BringupStopsAtTheFailedCheck :
    (∀ b ∈ [BuState.idle, .lineReset1, .protocolSwitch, .lineReset2],
      BringupCanFail { otherConfig with modeswitchBytes := [0x00] } .timeout b) ∧
    (∀ b ∈ [BuState.modeSwitch, .idCodeCheck, .abortCleared, .apBankSelected, .ctrlStatNegotiated, .idrValidated],
      BringupCanFail Cfg.default .ackMismatch b) ∧
    (∀ b ∈ [BuState.abortCleared, .idrValidated], BringupCanFail Cfg.default .timeout b) ∧
    (∀ x ∈ [(ErrorKind.unexpectedIdCode, BuState.modeSwitch), (.unexpectedCtrlStat, .apBankSelected),
      (.unexpectedIdr, .ctrlStatNegotiated), (.unexpectedCsw, .idrValidated)], BringupCanFail Cfg.default x.1 x.2) ∧
    BringupCanFail { Cfg.default with regtab := [] } .unknownRegister .modeSwitch := by
  refine ⟨fun b hb => ?_, fun b hb => ?_, fun b hb => ?_, fun x hx => ?_, ?_⟩
  · have raw : ∀ n p qs, (partsAnswer { otherConfig with modeswitchBytes := [0x00] } (none, none)
        ((bringupParts { otherConfig with modeswitchBytes := [0x00] }).take n)).map (fun r => r.2.2) = some (none, none) →
        (bringupParts { otherConfig with modeswitchBytes := [0x00] }).drop n = p :: qs →
        (∃ bytes, p.run = .rawsend bytes ∧ bytes ≠ []) →
        BringupCanFail { otherConfig with modeswitchBytes := [0x00] } .timeout p.last := fun n p qs hk hd ⟨bytes, h1, h2⟩ =>
      canFail_at rfl rfl hk hd (.frame bytes [] h1 h2 (by decide))
    simp only [List.mem_cons, List.not_mem_nil, or_false] at hb
    rcases hb with rfl | rfl | rfl | rfl
    · exact raw 0 _ _ (by decide +kernel) rfl ⟨_, rfl, by decide⟩
    · exact raw 1 _ _ (by decide +kernel) rfl ⟨_, rfl, by decide⟩
    · exact raw 2 _ _ (by decide +kernel) rfl ⟨_, rfl, by decide⟩
    · exact raw 3 _ _ (by decide +kernel) rfl ⟨_, rfl, by decide⟩
  · have ack : ∀ x : Txn × Reply, stopFits Cfg.default x (.ackMismatch [1, 1, 0]) := fun x => by
      simp only [stopFits]
      decide
    have go : ∀ n p qs k t later, (partsAnswer Cfg.default (none, none) ((bringupParts Cfg.default).take n)).map
        (fun r => r.2.2) = some k → (bringupParts Cfg.default).drop n = p :: qs →
        partTxns Cfg.default k p.run = some (t :: later) → BringupCanFail Cfg.default .ackMismatch p.last :=
      fun n p qs k t later hk hd hT => canFail_transport (ts := []) (.ackMismatch [1, 1, 0]) hk hd hT (ack _)
    simp only [List.mem_cons, List.not_mem_nil, or_false] at hb
    rcases hb with rfl | rfl | rfl | rfl | rfl | rfl
    · exact go 4 _ _ (none, none) _ _ (by decide +kernel) rfl rfl
    · exact go 5 _ _ (none, none) _ _ (by decide +kernel) rfl rfl
    · exact go 6 _ _ (none, none) _ _ (by decide +kernel) rfl rfl
    · exact go 8 _ _ (some 0, none) _ _ (by decide +kernel) rfl rfl
    · exact go 9 _ _ (some 0, none) _ _ (by decide +kernel) rfl rfl
    · exact go 10 _ _ (some 0xF0, none) _ _ (by decide +kernel) rfl rfl
  · simp only [List.mem_cons, List.not_mem_nil, or_false] at hb
    rcases hb with rfl | rfl
    · exact canFail_transport (n := 6) (k := (none, none)) (ts := []) (later := []) (t := .write false 2 0) (.finTimeout [])
        (by decide +kernel) rfl (by decide) (by simp [stopFits, finCount])
    · exact canFail_transport (n := 11) (k := (some 0, none)) (ts := [.read true 0]) (later := []) (t := .read false 3)
        .parityTimeout (by decide +kernel) rfl (by decide) rfl
  · have go : ∀ n p qs k ts w e, (partsAnswer Cfg.default (none, none) ((bringupParts Cfg.default).take n)).map
        (fun r => r.2.2) = some k → (bringupParts Cfg.default).drop n = p :: qs → partTxns Cfg.default k p.run = some ts →
        p.check = some (w, e) → lastWord (answeredAll 0 ts) ≠ some w → BringupCanFail Cfg.default e p.last :=
      fun n p qs k ts w e hk hd hT hc hw => canFail_at rfl rfl hk hd
        (.word (answeredAll 0 ts) w e hc (by rw [answeredAll_fst]; exact hT) (answeredAll_fits 0 ts) hw)
    simp only [List.mem_cons, List.not_mem_nil, or_false] at hx
    rcases hx with rfl | rfl | rfl | rfl
    · exact go 4 _ _ (none, none) _ _ _ (by decide +kernel) rfl rfl rfl (by decide)
    · exact go 8 _ _ (some 0, none) _ _ _ (by decide +kernel) rfl rfl rfl (by decide)
    · exact go 9 _ _ (some 0, none) _ _ _ (by decide +kernel) rfl rfl rfl (by decide)
    · exact go 11 _ _ (some 0, none) _ _ _ (by decide +kernel) rfl rfl rfl (by decide)
  · exact canFail_at (n := 4) (k := (none, none)) rfl rfl (by decide +kernel) rfl (.unknown 0 (.inl rfl) rfl)

theorem witness_BringupEndsReadyOrDead : deadState.por = [] ∧ State.reset.por = [] := ⟨rfl, rfl⟩

theorem witness_DumpRefusedUnlessReady : deadState.sess_dead = true ∧ State.reset.bu_state ≠ .ready := by decide

/-- A page every word of which is `w`. -/
def pageOf (w : Word) (bank : Option Word) (addr : Word) : List (Txn × Reply) :=
  answeredAll w (pageTxns Cfg.default bank addr)

theorem default_dumpable : dumpable Cfg.default := by
  constructor <;> decide

/-- An erased page and one that is not. -/
theorem erased_pages : allErased (pageBytesOf Cfg.default (pageOf 0xFFFFFFFF (some 0) 0x400)) = true ∧
    allErased (pageBytesOf Cfg.default (pageOf 0xFFFFFFFF (some 0) 0)) = true ∧
    allErased (pageBytesOf Cfg.default (pageOf 0x12345678 (some 0) 0)) = false := by decide +kernel

/-- Both clauses: a page of data and an erased one. -/
theorem witness_DumpReadsTheFirstPage (w : Word) :
    let s := readyState (scriptOf (pageOf w (some 0) 0))
    AtRest s ∧ Usable s ∧ s.bu_state = .ready ∧ dumpable s.cfg ∧
    (pageOf w (some 0) 0).map Prod.fst = pageTxns s.cfg s.bank s.cfg.flashStart ∧
    (∀ x ∈ pageOf w (some 0) 0, replyFits s.cfg x) ∧ s.rx = scriptOf (pageOf w (some 0) 0) ++ [] :=
  ⟨⟨rfl, rfl, rfl, rfl, rfl, rfl, rfl, rfl⟩, ⟨rfl, rfl⟩, rfl, default_dumpable, answeredAll_fst .., answeredAll_fits _ _,
    (List.append_nil _).symm⟩

theorem witness_DumpReadsTheNextPage (w : Word) :
    let s : State := { readyState (scriptOf (pageOf w (some 0) 0x400)) with
      fd_busy := true, fd_addr := some 0x400, fd_image := List.replicate 1024 0x00 }
    AtRest s ∧ Usable s ∧ s.cfg.wellFormed = true ∧ s.fd_busy = true ∧ s.fd_addr = some 0x400 ∧ dumpable s.cfg ∧
    (pageOf w (some 0) 0x400).map Prod.fst = pageTxns s.cfg s.bank 0x400 ∧
    (∀ x ∈ pageOf w (some 0) 0x400, replyFits s.cfg x) ∧ s.rx = scriptOf (pageOf w (some 0) 0x400) ++ [] :=
  ⟨⟨rfl, rfl, rfl, rfl, rfl, rfl, rfl, rfl⟩, ⟨rfl, rfl⟩, test_default_config, rfl, rfl, default_dumpable, answeredAll_fst ..,
    answeredAll_fits _ _, (List.append_nil _).symm⟩

/-- A page of data, then an erased one. -/
theorem witness_WholeDumpIsTheTrimmedPages :
    let pages := [pageOf 0x12345678 (some 0) 0]
    let last := pageOf 0xFFFFFFFF (some 0) 0x400
    let s : State := { readyState (scriptOf (pages.flatten ++ last)) with port := [.command 0x50000000000#44] }
    AtRest s ∧ Usable s ∧ s.cfg.wellFormed = true ∧ s.fd_busy = false ∧ s.bu_state = .ready ∧ dumpable s.cfg ∧
    s.port = .command 0x50000000000#44 :: [] ∧
    (∀ k p, (pages ++ [last])[k]? = some p → (∀ x ∈ p, replyFits s.cfg x) ∧
      p.map Prod.fst = pageTxns s.cfg (if k = 0 then s.bank else bankAfterPage s.cfg)
        (s.cfg.flashStart + 1024#32 * BitVec.ofNat 32 k)) ∧
    (∀ p ∈ pages, allErased (pageBytesOf s.cfg p) = false) ∧ allErased (pageBytesOf s.cfg last) = true ∧
    s.rx = scriptOf (pages.flatten ++ last) ++ [] := by
  refine ⟨⟨rfl, rfl, rfl, rfl, rfl, rfl, rfl, rfl⟩, ⟨rfl, rfl⟩, by decide, rfl, rfl, default_dumpable, rfl, ?_, ?_,
    erased_pages.1, (List.append_nil _).symm⟩
  · intro k p hk
    match k, hk with
    | 0, hk =>
      cases hk
      exact ⟨answeredAll_fits _ _, answeredAll_fst ..⟩
    | 1, hk =>
      cases hk
      exact ⟨answeredAll_fits _ _, answeredAll_fst ..⟩
    | k + 2, hk => simp at hk
  · intro p hp
    simp only [List.mem_singleton] at hp
    subst hp
    exact erased_pages.2.2

theorem witness_TrimDropsTheTailAndOneByte : (0x12#8 ≠ 0xFF#8) ∧ trim ([0x11, 0x34] ++ [0x12#8] ++ List.replicate 0 0xFF#8) =
    [0x11, 0x34] := by decide

/-- A silent transport, at the first page and at a later one. -/
theorem witness_FailedDumpLeavesNoImage :
    (∃ s t, AtRest s ∧ s.sess_dead = false ∧ exec .dump s = .next t ∧ t.sess_dead = true) ∧
    ∃ s t, AtRest s ∧ s.sess_dead = false ∧ s.fd_busy = true ∧ s.fd_addr ≠ none ∧ step s = .next t ∧
      t.sess_dead = true := by
  constructor
  · have h : nextField (exec .dump (readyState [])) (fun t => t.sess_dead) = some true := by decide +kernel
    obtain ⟨t, h1, h2⟩ := next_of_field h
    exact ⟨_, t, ⟨rfl, rfl, rfl, rfl, rfl, rfl, rfl, rfl⟩, rfl, h1, h2⟩
  · have h : nextField (step { readyState [] with fd_busy := true, fd_addr := some 0x400 }) (fun t => t.sess_dead) =
        some true := by decide +kernel
    obtain ⟨t, h1, h2⟩ := next_of_field h
    exact ⟨_, t, ⟨rfl, rfl, rfl, rfl, rfl, rfl, rfl, rfl⟩, rfl, rfl, by simp, h1, h2⟩

theorem witness_DumpWithoutItsRegistersIsUnknown :
    ∃ s, AtRest s ∧ s.sess_dead = false ∧ s.bu_state = .ready ∧ ¬ dumpable s.cfg := by
  refine ⟨{ readyState [] with cfg := { Cfg.default with regtab := [(6, ⟨0x004, .ap⟩)] } },
    ⟨rfl, rfl, rfl, rfl, rfl, rfl, rfl, rfl⟩, rfl, rfl, fun h => ?_⟩
  exact absurd h.2 (by decide)

/-- Has an operation been ended? -/
def hasEnded {α : Type} : Res α → Bool
  | .ended _ => true
  | .done _ _ => false
  | .halted _ => false

theorem ended_of_bool {α : Type} {r : Res α} (h : hasEnded r = true) : ∃ t, r = .ended t := by
  cases r with
  | ended t => exact ⟨t, rfl⟩
  | done a t => simp [hasEnded] at h
  | halted x => simp [hasEnded] at h

theorem witness_RaiseRecordsAndEnds :
    (∃ s t, (raise .timeout : Op Unit) s = .ended t) ∧ (∃ s t, (raise .timeout : Op (Option Word)) s = .ended t) ∧
    ∃ s t, readPage s = .ended t := by
  refine ⟨⟨State.reset, _, rfl⟩, ⟨State.reset, _, rfl⟩, ?_⟩
  have h : hasEnded (readPage { readyState [] with fd_addr := some 0 }) = true := by decide +kernel
  obtain ⟨t, ht⟩ := ended_of_bool h
  exact ⟨_, t, ht⟩

theorem witness_DeathLeavesItsCode :
    ∃ s t, AtRest s ∧ s.sess_dead = false ∧ exec (.rd 12) s = .next t ∧ t.sess_dead = true := by
  have h : nextField (exec (.rd 12) (scripted (some 0) none [])) (fun t => t.sess_dead) = some true := by decide +kernel
  obtain ⟨t, h1, h2⟩ := next_of_field h
  exact ⟨_, t, rest_scripted .., rfl, h1, h2⟩

/-- A state with an instruction at its port. -/
theorem witness_EveryInstructionAnswers : AtRest idrRead ∧ Coherent { deadState with port := [.request 0xA5 0] } ∧
    { deadState with port := [.request 0xA5 0] }.cfg.wellFormed = true ∧
    ∀ f rest, { deadState with port := [.request 0xA5 0] }.port = f :: rest → ∃ i, decode f = .ok i := by
  refine ⟨rest_scripted .., ⟨⟨rfl, rfl, rfl, rfl, rfl, rfl, rfl, rfl⟩, by decide, by decide, by decide, by decide⟩,
    by decide, fun f rest h => ?_⟩
  cases h
  exact ⟨.dprd0, by decide⟩

/-- A step of a dump in progress, and of a dead session. -/
theorem witness_StepKeepsCoherence :
    (Coherent dumping ∧ ∃ t, step dumping = .next t ∧ t.sess_dead = true) ∧ Coherent deadState ∧
    ∃ t, step deadState = .next t ∧ t.sess_dead = true := by
  have h : nextField (step dumping) (fun t => t.sess_dead) = some true := by decide +kernel
  have h' : nextField (step deadState) (fun t => t.sess_dead) = some true := by decide +kernel
  exact ⟨⟨dumping_coherent, next_of_field h⟩, deadState_coherent, next_of_field h'⟩

theorem witness_ConfigurationIsNeverWritten :
    (∃ t, step dumping = .next t ∧ t.sess_dead = true) ∧ ∃ t, exec (.wr 3 5) idrRead = .next t ∧ t.cfg = Cfg.default := by
  have h : nextField (step dumping) (fun t => t.sess_dead) = some true := by decide +kernel
  have h' : nextField (exec (.wr 3 5) idrRead) (fun t => t.cfg) = some Cfg.default := by decide +kernel
  exact ⟨next_of_field h, next_of_field h'⟩

theorem witness_EveryRecvIsGuarded : Coherent dumping ∧ ∃ t, step dumping = .next t ∧ t.events.length = 3 := by
  have h : nextField (step dumping) (fun t => t.events.length) = some 3 := by decide +kernel
  exact ⟨dumping_coherent, next_of_field h⟩

end Sys2Proof.Tests
end

