-- ==== Sys2Proof/Proofs/StateReset.lean ====
section
/-! The reset values of the state table (10_state.md R39), which power-on reset and the session start share. -/

namespace Sys2Proof.Machine

/-- The session start's assignments over the state before it; the latches' part is `clearLatches`. -/
theorem sessionStart_eq_assignments (s : State) :
    sessionStart s = { s with
      bank := none, tar := none, sess_dead := false, err_code := none, bu_state := .idle, t_phase := .idle,
      t_addr := none, t_apndp := none, t_rnw := none, t_par := none, t_hdr := none, t_val := none, t_vpar := none,
      fd_addr := none, fd_image := [], fd_busy := false, rsp_status := .ok, rsp_rdata := none } := rfl

/-- The two columns of the table agree: a session start finds nothing to change in the reset state. -/
theorem sessionStart_reset : sessionStart State.reset = State.reset := rfl

/-- `SRESET` is the session start alone, in every session state (44_register_router.md R200). -/
@[simp] theorem exec_sreset (s : State) : exec .sreset s = .next (sessionStart s) := rfl

/-- Settles O18: the reset state has the values of a session start, and `SRESET` makes the session start's assignments. -/
theorem resetValuesOfTheTable : Obligations.ResetValuesOfTheTable := by
  unfold Obligations.ResetValuesOfTheTable
  constructor
  · rw [← sessionStart_reset]
    simp
  · intro s
    rw [exec_sreset, sessionStart_eq_assignments]

end Sys2Proof.Machine
end

