-- ==== Sys2Proof/Proofs/TurnedAway.lean ====
section
/-! The commands that end before any transaction: a reserved opcode is refused, and an Id the table does not hold kills
the session (30_encoding.md R96). -/

namespace Sys2Proof.Machine

/-- A reserved opcode has one meaning, the refusal. -/
theorem exec_of_isReserved {i : Instr} (h : isReserved i = true) (s : State) : exec i s = .next (refuse s) := by
  cases i with
  | reserved0 | reserved6 | reserved7 | reservedD | reservedE | reservedF => rfl
  | _ => nomatch h

/-- The reserved opcodes of the command map (30_encoding.md R93); the Id and the data field are ignored (R92). -/
theorem decodeCommand_reserved (id : BitVec 8) (w : Word) :
    decodeCommand (0x0#4 ++ id ++ w) = .reserved0 ∧ decodeCommand (0x6#4 ++ id ++ w) = .reserved6 ∧
    decodeCommand (0x7#4 ++ id ++ w) = .reserved7 ∧ decodeCommand (0xD#4 ++ id ++ w) = .reservedD ∧
    decodeCommand (0xE#4 ++ id ++ w) = .reservedE ∧ decodeCommand (0xF#4 ++ id ++ w) = .reservedF := by
  unfold decodeCommand
  simp only [command_op]
  exact ⟨rfl, rfl, rfl, rfl, rfl, rfl⟩

/-- A checked command of a usable session that raises has `raise`'s state as its next state (60_exceptions.md R270). -/
theorem runChecked_of_ended {m : Op (Option Word)} {s t : State} (ha : s.sess_dead = false) (h : m s = .ended t) :
    runChecked m s = .next t := by
  rw [runChecked_alive ha, runCommand_of_ended h]

/-- `RD` of an Id that is not in the table (44_register_router.md R171): nothing is sent. -/
theorem exec_rd_of_unknown {s : State} {id : BitVec 8} (ha : s.sess_dead = false)
    (h : lookup s.cfg.regtab id = none) : exec (.rd id) s = .next (raised .unknownRegister s) :=
  runChecked_of_ended ha (andThen_of_ended (readReg_of_unknown h))

/-- `WR` of an Id that is not in the table (44_register_router.md R171): nothing is sent. -/
theorem exec_wr_of_unknown {s : State} {id : BitVec 8} {v : Word} (ha : s.sess_dead = false)
    (h : lookup s.cfg.regtab id = none) : exec (.wr id v) s = .next (raised .unknownRegister s) :=
  runChecked_of_ended ha (andThen_of_ended (writeReg_of_unknown h))

/-- Settles O9: a reserved opcode only refuses, whatever the command's other fields, and `RD` and `WR` of an unknown Id
end in the resolution of the Id. -/
theorem reservedAndUnknownAreTurnedAway : Obligations.ReservedAndUnknownAreTurnedAway := by
  unfold Obligations.ReservedAndUnknownAreTurnedAway
  refine ⟨fun i s hi => exec_of_isReserved hi s, decodeCommand_reserved, ?_⟩
  rintro id v s i (rfl | rfl) ha hid
  · exact exec_rd_of_unknown ha hid
  · exact exec_wr_of_unknown ha hid

end Sys2Proof.Machine
end

