-- ==== Sys2Proof/Proofs/BitFramer.lean ====
section
/-! The BitFramer's three operations (40_bitframer.md): what each computes, bit by bit, and what it does as a host
command (30_encoding.md R93). -/

namespace Sys2Proof.Machine

/-! The commands: each responds and touches nothing else. -/

theorem exec_revb (b : Byte) (s : State) :
    exec (.revb b) s = .next (respond (some ((revb b).zeroExtend 32)) s) := rfl

theorem exec_wpar (w : Word) (s : State) : exec (.wpar w) s = .next (respond (some (bitWord (wpar w))) s) := rfl

theorem exec_hpar (a : BitVec 2) (apndp rnw : Bool) (s : State) :
    exec (.hpar a apndp rnw) s = .next (respond (some (bitWord (hpar a apndp rnw))) s) := rfl

/-- A response bit is the word 1 or 0. -/
theorem bitWord_eq_ite (b : Bool) : bitWord b = if b then 1#32 else 0#32 := by
  cases b <;> rfl

/-! The command words (30_encoding.md R92, R93): the opcode selects the row, and the operand is a field of
`cmd_wdata`. -/

theorem decodeCommand_revb (id : BitVec 8) (w : Word) :
    decodeCommand (0x8#4 ++ id ++ w) = .revb (w.extractLsb' 0 8) := by
  simp (disch := omega) only [decodeCommand, command_op, command_field, BitVec.reduceToNat]

theorem decodeCommand_wpar (id : BitVec 8) (w : Word) : decodeCommand (0x9#4 ++ id ++ w) = .wpar w := by
  simp only [decodeCommand, command_op, command_wdata, BitVec.reduceToNat]

theorem decodeCommand_hpar (id : BitVec 8) (w : Word) :
    decodeCommand (0xA#4 ++ id ++ w) = .hpar (w.extractLsb' 0 2) (w.getLsbD 2) (w.getLsbD 3) := by
  simp (disch := omega) only [decodeCommand, command_op, command_field, command_bit, BitVec.reduceToNat]

/-! `WPAR`: the fold over the word's bits, its count of ones, and its laws (R111). -/

/-- Each further bit that is set turns the parity of the count over. -/
theorem xorBits_eq_countP (w : Word) (n : Nat) :
    xorBits w n = decide (((List.range n).countP fun i => w.getLsbD i) % 2 = 1) := by
  induction n with
  | zero => rfl
  | succ n ih =>
    rw [xorBits, ih, List.range_succ, List.countP_append, List.countP_singleton]
    cases w.getLsbD n with
    | false => simp
    | true =>
      simp only [Bool.xor_true, ← decide_not, if_true, decide_eq_decide]
      omega

/-- The fold is linear, because each bit of `x ^ y` is. -/
theorem xorBits_xor (x y : Word) (n : Nat) : xorBits (x ^^^ y) n = (xorBits x n ^^ xorBits y n) := by
  induction n with
  | zero => rfl
  | succ n ih =>
    rw [xorBits, xorBits, xorBits, ih, BitVec.getLsbD_xor]
    simp only [Bool.xor_assoc, Bool.xor_left_comm]

/-- The word with one bit set has odd parity as soon as the fold has passed that bit. -/
theorem xorBits_bit (k : Nat) {n : Nat} (hn : n ≤ 32) : xorBits (1#32 <<< k) n = decide (k < n) := by
  induction n with
  | zero => rfl
  | succ n ih =>
    have bit : (1#32 <<< k).getLsbD n = decide (k = n) := by
      rw [← BitVec.twoPow_eq, BitVec.getLsbD_twoPow, ← Bool.decide_and, decide_eq_decide]
      omega
    rw [xorBits, ih (by omega), bit]
    grind

theorem wpar_xor (x y : Word) : wpar (x ^^^ y) = (wpar x ^^ wpar y) := xorBits_xor x y 32

/-- The single-bit flip is linearity at a word of one bit. -/
theorem wpar_flip (w : Word) {k : Nat} (hk : k < 32) : wpar (w ^^^ (1#32 <<< k)) = !wpar w := by
  have bit : wpar (1#32 <<< k) = true := by
    rw [wpar, xorBits_bit k (by omega), decide_eq_true hk]
  rw [wpar_xor, bit, Bool.xor_true]

/-- Settles O2: the fold counts the ones modulo 2 and is linear, which gives the single-bit flip. -/
theorem wparFoldsTheWord : Obligations.WparFoldsTheWord := by
  unfold Obligations.WparFoldsTheWord
  refine ⟨fun w => xorBits_eq_countP w 32, fun w k hk => wpar_flip w hk, wpar_xor, fun w s => ?_,
    decodeCommand_wpar, by decide, by decide, by decide, by decide, by decide, by decide⟩
  rw [exec_wpar, bitWord_eq_ite, respond]

/-! `REVB`: the mirrored bits (R110). -/

/-- The bits of an assembled byte, from bit 0 up. Its width is written as the sum that the concatenations have, for the
library's lemma on a bit of a concatenation to apply. -/
theorem getLsbD_byteOfBits (b7 b6 b5 b4 b3 b2 b1 b0 : Bool) (i : Nat) :
    (byteOfBits b7 b6 b5 b4 b3 b2 b1 b0).getLsbD i = [b0, b1, b2, b3, b4, b5, b6, b7].getD i false := by
  match i with
  | 0 | 1 | 2 | 3 | 4 | 5 | 6 | 7 =>
    change BitVec.getLsbD (w := 1 + 1 + 1 + 1 + 1 + 1 + 1 + 1) _ _ = _
    simp only [byteOfBits, BitVec.getLsbD_append, BitVec.getLsbD_ofBool]
    simp
  | i + 8 => simp

/-- Bit `i` of the mirrored byte is bit `7 - i` of the byte. -/
theorem getLsbD_revb (b : Byte) {i : Nat} (hi : i < 8) : (revb b).getLsbD i = b.getLsbD (7 - i) := by
  rw [revb, getLsbD_byteOfBits]
  match i with
  | 0 | 1 | 2 | 3 | 4 | 5 | 6 | 7 => rfl
  | i + 8 => omega

/-- Mirroring twice is the identity: `7 - (7 - i) = i`. -/
theorem revb_revb (b : Byte) : revb (revb b) = b := by
  apply BitVec.eq_of_getLsbD_eq
  intro i hi
  rw [getLsbD_revb _ hi, getLsbD_revb _ (by omega), show 7 - (7 - i) = i by omega]

/-- Settles O1: the bit map gives the involution; the named bytes are evaluated. -/
theorem revbMirrorsTheByte : Obligations.RevbMirrorsTheByte := by
  unfold Obligations.RevbMirrorsTheByte
  refine ⟨fun b i hi => getLsbD_revb b hi, revb_revb, fun b s => ?_, decodeCommand_revb,
    by decide, by decide, by decide, by decide, by decide⟩
  rw [exec_revb, respond]

/-! `HPAR`: the printed table and its index (R112, R113). -/

/-- The index `{rnw, apndp, a}` as a number. -/
theorem hparIndex_eq (a : BitVec 2) (apndp rnw : Bool) :
    hparIndex a apndp rnw = 8 * rnw.toNat + 4 * apndp.toNat + a.toNat := by
  revert a
  cases apndp <;> cases rnw <;> decide

/-- The table and the exclusive or agree at all sixteen inputs. -/
theorem hparTable_hparIndex (a : BitVec 2) (apndp rnw : Bool) :
    hparTable[hparIndex a apndp rnw]? = some (hpar a apndp rnw) := by
  revert a
  cases apndp <;> cases rnw <;> decide

/-- Settles O3: `HPAR` is defined as the exclusive or; its agreement with the table is over the sixteen inputs. -/
theorem hparIsTheFourBitXor : Obligations.HparIsTheFourBitXor := by
  unfold Obligations.HparIsTheFourBitXor
  refine ⟨fun _ _ _ => rfl, hparTable_hparIndex, rfl, hparIndex_eq, fun a apndp rnw s => ?_,
    decodeCommand_hpar, rfl, rfl, rfl⟩
  rw [exec_hpar, bitWord_eq_ite, respond]

end Sys2Proof.Machine
end

