-- ==== Sys2Proof/Proofs/RequestEncoder.lean ====
section
/-! The request encoder (41_request_encoder.md): the bits of a header, what they fix and what they determine, and
`ENCHDR` as a host command (30_encoding.md R93). -/

namespace Sys2Proof.Machine

theorem exec_enchdr (a : BitVec 2) (apndp rnw : Bool) (s : State) : exec (.enchdr a apndp rnw) s =
    .next (respond (some (0x0000#16 ++ wireByte a apndp rnw ++ header a apndp rnw)) s) := rfl

/-- The bits of a header from bit 0 up: park, stop, parity, address, read, AP, start (30_encoding.md R82). -/
theorem getLsbD_header (a : BitVec 2) (apndp rnw : Bool) (i : Nat) : (header a apndp rnw).getLsbD i =
    [true, false, hpar a apndp rnw, a.getLsbD 1, a.getLsbD 0, rnw, apndp, true].getD i false :=
  getLsbD_byteOfBits ..

/-- Bits 6 to 3 of a header are its operands. -/
theorem header_inj {a a' : BitVec 2} {apndp apndp' rnw rnw' : Bool} (h : header a apndp rnw = header a' apndp' rnw') :
    a = a' ∧ apndp = apndp' ∧ rnw = rnw' := by
  have bit (i : Nat) := congrArg (BitVec.getLsbD · i) h
  simp only [getLsbD_header] at bit
  refine ⟨BitVec.eq_of_getLsbD_eq fun i hi => ?_, bit 6, bit 5⟩
  match i with
  | 0 => exact bit 4
  | 1 => exact bit 3

/-- A wire byte is its header mirrored, and mirroring is an involution (40_bitframer.md R110). -/
theorem revb_wireByte (a : BitVec 2) (apndp rnw : Bool) : revb (wireByte a apndp rnw) = header a apndp rnw :=
  revb_revb _

theorem wireByte_inj {a a' : BitVec 2} {apndp apndp' rnw rnw' : Bool}
    (h : wireByte a apndp rnw = wireByte a' apndp' rnw') : a = a' ∧ apndp = apndp' ∧ rnw = rnw' := by
  have mirrored := congrArg revb h
  rw [revb_wireByte, revb_wireByte] at mirrored
  exact header_inj mirrored

/-- The mask `0x83` keeps the start, stop and park bits, which no operand enters. -/
theorem header_fixed_bits (a : BitVec 2) (apndp rnw : Bool) : header a apndp rnw &&& 0x83#8 = 0x81#8 := by
  apply BitVec.eq_of_getLsbD_eq
  intro i hi
  rw [BitVec.getLsbD_and, getLsbD_header]
  match i with
  | 0 | 1 | 7 => rfl
  | 2 | 3 | 4 | 5 | 6 => exact Bool.and_false _

/-- Bit 2 is the parity of bits 6 to 3 (40_bitframer.md R112), so the five bits together have even parity. -/
theorem header_even_parity (a : BitVec 2) (apndp rnw : Bool) :
    ([2, 3, 4, 5, 6].countP fun i => (header a apndp rnw).getLsbD i) % 2 = 0 := by
  simp only [getLsbD_header, hpar]
  cases a.getLsbD 0 <;> cases a.getLsbD 1 <;> cases apndp <;> cases rnw <;> rfl

/-- Settles O6: a header's bits are its operands, their parity and constants, mirroring loses nothing, and `ENCHDR`
responds with a word of its operands alone. -/
theorem headerProperties : Obligations.HeaderProperties := by
  unfold Obligations.HeaderProperties
  exact ⟨fun _ _ _ _ _ _ h => header_inj h, fun _ _ _ _ _ _ h => wireByte_inj h, header_fixed_bits,
    header_even_parity, revb_wireByte,
    fun a apndp rnw s s' => ⟨_, _, exec_enchdr a apndp rnw s, exec_enchdr a apndp rnw s', rfl⟩⟩

end Sys2Proof.Machine
end

