-- ==== Sys2Proof/Proofs/AckValidator.lean ====
section
/-! The acknowledgment validator (42_ack_validator.md): which triples it accepts, `ACKCHK` as a host command, and the
acknowledgment phase of a transaction answered with another triple. -/

namespace Sys2Proof.Machine

/-- The comparison is of whole units, so each unit is determined. -/
theorem ackOk_triple (u0 u1 u2 : Byte) :
    ackOk [u0, u1, u2] = decide (u0 = 0x01 ∧ u1 = 0x00 ∧ u2 = 0x00) := by
  rw [Bool.eq_iff_iff, decide_eq_true_iff]
  simp [ackOk, Config.ackOk]

theorem ackOk_eq_false_iff {us : List Byte} : ackOk us = false ↔ us ≠ [0x01#8, 0x00#8, 0x00#8] :=
  beq_eq_false_iff_ne

theorem exec_ackchk (u0 u1 u2 : Byte) (s : State) :
    exec (.ackchk u0 u1 u2) s = .next (respond (some (bitWord (ackOk [u0, u1, u2]))) s) := rfl

theorem decodeCommand_ackchk (id : BitVec 8) (w : Word) : decodeCommand (0xC#4 ++ id ++ w) =
    .ackchk (w.extractLsb' 0 8) (w.extractLsb' 8 8) (w.extractLsb' 16 8) := by
  simp (disch := omega) only [decodeCommand, command_op, command_field, BitVec.reduceToNat]

/-- `raise` leaves the transaction, so the phase it is raised in does not show afterwards (60_exceptions.md R270). -/
theorem raised_ran_setPhase (e : ErrorKind) (p : Phase) (es : List Event) (rx : List RxItem) (s : State) :
    raised e (ran es rx (setPhase p s)) = raised e { s with rx := rx, events := s.events ++ es } := rfl

/-- Settles O8: the accepted triple is the constant compared with, the command responds with the result of the
comparison, and the acknowledgment phase raises where the comparison fails. -/
theorem ackchkAcceptsOneTriple : Obligations.AckchkAcceptsOneTriple := by
  unfold Obligations.AckchkAcceptsOneTriple
  refine ⟨ackOk_triple, fun u0 u1 u2 s => ?_, decodeCommand_ackchk, fun u0 u1 u2 s rest hpor hrx hbad => ?_⟩
  · simp only [exec_ackchk, bitWord_eq_ite, ackOk_triple, decide_eq_true_eq, respond]
  · rw [phaseAck_mismatch hpor rfl (ackOk_eq_false_iff.mp hbad) hrx, raised_ran_setPhase]

end Sys2Proof.Machine
end

