-- ==== Sys2Proof/Proofs/TransactionHeader.lean ====
section
/-! The header phase of a transaction (43_transaction_codec.md R141): its whole next state field by field, where the two
confirmations arrive and where the time limit runs out before them. -/

namespace Sys2Proof.Machine

/-- The header phase writes its three latches and the wire's part of the state, and nothing else (R141). -/
theorem ran_setHeader_setPhase (es : List Event) (rx : List RxItem) (p : Bool) (h : Byte) (ph : Phase) (s : State) :
    ran es rx (setHeader p h (setPhase ph s)) =
      { s with t_phase := ph, t_par := some p, t_hdr := some h, rx := rx, events := s.events ++ es } := rfl

/-- `raise` after a wire exchange: the events and the units consumed stay beside its own writes (60_exceptions.md R270). -/
theorem raised_ran (e : ErrorKind) (es : List Event) (rx : List RxItem) (s : State) :
    raised e (ran es rx s) =
      { clearLatches s with
        sess_dead := true, err_code := some e, rsp_status := .error e, rsp_rdata := none, rx := rx
        events := s.events ++ es } := rfl

/-- Settles O25: the answered phase and the one timed out, each by the phase's law, with its writes laid out as fields. -/
theorem headerPhaseLatchesAndSends : Obligations.HeaderPhaseLatchesAndSends := by
  unfold Obligations.HeaderPhaseLatchesAndSends
  intro s a apndp rnw hpor ha hap hrw
  refine ⟨fun conf rest hconf hrx => ?answered, fun us rest hshort hrx => ?timedOut⟩
  case answered => rw [phaseHdr_good hpor ha hap hrw hconf hrx, ran_setHeader_setPhase]
  case timedOut => rw [phaseHdr_timeout hpor ha hap hrw hshort hrx, raised_ran]

end Sys2Proof.Machine
end

