-- ==== Sys2Proof/Proofs/RegisterRouter.lean ====
section
/-! An access that fails (44_register_router.md R184, 60_exceptions.md R271): `RD` and `WR` through the transactions of
their expansion, one of which the transport does not answer as the protocol wants. -/

namespace Sys2Proof.Machine

theorem exec_rd (id : BitVec 8) (s : State) :
    exec (.rd id) s = runChecked (andThen (readReg id) fun w => ret (some w)) s := rfl

theorem exec_wr (id : BitVec 8) (v : Word) (s : State) :
    exec (.wr id v) s = runChecked (andThen (writeReg id v) fun _ => ret none) s := rfl

/-- Only `RD` and `WR` of an Id that the table holds are accesses (30_encoding.md R99). -/
theorem accessTxns_eq_some {s : State} {i : Instr} {txns : List Txn} (h : accessTxns s i = some txns) :
    (∃ id d, i = .rd id ∧ lookup s.cfg.regtab id = some d ∧ expandRd s.cfg s.bank s.tar d = txns) ∨
    ∃ id v d, i = .wr id v ∧ lookup s.cfg.regtab id = some d ∧ expandWr s.cfg s.bank s.tar d v = txns := by
  cases i with
  | rd id =>
    obtain ⟨d, hd, hx⟩ := Option.map_eq_some_iff.mp h
    exact .inl ⟨id, d, rfl, hd, hx⟩
  | wr id v =>
    obtain ⟨d, hd, hx⟩ := Option.map_eq_some_iff.mp h
    exact .inr ⟨id, v, d, rfl, hd, hx⟩
  | _ => nomatch h

/-- `raise` inside an access begun at rest: the latches hold nothing to discard, and the caches stand as the completed
transactions left them (60_exceptions.md R271). -/
theorem raised_accessed {s : State} (hr : AtRest s) (e : ErrorKind) (es : List Event) (rx : List RxItem)
    (b t : Option Word) :
    raised e (accessed es rx s.por b t s) =
      { s with
        bank := b, tar := t
        sess_dead := true, err_code := some e, rsp_status := .error e, rsp_rdata := none
        rx := rx, events := s.events ++ es } := by
  have latches : clearLatches (accessed es rx s.por b t s) = accessed es rx s.por b t (clearLatches s) := rfl
  rw [raised, latches, clearLatches_of_atRest hr, accessed]

/-- A checked command whose operation performs `txns`, and one of them fails: the command ends there, whatever would
follow the operation. -/
theorem runChecked_stop {α : Type} {m : Op α} {K : α → Op (Option Word)} {s : State} {txns later : List Txn}
    {val : List (Txn × Reply) → α → Prop} {c : Option Word × Option Word} {xs : List (Txn × Reply)} {x : Txn × Reply}
    {st : Stop} {rest : List RxItem} (h : Performs m s txns val c) (hr : AtRest s) (hu : Usable s)
    (hx : xs.map Prod.fst ++ x.1 :: later = txns) (hxs : ∀ y ∈ xs, replyFits s.cfg y) (hfit : replyFits s.cfg x)
    (hst : stopFits s.cfg x st) (hrx : s.rx = scriptOf xs ++ stopScript x st ++ rest) :
    runChecked (andThen m K) s = .next { s with
      bank := (cachesAfter (s.bank, s.tar) (xs.map Prod.fst)).1
      tar := (cachesAfter (s.bank, s.tar) (xs.map Prod.fst)).2
      sess_dead := true, err_code := some (stopError st), rsp_status := .error (stopError st), rsp_rdata := none
      rx := rest
      events := s.events ++ eventsOf xs ++ stopEvents s.cfg x st } := by
  have stopped := h.stop xs x st later rest hx hxs hfit hst hrx
  rw [runChecked_of_ended hu.alive (andThen_of_ended stopped), raised_accessed hr, List.append_assoc]

/-- Settles O34: `RD` and `WR` perform exactly their expansion, so a failure at any of its transactions leaves the caches
to those before it. -/
theorem failedAccessKeepsCompletedWrites : Obligations.FailedAccessKeepsCompletedWrites := by
  unfold Obligations.FailedAccessKeepsCompletedWrites
  intro i s txns xs x st later rest hi hr hu hx hxs hfit hst hrx
  rcases accessTxns_eq_some hi with ⟨id, d, rfl, hd, rfl⟩ | ⟨id, v, d, rfl, hd, rfl⟩
  · rw [exec_rd, runChecked_stop (performs_readReg ⟨hr, hu⟩ hd) hr hu hx hxs hfit hst hrx]
  · rw [exec_wr, runChecked_stop (performs_writeReg ⟨hr, hu⟩ hd) hr hu hx hxs hfit hst hrx]

end Sys2Proof.Machine
end

section
/-! The encoding (30_encoding.md, 41_request_encoder.md): a request row is told by the header it has, a host command by
its opcode and operand fields; so decoding undoes encoding, and a byte is a header or is rejected by name. -/

namespace Sys2Proof.Machine

/-! ## Request rows -/

/-- A row that is a read transaction has the header of its operands, and the decoder's row for that header. -/
theorem encode_of_readRow {i : Instr} {apndp : Bool} {a : BitVec 2} (h : readRow i = some (apndp, a)) :
    encode i = some (.request (header a apndp true) 0#32) ∧ canonical i = requestRow apndp true a 0#32 := by
  cases i with
  | dprd | aprd | dprd0 | dprd1 | dprd2 | dprd3 | aprd0 | aprd1 | aprd2 | aprd3 | swdrd => cases h; exact ⟨rfl, rfl⟩
  | _ => nomatch h

/-- A row that is a write transaction has the header of its operands, and the decoder's row for that header. -/
theorem encode_of_writeRow {i : Instr} {apndp : Bool} {a : BitVec 2} {v : Word} (h : writeRow i = some (apndp, a, v)) :
    encode i = some (.request (header a apndp false) v) ∧ canonical i = requestRow apndp false a v := by
  cases i with
  | dpwr | apwr | dpwr0 | dpwr1 | dpwr2 | dpwr3 | apwr0 | apwr1 | apwr2 | apwr3 | swdwr => cases h; exact ⟨rfl, rfl⟩
  | _ => nomatch h

/-- The exact row of a read header is a read with the header's operands. -/
theorem readRow_requestRow (apndp : Bool) (a : BitVec 2) (v : Word) :
    readRow (requestRow apndp true a v) = some (apndp, a) := by
  have four : a = 0 ∨ a = 1 ∨ a = 2 ∨ a = 3 := by revert a; decide
  rcases four with rfl | rfl | rfl | rfl <;> cases apndp <;> rfl

/-- The exact row of a write header is a write with the header's operands and the value that follows. -/
theorem writeRow_requestRow (apndp : Bool) (a : BitVec 2) (v : Word) :
    writeRow (requestRow apndp false a v) = some (apndp, a, v) := by
  have four : a = 0 ∨ a = 1 ∨ a = 2 ∨ a = 3 := by revert a; decide
  rcases four with rfl | rfl | rfl | rfl <;> cases apndp <;> rfl

/-- Every read row runs the one read transaction (43_transaction_codec.md R150). -/
theorem exec_of_readRow {i : Instr} {apndp : Bool} {a : BitVec 2} (h : readRow i = some (apndp, a)) (s : State) :
    exec i s = readOnItsOwn apndp a s := by
  cases i with
  | dprd | aprd | dprd0 | dprd1 | dprd2 | dprd3 | aprd0 | aprd1 | aprd2 | aprd3 | swdrd => cases h; rfl
  | _ => nomatch h

/-- Every write row runs the one write transaction (43_transaction_codec.md R151). -/
theorem exec_of_writeRow {i : Instr} {apndp : Bool} {a : BitVec 2} {v : Word} (h : writeRow i = some (apndp, a, v))
    (s : State) : exec i s = writeOnItsOwn apndp a v s := by
  cases i with
  | dpwr | apwr | dpwr0 | dpwr1 | dpwr2 | dpwr3 | apwr0 | apwr1 | apwr2 | apwr3 | swdwr => cases h; rfl
  | _ => nomatch h

/-- A row is a read, a write, or its own canonical row. -/
theorem canonical_cases (i : Instr) :
    (∃ apndp a, readRow i = some (apndp, a)) ∨ (∃ apndp a v, writeRow i = some (apndp, a, v)) ∨ canonical i = i := by
  cases i with
  | dprd | aprd | dprd0 | dprd1 | dprd2 | dprd3 | aprd0 | aprd1 | aprd2 | aprd3 | swdrd => exact .inl ⟨_, _, rfl⟩
  | dpwr | apwr | dpwr0 | dpwr1 | dpwr2 | dpwr3 | apwr0 | apwr1 | apwr2 | apwr3 | swdwr =>
    exact .inr (.inl ⟨_, _, _, rfl⟩)
  | _ => exact .inr (.inr rfl)

/-- Settles O14: the canonical row of a request has the request's operands, and rows with the same operands run the same
transaction. -/
theorem canonicalRowMeansTheSame : Obligations.CanonicalRowMeansTheSame := by
  unfold Obligations.CanonicalRowMeansTheSame
  intro i s
  rcases canonical_cases i with ⟨apndp, a, h⟩ | ⟨apndp, a, v, h⟩ | h
  · rw [(encode_of_readRow h).2, exec_of_readRow (readRow_requestRow ..), exec_of_readRow h]
  · rw [(encode_of_writeRow h).2, exec_of_writeRow (writeRow_requestRow ..), exec_of_writeRow h]
  · rw [h]

/-! ## Command words -/

theorem decodeCommand_sreset (id : BitVec 8) (w : Word) : decodeCommand (0x1#4 ++ id ++ w) = .sreset := by
  simp only [decodeCommand, command_op, BitVec.reduceToNat]

theorem decodeCommand_rd (id : BitVec 8) (w : Word) : decodeCommand (0x2#4 ++ id ++ w) = .rd id := by
  simp only [decodeCommand, command_op, command_id, BitVec.reduceToNat]

theorem decodeCommand_wr (id : BitVec 8) (w : Word) : decodeCommand (0x3#4 ++ id ++ w) = .wr id w := by
  simp only [decodeCommand, command_op, command_id, command_wdata, BitVec.reduceToNat]

theorem decodeCommand_bringup (id : BitVec 8) (w : Word) : decodeCommand (0x4#4 ++ id ++ w) = .bringup := by
  simp only [decodeCommand, command_op, BitVec.reduceToNat]

theorem decodeCommand_dump (id : BitVec 8) (w : Word) : decodeCommand (0x5#4 ++ id ++ w) = .dump := by
  simp only [decodeCommand, command_op, BitVec.reduceToNat]

theorem decodeCommand_enchdr (id : BitVec 8) (w : Word) :
    decodeCommand (0xB#4 ++ id ++ w) = .enchdr (w.extractLsb' 0 2) (w.getLsbD 2) (w.getLsbD 3) := by
  simp (disch := omega) only [decodeCommand, command_op, command_field, command_bit, BitVec.reduceToNat]

/-- The operand field of `HPAR` and `ENCHDR` gives back its three operands. -/
theorem headerOperand_fields (a : BitVec 2) (apndp rnw : Bool) :
    (headerOperand a apndp rnw).extractLsb' 0 2 = a ∧ (headerOperand a apndp rnw).getLsbD 2 = apndp ∧
      (headerOperand a apndp rnw).getLsbD 3 = rnw := by
  revert a apndp rnw
  decide

theorem byteOperand_field (b : Byte) : (b.zeroExtend 32).extractLsb' 0 8 = b := by
  apply BitVec.eq_of_getLsbD_eq
  intro i hi
  simp only [BitVec.getLsbD_extractLsb', BitVec.truncate_eq_setWidth, BitVec.getLsbD_setWidth]
  simp [hi, show i < 32 by omega]

/-- The three units of `ACKCHK` stand in the low three bytes of its operand field. -/
theorem ackOperand_fields (u0 u1 u2 : Byte) :
    (0#8 ++ u2 ++ u1 ++ u0 : Word).extractLsb' 0 8 = u0 ∧ (0#8 ++ u2 ++ u1 ++ u0 : Word).extractLsb' 8 8 = u1 ∧
      (0#8 ++ u2 ++ u1 ++ u0 : Word).extractLsb' 16 8 = u2 := by
  have units := wordBytes_wordOfUnits (us := [u0, u1, u2, 0#8]) rfl
  simp only [wordBytes, wordOfUnits, List.getD_cons_zero, List.getD_cons_succ, List.cons.injEq] at units
  obtain ⟨h0, h1, h2, _⟩ := units
  exact ⟨h0, h1, h2⟩

/-- Decoding the word of an instruction that is no request row: the opcode and the operand fields give it back. -/
theorem decode_encode_command {i : Instr} {f : Frame} (hr : readRow i = none) (hw : writeRow i = none)
    (h : encode i = some f) : decode f = .ok i := by
  have of_command {op : BitVec 4} {id : BitVec 8} {w : Word} (hd : decodeCommand (op ++ id ++ w) = i)
      (hf : some (commandWord op id w) = some f) : decode f = .ok i := by
    cases hf
    exact congrArg Except.ok hd
  obtain ⟨reserved0, reserved6, reserved7, reservedD, reservedE, reservedF⟩ := decodeCommand_reserved 0#8 0#32
  cases i with
  | sreset => exact of_command (decodeCommand_sreset ..) h
  | rd id => exact of_command (decodeCommand_rd ..) h
  | wr id v => exact of_command (decodeCommand_wr ..) h
  | bringup => exact of_command (decodeCommand_bringup ..) h
  | dump => exact of_command (decodeCommand_dump ..) h
  | revb b => exact of_command (by rw [decodeCommand_revb, byteOperand_field]) h
  | wpar w => exact of_command (decodeCommand_wpar ..) h
  | hpar a apndp rnw =>
    obtain ⟨ha, hap, hrw⟩ := headerOperand_fields a apndp rnw
    exact of_command (by rw [decodeCommand_hpar, ha, hap, hrw]) h
  | enchdr a apndp rnw =>
    obtain ⟨ha, hap, hrw⟩ := headerOperand_fields a apndp rnw
    exact of_command (by rw [decodeCommand_enchdr, ha, hap, hrw]) h
  | ackchk u0 u1 u2 =>
    obtain ⟨h0, h1, h2⟩ := ackOperand_fields u0 u1 u2
    exact of_command (by rw [decodeCommand_ackchk, h0, h1, h2]) h
  | reserved0 => exact of_command reserved0 h
  | reserved6 => exact of_command reserved6 h
  | reserved7 => exact of_command reserved7 h
  | reservedD => exact of_command reservedD h
  | reservedE => exact of_command reservedE h
  | reservedF => exact of_command reservedF h
  | rawsend | resolve | ensbank | enstar | snoop => nomatch h
  | dprd | aprd | dprd0 | dprd1 | dprd2 | dprd3 | aprd0 | aprd1 | aprd2 | aprd3 | swdrd => nomatch hr
  | dpwr | apwr | dpwr0 | dpwr1 | dpwr2 | dpwr3 | apwr0 | apwr1 | apwr2 | apwr3 | swdwr => nomatch hw

/-- The canonical row of an instruction that is no request row is the instruction. -/
theorem canonical_eq_self {i : Instr} (hr : readRow i = none) (hw : writeRow i = none) : canonical i = i := by
  rcases canonical_cases i with ⟨apndp, a, h⟩ | ⟨apndp, a, v, h⟩ | h
  · simp [hr] at h
  · simp [hw] at h
  · exact h

/-- Settles O13: a request row decodes to the row of its header, any other instruction by its opcode and fields. -/
theorem decodeInvertsEncode : Obligations.DecodeInvertsEncode := by
  unfold Obligations.DecodeInvertsEncode
  refine ⟨fun i f _ h => ?decodes, fun i => ?wordless, fun i => ?choice⟩
  case decodes =>
    cases hr : readRow i with
    | some x =>
      obtain ⟨he, hc⟩ := encode_of_readRow hr
      obtain rfl := Option.some.inj (he.symm.trans h)
      rw [hc]
      exact decodeRequest_header ..
    | none =>
      cases hw : writeRow i with
      | some x =>
        obtain ⟨he, hc⟩ := encode_of_writeRow hw
        obtain rfl := Option.some.inj (he.symm.trans h)
        rw [hc]
        exact decodeRequest_header ..
      | none => rw [canonical_eq_self hr hw, decode_encode_command hr hw h]
  case wordless => cases i <;> simp [encode]
  case choice =>
    rcases canonical_cases i with ⟨apndp, a, h⟩ | ⟨apndp, a, v, h⟩ | h
    · exact .inr (.inl (by simp [h]))
    · exact .inr (.inr (by simp [h]))
    · exact .inl h

/-- What a pure command does to the state, whichever word it computes (30_encoding.md R93). -/
theorem exec_of_isPure {i : Instr} (h : isPure i = true) (s : State) : ∃ r, exec i s = .next (respond (some r) s) := by
  cases i with
  | revb | wpar | hpar | enchdr | ackchk => exact ⟨_, rfl⟩
  | _ => nomatch h

/-- Settles O10: each opcode's row and operand fields, and the response of the pure commands. -/
theorem commandsDecodeByOpcode : Obligations.CommandsDecodeByOpcode := by
  unfold Obligations.CommandsDecodeByOpcode
  refine ⟨fun id w => ⟨decodeCommand_sreset .., decodeCommand_rd .., decodeCommand_wr .., decodeCommand_bringup ..,
    decodeCommand_dump .., decodeCommand_revb .., decodeCommand_wpar .., decodeCommand_hpar ..,
    decodeCommand_enchdr .., decodeCommand_ackchk .., fun op hop => ?_⟩, fun i s h => exec_of_isPure h s⟩
  obtain ⟨h0, h6, h7, hD, hE, hF⟩ := decodeCommand_reserved id w
  simp only [List.mem_cons, List.not_mem_nil, or_false] at hop
  rcases hop with rfl | rfl | rfl | rfl | rfl | rfl
  · rw [h0]; rfl
  · rw [h6]; rfl
  · rw [h7]; rfl
  · rw [hD]; rfl
  · rw [hE]; rfl
  · rw [hF]; rfl

/-! ## Headers -/

/-- A byte with the three fixed bits and the parity of R95 is the header of the operands in its bits 6 to 3. -/
theorem eq_header_of_bits {h : Byte} (start : h.getLsbD 7 = true) (stop : h.getLsbD 1 = false)
    (park : h.getLsbD 0 = true)
    (parity : h.getLsbD 2 = (h.getLsbD 6 ^^ h.getLsbD 5 ^^ h.getLsbD 4 ^^ h.getLsbD 3)) :
    h = header (BitVec.ofBool (h.getLsbD 3) ++ BitVec.ofBool (h.getLsbD 4)) (h.getLsbD 6) (h.getLsbD 5) := by
  have slot : ∀ b3 b4 : Bool, (BitVec.ofBool b3 ++ BitVec.ofBool b4 : BitVec 2).getLsbD 0 = b4 ∧
      (BitVec.ofBool b3 ++ BitVec.ofBool b4 : BitVec 2).getLsbD 1 = b3 := by decide
  obtain ⟨low, high⟩ := slot (h.getLsbD 3) (h.getLsbD 4)
  apply BitVec.eq_of_getLsbD_eq
  intro i hi
  rw [getLsbD_header, hpar, low, high]
  match i with
  | 0 => exact park
  | 1 => exact stop
  | 2 =>
    rw [parity]
    simp only [List.getD_cons_zero, List.getD_cons_succ]
    cases h.getLsbD 6 <;> cases h.getLsbD 5 <;> cases h.getLsbD 4 <;> cases h.getLsbD 3 <;> rfl
  | 3 | 4 | 5 | 6 => rfl
  | 7 => exact start

/-- The five outcomes of the header decoder, each with the bits that lead to it (30_encoding.md R95; order: log 23). -/
theorem decodeRequest_cases (h : Byte) (v : Word) :
    (decodeRequest h v = .error .startBit ∧ h.getLsbD 7 = false) ∨
    (decodeRequest h v = .error .stopBit ∧ h.getLsbD 7 = true ∧ h.getLsbD 1 = true) ∨
    (decodeRequest h v = .error .parkBit ∧ h.getLsbD 7 = true ∧ h.getLsbD 1 = false ∧ h.getLsbD 0 = false) ∨
    (decodeRequest h v = .error .headerParity ∧ h.getLsbD 7 = true ∧ h.getLsbD 1 = false ∧ h.getLsbD 0 = true) ∨
    ((∃ i, decodeRequest h v = .ok i) ∧ (∃ a apndp rnw, h = header a apndp rnw) ∧
      h.getLsbD 7 = true ∧ h.getLsbD 1 = false ∧ h.getLsbD 0 = true) := by
  cases h7 : h.getLsbD 7 with
  | false => exact .inl ⟨by rw [decodeRequest, h7]; rfl, rfl⟩
  | true =>
    cases h1 : h.getLsbD 1 with
    | true => exact .inr (.inl ⟨by rw [decodeRequest, h7, h1]; rfl, rfl, rfl⟩)
    | false =>
      cases h0 : h.getLsbD 0 with
      | false => exact .inr (.inr (.inl ⟨by rw [decodeRequest, h7, h1, h0]; rfl, rfl, rfl, rfl⟩))
      | true =>
        by_cases parity : h.getLsbD 2 = (h.getLsbD 6 ^^ h.getLsbD 5 ^^ h.getLsbD 4 ^^ h.getLsbD 3)
        · have e := eq_header_of_bits h7 h1 h0 parity
          have decoded := decodeRequest_header (BitVec.ofBool (h.getLsbD 3) ++ BitVec.ofBool (h.getLsbD 4))
            (h.getLsbD 6) (h.getLsbD 5) v
          rw [← e] at decoded
          exact .inr (.inr (.inr (.inr ⟨⟨_, decoded⟩, ⟨_, _, _, e⟩, rfl, rfl, rfl⟩)))
        · refine .inr (.inr (.inr (.inl ⟨?_, rfl, rfl, rfl⟩)))
          rw [decodeRequest, h7, h1, h0]
          exact if_pos (bne_iff_ne.mpr parity)

/-- Settles O11: the five outcomes exclude each other, by their bits or by their answers. -/
theorem headerDecoderAcceptsTheSixteen : Obligations.HeaderDecoderAcceptsTheSixteen := by
  unfold Obligations.HeaderDecoderAcceptsTheSixteen
  intro h v
  have taken : ∀ a apndp rnw, h = header a apndp rnw → decodeRequest h v = .ok (requestRow apndp rnw a v) :=
    fun a apndp rnw e => e ▸ decodeRequest_header a apndp rnw v
  have rejected {e : DecodeError} (hd : decodeRequest h v = .error e) : ¬ ∃ a apndp rnw, h = header a apndp rnw := by
    rintro ⟨a, apndp, rnw, hh⟩
    cases hd.symm.trans (taken a apndp rnw hh)
  refine ⟨?_, taken, ?_⟩
  · rcases decodeRequest_cases h v with ⟨hd, _⟩ | ⟨hd, _⟩ | ⟨hd, _⟩ | ⟨hd, _⟩ | ⟨hd, hh, _⟩
    case inr.inr.inr.inr => exact iff_of_true hd hh
    all_goals exact iff_of_false (by simp [hd]) (rejected hd)
  · rcases decodeRequest_cases h v with ⟨hd, h7⟩ | ⟨hd, h7, h1⟩ | ⟨hd, h7, h1, h0⟩ | ⟨hd, h7, h1, h0⟩ |
      ⟨⟨i, hd⟩, _, h7, h1, h0⟩
    · simp only [hd, h7]
      simp
    · simp only [hd, h7, h1]
      simp
    all_goals
      simp only [hd, h7, h1, h0]
      simp

/-- Settles O4: the header's bits by the table of its bits, the wire byte's by mirroring. -/
theorem headerBitsAndWireBits : Obligations.HeaderBitsAndWireBits := by
  unfold Obligations.HeaderBitsAndWireBits
  intro a apndp rnw
  have bit := getLsbD_header a apndp rnw
  have parity : hpar a apndp rnw = (apndp ^^ rnw ^^ a.getLsbD 0 ^^ a.getLsbD 1) := by
    rw [hpar]
    cases a.getLsbD 0 <;> cases a.getLsbD 1 <;> cases apndp <;> cases rnw <;> rfl
  exact ⟨rfl, bit 7, bit 6, bit 5, bit 4, bit 3, (bit 2).trans parity, bit 1, bit 0, fun i hi => getLsbD_revb _ hi⟩

/-- Settles O5: the three functions are evaluated at the operands of each of the sixteen rows. -/
theorem sixteenHeaders : Obligations.SixteenHeaders := by
  unfold Obligations.SixteenHeaders
  intro row hrow
  fin_cases hrow <;> exact ⟨rfl, rfl, rfl⟩

/-- Settles O7: the response is the defined word; a header starts and parks with 1 and has a 0 for its stop bit. -/
theorem enchdrGivesHeaderAndWireByte : Obligations.EnchdrGivesHeaderAndWireByte := by
  unfold Obligations.EnchdrGivesHeaderAndWireByte
  refine ⟨fun a apndp rnw s => by rw [exec_enchdr, respond], decodeCommand_enchdr, fun a apndp rnw => ?_, rfl, rfl⟩
  have bit := getLsbD_header a apndp rnw
  refine ⟨rfl, fun h => ?_, fun h => ?_, (getLsbD_revb _ (by decide)).trans (bit 7),
    (getLsbD_revb _ (by decide)).trans (bit 0)⟩
  · simpa [h] using bit 7
  · simpa [h] using bit 1

/-! ## Codes and printed words -/

/-- Settles O12: each code is evaluated at its value. -/
theorem codesAsNumbered : Obligations.CodesAsNumbered := by
  unfold Obligations.CodesAsNumbered
  have small : ∀ e, (errorCode e).toNat ≤ 8 := fun e => by cases e <;> decide
  refine ⟨by decide, fun x => ?_, fun e => ?_, rfl, fun e => rfl, by decide, by decide⟩
  · cases x with
    | ok => exact .inl (by decide)
    | error e => exact .inl (small e)
    | refused => exact .inr rfl
  · cases e with
    | none => decide
    | some e => exact small e

/-- Settles O15: each printed word is the encoding of its instruction, and is decoded. -/
theorem wordsOfTheSpecDecode : Obligations.WordsOfTheSpecDecode := by
  unfold Obligations.WordsOfTheSpecDecode
  exact ⟨rfl, rfl, rfl, rfl, rfl, rfl, rfl, rfl, rfl, rfl⟩

end Sys2Proof.Machine
end

section
/-! The step (70_reset_and_hazards.md R300, R301): what it runs, that it always answers, and what every step keeps: the
parameters, the coherence of the state between steps, the trace, and the caches against the trace. -/

namespace Sys2Proof.Machine

/-! ## What a step runs -/

section
variable {s : State} {f : Frame} {rest : List Frame} {i : Instr}

theorem step_of_reset (hw : s.cfg.wellFormed = true) (h0 : s.por.head? = some 0) : step s = .next (powerOnReset s) := by
  rw [step, if_pos hw, if_pos h0]

theorem step_of_noReset (hw : s.cfg.wellFormed = true) (h0 : s.por.head? ≠ some 0) :
    step s = stepRunning (afterPoint s) := by
  rw [step, if_pos hw, if_neg h0]

theorem stepRunning_of_busy (hb : s.fd_busy = true) : stepRunning s = dumpStep s := by
  rw [stepRunning, if_pos hb]

theorem stepRunning_of_empty (hb : s.fd_busy = false) (hp : s.port = []) : stepRunning s = .next s := by
  simp [stepRunning, hb, fetch, hp]

theorem stepRunning_of_instr (hb : s.fd_busy = false) (hp : s.port = f :: rest) (hd : decode f = .ok i) :
    stepRunning s = exec i (taken rest s) := by
  simp [stepRunning, hb, fetch, hp, hd]

theorem stepRunning_of_illFormed {e : DecodeError} (hb : s.fd_busy = false) (hp : s.port = f :: rest)
    (hd : decode f = .error e) : stepRunning s = .refused (.illFormedHeader e) := by
  simp [stepRunning, hb, fetch, hp, hd]

/-- A step that answers is a step of a block with a well-formed configuration (93_implementation_defined.md U8). -/
theorem wellFormed_of_step {t : State} (h : step s = .next t) : s.cfg.wellFormed = true := by
  by_contra hw
  rw [step, if_neg hw] at h
  cases h

end

/-- Settles O16: the step counts the point, takes the word and executes what it decodes to. -/
theorem stepRunsTheDecodedInstruction : Obligations.StepRunsTheDecodedInstruction := by
  unfold Obligations.StepRunsTheDecodedInstruction
  intro s f rest i hw h0 hb hp hd
  rw [step_of_noReset hw h0, stepRunning_of_instr (s := afterPoint s) hb hp hd]
  rfl

/-- Settles O17: each of the four cases is a branch of the step. -/
theorem stepWithoutAnInstruction : Obligations.StepWithoutAnInstruction := by
  unfold Obligations.StepWithoutAnInstruction
  refine ⟨fun s hw h0 hb hp => ?waits, fun s hw h0 hb => ?dumps, fun s f rest e hw h0 hb hp hd => ?noHeader,
    fun s hw => ?illFormed⟩
  case waits => rw [step_of_noReset hw h0, stepRunning_of_empty (s := afterPoint s) hb hp, afterPoint]
  case dumps => rw [step_of_noReset hw h0, stepRunning_of_busy (s := afterPoint s) hb, afterPoint]
  case noHeader => rw [step_of_noReset hw h0, stepRunning_of_illFormed (s := afterPoint s) hb hp hd]
  case illFormed => simp [step, hw]

/-! ## The parameters -/

/-- `t` has the parameters of `s`. -/
def SameConfiguration (s t : State) : Prop := t.cfg = s.cfg

/-- No update of the state writes the parameters (10_state.md R31). -/
theorem sameConfiguration_closed : ExecClosed SameConfiguration where
  refl _ := rfl
  trans h h' := h'.trans h
  setPhase _ _ := rfl
  setInputs _ _ _ _ := rfl
  setHeader _ _ _ := rfl
  setValue _ _ _ := rfl
  clearLatches _ := rfl
  ran _ _ _ := rfl
  afterPoint _ := rfl
  raised _ _ := rfl
  powerOnReset _ _ := rfl
  setBank _ _ := rfl
  setTar _ _ := rfl
  snooped _ _ _ := rfl
  respond _ _ := rfl
  refuse _ := rfl
  setResult _ _ := rfl
  sessionStart _ := rfl
  setBu _ _ := rfl
  dumpStart _ := rfl
  afterPage page s := by unfold afterPage SameConfiguration; split <;> rfl
  dumpAborted _ := rfl

theorem cfg_of_exec {i : Instr} {s t : State} (h : exec i s = .next t) : t.cfg = s.cfg :=
  exec_within sameConfiguration_closed h

/-- Settles O59: keeping the parameters is closed under the updates of a step. -/
theorem configurationIsNeverWritten : Obligations.ConfigurationIsNeverWritten := by
  unfold Obligations.ConfigurationIsNeverWritten
  exact ⟨fun s t h => step_within sameConfiguration_closed (fun _ _ => rfl) h, fun i s t h => cfg_of_exec h⟩

/-! ## Every step answers -/

/-- Settles O56: an instruction at rest answers; so does a page of a dump in a coherent state, and a step is one of them,
a wait or a reset. -/
theorem everyInstructionAnswers : Obligations.EveryInstructionAnswers := by
  unfold Obligations.EveryInstructionAnswers
  have answers : ∀ i s, AtRest s → ∃ t, exec i s = .next t := fun i s hr => by
    obtain ⟨t, ht, _⟩ := exec_did i hr
    exact ⟨t, ht⟩
  refine ⟨answers, fun s hc hw hport => ?_⟩
  by_cases h0 : s.por.head? = some 0
  · exact ⟨_, step_of_reset hw h0⟩
  · rw [step_of_noReset hw h0]
    cases hb : s.fd_busy with
    | true =>
      rw [stepRunning_of_busy (s := afterPoint s) hb]
      obtain ⟨alive, _, _, addr, hf, _⟩ := hc.busy hb
      rcases dumpStep_did (s := afterPoint s) (atRest_afterPoint hc.rest) alive hf with ⟨_, _, _, _, e⟩ | ⟨_, _, e⟩
      · exact ⟨_, e⟩
      · exact ⟨_, e⟩
    | false =>
      cases hp : s.port with
      | nil => exact ⟨_, stepRunning_of_empty (s := afterPoint s) hb hp⟩
      | cons f rest =>
        obtain ⟨i, hd⟩ := hport f rest hp
        rw [stepRunning_of_instr (s := afterPoint s) hb hp hd]
        exact answers i _ (atRest_taken rest (atRest_afterPoint hc.rest))

/-! ## Coherence -/

/-- The registers that coherence speaks of. -/
def controls (s : State) :=
  ((s.t_phase, s.t_addr, s.t_apndp, s.t_rnw, s.t_par, s.t_hdr, s.t_val, s.t_vpar), s.sess_dead, s.err_code, s.bu_state,
    s.fd_addr, s.fd_image, s.fd_busy)

theorem Coherent.of_controls {s t : State} (h : Coherent s) (e : controls t = controls s) : Coherent t := by
  cases s
  cases t
  simp only [controls, Prod.mk.injEq] at e
  obtain ⟨⟨rfl, rfl, rfl, rfl, rfl, rfl, rfl, rfl⟩, rfl, rfl, rfl, rfl, rfl, rfl⟩ := e
  exact ⟨⟨h.rest.phase, h.rest.addr, h.rest.apndp, h.rest.rnw, h.rest.par, h.rest.hdr, h.rest.val, h.rest.vpar⟩,
    h.deadErr, h.modes, h.busy, h.notBusy⟩

/-- An access in progress has changed the caches, the transport and the resets to come. -/
theorem Moved.controls_eq {s u : State} (h : Moved s u) : controls u = controls s := by
  obtain ⟨_, _, _, _, _, _, _, rfl, _, _⟩ := h
  rfl

theorem coherent_sessionStart (s : State) : Coherent (sessionStart s) :=
  ⟨atRest_sessionStart s, by simp, fun _ => .inl rfl, by simp, fun _ => rfl⟩

theorem coherent_powerOnReset (s : State) : Coherent (powerOnReset s) := (coherent_sessionStart s).of_controls rfl

theorem coherent_raised {s : State} (e : ErrorKind) (hb : s.fd_busy = false) (hf : s.fd_addr = none) :
    Coherent (raised e s) :=
  ⟨⟨rfl, rfl, rfl, rfl, rfl, rfl, rfl, rfl⟩, by simp, by simp, by simp [hb], fun _ => hf⟩

/-- An access that ended outside a dump. -/
theorem Ended.coherent {s t : State} (h : Ended s t) (hb : s.fd_busy = false) (hf : s.fd_addr = none) : Coherent t := by
  obtain ⟨u, ⟨_, _, _, _, _, _, _, rfl, _, _⟩, ⟨e, rfl⟩ | ⟨_, rfl⟩⟩ := h
  · exact coherent_raised e hb hf
  · exact coherent_powerOnReset _

/-- A page that ended (46_flash_dump.md R246). -/
theorem Ended.coherent_dumpAborted {s t : State} (h : Ended s t) : Coherent (dumpAborted t) := by
  obtain ⟨u, _, ⟨e, rfl⟩ | ⟨_, rfl⟩⟩ := h
  · exact (coherent_raised e (s := dumpAborted u) rfl rfl).of_controls rfl
  · exact (coherent_powerOnReset u).of_controls rfl

/-- The page after a page address is one (46_flash_dump.md R241). -/
theorem pageAddress_next {addr : Word} (h : addr.extractLsb' 0 10 = 0#10) : (addr + 1024#32).extractLsb' 0 10 = 0#10 := by
  have hn := congrArg BitVec.toNat h
  apply BitVec.eq_of_toNat_eq
  simp only [BitVec.extractLsb'_toNat, BitVec.toNat_add, BitVec.toNat_ofNat, Nat.shiftRight_zero] at hn ⊢
  omega

/-- A page read in a dump in progress leaves a coherent state, whether the dump goes on or ends. -/
theorem coherent_afterPage {s : State} {page : List Byte} (h : Coherent s) (hb : s.fd_busy = true)
    (hl : page.length = Config.pageBytes) : Coherent (afterPage page s) := by
  obtain ⟨alive, ready, whole, addr, ha, aligned⟩ := h.busy hb
  have rest : AtRest (afterPage page s) := by
    unfold afterPage
    split <;>
      exact ⟨h.rest.phase, h.rest.addr, h.rest.apndp, h.rest.rnw, h.rest.par, h.rest.hdr, h.rest.val, h.rest.vpar⟩
  refine ⟨rest, ?_, ?_, ?_, ?_⟩ <;> unfold afterPage <;> split
  · exact h.deadErr
  · exact h.deadErr
  · exact h.modes
  · exact h.modes
  · exact fun h => nomatch h
  · refine fun _ => ⟨alive, ready, ?_, addr + 1024#32, by simp [ha], pageAddress_next aligned⟩
    change (s.fd_image ++ page).length % Config.pageBytes = 0
    rw [List.length_append, hl, Nat.add_mod_right, whole]
  · exact fun _ => rfl
  · exact fun h => nomatch h

/-- The start of a dump in a ready session, over a configuration whose first page stands at a page address
(20_memory.md R58). -/
theorem coherent_dumpStart {s : State} (h : Coherent s) (alive : s.sess_dead = false) (ready : s.bu_state = .ready)
    (hw : s.cfg.wellFormed = true) : Coherent (dumpStart s) := by
  have aligned : s.cfg.flashStart.extractLsb' 0 10 = 0#10 := by
    simp only [Cfg.wellFormed, Bool.and_eq_true, beq_iff_eq] at hw
    exact hw.2
  exact ⟨atRest_dumpStart h.rest, h.deadErr, h.modes, fun _ => ⟨alive, ready, rfl, _, rfl, aligned⟩,
    fun h => nomatch h⟩

/-- Every instruction outside a dump leaves a coherent state. -/
theorem Did.coherent {i : Instr} {s t : State} (h : Did i s t) (hc : Coherent s) (hb : s.fd_busy = false)
    (hw : s.cfg.wellFormed = true) : Coherent t := by
  have hf := hc.notBusy hb
  cases h with
  | pure | refused | notStarted | snoop => exact hc.of_controls rfl
  | sreset => exact coherent_sessionStart s
  | internal r u _ _ hm => exact hc.of_controls hm.controls_eq
  | internalEnded _ _ _ he => exact he.coherent hb hf
  | access r u _ _ hm => exact hc.of_controls hm.controls_eq
  | accessEnded _ _ _ he => exact he.coherent hb hf
  | bringup u _ hs =>
    have ready : Coherent (setBu .ready (sessionStart s)) :=
      ⟨atRest_setBu _ (atRest_sessionStart s), by simp, fun _ => .inr rfl, by simp, fun _ => rfl⟩
    exact ready.of_controls hs.moved.controls_eq
  | bringupEnded _ _ ha =>
    obtain ⟨x, _, he⟩ := ha
    exact he.coherent rfl rfl
  | page page u _ alive ready hl hm =>
    exact coherent_afterPage ((coherent_dumpStart hc alive ready hw).of_controls hm.controls_eq)
      (congrArg (fun c => c.2.2.2.2.2.2) hm.controls_eq) hl
  | pageEnded u _ _ _ he => exact he.coherent_dumpAborted

/-- Settles O58: each thing a step can do leaves a coherent state. -/
theorem stepKeepsCoherence : Obligations.StepKeepsCoherence := by
  unfold Obligations.StepKeepsCoherence
  intro s t hc h
  cases step_did hc h with
  | reset => exact coherent_powerOnReset s
  | waited => exact hc.of_controls rfl
  | page page u _ hb hl hm =>
    exact coherent_afterPage (hc.of_controls hm.controls_eq)
      ((congrArg (fun c => c.2.2.2.2.2.2) hm.controls_eq).trans hb) hl
  | pageEnded u _ _ he => exact he.coherent_dumpAborted
  | ran f rest i t _ hb _ _ _ hd => exact hd.coherent (hc.of_controls rfl) hb (wellFormed_of_step (s := s) h)

/-- Settles O57: no transaction, no error, no dump, and the bring-up state `Idle`. -/
theorem resetIsCoherent : Obligations.ResetIsCoherent := coherent_sessionStart State.reset

/-! ## The trace, and the caches against it -/

/-- From `s` to `t` the trace has grown by guarded events, and a cache with a new value had it from a write whose whole
frame is among them (20_memory.md R65, 44_register_router.md R184). -/
def Accounted (s t : State) : Prop :=
  ∃ es, t.events = s.events ++ es ∧ Guarded es ∧
    (∀ v, t.bank = some v → t.bank ≠ s.bank → HasFrame (.write false (selectSlot s.cfg) v) es) ∧
    (∀ v, t.tar = some v → t.tar ≠ s.tar → HasFrame (.write true (tarSlot s.cfg) v) es)

/-- An update that leaves the trace alone and the caches alone or unknown. -/
theorem accounted_of_eq {s t : State} (he : t.events = s.events) (hb : t.bank = s.bank ∨ t.bank = none)
    (ht : t.tar = s.tar ∨ t.tar = none) : Accounted s t := by
  refine ⟨[], by simp [he], guarded_nil, fun v hv hne => ?_, fun v hv hne => ?_⟩
  · rcases hb with hb | hb
    · exact absurd hb hne
    · simp [hb] at hv
  · rcases ht with ht | ht
    · exact absurd ht hne
    · simp [ht] at hv

theorem accounted_same {s t : State} (he : t.events = s.events) (hb : t.bank = s.bank) (ht : t.tar = s.tar) :
    Accounted s t := accounted_of_eq he (.inl hb) (.inl ht)

theorem Accounted.trans {s t u : State} (h : Accounted s t) (h' : Accounted t u) (hc : t.cfg = s.cfg) :
    Accounted s u := by
  obtain ⟨es, he, hg, hb, ht⟩ := h
  obtain ⟨fs, hf, hg', hb', ht'⟩ := h'
  rw [hc] at hb' ht'
  refine ⟨es ++ fs, by rw [hf, he, List.append_assoc], guarded_append hg hg', fun v hv hne => ?_, fun v hv hne => ?_⟩
  · by_cases same : u.bank = t.bank
    · exact (hb v (same ▸ hv) (same ▸ hne)).left fs
    · exact (hb' v hv same).right es
  · by_cases same : u.tar = t.tar
    · exact (ht v (same ▸ hv) (same ▸ hne)).left fs
    · exact (ht' v hv same).right es

theorem Moved.accounted {s u : State} (h : Moved s u) : Accounted s u := by
  obtain ⟨es, rx, p, b, t, hg, _, rfl, hb, ht⟩ := h
  refine ⟨es, rfl, hg, fun v hv hne => ?_, fun v hv hne => ?_⟩
  · rcases hb with hb | ⟨w, hw, hf⟩
    · exact absurd hb hne
    · obtain rfl := Option.some.inj (hw.symm.trans hv)
      exact hf
  · rcases ht with ht | ⟨w, hw, hf⟩
    · exact absurd ht hne
    · obtain rfl := Option.some.inj (hw.symm.trans hv)
      exact hf

theorem Moved.cfg_eq {s u : State} (h : Moved s u) : u.cfg = s.cfg := by
  obtain ⟨_, _, _, _, _, _, _, rfl, _, _⟩ := h
  rfl

/-- `raise` keeps the caches, power-on reset makes them unknown; neither touches the trace. -/
theorem Ended.accounted {s t : State} (h : Ended s t) : Accounted s t := by
  obtain ⟨u, hm, ⟨e, rfl⟩ | ⟨_, rfl⟩⟩ := h
  · exact hm.accounted.trans (accounted_same rfl rfl rfl) hm.cfg_eq
  · exact hm.accounted.trans (accounted_of_eq rfl (.inr rfl) (.inr rfl)) hm.cfg_eq

theorem Ended.cfg_eq {s t : State} (h : Ended s t) : t.cfg = s.cfg := by
  obtain ⟨u, hm, ⟨e, rfl⟩ | ⟨_, rfl⟩⟩ := h
  · exact hm.cfg_eq
  · exact hm.cfg_eq

theorem accounted_sessionStart (s : State) : Accounted s (sessionStart s) :=
  accounted_of_eq rfl (.inr rfl) (.inr rfl)

theorem accounted_afterPage (page : List Byte) (s : State) : Accounted s (afterPage page s) := by
  unfold afterPage
  split <;> exact accounted_same rfl rfl rfl

/-- Every instruction but the bare record `SNOOP`. -/
theorem Did.accounted {i : Instr} {s t : State} (h : Did i s t) (hi : ∀ d v, i ≠ .snoop d v) : Accounted s t := by
  cases h with
  | pure | refused | notStarted => exact accounted_same rfl rfl rfl
  | sreset => exact accounted_sessionStart s
  | snoop d v e => exact absurd e (hi d v)
  | internal r u _ _ hm =>
    have prepared : Accounted s (setResult none s) := accounted_same rfl rfl rfl
    exact (prepared.trans hm.accounted rfl).trans (accounted_same rfl rfl rfl) hm.cfg_eq
  | internalEnded _ _ _ he =>
    have prepared : Accounted s (setResult none s) := accounted_same rfl rfl rfl
    exact prepared.trans he.accounted rfl
  | access r u _ _ hm => exact hm.accounted.trans (accounted_same rfl rfl rfl) hm.cfg_eq
  | accessEnded _ _ _ he => exact he.accounted
  | bringup u _ hs =>
    have started : Accounted s (setBu .ready (sessionStart s)) := accounted_of_eq rfl (.inr rfl) (.inr rfl)
    exact (started.trans hs.moved.accounted rfl).trans (accounted_same rfl rfl rfl) hs.moved.cfg_eq
  | bringupEnded _ _ ha =>
    obtain ⟨x, _, he⟩ := ha
    have started : Accounted s (setBu x (sessionStart s)) := accounted_of_eq rfl (.inr rfl) (.inr rfl)
    exact started.trans he.accounted rfl
  | page page u _ _ _ _ hm =>
    have started : Accounted s (dumpStart s) := accounted_same rfl rfl rfl
    exact (started.trans hm.accounted rfl).trans (accounted_afterPage page u) hm.cfg_eq
  | pageEnded u _ _ _ he =>
    have started : Accounted s (dumpStart s) := accounted_same rfl rfl rfl
    exact (started.trans he.accounted rfl).trans (accounted_same rfl rfl rfl) he.cfg_eq

/-- No word decodes to `SNOOP` (log 7). -/
theorem decode_ne_snoop {f : Frame} {i : Instr} (h : decode f = .ok i) (d : Descriptor) (v : Word) : i ≠ .snoop d v := by
  rintro rfl
  cases f with
  | command w =>
    simp only [decode, Except.ok.injEq] at h
    unfold decodeCommand at h
    split at h <;> cases h
  | request b w =>
    rcases decodeRequest_cases b w with ⟨hd, _⟩ | ⟨hd, _⟩ | ⟨hd, _⟩ | ⟨hd, _⟩ | ⟨_, ⟨a, apndp, rnw, rfl⟩, _⟩
    case inr.inr.inr.inr =>
      simp only [decode, decodeRequest_header, Except.ok.injEq] at h
      unfold requestRow at h
      split at h <;> cases h
    all_goals cases hd.symm.trans h

/-- Every step, a later page of a dump among them. -/
theorem step_accounted {s t : State} (hc : Coherent s) (h : step s = .next t) : Accounted s t := by
  cases step_did hc h with
  | reset => exact accounted_of_eq rfl (.inr rfl) (.inr rfl)
  | waited => exact accounted_same rfl rfl rfl
  | page page u _ _ _ hm =>
    have counted : Accounted s (afterPoint s) := accounted_same rfl rfl rfl
    exact (counted.trans hm.accounted rfl).trans (accounted_afterPage page u) hm.cfg_eq
  | pageEnded u _ _ he =>
    have counted : Accounted s (afterPoint s) := accounted_same rfl rfl rfl
    exact (counted.trans he.accounted rfl).trans (accounted_same rfl rfl rfl) he.cfg_eq
  | ran f rest i t _ _ _ hd _ hdid =>
    have counted : Accounted s (taken rest (afterPoint s)) := accounted_same rfl rfl rfl
    exact counted.trans (hdid.accounted (decode_ne_snoop hd)) rfl

/-- Settles O60: the events a step adds are those of its accesses, each guarded. -/
theorem everyRecvIsGuarded : Obligations.EveryRecvIsGuarded := by
  unfold Obligations.EveryRecvIsGuarded
  intro s t hc h
  obtain ⟨es, he, hg, _⟩ := step_accounted hc h
  exact ⟨es, he, hg⟩

/-! ## Power-on reset -/

/-- Power-on reset landed after the events `es`, with `rx` left to be delivered: the reset values, the parameters, the
port and the later resets as they were (70_reset_and_hazards.md R300). -/
def resetIn (es : List Event) (rx : List RxItem) (s : State) : State := powerOnReset (later es rx s.por s)

theorem SameResets.length_eq {p q : List Nat} (h : SameResets p q) : p.length = q.length := by
  cases p with
  | nil => rw [h.nil_iff.mp rfl]
  | cons n p =>
    cases q with
    | nil => cases h.nil_iff.mpr rfl
    | cons m q => exact congrArg (fun l => l.length + 1) h.later

/-- Only a reset that landed takes one from the resets to come. -/
theorem Ended.resetIn {s t : State} (h : Ended s t) (hl : t.por.length < s.por.length) :
    ∃ es rx, t = Machine.resetIn es rx s := by
  obtain ⟨u, ⟨es, rx, p, b, c, _, hp, rfl, _, _⟩, ⟨e, rfl⟩ | ⟨_, rfl⟩⟩ := h
  · exact absurd hp.length_eq (Nat.ne_of_lt hl)
  · refine ⟨es, rx, ?_⟩
    have tails : p.tail = s.por.tail := hp.later
    simp only [powerOnReset, Machine.resetIn, accessed, later, tails]
    rfl

theorem Moved.length_por {s u : State} (h : Moved s u) : u.por.length = s.por.length := h.sameResets.length_eq

/-- An instruction on which a reset lands leaves the reset values, whatever it was doing. -/
theorem Did.resetIn {i : Instr} {s t : State} (h : Did i s t) (hl : t.por.length < s.por.length) :
    ∃ es rx, t = Machine.resetIn es rx s := by
  cases h with
  | pure | refused | sreset | notStarted | snoop => exact absurd hl (Nat.lt_irrefl _)
  | internal r u _ _ hm => exact absurd hm.length_por (Nat.ne_of_lt hl)
  | internalEnded _ _ _ he => exact he.resetIn hl
  | access r u _ _ hm => exact absurd hm.length_por (Nat.ne_of_lt hl)
  | accessEnded _ _ _ he => exact he.resetIn hl
  | bringup u _ hs => exact absurd hs.moved.length_por (Nat.ne_of_lt hl)
  | bringupEnded _ _ ha =>
    obtain ⟨x, _, he⟩ := ha
    exact he.resetIn hl
  | page page u _ _ _ _ hm =>
    refine absurd hm.length_por (Nat.ne_of_lt ?_)
    unfold afterPage at hl
    split at hl <;> exact hl
  | pageEnded u _ _ _ he =>
    obtain ⟨es, rx, rfl⟩ := he.resetIn hl
    exact ⟨es, rx, rfl⟩

/-- Settles O19: the reset values at the start of a step, inside an instruction, inside any step, and at each transport
operation. -/
theorem powerOnResetAtAnyTime : Obligations.PowerOnResetAtAnyTime := by
  unfold Obligations.PowerOnResetAtAnyTime
  refine ⟨fun s hw h0 => step_of_reset hw h0, fun i s t hr h hl => (did_of_exec hr h).resetIn hl,
    fun s t hc h hl => ?inStep, fun s toks h0 => ?atOperation⟩
  case inStep =>
    have counted : (countdown s.por).length = s.por.length := (sameResets_countdown s.por).length_eq
    have tails : (countdown s.por).tail = s.por.tail := (sameResets_countdown s.por).later
    have landed : ∀ es rx port, Machine.resetIn es rx (taken port (afterPoint s)) =
        { Machine.resetIn es rx s with port := port } := fun es rx port => by
      simp only [Machine.resetIn, powerOnReset, later, taken, afterPoint, tails]
      rfl
    cases step_did hc h with
    | reset => exact ⟨[], s.rx, s.port, .inl rfl, by simp; rfl⟩
    | waited => exact absurd counted (Nat.ne_of_lt hl)
    | page page u _ _ _ hm =>
      refine absurd (hm.length_por.trans counted) (Nat.ne_of_lt ?_)
      unfold afterPage at hl
      split at hl <;> exact hl
    | pageEnded u _ _ he =>
      obtain ⟨es, rx, rfl⟩ := he.resetIn (Nat.lt_of_lt_of_eq hl counted.symm)
      exact ⟨es, rx, s.port, .inl rfl, congrArg dumpAborted (landed es rx s.port)⟩
    | ran f rest i t _ _ hp _ _ hd =>
      obtain ⟨es, rx, rfl⟩ := hd.resetIn (Nat.lt_of_lt_of_eq hl counted.symm)
      exact ⟨es, rx, rest, .inr ⟨f, hp⟩, landed es rx rest⟩
  case atOperation =>
    have lands : tick s = .ended (powerOnReset s) := by rw [tick, if_pos h0]
    exact ⟨andThen_of_ended lands, andThen_of_ended lands, fun n => andThen_of_ended lands⟩

/-! ## What keeps a cache known -/

/-- A cache that holds a value in `s` holds one in `t`. -/
def StaysKnown (s t : State) : Prop :=
  (s.bank.isSome = true → t.bank.isSome = true) ∧ (s.tar.isSome = true → t.tar.isSome = true)

theorem staysKnown_of_eq {s t : State} (hb : t.bank = s.bank) (ht : t.tar = s.tar) : StaysKnown s t :=
  ⟨fun h => hb ▸ h, fun h => ht ▸ h⟩

theorem StaysKnown.trans {s t u : State} (h : StaysKnown s t) (h' : StaysKnown t u) : StaysKnown s u :=
  ⟨fun x => h'.1 (h.1 x), fun x => h'.2 (h.2 x)⟩

theorem Moved.staysKnown {s u : State} (h : Moved s u) : StaysKnown s u := by
  obtain ⟨es, rx, p, b, t, _, _, rfl, hb, ht⟩ := h
  refine ⟨fun h => ?_, fun h => ?_⟩
  · rcases hb with hb | ⟨v, hv, _⟩
    · exact hb ▸ h
    · exact hv ▸ rfl
  · rcases ht with ht | ⟨v, hv, _⟩
    · exact ht ▸ h
    · exact hv ▸ rfl

theorem Ended.staysKnown {s t : State} (h : Ended s t) (hp : s.por = []) : StaysKnown s t := by
  obtain ⟨e, u, hm, rfl⟩ := h.raised_of_noReset hp
  exact hm.staysKnown.trans (staysKnown_of_eq rfl rfl)

theorem staysKnown_afterPage (page : List Byte) (s : State) : StaysKnown s (afterPage page s) := by
  unfold afterPage
  split <;> exact staysKnown_of_eq rfl rfl

/-- A record of `SNOOP` replaces a cache's value by another. -/
theorem staysKnown_snooped (d : Descriptor) (v : Word) (s : State) : StaysKnown s (snooped d v s) := by
  refine ⟨fun h => ?_, fun h => ?_⟩
  · rw [snooped_bank]
    split
    · rfl
    · exact h
  · rw [snooped_tar]
    split
    · rfl
    · exact h

theorem Did.staysKnown {i : Instr} {s t : State} (h : Did i s t) (hp : s.por = []) (hi : startsSession i = false) :
    StaysKnown s t := by
  cases h with
  | pure | refused | notStarted => exact staysKnown_of_eq rfl rfl
  | sreset e | bringup _ e | bringupEnded _ e => subst e; cases hi
  | snoop d v => exact staysKnown_snooped d v (setResult none s)
  | internal r u _ _ hm => exact hm.staysKnown
  | internalEnded _ _ _ he => exact he.staysKnown hp
  | access r u _ _ hm => exact hm.staysKnown
  | accessEnded _ _ _ he => exact he.staysKnown hp
  | page page u _ _ _ _ hm => exact StaysKnown.trans (s := s) hm.staysKnown (staysKnown_afterPage page u)
  | pageEnded u _ _ _ he => exact he.staysKnown hp

/-- Settles O36: completed writes replace a cache's value, `raise` keeps it, and only the session start is left. -/
theorem cachesClearedBySessionStartOnly : Obligations.CachesClearedBySessionStartOnly := by
  unfold Obligations.CachesClearedBySessionStartOnly
  refine ⟨fun i s t hr hp hi h => (did_of_exec hr h).staysKnown hp hi, fun s t hc hp hport h => ?_⟩
  have counted : (afterPoint s).por = [] := by rw [afterPoint_noReset hp, hp]
  cases step_did hc h with
  | reset h0 => simp [hp] at h0
  | waited => exact staysKnown_of_eq rfl rfl
  | page page u _ _ _ hm => exact StaysKnown.trans (s := s) hm.staysKnown (staysKnown_afterPage page u)
  | pageEnded u _ _ he => exact he.staysKnown counted
  | ran f rest i t _ hb hport' hd _ hdid => exact hdid.staysKnown counted (hport hb f rest i hport' hd)

end Sys2Proof.Machine
end

section
/-! The caches (10_state.md R21 to R23, R37): a new value was written with a whole frame, the caches mirror the target
where nobody interferes, and a recorded SELECT value is a bank where the host does not write another. -/

namespace Sys2Proof.Machine

/-! ## How an operation comes back as an instruction -/

section
variable {s t : State}

/-- Two judgements of one operation are one. -/
theorem Comes.and {α : Type} {m : Op α} {Q Q' : α → State → Prop} {E E' : State → Prop} (h : Comes m s Q E)
    (h' : Comes m s Q' E') : Comes m s (fun a t => Q a t ∧ Q' a t) fun t => E t ∧ E' t := by
  unfold Comes at h h' ⊢
  cases hm : m s <;> simp_all

theorem runCommand_eq_next {m : Op (Option Word)} (h : runCommand m s = .next t) :
    (∃ r u, m s = .done r u ∧ t = respond r u) ∨ m s = .ended t := by
  unfold runCommand at h
  cases hm : m s with
  | done r u =>
    simp only [hm, Host.Outcome.next.injEq] at h
    exact .inl ⟨r, u, rfl, h.symm⟩
  | ended u =>
    simp only [hm, Host.Outcome.next.injEq] at h
    exact .inr (h ▸ rfl)
  | halted x => cases x <;> simp [hm, haltOutcome] at h

theorem runInternal_eq_next {m : Op (Option OpResult)} (ha : s.sess_dead = false) (h : runInternal m s = .next t) :
    (∃ r u, m (setResult none s) = .done r u ∧ t = setResult r u) ∨ m (setResult none s) = .ended t := by
  simp only [runInternal, ha, Bool.false_eq_true, if_false] at h
  cases hm : m (setResult none s) with
  | done r u =>
    simp only [hm, Host.Outcome.next.injEq] at h
    exact .inl ⟨r, u, rfl, h.symm⟩
  | ended u =>
    simp only [hm, Host.Outcome.next.injEq] at h
    exact .inr (h ▸ rfl)
  | halted x => cases x <;> simp [hm, haltOutcome] at h

theorem dumpStep_eq_next (h : dumpStep s = .next t) :
    (∃ page u, readPage s = .done page u ∧ t = afterPage page u) ∨ ∃ u, readPage s = .ended u ∧ t = dumpAborted u := by
  unfold dumpStep at h
  cases hm : readPage s with
  | done page u =>
    simp only [hm, Host.Outcome.next.injEq] at h
    exact .inl ⟨page, u, rfl, h.symm⟩
  | ended u =>
    simp only [hm, Host.Outcome.next.injEq] at h
    exact .inr ⟨u, rfl, h.symm⟩
  | halted x => cases x <;> simp [hm, haltOutcome] at h

end

/-! ## The mirror -/

/-- What a command or a step has done to the mirror of the caches: the session is dead or the caches are unknown, so they
claim nothing; or what agreed with the target agrees after the writes sent, those of the session going on or of a new
one. -/
inductive Mirrored (A : Agreement) (s t : State) : Prop where
  | dead : t.sess_dead = true → Mirrored A s t
  | unknown : t.bank = none → t.tar = none → Mirrored A s t
  | kept : s.sess_dead = false → Kept A s t → Mirrored A s t
  | fresh : Kept A (sessionStart s) t → Mirrored A s t

section
variable {A : Agreement} {s t : State}

theorem Ended.mirrored {s₀ : State} (h : Ended s₀ t) : Mirrored A s t := by
  obtain ⟨u, _, ⟨e, rfl⟩ | ⟨_, rfl⟩⟩ := h
  · exact .dead rfl
  · exact .unknown rfl rfl

/-- A state that nothing but its response tells from `s`. -/
theorem mirrored_same (hd : t.sess_dead = s.sess_dead) (hc : t.cfg = s.cfg) (he : t.events = s.events)
    (hb : t.bank = s.bank) (ht : t.tar = s.tar) : Mirrored A s t := by
  cases ha : s.sess_dead with
  | true => exact .dead (hd.trans ha)
  | false => exact .kept ha ⟨hc, [], [], by simp [he], wrote_nil, fun _ h => by rwa [hb, ht]⟩

/-- An access keeps the mirror where its operation does. -/
theorem runChecked_mirrored {m : Op (Option Word)} (ha : s.sess_dead = false)
    (hk : Comes m s (fun _ u => Held A s u) fun _ => True) (he : Comes m s (fun _ _ => True) (Ended s))
    (h : runChecked m s = .next t) : Mirrored A s t := by
  rw [runChecked_alive ha] at h
  rcases runCommand_eq_next h with ⟨r, u, hm, rfl⟩ | hm
  · exact .kept ha (hk.of_done hm).kept
  · exact (he.of_ended hm).mirrored

theorem exec_rd_mirrored {id : BitVec 8} (hr : AtRest s) (ha : s.sess_dead = false) (hc : Mirrorable A s.cfg)
    (h : exec (.rd id) s = .next t) : Mirrored A s t := by
  refine runChecked_mirrored ha (comes_andThen (keeps_readReg ⟨kept_refl s, hr, ha⟩ hc fun _ _ hu =>
    comes_of_done (ret_apply _ _) hu)) ?_ h
  exact comes_andThen (comes_readReg hr ha (fun _ _ _ _ _ _ _ _ _ _ _ => comes_of_done (ret_apply _ _) trivial)
    fun _ h => h)

theorem exec_wr_mirrored {id : BitVec 8} {v : Word} (hr : AtRest s) (ha : s.sess_dead = false) (hc : Mirrorable A s.cfg)
    (h : exec (.wr id v) s = .next t) : Mirrored A s t := by
  refine runChecked_mirrored ha (comes_andThen (keeps_writeReg ⟨kept_refl s, hr, ha⟩ hc fun _ hu =>
    comes_of_done (ret_apply _ _) hu)) ?_ h
  exact comes_andThen (comes_writeReg hr ha (fun _ _ _ _ _ _ _ _ _ => comes_of_done (ret_apply _ _) trivial)
    fun _ h => h)

theorem exec_bringup_mirrored (hc : Mirrorable A s.cfg) (h : exec .bringup s = .next t) : Mirrored A s t := by
  rcases runCommand_eq_next h with ⟨r, u, hm, rfl⟩ | hm
  · exact .fresh ((keeps_bringupSequence s hc).of_done hm).kept
  · obtain ⟨x, _, he⟩ := (comes_bringupSequence s).of_ended hm
    exact he.mirrored

theorem kept_afterPage {u : State} (page : List Byte) (h : Kept A s u) : Kept A s (afterPage page u) := by
  unfold afterPage
  split <;> exact h

theorem dumpStep_mirrored {addr : Word} (hr : AtRest s) (ha : s.sess_dead = false) (hf : s.fd_addr = some addr)
    (hc : Mirrorable A s.cfg) (h : dumpStep s = .next t) : Mirrored A s t := by
  rcases dumpStep_eq_next h with ⟨page, u, hm, rfl⟩ | ⟨u, hm, rfl⟩
  · exact .kept ha (kept_afterPage page ((keeps_readPage ⟨kept_refl s, hr, ha⟩ hf hc).of_done hm).kept)
  · obtain ⟨w, _, ⟨e, rfl⟩ | ⟨_, rfl⟩⟩ := (comes_readPage hr ha hf).of_ended hm
    · exact .dead rfl
    · exact .unknown rfl rfl

/-- Every host command keeps the mirror. -/
theorem exec_mirrored {i : Instr} (hi : isInternal i = false) (hr : AtRest s) (hc : Mirrorable A s.cfg)
    (h : exec i s = .next t) : Mirrored A s t := by
  cases did_of_exec hr h with
  | pure | refused => exact mirrored_same rfl rfl rfl rfl rfl
  | sreset => exact .unknown rfl rfl
  | notStarted hin | internal _ _ hin | internalEnded _ hin => simp [hi] at hin
  | snoop d v e => simp [e, isInternal] at hi
  | access r u hx ha | accessEnded _ hx ha =>
    obtain ⟨id, rfl | ⟨v, rfl⟩⟩ := hx
    · exact exec_rd_mirrored hr ha hc h
    · exact exec_wr_mirrored hr ha hc h
  | bringup u e | bringupEnded _ e => exact exec_bringup_mirrored hc (e ▸ h)
  | page page u e ha ready | pageEnded u e ha ready =>
    subst e
    rw [exec, execDump, if_neg (by simp [ha, ready])] at h
    cases dumpStep_mirrored (s := dumpStart s) (atRest_dumpStart hr) ha rfl hc h with
    | dead hd => exact .dead hd
    | unknown hb ht => exact .unknown hb ht
    | kept _ hk => exact .kept ha hk
    | fresh hk => exact .fresh hk

/-- A host command is no internal operation. -/
theorem isInternal_decodeCommand (w : BitVec 44) : isInternal (decodeCommand w) = false := by
  unfold decodeCommand
  split <;> rfl

/-- Every step keeps the mirror, where the word at the port is a command (log 5). -/
theorem step_mirrored (hcoh : Coherent s) (hport : ThroughRouter s) (hc : Mirrorable A s.cfg)
    (h : step s = .next t) : Mirrored A s t := by
  have running : s.por.head? ≠ some 0 → stepRunning (afterPoint s) = .next t := fun h0 => by
    rwa [step_of_noReset (wellFormed_of_step h) h0] at h
  have busy : s.por.head? ≠ some 0 → s.fd_busy = true → Mirrored A s t := fun h0 hb => by
    obtain ⟨alive, _, _, addr, hf, _⟩ := hcoh.busy hb
    have page := running h0
    rw [stepRunning_of_busy (s := afterPoint s) hb] at page
    cases dumpStep_mirrored (s := afterPoint s) (atRest_afterPoint hcoh.rest) alive hf hc page with
    | dead hd => exact .dead hd
    | unknown hb ht => exact .unknown hb ht
    | kept _ hk => exact .kept alive hk
    | fresh hk => exact .fresh hk
  cases step_did hcoh h with
  | reset => exact .unknown rfl rfl
  | waited => exact mirrored_same rfl rfl rfl rfl rfl
  | page page u h0 hb => exact busy h0 hb
  | pageEnded u h0 hb => exact busy h0 hb
  | ran f rest i t _ _ hp hd hexec _ =>
    have hi : isInternal i = false := by
      cases f with
      | command w =>
        obtain rfl := Except.ok.inj hd
        exact isInternal_decodeCommand w
      | request b v => exact absurd hp (hport b v rest)
    cases exec_mirrored hi (atRest_taken rest (atRest_afterPoint hcoh.rest)) hc hexec with
    | dead hd => exact .dead hd
    | unknown hb ht => exact .unknown hb ht
    | kept ha hk => exact .kept ha hk
    | fresh hk => exact .fresh hk

/-- Over events in which the target changes by the block's writes alone, what agreed before agrees after. -/
theorem Mirrored.agree {r : TargetRegs} {es : List Event} (h : Mirrored A s t) (hA : ∀ r, A none none r)
    (he : t.events = s.events ++ es) (hr : s.sess_dead = false → A s.bank s.tar r) (alive : t.sess_dead = false) :
    A t.bank t.tar ((writesSent 0#8 es).foldl (targetWrite s.cfg) r) := by
  have from_kept {s₀ : State} (hev : s₀.events = s.events) (hcfg : s₀.cfg = s.cfg) (hk : Kept A s₀ t)
      (h₀ : A s₀.bank s₀.tar r) : A t.bank t.tar ((writesSent 0#8 es).foldl (targetWrite s.cfg) r) := by
    obtain ⟨_, fs, ws, hf, hw, ha⟩ := hk
    rw [hev] at hf
    obtain rfl := List.append_cancel_left (hf.symm.trans he)
    rw [hw.eq, ← hcfg]
    exact ha r h₀
  cases h with
  | dead hd => simp [alive] at hd
  | unknown hb ht =>
    rw [hb, ht]
    exact hA _
  | kept ha hk => exact from_kept rfl rfl hk (hr ha)
  | fresh hk => exact from_kept (s₀ := sessionStart s) rfl rfl hk (hA r)

end

/-- Settles O35: the frames of what is new in a cache are in the trace, and the mirror follows the block's writes. -/
theorem cacheValuesWereWritten : Obligations.CacheValuesWereWritten := by
  unfold Obligations.CacheValuesWereWritten
  refine ⟨fun i s t hr hi h => ?instr, fun s t hc h => ?step, fun s t v v' es hc hport hv h he hu => ?select,
    fun s t r r' es hc hport hapart hm h he hn => ?both⟩
  case instr =>
    obtain ⟨es, he, _, hb, ht⟩ := (did_of_exec hr h).accounted hi
    exact ⟨es, he, hb, ht⟩
  case step =>
    obtain ⟨es, he, _, hb, ht⟩ := step_accounted hc h
    exact ⟨es, he, hb, ht⟩
  case select =>
    intro alive w hw
    have agreed := (step_mirrored hc hport mirrorable_select h).agree (r := ⟨v, 0#32⟩) (fun _ _ h => nomatch h) he
      (fun ha => hv ha) alive w hw
    rw [select_foldl] at agreed
    exact hu.trans agreed
  case both =>
    have agreed := (step_mirrored hc hport (mirrorable_both (wellFormed_of_step h) hapart) h).agree (r := r)
      agree_unknown he fun ha => ⟨hm.select ha, hm.tar ha⟩
    rw [NoInterference] at hn
    rw [hn]
    exact ⟨fun alive => (agreed alive).select, fun alive => (agreed alive).tar⟩

/-! ## The recorded SELECT value -/

/-- A SELECT value that selects a bank: bits 31 to 8 and 3 to 0 are 0 (10_state.md R21). -/
def IsBank (v : Word) : Prop := v &&& 0xFFFFFF0F#32 = 0#32

/-- Over the parameters `c`, the recorded SELECT value is a bank. -/
structure SelectIsBank (c : Cfg) (s : State) : Prop where
  cfg : s.cfg = c
  bank : ∀ v, s.bank = some v → IsBank v

/-- What was recorded as a bank in `s` is a bank in `t`. -/
def StaysBank (c : Cfg) (s t : State) : Prop := SelectIsBank c s → SelectIsBank c t

/-- The value written for a bank is one (30_encoding.md R90). -/
theorem isBank_selectValue {b : BitVec 8} (h : b &&& 0x0F#8 = 0#8) : IsBank (selectValue b) := by
  apply BitVec.eq_of_getLsbD_eq
  intro i hi
  have low : ∀ i, i < 4 → (0x0F#8).getLsbD i = true := by decide
  have mask : ∀ i, 4 ≤ i → i < 8 → (0xFFFFFF0F#32).getLsbD i = false := by decide
  have bit := congrArg (fun x => x.getLsbD i) h
  simp only [BitVec.getLsbD_and, BitVec.getLsbD_zero] at bit
  simp only [selectValue, BitVec.truncate_eq_setWidth, BitVec.getLsbD_and, BitVec.getLsbD_setWidth, BitVec.getLsbD_zero]
  by_cases h4 : i < 4
  · rw [low i h4, Bool.and_true] at bit
    simp [bit]
  · by_cases h8 : i < 8
    · simp [mask i (by omega) h8]
    · simp [BitVec.getLsbD_of_ge b i (by omega)]

/-- The bits that make a bank (20_memory.md R52). -/
theorem isBank_masked (b : BitVec 8) : IsBank (selectValue (b &&& 0xF0#8)) :=
  isBank_selectValue (by rw [BitVec.and_assoc]; exact BitVec.and_zero)

/-- A well-formed operand of `ENSBANK` is a bank (44_register_router.md R172). -/
theorem isBank_of_wellFormed {b : BitVec 8} (h : (Instr.ensbank b).wellFormed = true) : IsBank (selectValue b) := by
  refine isBank_selectValue (BitVec.eq_of_getLsbD_eq fun i hi => ?_)
  have low : b.extractLsb' 0 4 = 0#4 := by simpa [Instr.wellFormed] using h
  have high : ∀ i, 4 ≤ i → i < 8 → (0x0F#8).getLsbD i = false := by decide
  rw [BitVec.getLsbD_and, BitVec.getLsbD_zero]
  by_cases h4 : i < 4
  · have bit := congrArg (fun x => x.getLsbD i) low
    simp only [BitVec.getLsbD_extractLsb', h4, decide_true, Bool.true_and, Nat.zero_add, BitVec.getLsbD_zero] at bit
    rw [bit, Bool.false_and]
  · rw [high i (by omega) hi, Bool.and_false]

section
variable {c : Cfg}

/-- A transaction leaves the recorded value, and power-on reset forgets it. -/
theorem staysBank_closed (c : Cfg) : TxnClosed (StaysBank c) where
  refl _ h := h
  trans h h' x := h' (h x)
  setPhase _ _ h := ⟨h.cfg, h.bank⟩
  setInputs _ _ _ _ h := ⟨h.cfg, h.bank⟩
  setHeader _ _ _ h := ⟨h.cfg, h.bank⟩
  setValue _ _ _ h := ⟨h.cfg, h.bank⟩
  clearLatches _ h := ⟨h.cfg, h.bank⟩
  ran _ _ _ h := ⟨h.cfg, h.bank⟩
  afterPoint _ h := ⟨h.cfg, h.bank⟩
  raised _ _ h := ⟨h.cfg, h.bank⟩
  powerOnReset _ _ h := ⟨h.cfg, fun _ hv => nomatch hv⟩

theorem bank_andThen {α β : Type} {m : Op α} {f : α → Op β} (hm : Within (StaysBank c) m)
    (hf : ∀ a, Within (StaysBank c) (f a)) : Within (StaysBank c) (andThen m f) :=
  within_andThen (staysBank_closed c).trans hm hf

theorem bank_ret {α : Type} (a : α) : Within (StaysBank c) (ret a) := within_ret a (staysBank_closed c).refl

theorem bank_look {α : Type} (f : State → α) : Within (StaysBank c) (look f) :=
  within_look f (staysBank_closed c).refl

theorem bank_swdwr (apndp : Bool) (a : BitVec 2) (v : Word) : Within (StaysBank c) (swdwr apndp a v) :=
  within_swdwr apndp a v (staysBank_closed c)

theorem bank_stagedRead (a : BitVec 2) : Within (StaysBank c) (stagedRead a) :=
  within_stagedRead a (staysBank_closed c)

/-- Only states over the parameters `c` matter. -/
theorem bank_of_cfg {α : Type} {m : Op α} (h : ∀ s, s.cfg = c → (∀ a t, m s = .done a t → StaysBank c s t) ∧
    ∀ t, m s = .ended t → StaysBank c s t) : Within (StaysBank c) m := fun s => by
  by_cases hs : s.cfg = c
  · exact h s hs
  · exact ⟨fun _ _ _ hb => absurd hb.cfg hs, fun _ _ hb => absurd hb.cfg hs⟩

/-- A look at a parameter sees that of `c`. -/
theorem bank_parameter {γ α : Type} (f : Cfg → γ) {K : γ → Op α} (hK : Within (StaysBank c) (K (f c))) :
    Within (StaysBank c) (andThen (look fun s => f s.cfg) K) := bank_of_cfg fun s hs => by
  have seen : andThen (look fun s => f s.cfg) K s = K (f c) s := by rw [andThen_of_done (look_apply _ _), hs]
  rw [seen]
  exact hK s

theorem bank_ensBank {b : BitVec 8} (hb : IsBank (selectValue b)) : Within (StaysBank c) (ensBank b) := fun s => by
  have written : Within (StaysBank c) (andThen (swdwr false (selectSlot s.cfg) (selectValue b))
      fun _ => modify (setBank (selectValue b))) :=
    bank_andThen (bank_swdwr _ _ _) fun _ => within_modify fun _ h => ⟨h.cfg, fun _ hv => Option.some.inj hv ▸ hb⟩
  unfold ensBank
  split
  · exact bank_ret () s
  · exact written s

theorem bank_ensTar (t : Word) : Within (StaysBank c) (ensTar t) := fun s => by
  have written : Within (StaysBank c) (andThen (ensBank (tarBank s.cfg)) fun _ =>
      andThen (swdwr true (tarSlot s.cfg) t) fun _ => modify (setTar t)) :=
    bank_andThen (bank_ensBank (isBank_masked _)) fun _ =>
      bank_andThen (bank_swdwr _ _ _) fun _ => within_modify fun _ h => ⟨h.cfg, h.bank⟩
  unfold ensTar
  split
  · exact bank_ret () s
  · exact written s

theorem bank_openWindow (addr : Word) : Within (StaysBank c) (openWindow addr) :=
  bank_andThen (bank_look _) fun _ => bank_andThen (bank_ensTar _) fun _ => bank_ensBank (isBank_masked 0x10#8)

theorem bank_readDescriptor (d : Descriptor) : Within (StaysBank c) (readDescriptor d) := by
  unfold readDescriptor
  split
  · exact within_swdrd _ _ (staysBank_closed c)
  · exact bank_andThen (bank_ensBank (isBank_masked _)) fun _ => bank_stagedRead _
  all_goals exact bank_andThen (bank_look _) fun _ => bank_andThen (bank_openWindow _) fun _ => bank_stagedRead _

/-- A write that does not name SELECT. -/
theorem bank_writeDescriptor {d : Descriptor} {v : Word} (hd : d.space = .dp → slotOf d.offset ≠ selectSlot c) :
    Within (StaysBank c) (writeDescriptor d v) := by
  have snoop : Within (StaysBank c) (snoopOp d v) := within_modify fun s h => by
    refine ⟨h.cfg, fun w hw => h.bank w ?_⟩
    rwa [snooped_bank, if_neg (fun hs => hd hs.1 (h.cfg ▸ hs.2))] at hw
  unfold writeDescriptor
  split
  · exact bank_andThen (bank_swdwr _ _ _) fun _ => snoop
  · exact bank_andThen (bank_ensBank (isBank_masked _)) fun _ => bank_andThen (bank_swdwr _ _ _) fun _ => snoop
  all_goals exact bank_andThen (bank_look _) fun _ => bank_andThen (bank_openWindow _) fun _ => bank_swdwr _ _ _

theorem bank_readReg (id : BitVec 8) : Within (StaysBank c) (readReg id) :=
  bank_andThen (within_resolveId id (staysBank_closed c)) bank_readDescriptor

/-- The Id does not name SELECT. -/
def NotSelect (c : Cfg) (id : BitVec 8) : Prop :=
  ∀ d, lookup c.regtab id = some d → d.space = .dp → slotOf d.offset ≠ selectSlot c

theorem bank_writeReg {id : BitVec 8} (v : Word) (hid : NotSelect c id) : Within (StaysBank c) (writeReg id v) :=
  bank_of_cfg fun s hs => by
    cases hl : lookup s.cfg.regtab id with
    | none =>
      rw [writeReg_of_unknown hl]
      exact ⟨fun _ _ h => (nomatch h), fun t h => by cases h; exact (staysBank_closed c).raised _ s⟩
    | some d =>
      rw [writeReg_of_lookup hl]
      exact bank_writeDescriptor (hid d (hs ▸ hl)) s

/-- A register of the table is the one asked for, or the dump raises. -/
theorem requireReg_cases (d : Descriptor) (s : State) :
    requireReg d s = .done d s ∨ requireReg d s = .ended (raised .unknownRegister s) := by
  unfold requireReg
  rw [andThen_of_done (look_apply _ _)]
  by_cases h : d ∈ s.cfg.regtab.map Prod.snd
  · rw [findReg_of_mem h]
    exact .inl rfl
  · rw [findReg_of_not_mem h]
    exact .inr rfl

theorem bank_requireReg {α : Type} {d : Descriptor} {K : Descriptor → Op α} (hK : Within (StaysBank c) (K d)) :
    Within (StaysBank c) (andThen (requireReg d) K) := fun s => by
  rcases requireReg_cases d s with h | h
  · rw [andThen_of_done h]
    exact hK s
  · rw [andThen_of_ended h]
    exact ⟨fun _ _ h => (nomatch h), fun t h => by cases h; exact (staysBank_closed c).raised _ s⟩

theorem bank_readWords (drw : Descriptor) (n : Nat) (page : List Byte) :
    Within (StaysBank c) (readWords drw n page) := by
  induction n generalizing page with
  | zero => exact bank_ret page
  | succ n ih => exact bank_andThen (bank_readDescriptor drw) fun _ => ih _

/-- A page writes TAR, a register of the access port. -/
theorem bank_readPage : Within (StaysBank c) readPage :=
  bank_andThen (within_latched _ (staysBank_closed c).refl) fun _ =>
    bank_parameter tarDescriptor (bank_parameter drwDescriptor (bank_requireReg (bank_requireReg
      (bank_andThen (bank_writeDescriptor fun h => nomatch h) fun _ => bank_readWords _ _ _))))

theorem bank_expectWord (w v : Word) (e : ErrorKind) : Within (StaysBank c) (expectWord w e v) := by
  unfold expectWord
  split
  · exact bank_ret ()
  · exact within_raise e ((staysBank_closed c).raised e)

theorem bank_advanceTo (x : BuState) : Within (StaysBank c) (advanceTo x) :=
  within_modify fun _ h => ⟨h.cfg, h.bank⟩

theorem bank_bringupRaw : Within (StaysBank c) bringupRaw := by
  have raw (bytes : List Byte) (x : BuState) :
      Within (StaysBank c) (andThen (rawSend bytes) fun _ => advanceTo x) :=
    bank_andThen (within_rawSend bytes (staysBank_closed c)) fun _ => bank_advanceTo x
  exact bank_andThen (raw _ _) fun _ => bank_andThen (bank_andThen (bank_look _) fun _ => raw _ _) fun _ =>
    bank_andThen (raw _ _) fun _ => bank_andThen (bank_look _) fun _ => raw _ _

/-- The writes of a bring-up over parameters whose `BRINGUP_BANK` is a bank and whose Ids do not name SELECT. -/
theorem bank_bringupTransactions (hb : c.bringupBank &&& 0x0F#8 = 0#8) (habort : NotSelect c c.ids.abort)
    (hctrl : NotSelect c c.ids.ctrlstat) (hcsw : NotSelect c c.ids.csw) :
    Within (StaysBank c) bringupTransactions := by
  have idCode : Within (StaysBank c) stepIdCodeCheck := bank_andThen (bank_look _) fun _ =>
    bank_andThen (bank_readReg _) fun _ => bank_andThen (bank_expectWord _ _ _) fun _ => bank_advanceTo _
  have abort : Within (StaysBank c) stepAbortCleared := bank_parameter (fun c => c.ids.abort)
    (bank_andThen (bank_look _) fun _ => bank_andThen (bank_writeReg _ habort) fun _ => bank_advanceTo _)
  have select : Within (StaysBank c) stepApBankSelected := bank_parameter (fun c => c.bringupBank)
    (bank_andThen (bank_ensBank (isBank_selectValue hb)) fun _ => bank_advanceTo _)
  have ctrl : Within (StaysBank c) stepCtrlStatNegotiated := bank_parameter (fun c => c.ids.ctrlstat)
    (bank_andThen (bank_look _) fun _ => bank_andThen (bank_writeReg _ hctrl) fun _ =>
      bank_andThen (bank_readReg _) fun _ => bank_andThen (bank_look _) fun _ =>
      bank_andThen (bank_expectWord _ _ _) fun _ => bank_advanceTo _)
  have idr : Within (StaysBank c) stepIdrValidated := bank_andThen (bank_look _) fun _ =>
    bank_andThen (bank_readReg _) fun _ => bank_andThen (bank_look _) fun _ =>
    bank_andThen (bank_expectWord _ _ _) fun _ => bank_advanceTo _
  have csw : Within (StaysBank c) stepCswConfigured := bank_parameter (fun c => c.ids.csw)
    (bank_andThen (bank_look _) fun _ => bank_andThen (bank_writeReg _ hcsw) fun _ =>
      bank_andThen (bank_readReg _) fun _ => bank_andThen (bank_expectWord _ _ _) fun _ => bank_advanceTo _)
  exact bank_andThen idCode fun _ => bank_andThen abort fun _ => bank_andThen select fun _ =>
    bank_andThen ctrl fun _ => bank_andThen idr fun _ => csw

/-! From an operation to the instruction that runs it. -/

theorem bank_runChecked {m : Op (Option Word)} {s t : State} (hm : Within (StaysBank c) m)
    (h : runChecked m s = .next t) : StaysBank c s t := by
  unfold runChecked at h
  split at h
  · cases h
    exact fun h => ⟨h.cfg, h.bank⟩
  · rcases runCommand_eq_next h with ⟨r, u, hu, rfl⟩ | hu
    · exact fun h => ⟨((hm s).1 r u hu h).cfg, ((hm s).1 r u hu h).bank⟩
    · exact (hm s).2 t hu

theorem bank_runInternal {m : Op (Option OpResult)} {s t : State} (hm : Within (StaysBank c) m)
    (h : runInternal m s = .next t) : StaysBank c s t := by
  have prepared (h : SelectIsBank c s) : SelectIsBank c (setResult none s) := ⟨h.cfg, h.bank⟩
  cases ha : s.sess_dead with
  | true =>
    rw [runInternal, if_pos ha] at h
    cases h
    exact fun h => h
  | false =>
    rcases runInternal_eq_next ha h with ⟨r, u, hu, rfl⟩ | hu
    · exact fun h => ⟨((hm _).1 r u hu (prepared h)).cfg, ((hm _).1 r u hu (prepared h)).bank⟩
    · exact fun h => (hm _).2 t hu (prepared h)

theorem bank_noResult {m : Op Unit} (hm : Within (StaysBank c) m) : Within (StaysBank c) (noResult m) :=
  bank_andThen hm fun _ => bank_ret none

theorem bank_afterPage {s : State} (page : List Byte) (h : SelectIsBank c s) : SelectIsBank c (afterPage page s) := by
  unfold afterPage
  split <;> exact ⟨h.cfg, h.bank⟩

theorem bank_dumpStep {s t : State} (h : dumpStep s = .next t) : StaysBank c s t := fun hs => by
  rcases dumpStep_eq_next h with ⟨page, u, hu, rfl⟩ | ⟨u, hu, rfl⟩
  · exact bank_afterPage page ((bank_readPage s).1 page u hu hs)
  · have ended := (bank_readPage s).2 u hu hs
    exact ⟨ended.cfg, ended.bank⟩

/-- A bring-up records banks alone, over such parameters. -/
theorem bank_bringup {s t : State} (hb : c.bringupBank &&& 0x0F#8 = 0#8) (habort : NotSelect c c.ids.abort)
    (hctrl : NotSelect c c.ids.ctrlstat) (hcsw : NotSelect c c.ids.csw) (h : exec .bringup s = .next t) :
    StaysBank c s t := by
  have started : Within (StaysBank c) (modify sessionStart) := within_modify fun _ h => ⟨h.cfg, fun _ hv => nomatch hv⟩
  have sequence : Within (StaysBank c) bringupSequence := bank_andThen started fun _ =>
    bank_andThen bank_bringupRaw fun _ => bank_andThen (bank_bringupTransactions hb habort hctrl hcsw) fun _ =>
    bank_andThen (bank_advanceTo _) fun _ => bank_ret none
  rcases runCommand_eq_next h with ⟨r, u, hu, rfl⟩ | hu
  · exact fun h => ⟨((sequence s).1 r u hu h).cfg, ((sequence s).1 r u hu h).bank⟩
  · exact (sequence s).2 t hu

/-- Every well-formed instruction but `SNOOP` and a write of SELECT itself. -/
theorem bank_exec {i : Instr} {s t : State} (hr : AtRest s) (hw : i.wellFormed = true)
    (hsnoop : ∀ d v, i ≠ .snoop d v)
    (hbringup : i = .bringup → c.bringupBank &&& 0x0F#8 = 0#8 ∧
      ∀ id ∈ [c.ids.abort, c.ids.ctrlstat, c.ids.csw], NotSelect c id)
    (hwr : ∀ id v, i = .wr id v → NotSelect c id) (h : exec i s = .next t) : StaysBank c s t := by
  cases did_of_exec hr h with
  | pure | refused => exact fun h => ⟨h.cfg, h.bank⟩
  | sreset => exact fun h => ⟨h.cfg, fun _ hv => nomatch hv⟩
  | notStarted => exact fun h => h
  | snoop d v e => exact absurd e (hsnoop d v)
  | access r u hx | accessEnded _ hx =>
    obtain ⟨id, rfl | ⟨v, rfl⟩⟩ := hx
    · exact bank_runChecked (bank_andThen (bank_readReg id) fun _ => bank_ret _) h
    · exact bank_runChecked (bank_andThen (bank_writeReg v (hwr id v rfl)) fun _ => bank_ret _) h
  | bringup u e | bringupEnded _ e =>
    subst e
    obtain ⟨hb, hids⟩ := hbringup rfl
    exact bank_bringup hb (hids _ (by simp)) (hids _ (by simp)) (hids _ (by simp)) h
  | page page u e ha ready | pageEnded u e ha ready =>
    subst e
    rw [exec, execDump, if_neg (by simp [ha, ready])] at h
    exact fun hs => bank_dumpStep h ⟨hs.cfg, hs.bank⟩
  | internal _ _ hi | internalEnded _ hi =>
    cases hread : readRow i with
    | some x =>
      rw [exec_of_readRow hread] at h
      exact bank_runInternal (bank_andThen (within_swdrd _ _ (staysBank_closed c)) fun _ => bank_ret _) h
    | none =>
      cases hwrite : writeRow i with
      | some x =>
        rw [exec_of_writeRow hwrite] at h
        exact bank_runInternal (bank_noResult (bank_swdwr _ _ _)) h
      | none =>
        cases i with
        | rawsend bytes => exact bank_runInternal (bank_noResult (within_rawSend bytes (staysBank_closed c))) h
        | resolve id =>
          exact bank_runInternal (bank_andThen (within_resolveId id (staysBank_closed c)) fun _ => bank_ret _) h
        | ensbank b => exact bank_runInternal (bank_noResult (bank_ensBank (isBank_of_wellFormed hw))) h
        | enstar v => exact bank_runInternal (bank_noResult (bank_ensTar v)) h
        | snoop d v => exact absurd rfl (hsnoop d v)
        | _ => simp [isInternal, hread, hwrite] at hi

end

/-- Settles O37: every SELECT value the block records on its own account is made from a bank. -/
theorem recordedSelectIsABank : Obligations.RecordedSelectIsABank := by
  unfold Obligations.RecordedSelectIsABank
  refine ⟨fun i s t hr hw hsnoop hbringup hwr hb h => ?_, fun s t hc hbusy hb h => ?_⟩
  · exact (bank_exec (c := s.cfg) hr hw hsnoop hbringup (fun id v e d => hwr id v d e) h ⟨rfl, hb⟩).bank
  · by_cases h0 : s.por.head? = some 0
    · rw [step_of_reset (wellFormed_of_step h) h0] at h
      cases h
      exact fun _ hv => nomatch hv
    · rw [step_of_noReset (wellFormed_of_step h) h0, stepRunning_of_busy (s := afterPoint s) hbusy] at h
      exact (bank_dumpStep (c := s.cfg) h ⟨rfl, hb⟩).bank

end Sys2Proof.Machine
end

section
/-! The transactions (43_transaction_codec.md) and the cache controller's operations (44_register_router.md) as
instructions: complete when the transport answers, fatal at the point where it does not, and not started in a dead
session. -/

namespace Sys2Proof.Machine

/-! ## Transactions run on their own -/

/-- Confirmations, by the number awaited. -/
theorem confEvents_of_length {us : List Byte} {n : Nat} (h : us.length = n) :
    confEvents us = if n = 0 then [] else [.flush, .recv n (some us)] := h ▸ rfl

theorem parityUnit_eq_ite (w : Word) : parityUnit w = if wpar w then 0x01#8 else 0x00#8 := by
  unfold parityUnit
  cases wpar w <;> rfl

section
variable {i : Instr} {s : State} {apndp : Bool} {a : BitVec 2} {v : Word} {r : Reply} {rest : List RxItem}

theorem frame_read : frameEvents (.read apndp a, r) = openingEvents (wireByte a apndp true) r ++
    ([.send [.rdbyte, .rdbyte, .rdbyte, .rdbyte, .rdbit], .flush, .recv 4 (some (wordBytes r.word)),
      .recv 1 (some [parityUnit r.word]), .send [.clk]] : List Event) ++ confEvents r.fin := rfl

theorem frame_write : frameEvents (.write apndp a v, r) = openingEvents (wireByte a apndp false) r ++
    ([.send [.wr 4, .byte (v.extractLsb' 0 8), .byte (v.extractLsb' 8 8), .byte (v.extractLsb' 16 8),
             .byte (v.extractLsb' 24 8), if wpar v then .pset else .pclr],
      .flush, .recv 2 (some r.fin)] : List Event) := rfl

/-- Every read row completes when the transport answers (R150). -/
theorem exec_read_good (hi : readRow i = some (apndp, a)) (hu : Usable s) (hidle : s.t_phase = .idle)
    (hfit : replyFits s.cfg (.read apndp a, r)) (hrx : s.rx = delivered (replyUnits (.read apndp a, r)) ++ rest) :
    exec i s = .next { clearLatches s with
      rx := rest, op_result := some (.word r.word), events := s.events ++ frameEvents (.read apndp a, r) } := by
  have done := swdrd_good (s := setResult none s) hu.alive hidle hu.noReset hfit hrx
  rw [exec_of_readRow hi, readOnItsOwn, runInternal_of_done hu.alive (andThen_ret (g := fun w => some (.word w)) done)]
  rfl

/-- Every write row completes when the transport answers (R151). -/
theorem exec_write_good (hi : writeRow i = some (apndp, a, v)) (hu : Usable s) (hidle : s.t_phase = .idle)
    (hfit : replyFits s.cfg (.write apndp a v, r)) (hrx : s.rx = delivered (replyUnits (.write apndp a v, r)) ++ rest) :
    exec i s = .next { clearLatches s with
      rx := rest, op_result := none, events := s.events ++ frameEvents (.write apndp a v, r) } := by
  have done := swdwr_good (s := setResult none s) hu.alive hidle hu.noReset hfit hrx
  rw [exec_of_writeRow hi, writeOnItsOwn, runInternal_of_done hu.alive (noResult_of_done done)]
  rfl

end

/-- Settles O20: the read transaction answered, its frame laid out. -/
theorem readRequestsComplete : Obligations.ReadRequestsComplete := by
  unfold Obligations.ReadRequestsComplete
  intro i apndp a s r rest hi hu hidle hfit hrx
  obtain ⟨_, hturn, hfin⟩ := id hfit
  rw [exec_read_good hi hu hidle hfit hrx]
  simp only [frame_read, openingEvents, confEvents_of_length hturn, confEvents_of_length hfin, parityUnit_eq_ite,
    wordBytes]

/-- Settles O21: the write transaction answered, its frame laid out. -/
theorem writeRequestsComplete : Obligations.WriteRequestsComplete := by
  unfold Obligations.WriteRequestsComplete
  intro i apndp a v s r rest hi hu hidle hfit hrx
  obtain ⟨_, hturn, _⟩ := id hfit
  rw [exec_write_good hi hu hidle hfit hrx]
  simp only [frame_write, openingEvents, confEvents_of_length hturn]

theorem exec_rawsend (bytes : List Byte) (s : State) :
    exec (.rawsend bytes) s = runInternal (noResult (rawSend bytes)) s := rfl

/-- Settles O22: the empty string, the frame with its confirmations, and the time limit before them. -/
theorem rawsendCompletes : Obligations.RawsendCompletes := by
  unfold Obligations.RawsendCompletes
  refine ⟨fun s hu hidle => ?empty, fun bytes s conf rest hb hu hidle hconf hrx => ?frame,
    fun bytes s us rest hb hu hidle hshort hrx => ?timeout⟩
  case empty =>
    have done := rawSend_nil (s := setResult none s) hu.alive hidle
    rw [exec_rawsend, runInternal_of_done hu.alive (noResult_of_done done)]
    rfl
  case frame =>
    have done := rawSend_good (s := setResult none s) hb hu.alive hidle hu.noReset hconf hrx
    rw [exec_rawsend, runInternal_of_done hu.alive (noResult_of_done done), confEvents_of_length hconf]
    rfl
  case timeout =>
    have ended := rawSend_timeLimit (s := setResult none s) hb hu.alive hidle hu.noReset hshort hrx
    rw [exec_rawsend, runInternal_of_ended hu.alive (noResult_of_ended ended)]
    rfl

/-- Settles O23: the transaction's own law for a failing answer, under the row that runs it. -/
theorem failedTransactionIsFatal : Obligations.FailedTransactionIsFatal := by
  unfold Obligations.FailedTransactionIsFatal
  rintro i ⟨x, r⟩ st s rest (⟨apndp, a, hi, rfl⟩ | ⟨apndp, a, v, hi, rfl⟩) hu hidle hfit hst hrx
  · have ended := swdrd_stop (s := setResult none s) hu.alive hidle hu.noReset hfit hst hrx
    rw [exec_of_readRow hi, readOnItsOwn, runInternal_of_ended hu.alive (andThen_of_ended ended), raised_ran]
    rfl
  · have ended := swdwr_stop (s := setResult none s) hu.alive hidle hu.noReset hfit hst hrx
    rw [exec_of_writeRow hi, writeOnItsOwn, runInternal_of_ended hu.alive (noResult_of_ended ended), raised_ran]
    rfl

/-! ## Clocks and bits -/

/-- The bits of a request on the wire: the header from its bit 7 down (30_encoding.md R83, 20_memory.md R57). -/
theorem bitsLsbFirst_wireByte (a : BitVec 2) (apndp rnw : Bool) : bitsLsbFirst (wireByte a apndp rnw) =
    [true, apndp, rnw, a.getLsbD 0, a.getLsbD 1, hpar a apndp rnw, false, true] := by
  have bit (i : Nat) (hi : i < 8) : (wireByte a apndp rnw).getLsbD i = (header a apndp rnw).getLsbD (7 - i) :=
    getLsbD_revb _ hi
  simp only [bitsLsbFirst, bit _ (show 0 < 8 by decide), bit _ (show 1 < 8 by decide), bit _ (show 2 < 8 by decide),
    bit _ (show 3 < 8 by decide), bit _ (show 4 < 8 by decide), bit _ (show 5 < 8 by decide),
    bit _ (show 6 < 8 by decide), bit _ (show 7 < 8 by decide), getLsbD_header]
  rfl

/-- The four bytes of a word, bit 0 of each first, are the word's bits from bit 0 up. -/
theorem bits_wordBytes (w : Word) : (wordBytes w).flatMap bitsLsbFirst = (List.range 32).map fun k => w.getLsbD k := by
  have bit (start k : Nat) (hk : k < 8) : (w.extractLsb' start 8).getLsbD k = w.getLsbD (start + k) := by
    rw [BitVec.getLsbD_extractLsb', decide_eq_true hk, Bool.true_and]
  simp (disch := decide) only [wordBytes, List.flatMap_cons, List.flatMap_nil, bitsLsbFirst, bit]
  rfl

/-- A parity unit's bit 0 is the parity. -/
theorem getLsbD_parityUnit (w : Word) : (parityUnit w).getLsbD 0 = wpar w := by
  unfold parityUnit
  cases wpar w <;> rfl

/-- Confirmations take no token. -/
theorem tokens_confEvents (us : List Byte) : (confEvents us).flatMap eventTokens = [] := by
  unfold confEvents
  split <;> rfl

/-- The units of confirmations are bits sampled for no token. -/
theorem sampledBits_confEvents (m : TransportMode) (us : List Byte) (rest : List Event) :
    sampledBits m [] (confEvents us ++ rest) = sampledBits m [] rest := by
  unfold confEvents
  split
  · rfl
  · simp [sampledBits]

/-- The twelve clocks before the data phase: the request driven, the acknowledgment sampled, the turnaround idle. -/
def openingClocks (apndp rnw : Bool) (a : BitVec 2) : List Clock :=
  [true, apndp, rnw, a.getLsbD 0, a.getLsbD 1, hpar a apndp rnw, false, true].map Clock.driven ++
    List.replicate 3 Clock.sampled ++ [Clock.idle]

section
variable {m : TransportMode} {c : Cfg} {apndp : Bool} {a : BitVec 2} {v : Word} {r : Reply}

theorem wireClocks_opening (hm : TransportConfigured m c) (rnw : Bool) (rest : List Event) :
    wireClocks m (openingEvents (wireByte a apndp rnw) r ++ rest) = openingClocks apndp rnw a ++ wireClocks m rest := by
  simp only [wireClocks, openingEvents, List.flatMap_append, tokens_confEvents, List.append_nil]
  simp [eventTokens, tokenClocks, hm.lsbOut, bitsInOrder, bitsLsbFirst_wireByte, openingClocks]

/-- The bits sampled in the phases before the data phase: the acknowledgment (1, 0, 0). -/
theorem sampledBits_opening (hm : TransportConfigured m c) (W : Byte) (rest : List Event) :
    sampledBits m [] (openingEvents W r ++ rest) = [true, false, false] ++ sampledBits m [] rest := by
  rw [openingEvents, List.append_assoc]
  simp [sampledBits, List.filter_cons, tokenReads, hm.oneUnit, sampledFor, sampledBits_confEvents]

/-- The clocks of a read (R153). -/
theorem wireClocks_read (hm : TransportConfigured m c) : wireClocks m (frameEvents (.read apndp a, r)) =
    openingClocks apndp true a ++ List.replicate 32 Clock.sampled ++ [Clock.sampled] ++ [Clock.idle] := by
  rw [frame_read, List.append_assoc, wireClocks_opening hm]
  simp only [wireClocks, List.flatMap_append, tokens_confEvents, List.append_assoc]
  rfl

/-- The clocks of a write (R153). -/
theorem wireClocks_write (hm : TransportConfigured m c) : wireClocks m (frameEvents (.write apndp a v, r)) =
    openingClocks apndp false a ++ (List.range 32).map (fun k => Clock.driven (v.getLsbD k)) ++
      [Clock.driven (wpar v)] := by
  have word : (List.range 32).map (fun k => Clock.driven (v.getLsbD k)) =
      ((wordBytes v).flatMap bitsLsbFirst).map .driven := by rw [bits_wordBytes, List.map_map]; rfl
  rw [frame_write, wireClocks_opening hm, word]
  cases wpar v <;> simp [wireClocks, eventTokens, tokenClocks, hm.lsbOut, bitsInOrder, wordBytes]

/-- The bits sampled in a read: the acknowledgment, the word from bit 0 up, its parity. -/
theorem sampledBits_read (hm : TransportConfigured m c) : sampledBits m [] (frameEvents (.read apndp a, r)) =
    [true, false, false] ++ (List.range 32).map (fun k => r.word.getLsbD k) ++ [wpar r.word] := by
  have tail := sampledBits_confEvents m r.fin []
  rw [List.append_nil] at tail
  have parity : (parityUnit r.word)[0] = wpar r.word := getLsbD_parityUnit r.word
  rw [frame_read, List.append_assoc, sampledBits_opening hm, ← bits_wordBytes]
  simp [sampledBits, List.filter_cons, tokenReads, hm.oneUnit, hm.lsbIn, sampledFor, bitsInOrder, wordBytes, parity, tail]

/-- The bits sampled in a write: the acknowledgment. -/
theorem sampledBits_write (hm : TransportConfigured m c) :
    sampledBits m [] (frameEvents (.write apndp a v, r)) = [true, false, false] := by
  rw [frame_write, sampledBits_opening hm]
  cases wpar v <;> simp [sampledBits, tokenReads]

end

/-- Settles O24: the clocks and the sampled bits of the frame that a completed request leaves. -/
theorem transactionClocks : Obligations.TransactionClocks := by
  unfold Obligations.TransactionClocks
  refine ⟨fun m i apndp a s r rest hm hi hu hidle hfit hrx => ?read,
    fun m i apndp a v s r rest hm hi hu hidle hfit hrx => ?write⟩
  case read =>
    refine ⟨_, _, exec_read_good hi hu hidle hfit hrx, rfl, wireClocks_read hm, ?_, sampledBits_read hm⟩
    rw [wireClocks_read hm]
    rfl
  case write =>
    refine ⟨_, _, exec_write_good hi hu hidle hfit hrx, rfl, wireClocks_write hm, ?_, sampledBits_write hm⟩
    rw [wireClocks_write hm]
    rfl

/-! ## A dead session, and `raise` -/

/-- The operations the host does not issue as commands are all run in one way. -/
theorem exec_of_isInternal {i : Instr} (h : isInternal i = true) : ∃ m, ∀ s, exec i s = runInternal m s := by
  cases hr : readRow i with
  | some x => exact ⟨_, exec_of_readRow hr⟩
  | none =>
    cases hw : writeRow i with
    | some x => exact ⟨_, exec_of_writeRow hw⟩
    | none =>
      cases i with
      | rawsend | resolve | ensbank | enstar => exact ⟨_, fun _ => rfl⟩
      | snoop d v => exact ⟨noResult (snoopOp d v), fun _ => rfl⟩
      | _ => simp [isInternal, hr, hw] at h

theorem exec_internal_dead {i : Instr} {s : State} (hi : isInternal i = true) (hd : s.sess_dead = true) :
    exec i s = .next s := by
  obtain ⟨m, hm⟩ := exec_of_isInternal hi
  rw [hm, runInternal, if_pos hd]

/-- Settles O26: in a dead session `runInternal` starts nothing. -/
theorem internalOperationsNotStartedWhenDead : Obligations.InternalOperationsNotStartedWhenDead := by
  unfold Obligations.InternalOperationsNotStartedWhenDead
  exact fun i s hi hd => exec_internal_dead hi hd

/-- Settles O54: what `raise` writes, and that what ends an operation ends its callers. -/
theorem raiseRecordsAndEnds : Obligations.RaiseRecordsAndEnds := by
  unfold Obligations.RaiseRecordsAndEnds
  refine ⟨fun e s => ?_, fun m f s t h => andThen_of_ended h, fun m s t h => runCommand_of_ended h, fun s t h => ?_⟩
  · rw [raise_apply, raised, clearLatches]
  · rw [dumpStep, h]
    rfl

/-! ## The internal operations of the cache controller -/

section
variable {s : State} {id : BitVec 8}

theorem resolveId_of_lookup {d : Descriptor} (h : lookup s.cfg.regtab id = some d) : resolveId id s = .done d s := by
  simp [resolveId, andThen, h]

theorem resolveId_of_unknown (h : lookup s.cfg.regtab id = none) :
    resolveId id s = .ended (raised .unknownRegister s) := by
  simp [resolveId, andThen, h]

end

/-- Settles O27: the table holds the Id, or `raise`; the two examples are looked up. -/
theorem resolveLooksUpTheTable : Obligations.ResolveLooksUpTheTable := by
  unfold Obligations.ResolveLooksUpTheTable
  refine ⟨fun id s d ha h => ?found, fun id s ha h => ?unknown, rfl, rfl⟩
  case found =>
    have done : resolveId id (setResult none s) = .done d (setResult none s) := resolveId_of_lookup h
    rw [exec, execResolve,
      runInternal_of_done ha (andThen_ret (g := fun d => some (OpResult.descriptor d)) done)]
    rfl
  case unknown =>
    have ended : resolveId id (setResult none s) = .ended (raised .unknownRegister (setResult none s)) :=
      resolveId_of_unknown h
    rw [exec, execResolve, runInternal_of_ended ha (andThen_of_ended ended)]
    rfl

section
variable {m : Op Unit} {s : State} {txns : List Txn} {val : List (Txn × Reply) → Unit → Prop} {c : Option Word × Option Word}

/-- An internal operation that performs transactions, all of them answered. -/
theorem runInternal_good (h : Performs m (setResult none s) txns val c) (ha : s.sess_dead = false)
    {xs : List (Txn × Reply)} {rest : List RxItem} (hx : xs.map Prod.fst = txns) (hfit : ∀ x ∈ xs, replyFits s.cfg x)
    (hrx : s.rx = scriptOf xs ++ rest) :
    runInternal (noResult m) s = .next { s with
      bank := c.1, tar := c.2, op_result := none, rx := rest, events := s.events ++ eventsOf xs } := by
  obtain ⟨_, done, _⟩ := h.good xs rest hx hfit hrx
  rw [runInternal_of_done ha (noResult_of_done done)]
  rfl

/-- An internal operation that performs transactions, one of which fails. -/
theorem runInternal_stop (h : Performs m (setResult none s) txns val c) (hr : AtRest s) (ha : s.sess_dead = false)
    {xs : List (Txn × Reply)} {x : Txn × Reply} {st : Stop} {later : List Txn} {rest : List RxItem}
    (hx : xs.map Prod.fst ++ x.1 :: later = txns) (hxs : ∀ y ∈ xs, replyFits s.cfg y) (hfit : replyFits s.cfg x)
    (hst : stopFits s.cfg x st) (hrx : s.rx = scriptOf xs ++ stopScript x st ++ rest) :
    runInternal (noResult m) s = .next { s with
      bank := (cachesAfter (s.bank, s.tar) (xs.map Prod.fst)).1
      tar := (cachesAfter (s.bank, s.tar) (xs.map Prod.fst)).2
      sess_dead := true, err_code := some (stopError st), rsp_status := .error (stopError st), rsp_rdata := none
      op_result := none, rx := rest
      events := s.events ++ eventsOf xs ++ stopEvents s.cfg x st } := by
  have ended := h.stop xs x st later rest hx hxs hfit hst hrx
  rw [runInternal_of_ended ha (noResult_of_ended ended), raised_accessed (atRest_setResult none hr), List.append_assoc]
  rfl

theorem ready_setResult (hr : AtRest s) (hu : Usable s) : AtRest (setResult none s) ∧ Usable (setResult none s) :=
  ⟨atRest_setResult none hr, hu.alive, hu.noReset⟩

end

theorem exec_ensbank (b : BitVec 8) (s : State) : exec (.ensbank b) s = runInternal (noResult (ensBank b)) s := rfl

theorem exec_enstar (t : Word) (s : State) : exec (.enstar t) s = runInternal (noResult (ensTar t)) s := rfl

/-- A bank the cache does not hold takes one write of SELECT. -/
theorem bankTxns_of_miss {c : Cfg} {bank : Option Word} {b : BitVec 8} (h : bank ≠ some (b.zeroExtend 32)) :
    bankTxns c bank b = [.write false (selectSlot c) (b.zeroExtend 32)] := by
  rw [bankTxns, if_neg h]

/-- Settles O28: a hit performs nothing, a miss the one SELECT write, answered or not. -/
theorem ensbankWritesOnAMissOnly : Obligations.EnsbankWritesOnAMissOnly := by
  unfold Obligations.EnsbankWritesOnAMissOnly
  refine ⟨fun b s hu hb => ?hit, fun b s r rest hr hu hb hfit hrx => ?miss,
    fun b s r st rest hr hu hb hfit hst hrx => ?fails⟩
  case hit =>
    have done : ensBank b (setResult none s) = .done () (setResult none s) := if_pos hb
    rw [exec_ensbank, runInternal_of_done hu.alive (noResult_of_done done)]
    rfl
  case miss =>
    have performs := performs_ensBank (ready_setResult hr hu) b
    rw [exec_ensbank, runInternal_good performs hu.alive (xs := [(_, r)]) (rest := rest) (bankTxns_of_miss hb).symm
      (by simpa using hfit) (by simpa [scriptOf_cons] using hrx)]
    simp [eventsOf_cons]
  case fails =>
    have performs := performs_ensBank (ready_setResult hr hu) b
    rw [exec_ensbank, runInternal_stop performs hr hu.alive (xs := []) (x := (_, r)) (later := []) (rest := rest)
      (bankTxns_of_miss hb).symm (by simp) hfit hst (by simpa using hrx)]
    simp [cachesAfter]

/-- Settles O29: a hit performs nothing, a miss what R173 lists. -/
theorem enstarWritesOnAMissOnly : Obligations.EnstarWritesOnAMissOnly := by
  unfold Obligations.EnstarWritesOnAMissOnly
  refine ⟨fun t s hu ht => ?hit, fun t s xs rest hr hu ht hx hfit hrx => ?miss⟩
  case hit =>
    have done : ensTar t (setResult none s) = .done () (setResult none s) := if_pos ht
    rw [exec_enstar, runInternal_of_done hu.alive (noResult_of_done done)]
    rfl
  case miss =>
    have listed : xs.map Prod.fst = tarTxns s.cfg s.bank s.tar t := by rw [tarTxns, if_neg ht, hx, bankTxns]
    have after : bankAfterTar s.cfg s.bank s.tar t = some ((s.cfg.apTarOff &&& 0xF0#8).zeroExtend 32) := if_neg ht
    rw [exec_enstar, runInternal_good (performs_ensTar (ready_setResult hr hu) t) hu.alive listed hfit hrx, ← after]
    rfl

/-- Before the TAR write of `ENSTAR` only SELECT has been written. -/
theorem cachesAfter_before_tar {c : Cfg} {bank tar : Option Word} {t : Word} {ts later : List Txn} {x : Txn}
    (h : ts ++ x :: later = tarTxns c bank tar t) : (cachesAfter (bank, tar) ts).2 = tar := by
  have single {ts : List Txn} {y : Txn} (h : ts ++ x :: later = [y]) : ts = [] := by
    cases ts with
    | nil => rfl
    | cons z zs => simp at h
  unfold tarTxns bankTxns at h
  split at h
  · simp at h
  · split at h
    · rw [single h]
      rfl
    · cases ts with
      | nil => rfl
      | cons z zs =>
        simp only [List.cons_append, List.nil_append, List.cons.injEq] at h
        obtain ⟨rfl, h⟩ := h
        rw [single h]
        rfl

/-- Settles O30: `ENSTAR` stopped at one of its transactions, with TAR never recorded. -/
theorem failedEnstarKeepsTheBank : Obligations.FailedEnstarKeepsTheBank := by
  unfold Obligations.FailedEnstarKeepsTheBank
  intro t s xs x st later rest hr hu hx hxs hfit hst hrx
  rw [exec_enstar, runInternal_stop (performs_ensTar (ready_setResult hr hu) t) hr hu.alive hx hxs hfit hst hrx,
    cachesAfter_before_tar hx]

/-- The low byte of an offset is TAR's offset exactly where the masked offset is. -/
theorem low_byte_eq_iff {off : BitVec 12} {b : BitVec 8} :
    off.extractLsb' 0 8 = b ↔ off &&& 0xFF#12 = b.zeroExtend 12 := by
  have low : ∀ i, i < 8 → (0xFF#12).getLsbD i = true := by decide
  have high : ∀ i, 8 ≤ i → i < 12 → (0xFF#12).getLsbD i = false := by decide
  constructor
  · rintro rfl
    apply BitVec.eq_of_getLsbD_eq
    intro i hi
    by_cases h8 : i < 8
    · simp [low i h8, h8, hi]
    · simp [high i (by omega) hi, h8]
  · intro h
    apply BitVec.eq_of_getLsbD_eq
    intro i hi
    have bit := congrArg (fun x => x.getLsbD i) h
    simpa only [BitVec.getLsbD_and, low i hi, Bool.and_true, BitVec.truncate_eq_setWidth, BitVec.getLsbD_setWidth,
      BitVec.getLsbD_extractLsb', hi, show i < 12 by omega, decide_true, Bool.true_and, Nat.zero_add] using bit

/-- Settles O31: the record of R182, its TAR condition as a mask. -/
theorem snoopRecordsSelectAndTar : Obligations.SnoopRecordsSelectAndTar := by
  unfold Obligations.SnoopRecordsSelectAndTar
  intro d v s ha
  have done : noResult (snoopOp d v) (setResult none s) = .done none (snooped d v (setResult none s)) := rfl
  have tarOffset : (if d.space = .ap ∧ d.offset.extractLsb' 0 8 = s.cfg.apTarOff then some v else s.tar) =
      if d.space = .ap ∧ d.offset &&& 0xFF#12 = s.cfg.apTarOff.zeroExtend 12 then some v else s.tar :=
    if_congr (and_congr_right fun _ => low_byte_eq_iff) rfl rfl
  rw [exec, execSnoop, runInternal_of_done ha done, ← tarOffset]
  rfl

/-! ## Accesses -/

/-- Settles O32: `RD` performs its expansion and responds with its last word. -/
theorem rdRunsItsExpansion : Obligations.RdRunsItsExpansion := by
  unfold Obligations.RdRunsItsExpansion
  intro id d s xs rest hr hu hd hx hfit hrx
  obtain ⟨w, done, hw⟩ := (performs_readReg ⟨hr, hu⟩ hd).good xs rest hx hfit hrx
  rw [exec_rd, runChecked_alive hu.alive, runCommand_of_done (andThen_ret (g := fun w => some w) done), hw]
  exact ⟨rfl, rfl⟩

/-- Settles O33: `WR` performs its expansion, its snoop after it. -/
theorem wrRunsItsExpansion : Obligations.WrRunsItsExpansion := by
  unfold Obligations.WrRunsItsExpansion
  intro id d v s xs rest hr hu hd hx hfit hrx
  obtain ⟨_, done, _⟩ := (performs_writeReg (v := v) ⟨hr, hu⟩ hd).good xs rest hx hfit hrx
  rw [exec_wr, runChecked_alive hu.alive, runCommand_of_done (andThen_ret (g := fun _ => none) done)]
  rfl

end Sys2Proof.Machine
end

section
/-! The session states (60_exceptions.md R275), a dead session (44_register_router.md R186), how a session dies (R270),
and how `BRINGUP` ends (45_bringup.md R223, R225). -/

namespace Sys2Proof.Machine

/-! ## How a session dies -/

/-- The session of `s` has died in `t`: its error stands in both registers, nothing of a transaction is left, and the
bring-up state is as it was (60_exceptions.md R270, R271). -/
structure DiedIn (s t : State) : Prop where
  code : ∃ e, t.err_code = some e ∧ t.rsp_status = .error e
  noWord : t.rsp_rdata = none
  rest : AtRest t
  bringUp : t.bu_state = s.bu_state

theorem Moved.bu_state_eq {s u : State} (h : Moved s u) : u.bu_state = s.bu_state := by
  obtain ⟨_, _, _, _, _, _, _, rfl, _, _⟩ := h
  rfl

theorem Moved.fd_busy_eq {s u : State} (h : Moved s u) : u.fd_busy = s.fd_busy := by
  obtain ⟨_, _, _, _, _, _, _, rfl, _, _⟩ := h
  rfl

theorem Moved.err_code_eq {s u : State} (h : Moved s u) : u.err_code = s.err_code := by
  obtain ⟨_, _, _, _, _, _, _, rfl, _, _⟩ := h
  rfl

theorem diedIn_raised {s u : State} (e : ErrorKind) (h : u.bu_state = s.bu_state) : DiedIn s (raised e u) :=
  ⟨⟨e, rfl, rfl⟩, rfl, ⟨rfl, rfl, rfl, rfl, rfl, rfl, rfl, rfl⟩, h⟩

/-- An operation that ended and left the session dead has raised. -/
theorem Ended.diedIn {s t : State} (h : Ended s t) (hd : t.sess_dead = true) : DiedIn s t := by
  obtain ⟨u, hm, ⟨e, rfl⟩ | ⟨_, rfl⟩⟩ := h
  · exact diedIn_raised e hm.bu_state_eq
  · simp at hd

theorem afterPage_sess_dead (page : List Byte) (s : State) : (afterPage page s).sess_dead = s.sess_dead := by
  unfold afterPage
  split <;> rfl

theorem DiedIn.dumpAborted {s t : State} (h : DiedIn s t) : DiedIn s (dumpAborted t) :=
  ⟨h.code, h.noWord, ⟨h.rest.phase, h.rest.addr, h.rest.apndp, h.rest.rnw, h.rest.par, h.rest.hdr, h.rest.val, h.rest.vpar⟩,
    h.bringUp⟩

theorem startsSession_of_isInternal {i : Instr} (h : isInternal i = true) : startsSession i = false := by
  cases i with
  | sreset | bringup => nomatch h
  | _ => rfl

/-- What a dead next state says of an instruction run in a usable session. -/
theorem Did.diedIn {i : Instr} {s t : State} (h : Did i s t) (ha : s.sess_dead = false) (hd : t.sess_dead = true) :
    (startsSession i = false ∧ DiedIn s t) ∨ (i = .bringup ∧ Aborted (sessionStart s) t) := by
  have alive {u : State} (hu : u.sess_dead = false) : u.sess_dead ≠ true := by simp [hu]
  cases h with
  | pure r hi => exact absurd hd (alive ha)
  | refused hi => exact absurd hd (alive ha)
  | sreset hi => simp at hd
  | notStarted hi hd' => exact absurd hd' (alive ha)
  | internal r u hi _ hm => exact absurd hd (alive (hm.alive ha))
  | snoop d v hi _ => exact absurd hd (alive ha)
  | internalEnded _ hi _ he =>
    have died := he.diedIn hd
    exact .inl ⟨startsSession_of_isInternal hi, died.code, died.noWord, died.rest, died.bringUp⟩
  | access r u hi _ hm => exact absurd hd (alive (hm.alive ha))
  | accessEnded _ hi _ he => exact .inl ⟨by obtain ⟨id, rfl | ⟨v, rfl⟩⟩ := hi <;> rfl, he.diedIn hd⟩
  | bringup u hi hs => exact absurd hd (alive hs.alive)
  | bringupEnded _ hi ha => exact .inr ⟨hi, ha⟩
  | page p u hi _ _ _ hm => exact absurd hd (by simp [afterPage_sess_dead, hm.alive (s := dumpStart s) ha])
  | pageEnded u hi _ _ he =>
    have died := (he.diedIn (t := u) hd).dumpAborted
    exact .inl ⟨hi ▸ rfl, died.code, died.noWord, died.rest, died.bringUp⟩

/-- Settles O55: whichever part of an instruction raised, `raised` is what it left. -/
theorem deathLeavesItsCode : Obligations.DeathLeavesItsCode := by
  unfold Obligations.DeathLeavesItsCode
  intro i s t hr ha h hd
  rcases (did_of_exec hr h).diedIn ha hd with ⟨_, died⟩ | ⟨rfl, x, _, hx⟩
  · exact ⟨died.code, died.noWord, died.rest, fun _ => died.bringUp⟩
  · have died := hx.diedIn hd
    exact ⟨died.code, died.noWord, died.rest, fun hi => nomatch hi⟩

theorem dumpStep_dead {s t : State} (hr : AtRest s) (ha : s.sess_dead = false) (hf : s.fd_addr ≠ none)
    (h : dumpStep s = .next t) (hd : t.sess_dead = true) : ∃ u, t = dumpAborted u ∧ DiedIn s t := by
  obtain ⟨addr, hf⟩ := Option.ne_none_iff_exists'.mp hf
  rcases dumpStep_did hr ha hf with ⟨page, u, _, hm, e⟩ | ⟨u, he, e⟩
  · cases e.symm.trans h
    simp [afterPage_sess_dead, hm.alive ha] at hd
  · cases e.symm.trans h
    exact ⟨u, rfl, (he.diedIn hd).dumpAborted⟩

/-- Settles O52: a dump that died is one that was aborted (46_flash_dump.md R246). -/
theorem failedDumpLeavesNoImage : Obligations.FailedDumpLeavesNoImage := by
  unfold Obligations.FailedDumpLeavesNoImage
  refine ⟨fun s t hr ha h hd => ?first, fun s t hr ha hb hf h hd => ?later⟩
  case first =>
    rw [exec, execDump] at h
    split at h
    · cases h
      simp [ha] at hd
    · obtain ⟨u, rfl, died⟩ := dumpStep_dead (s := dumpStart s) (atRest_dumpStart hr) ha (by simp) h hd
      exact ⟨rfl, rfl, rfl, died.bringUp, died.code⟩
  case later =>
    have hw := wellFormed_of_step h
    by_cases h0 : s.por.head? = some 0
    · cases (step_of_reset hw h0).symm.trans h
      simp at hd
    · rw [step_of_noReset hw h0, stepRunning_of_busy (s := afterPoint s) hb] at h
      obtain ⟨u, rfl, died⟩ := dumpStep_dead (s := afterPoint s) (atRest_afterPoint hr) ha hf h hd
      exact ⟨rfl, rfl, rfl, died.bringUp, died.code⟩

/-! ## How `BRINGUP` ends -/

/-- `BRINGUP` ends `Ready` and usable, or dead before `Ready` with its error. -/
theorem exec_bringup_cases {s : State} (hp : s.por = []) : ∃ t, exec .bringup s = .next t ∧
    ((t.sess_dead = false ∧ t.err_code = none ∧ t.bu_state = .ready ∧ t.rsp_status = .ok) ∨
     (t.sess_dead = true ∧ t.bu_state ≠ .ready ∧ ∃ e, t.err_code = some e ∧ t.rsp_status = .error e)) := by
  obtain ⟨t, ht, ⟨r, u, ⟨rfl, hs⟩, rfl⟩ | ⟨x, hx, he⟩⟩ := runCommand_of_comes (comes_bringupSequence s)
  · exact ⟨_, ht, .inl ⟨hs.alive, hs.moved.err_code_eq, hs.moved.bu_state_eq, rfl⟩⟩
  · obtain ⟨e, u, hm, rfl⟩ := he.raised_of_noReset hp
    exact ⟨_, ht, .inr ⟨rfl, by simpa [hm.bu_state_eq] using hx, e, rfl, rfl⟩⟩

/-- Settles O46: standing at `Ready`, or raised before it. -/
theorem bringupEndsReadyOrDead : Obligations.BringupEndsReadyOrDead := by
  unfold Obligations.BringupEndsReadyOrDead
  exact fun s hp => exec_bringup_cases hp

/-! ## A dead session -/

theorem exec_checked_dead {i : Instr} {s : State} (hi : sessionChecked i = true) (hd : s.sess_dead = true) :
    exec i s = .next (refuse s) := by
  cases i with
  | rd id => rw [exec_rd, runChecked, if_pos hd]
  | wr id v => rw [exec_wr, runChecked, if_pos hd]
  | dump => rw [exec, execDump, if_pos (.inl hd)]
  | _ => nomatch hi

/-- `WR` answers no word. -/
theorem exec_wr_noWord {id : BitVec 8} {v : Word} {s t : State} (hr : AtRest s) (h : exec (.wr id v) s = .next t) :
    responseWord t = none := by
  by_cases hd : s.sess_dead = true
  · cases (exec_checked_dead rfl hd).symm.trans h
    rfl
  · have ha := Bool.eq_false_iff.mpr hd
    rw [exec_wr, runChecked_alive ha] at h
    have comes : Comes (andThen (writeReg id v) fun _ => ret none) s (fun (r : Option Word) _ => r = none) (Ended s) :=
      comes_andThen (comes_writeReg hr ha (fun _ _ _ _ _ _ _ _ _ => comes_of_done (ret_apply _ _) rfl) fun _ h => h)
    obtain ⟨t', ht', ⟨r, u, rfl, rfl⟩ | he⟩ := runCommand_of_comes comes
    · cases ht'.symm.trans h
      rfl
    · cases ht'.symm.trans h
      obtain ⟨u, _, ⟨e, rfl⟩ | ⟨_, rfl⟩⟩ := he <;> rfl

theorem Ended.noWord {s t : State} (h : Ended s t) : responseWord t = none := by
  obtain ⟨u, _, ⟨e, rfl⟩ | ⟨_, rfl⟩⟩ := h <;> rfl

/-- A completed `DUMP` answers no word. -/
theorem exec_dump_noWord {s t : State} (hr : AtRest s) (h : exec .dump s = .next t) (hb : t.fd_busy = false) :
    responseWord t = none := by
  cases did_of_exec hr h with
  | refused => rfl
  | page page u hi ha hready hl hm =>
    unfold afterPage at hb ⊢
    split at hb
    · rename_i erased
      rw [if_pos erased]
      rfl
    · simp at hb
  | pageEnded u hi ha hready he => exact he.noWord
  | _ => simp_all [isPure, isInternal, readRow, writeRow]

/-- Settles O41: the refusal, the two commands that answer a word, and what a refusal leaves to read. -/
theorem deadSessionRefuses : Obligations.DeadSessionRefuses := by
  unfold Obligations.DeadSessionRefuses
  refine ⟨fun i s hi hd => exec_checked_dead hi hd, fun i s t hr hi h hb hw => ?_, fun s => rfl⟩
  cases i with
  | rd id => exact .inl ⟨id, rfl⟩
  | revb | wpar | hpar | enchdr | ackchk => exact .inr rfl
  | wr id v => exact absurd (exec_wr_noWord hr h) hw
  | dump => exact absurd (exec_dump_noWord hr h (hb rfl)) hw
  | sreset => cases h; exact absurd rfl hw
  | bringup =>
    obtain ⟨t', ht', ⟨r, u, ⟨rfl, _⟩, rfl⟩ | ⟨_, _, he⟩⟩ := runCommand_of_comes (comes_bringupSequence s)
    · cases ht'.symm.trans h
      exact absurd rfl hw
    · cases ht'.symm.trans h
      exact absurd he.noWord hw
  | reserved0 | reserved6 | reserved7 | reservedD | reservedE | reservedF => cases h; exact absurd rfl hw
  | _ => nomatch hi

/-- In a dead session every instruction but a session start answers, refuses, or is not started. -/
theorem exec_dead_cases {i : Instr} {s : State} (hd : s.sess_dead = true) (hi : startsSession i = false) :
    (∃ r, exec i s = .next (respond (some r) s)) ∨ exec i s = .next (refuse s) ∨ exec i s = .next s := by
  by_cases hpure : isPure i = true
  · exact .inl (exec_of_isPure hpure s)
  by_cases hres : isReserved i = true
  · exact .inr (.inl (exec_of_isReserved hres s))
  by_cases hchk : sessionChecked i = true
  · exact .inr (.inl (exec_checked_dead hchk hd))
  · refine .inr (.inr (exec_internal_dead ?_ hd))
    cases i with
    | sreset | bringup => nomatch hi
    | revb | wpar | hpar | enchdr | ackchk => exact absurd rfl hpure
    | reserved0 | reserved6 | reserved7 | reservedD | reservedE | reservedF => exact absurd rfl hres
    | rd | wr | dump => exact absurd rfl hchk
    | _ => rfl

/-- Settles O42: each of the three ways leaves everything but the response registers. -/
theorem deadSessionStaysDead : Obligations.DeadSessionStaysDead := by
  unfold Obligations.DeadSessionStaysDead
  intro i s t hd hi h
  have same {r : Status} {w : Option Word} : SameRegisters { s with rsp_status := r, rsp_rdata := w }
      { s with rsp_status := r, rsp_rdata := w } :=
    ⟨rfl, rfl, rfl, rfl, rfl, rfl, rfl, rfl, rfl, rfl, rfl, rfl, rfl, rfl, rfl, rfl, rfl, rfl⟩
  rcases exec_dead_cases hd hi with ⟨r, e⟩ | e | e
  · cases e.symm.trans h
    exact ⟨same, rfl, rfl⟩
  · cases e.symm.trans h
    exact ⟨same, rfl, rfl⟩
  · cases e.symm.trans h
    exact ⟨same, rfl, rfl⟩

/-! ## The session states -/

theorem buCode_bounds (x : BuState) : (0 < (buCode x).toNat ∧ (buCode x).toNat < 11) ↔ x ≠ .idle ∧ x ≠ .ready := by
  cases x <;> decide

theorem sessionMode_dead_iff (s : State) : sessionMode s = .dead ↔ s.sess_dead = true := by
  unfold sessionMode
  split
  · simp_all
  · split
    · simp_all
    · split <;> simp_all

theorem sessionMode_of_alive {s : State} (ha : s.sess_dead = false) :
    sessionMode s = if s.bu_state = .idle then .fresh else if s.bu_state = .ready then .ready else .bringingUp := by
  rw [sessionMode, if_neg (by simp [ha])]

theorem sessionMode_ready_iff (s : State) : sessionMode s = .ready ↔ s.sess_dead = false ∧ s.bu_state = .ready := by
  cases ha : s.sess_dead with
  | true => simp [(sessionMode_dead_iff s).mpr ha]
  | false =>
    rw [sessionMode_of_alive ha]
    cases s.bu_state <;> simp

theorem sessionMode_fresh_iff (s : State) : sessionMode s = .fresh ↔ s.sess_dead = false ∧ s.bu_state = .idle := by
  cases ha : s.sess_dead with
  | true => simp [(sessionMode_dead_iff s).mpr ha]
  | false =>
    rw [sessionMode_of_alive ha]
    cases s.bu_state <;> simp

theorem sessionMode_bringingUp_iff (s : State) : sessionMode s = .bringingUp ↔
    s.sess_dead = false ∧ 0 < (buCode s.bu_state).toNat ∧ (buCode s.bu_state).toNat < 11 := by
  rw [buCode_bounds]
  cases ha : s.sess_dead with
  | true => simp [(sessionMode_dead_iff s).mpr ha]
  | false =>
    rw [sessionMode_of_alive ha]
    cases s.bu_state <;> simp

/-- An operation that ended has raised, or reset has landed; neither is a refusal. -/
theorem Ended.notRefused {s t : State} (h : Ended s t) : t.rsp_status ≠ .refused := by
  obtain ⟨u, _, ⟨e, rfl⟩ | ⟨_, rfl⟩⟩ := h <;> simp

theorem exec_starts_notRefused {i : Instr} {s t : State} (hi : startsSession i = true) (h : exec i s = .next t) :
    t.rsp_status ≠ .refused := by
  cases i with
  | sreset => cases h; simp
  | bringup =>
    obtain ⟨t', ht', ⟨r, u, _, rfl⟩ | ⟨_, _, he⟩⟩ := runCommand_of_comes (comes_bringupSequence s)
    · cases ht'.symm.trans h
      simp
    · cases ht'.symm.trans h
      exact he.notRefused
  | _ => nomatch hi

/-- In a usable session an access is not refused. -/
theorem exec_access_notRefused {i : Instr} {s t : State} (hr : AtRest s) (hi : ∃ id, i = .rd id ∨ ∃ v, i = .wr id v)
    (ha : s.sess_dead = false) (h : exec i s = .next t) : t.rsp_status ≠ .refused := by
  cases did_of_exec hr h with
  | access r u => simp
  | accessEnded _ _ _ he => exact he.notRefused
  | _ => obtain ⟨id, rfl | ⟨v, rfl⟩⟩ := hi <;> simp_all [isPure, isReserved, isInternal, readRow, writeRow]

/-- In `Ready` a dump goes on, or ends without a refusal. -/
theorem exec_dump_ready {s t : State} (hr : AtRest s) (ha : s.sess_dead = false) (hb : s.bu_state = .ready)
    (h : exec .dump s = .next t) : t.fd_busy = true ∨ t.rsp_status ≠ .refused := by
  cases did_of_exec hr h with
  | page page u _ _ _ _ hm =>
    unfold afterPage
    split
    · exact .inr (by simp)
    · exact .inl rfl
  | pageEnded u _ _ _ he => exact .inr he.notRefused
  | _ => simp_all [isPure, isReserved, isInternal, readRow, writeRow]

theorem exec_dump_refused {s : State} (h : s.sess_dead = true ∨ s.bu_state ≠ .ready) : exec .dump s = .next (refuse s) := by
  rw [exec, execDump, if_pos h]

/-- Settles O47: the guard of `DUMP`. -/
theorem dumpRefusedUnlessReady : Obligations.DumpRefusedUnlessReady := by
  unfold Obligations.DumpRefusedUnlessReady
  exact fun s h => exec_dump_refused h

/-- Settles O43: the four states, and what each takes. -/
theorem sessionStatesLimitCommands : Obligations.SessionStatesLimitCommands := by
  unfold Obligations.SessionStatesLimitCommands
  refine ⟨fun s => ⟨sessionMode_dead_iff s, sessionMode_fresh_iff s, sessionMode_ready_iff s,
    sessionMode_bringingUp_iff s⟩, fun i s hr hi => ?always, fun i s hr hi => ?access, fun s hr => ?dump⟩
  case always =>
    rcases hi with hi | hi
    · obtain ⟨r, e⟩ := exec_of_isPure hi s
      exact ⟨_, e, by simp⟩
    · obtain ⟨t, ht, _⟩ := exec_did i hr
      exact ⟨t, ht, exec_starts_notRefused hi ht⟩
  case access =>
    have checked : sessionChecked i = true := by obtain ⟨id, rfl | ⟨v, rfl⟩⟩ := hi <;> rfl
    rw [sessionMode_dead_iff]
    by_cases hd : s.sess_dead = true
    · exact ⟨_, exec_checked_dead checked hd, by simp [hd]⟩
    · obtain ⟨t, ht, _⟩ := exec_did i hr
      have := exec_access_notRefused hr hi (Bool.eq_false_iff.mpr hd) ht
      exact ⟨t, ht, by simp [this, hd]⟩
  case dump =>
    rw [ne_eq, sessionMode_ready_iff]
    obtain ⟨t, ht, _⟩ := exec_did .dump hr
    refine ⟨t, ht, fun hn => ?_, fun ⟨ha, hb⟩ => exec_dump_ready hr ha hb ht⟩
    have refused : s.sess_dead = true ∨ s.bu_state ≠ .ready := by
      cases ha : s.sess_dead with
      | true => exact .inl rfl
      | false => exact .inr fun hb => hn ⟨ha, hb⟩
    cases (exec_dump_refused refused).symm.trans ht
    rfl

end Sys2Proof.Machine
end

section
/-! Accesses that succeed (30_encoding.md R99): the transactions they send, where a SELECT write stands among them
(44_register_router.md R183), and what two accesses in a row save (R185). -/

namespace Sys2Proof.Machine

/-! ## An access that leaves the session usable -/

/-- An access begun in `s` has sent the frames of `txns`, in order, and left the caches at `b` and `v`, the block at rest
and the session usable. -/
structure Performed (s t : State) (txns : List Txn) (b v : Option Word) : Prop where
  frames : ∃ xs : List (Txn × Reply), xs.map Prod.fst = txns ∧ t.events = s.events ++ eventsOf xs
  bank : t.bank = b
  tar : t.tar = v
  cfg : t.cfg = s.cfg
  rest : AtRest t
  usable : Usable t

section
variable {s t : State} {txns : List Txn} {b v : Option Word}

theorem performed_accessed {xs : List (Txn × Reply)} {rx : List RxItem} {p : List Nat} (hr : AtRest s) (hu : Usable s)
    (hx : xs.map Prod.fst = txns) (hp : SameResets p s.por) : Performed s (accessed (eventsOf xs) rx p b v s) txns b v :=
  ⟨⟨xs, hx, rfl⟩, rfl, rfl, rfl, ⟨hr.phase, hr.addr, hr.apndp, hr.rnw, hr.par, hr.hdr, hr.val, hr.vpar⟩,
    hu.alive, hp.nil_iff.mpr hu.noReset⟩

theorem Performed.respond (r : Option Word) (h : Performed s t txns b v) : Performed s (respond r t) txns b v :=
  ⟨h.frames, h.bank, h.tar, h.cfg, ⟨h.rest.phase, h.rest.addr, h.rest.apndp, h.rest.rnw, h.rest.par, h.rest.hdr,
    h.rest.val, h.rest.vpar⟩, h.usable.alive, h.usable.noReset⟩

/-- A checked command that leaves the session usable has come back, not ended. -/
theorem performed_of_comes {m : Op (Option Word)} (hu : Usable s)
    (hm : Comes m s (fun _ u => Performed s u txns b v) (Ended s)) (h : runChecked m s = .next t)
    (ha : t.sess_dead = false) : Performed s t txns b v := by
  rw [runChecked_alive hu.alive] at h
  obtain ⟨t', ht', ⟨r, u, hu', rfl⟩ | he⟩ := runCommand_of_comes hm
  · cases ht'.symm.trans h
    exact hu'.respond r
  · cases ht'.symm.trans h
    obtain ⟨e, u, _, rfl⟩ := he.raised_of_noReset hu.noReset
    simp at ha

theorem performed_rd {id : BitVec 8} {d : Descriptor} (hr : AtRest s) (hu : Usable s)
    (hd : lookup s.cfg.regtab id = some d) (h : exec (.rd id) s = .next t) (ha : t.sess_dead = false) :
    Performed s t (expandRd s.cfg s.bank s.tar d) (bankAfter s.bank d) (tarAfter s.cfg s.tar d) := by
  refine performed_of_comes hu (comes_andThen (comes_readReg hr hu.alive
    (fun d' w xs rx p hd' hx _ _ hp _ => comes_of_done (ret_apply _ _) ?_) fun _ he => he)) h ha
  cases hd.symm.trans hd'
  exact performed_accessed hr hu hx hp

theorem performed_wr {id : BitVec 8} {w : Word} {d : Descriptor} (hr : AtRest s) (hu : Usable s)
    (hd : lookup s.cfg.regtab id = some d) (h : exec (.wr id w) s = .next t) (ha : t.sess_dead = false) :
    Performed s t (expandWr s.cfg s.bank s.tar d w) (bankAfterWr s.cfg s.bank d w) (tarAfterWr s.cfg s.tar d w) := by
  refine performed_of_comes hu (comes_andThen (comes_writeReg hr hu.alive
    (fun d' xs rx p hd' hx _ hp _ => comes_of_done (ret_apply _ _) ?_) fun _ he => he)) h ha
  cases hd.symm.trans hd'
  exact performed_accessed hr hu hx hp

end

/-! ## Where a SELECT write stands -/

/-- A transaction of the access port. -/
def IsAp (x : Txn) : Prop := (∃ a, x = .read true a) ∨ ∃ a w, x = .write true a w

/-- Every write of SELECT in the sequence is followed at once by a transaction of the access port. -/
def SelectLeads (c : Cfg) (txns : List Txn) : Prop :=
  ∀ k v, txns[k]? = some (.write false (selectSlot c) v) → ∃ x, txns[k + 1]? = some x ∧ IsAp x

section
variable {c : Cfg} {bank tar : Option Word} {x : Txn} {txns : List Txn}

theorem selectLeads_nil : SelectLeads c [] := fun _ _ h => nomatch h

theorem selectLeads_cons (hx : ∀ v, x ≠ .write false (selectSlot c) v) (h : SelectLeads c txns) :
    SelectLeads c (x :: txns)
  | 0, v, hk => absurd (Option.some.inj hk) (hx v)
  | k + 1, v, hk => h k v hk

theorem selectLeads_read (apndp : Bool) (a : BitVec 2) (h : SelectLeads c txns) : SelectLeads c (.read apndp a :: txns) :=
  selectLeads_cons (fun _ h => nomatch h) h

theorem selectLeads_ap (hx : IsAp x) (h : SelectLeads c txns) : SelectLeads c (x :: txns) :=
  selectLeads_cons (fun v hv => by subst hv; rcases hx with ⟨_, h⟩ | ⟨_, _, h⟩ <;> nomatch h) h

/-- A bank is ensured just before an access port transaction. -/
theorem selectLeads_bankTxns (b : BitVec 8) (hx : IsAp x) (h : SelectLeads c txns) :
    SelectLeads c (bankTxns c bank b ++ x :: txns) := by
  unfold bankTxns
  split
  · exact selectLeads_ap hx h
  · rintro (_ | k) v hk
    · exact ⟨x, rfl, hx⟩
    · exact selectLeads_ap hx h k v hk

/-- A window is opened just before an access port transaction. -/
theorem selectLeads_windowTxns (addr : Word) (hx : IsAp x) (h : SelectLeads c txns) :
    SelectLeads c (windowTxns c bank tar addr ++ x :: txns) := by
  rw [windowTxns, List.append_assoc, tarTxns]
  split
  · exact selectLeads_bankTxns _ hx h
  · simp only [List.append_assoc, List.singleton_append]
    exact selectLeads_bankTxns _ (.inr ⟨_, _, rfl⟩) (selectLeads_bankTxns _ hx h)

theorem selectLeads_expandRd (d : Descriptor) : SelectLeads c (expandRd c bank tar d) := by
  have read : IsAp (.read true (slotOf d.offset)) := .inl ⟨_, rfl⟩
  have readAddr (addr : Word) : IsAp (.read true (slotOfAddr addr)) := .inl ⟨_, rfl⟩
  have last : SelectLeads c [.read false (rdbufSlot c)] := selectLeads_read _ _ selectLeads_nil
  unfold expandRd
  cases d.space with
  | dp => exact selectLeads_read _ _ selectLeads_nil
  | ap => exact selectLeads_bankTxns _ read last
  | ficr | uicr | scs => exact selectLeads_windowTxns _ (readAddr _) last

theorem selectLeads_expandWr (d : Descriptor) (v : Word) :
    SelectLeads c (expandWr c bank tar d v) ∨ (expandWr c bank tar d v).length = 1 := by
  have write (a : BitVec 2) : IsAp (.write true a v) := .inr ⟨_, _, rfl⟩
  unfold expandWr
  cases d.space with
  | dp => exact .inr rfl
  | ap => exact .inl (selectLeads_bankTxns _ (write _) selectLeads_nil)
  | ficr | uicr | scs => exact .inl (selectLeads_windowTxns _ (write _) selectLeads_nil)

end

/-- Settles O38: the expansion's frames, in which SELECT leads to an access port transaction. -/
theorem selectWriteStandsBeforeItsAccess : Obligations.SelectWriteStandsBeforeItsAccess := by
  unfold Obligations.SelectWriteStandsBeforeItsAccess
  intro i s t hr hu h ha txns htxns
  have leads : SelectLeads s.cfg txns ∨ txns.length = 1 := by
    rcases accessTxns_eq_some htxns with ⟨id, d, rfl, hd, rfl⟩ | ⟨id, v, d, rfl, hd, rfl⟩
    · exact .inl (selectLeads_expandRd d)
    · exact selectLeads_expandWr d v
  have frames : ∃ xs : List (Txn × Reply), xs.map Prod.fst = txns ∧ t.events = s.events ++ eventsOf xs := by
    rcases accessTxns_eq_some htxns with ⟨id, d, rfl, hd, rfl⟩ | ⟨id, v, d, rfl, hd, rfl⟩
    · exact (performed_rd hr hu hd h ha).frames
    · exact (performed_wr hr hu hd h ha).frames
  obtain ⟨xs, hx, he⟩ := frames
  refine ⟨xs, hx, he, fun k v hk hlen => ?_⟩
  obtain ⟨x, hk', ⟨a, rfl⟩ | ⟨a, w, rfl⟩⟩ := leads.resolve_right hlen k v hk
  · exact .inl ⟨a, hk'⟩
  · exact .inr ⟨a, w, hk'⟩

/-! ## Bank caching -/

theorem headersSent_append (W : Byte) (es fs : List Event) :
    headersSent W (es ++ fs) = headersSent W es + headersSent W fs := List.countP_append ..

theorem headersSent_confEvents (W : Byte) (us : List Byte) : headersSent W (confEvents us) = 0 := by
  unfold confEvents
  split <;> rfl

/-- A frame opens one transaction, with its own wire byte. -/
theorem headersSent_frame (W : Byte) (x : Txn × Reply) :
    headersSent W (frameEvents x) = if x.1.wire = W then 1 else 0 := by
  have opening (W₀ : Byte) (r : Reply) : headersSent W (openingEvents W₀ r) = if W₀ = W then 1 else 0 := by
    rw [openingEvents, headersSent_append, headersSent_confEvents]
    simp [headersSent, List.countP_cons]
  obtain ⟨_ | _, r⟩ := x
  · change _ = if wireByte _ _ true = W then 1 else 0
    rw [frame_read, headersSent_append, headersSent_append, opening, headersSent_confEvents]
    simp [headersSent]
  · change _ = if wireByte _ _ false = W then 1 else 0
    rw [frame_write, headersSent_append, opening]
    simp [headersSent]

theorem headersSent_eventsOf (W : Byte) (xs : List (Txn × Reply)) :
    headersSent W (eventsOf xs) = (xs.map Prod.fst).countP fun x => decide (x.wire = W) := by
  induction xs with
  | nil => rfl
  | cons x xs ih =>
    rw [eventsOf_cons, headersSent_append, headersSent_frame, ih, List.map_cons, List.countP_cons, Nat.add_comm]
    simp

/-- How many of the transactions are opened by the header of a SELECT write. -/
def selectHeaders (c : Cfg) (txns : List Txn) : Nat :=
  txns.countP fun x => decide (x.wire = wireByte (selectSlot c) false false)

theorem selectHeaders_append (c : Cfg) (xs ys : List Txn) :
    selectHeaders c (xs ++ ys) = selectHeaders c xs + selectHeaders c ys := List.countP_append ..

theorem wire_ap_ne {x : Txn} (h : IsAp x) (a : BitVec 2) (rnw : Bool) : x.wire ≠ wireByte a false rnw := by
  intro he
  obtain ⟨_, rfl⟩ | ⟨_, _, rfl⟩ := h
  · exact nomatch (wireByte_inj he).2.1
  · exact nomatch (wireByte_inj he).2.1

theorem wire_read_ne (apndp apndp' : Bool) (a a' : BitVec 2) : (Txn.read apndp a).wire ≠ wireByte a' apndp' false :=
  fun he => nomatch (wireByte_inj he).2.2

theorem selectHeaders_bankTxns (c : Cfg) (bank : Option Word) (b : BitVec 8) :
    selectHeaders c (bankTxns c bank b) = if bank = some (b.zeroExtend 32) then 0 else 1 := by
  unfold bankTxns
  split
  · rfl
  · simp [selectHeaders, Txn.wire]

theorem selectHeaders_ap {x : Txn} (c : Cfg) (h : IsAp x) : selectHeaders c [x] = 0 := by
  simp [selectHeaders, wire_ap_ne h]

/-- A successful access of an access port register: one SELECT header where the bank cache does not hold its bank, none
where it does, and the bank is recorded. -/
theorem exec_ap_selects {i : Instr} {s t : State} {id : BitVec 8} {d : Descriptor} (hr : AtRest s) (hu : Usable s)
    (hi : i = .rd id ∨ ∃ v, i = .wr id v) (hd : lookup s.cfg.regtab id = some d) (hs : d.space = .ap)
    (h : exec i s = .next t) (ha : t.sess_dead = false) :
    ∃ txns v, Performed s t txns (some ((bankOf d.offset).zeroExtend 32)) v ∧
      selectHeaders s.cfg txns = if s.bank = some ((bankOf d.offset).zeroExtend 32) then 0 else 1 := by
  rcases hi with rfl | ⟨w, rfl⟩
  · have done := performed_rd hr hu hd h ha
    simp only [expandRd, bankAfter, hs] at done
    refine ⟨_, _, done, ?_⟩
    rw [selectHeaders_append, selectHeaders_bankTxns]
    simp [selectHeaders, wire_read_ne]
  · have done := performed_wr hr hu hd h ha
    simp only [expandWr, bankAfterWr, bankAfter, hs, reduceCtorEq, false_and, if_false] at done
    refine ⟨_, _, done, ?_⟩
    rw [selectHeaders_append, selectHeaders_bankTxns, selectHeaders_ap _ (.inr ⟨_, _, rfl⟩)]
    rfl

/-- Settles O39: each of the two accesses is one of an access port register, the second with the bank of the first. -/
theorem bankCaching : Obligations.BankCaching := by
  unfold Obligations.BankCaching
  intro i₁ i₂ s t u id₁ id₂ d₁ d₂ hr hu hi₁ hi₂ hd₁ hs₁ hd₂ hs₂ h₁ ha₁ h₂ ha₂ hb
  obtain ⟨txns₁, v₁, done₁, count₁⟩ := exec_ap_selects hr hu hi₁ hd₁ hs₁ h₁ ha₁
  obtain ⟨txns₂, v₂, done₂, count₂⟩ :=
    exec_ap_selects done₁.rest done₁.usable hi₂ (done₁.cfg.symm ▸ hd₂) hs₂ h₂ ha₂
  obtain ⟨xs, rfl, he₁⟩ := done₁.frames
  obtain ⟨ys, rfl, he₂⟩ := done₂.frames
  refine ⟨_, _, he₁, he₂, ?_, done₁.bank, ?_, done₂.bank⟩
  · rw [headersSent_eventsOf]
    exact count₁.trans (if_neg hb)
  · rw [done₁.cfg, done₁.bank] at count₂
    rw [headersSent_eventsOf]
    exact count₂.trans (if_congr (Option.some_inj.trans ⟨selectValue_inj, congrArg _⟩) rfl rfl)

/-! ## TAR caching -/

/-- The writes counted by `tarWrites` are the transactions that are one. -/
theorem tarWrites_eventsOf (c : Cfg) (v : Word) (xs : List (Txn × Reply)) :
    tarWrites c v (eventsOf xs) = (xs.map Prod.fst).count (.write true (tarSlot c) v) := by
  rw [tarWrites, (wrote_events xs).eq]
  induction xs.map Prod.fst with
  | nil => rfl
  | cons x txns ih =>
    rw [List.flatMap_cons, List.countP_append, ih, List.count_cons, Nat.add_comm]
    congr 1
    cases x with
    | read => simp [txnWrites]
    | write apndp a w =>
      have same : (wireByte a apndp false, w) = (wireByte (tarSlot c) true false, v) ↔
          Txn.write apndp a w = .write true (tarSlot c) v := by
        rw [Prod.mk.injEq, Txn.write.injEq]
        constructor
        · rintro ⟨hW, rfl⟩
          obtain ⟨rfl, rfl⟩ := wireByte_write_inj hW
          exact ⟨rfl, rfl, rfl⟩
        · rintro ⟨rfl, rfl, rfl⟩
          exact ⟨rfl, rfl⟩
      simp only [txnWrites, List.countP_cons, List.countP_nil, Nat.zero_add, same, beq_iff_eq, decide_eq_true_eq]

section
variable (c : Cfg) (bank tar : Option Word) (v : Word)

theorem count_bankTxns (b : BitVec 8) : (bankTxns c bank b).count (.write true (tarSlot c) v) = 0 := by
  unfold bankTxns
  split <;> simp

/-- Opening a window writes its base to TAR where the cache does not hold it. -/
theorem count_windowTxns {addr : Word} (hv : addr &&& c.tarAlignMask = v) :
    (windowTxns c bank tar addr).count (.write true (tarSlot c) v) = if tar = some v then 0 else 1 := by
  rw [windowTxns, List.count_append, count_bankTxns, Nat.add_zero, hv, tarTxns]
  split
  · rfl
  · rw [List.count_append, count_bankTxns, List.count_singleton_self]

end

/-- A successful access of a register of a window: the window's TAR write where the cache does not hold the base, and the
access's own write where it is one; the base is recorded. -/
theorem exec_window_tarWrites {i : Instr} {s t : State} {id : BitVec 8} {d : Descriptor} {v : Word} (hr : AtRest s)
    (hu : Usable s) (hi : i = .rd id ∨ ∃ w, i = .wr id w) (hd : lookup s.cfg.regtab id = some d)
    (hdp : d.space ≠ .dp) (hap : d.space ≠ .ap) (hv : addrOf s.cfg d &&& s.cfg.tarAlignMask = v)
    (h : exec i s = .next t) (ha : t.sess_dead = false) :
    ∃ txns b, Performed s t txns b (some v) ∧ txns.count (.write true (tarSlot s.cfg) v) =
      (if s.tar = some v then 0 else 1) + ownWrites s.cfg v d i := by
  have recorded : tarAfter s.cfg s.tar d = some v := by
    unfold tarAfter
    cases hs : d.space with
    | dp => exact absurd hs hdp
    | ap => exact absurd hs hap
    | ficr | uicr | scs => exact congrArg some hv
  rcases hi with rfl | ⟨w, rfl⟩
  · have done := performed_rd hr hu hd h ha
    have expands : expandRd s.cfg s.bank s.tar d = windowTxns s.cfg s.bank s.tar (addrOf s.cfg d) ++
        [.read true (slotOfAddr (addrOf s.cfg d)), .read false (rdbufSlot s.cfg)] := by
      unfold expandRd
      cases hs : d.space with
      | dp => exact absurd hs hdp
      | ap => exact absurd hs hap
      | ficr | uicr | scs => rfl
    rw [recorded, expands] at done
    refine ⟨_, _, done, ?_⟩
    rw [List.count_append, count_windowTxns _ _ _ _ hv]
    simp [ownWrites]
  · have done := performed_wr hr hu hd h ha
    have expands : expandWr s.cfg s.bank s.tar d w = windowTxns s.cfg s.bank s.tar (addrOf s.cfg d) ++
        [.write true (slotOfAddr (addrOf s.cfg d)) w] := by
      unfold expandWr
      cases hs : d.space with
      | dp => exact absurd hs hdp
      | ap => exact absurd hs hap
      | ficr | uicr | scs => rfl
    rw [tarAfterWr, if_neg (fun hn => hap hn.1), recorded, expands] at done
    refine ⟨_, _, done, ?_⟩
    rw [List.count_append, count_windowTxns _ _ _ _ hv, List.count_singleton]
    simp [ownWrites]

/-- Settles O40: each of the two accesses opens its window, the second with the base recorded by the first. -/
theorem tarCaching : Obligations.TarCaching := by
  unfold Obligations.TarCaching
  intro i₁ i₂ s t u id₁ id₂ d₁ d₂ v hr hu hi₁ hi₂ hd₁ hd₂ hdp₁ hap₁ hdp₂ hap₂ hv₁ hv₂ h₁ ha₁ h₂ ha₂
  obtain ⟨txns₁, b₁, done₁, count₁⟩ := exec_window_tarWrites hr hu hi₁ hd₁ hdp₁ hap₁ hv₁ h₁ ha₁
  obtain ⟨txns₂, b₂, done₂, count₂⟩ := exec_window_tarWrites done₁.rest done₁.usable hi₂ (done₁.cfg.symm ▸ hd₂) hdp₂ hap₂
    (done₁.cfg.symm ▸ hv₂) h₂ ha₂
  obtain ⟨xs, rfl, he₁⟩ := done₁.frames
  obtain ⟨ys, rfl, he₂⟩ := done₂.frames
  rw [done₁.cfg, done₁.tar, if_pos rfl, Nat.zero_add] at count₂
  exact ⟨_, _, he₁, he₂, (tarWrites_eventsOf ..).trans count₁, (tarWrites_eventsOf ..).trans count₂, done₁.tar, done₂.tar⟩

end Sys2Proof.Machine
end

section
/-! Bring-up (45_bringup.md): `BRINGUP` as its list of parts, answered or failing, and the twelve transactions of the
default parameters as such a list. -/

namespace Sys2Proof.Machine

/-! ## `BRINGUP` as its parts -/

/-- The session start is where the sequencer begins. -/
theorem bringing_begin {s : State} {rx : List RxItem} (hrx : s.rx = rx) :
    bringing .idle [] rx (none, none) s = sessionStart s := by
  subst hrx
  simp [bringing, accessed, setBu, sessionStart]

/-- The sequencer: the session start, the parts, and `Ready` (45_bringup.md R225). -/
theorem bringupSequence_eq (s : State) : bringupSequence s =
    andThen (andThen bringupRaw fun _ => bringupTransactions) (fun _ => andThen (advanceTo .ready) fun _ => ret none)
      (sessionStart s) := by
  rw [bringupSequence, andThen_of_done (modify_apply _ _)]
  unfold andThen
  cases bringupRaw (sessionStart s) <;> rfl

/-- `BRINGUP` all of whose parts succeed. -/
theorem exec_bringup_done {s : State} {script rest : List RxItem} {es : List Event} {k : Caches} (hp : s.por = [])
    (hdone : PartsDone s.cfg (none, none) (bringupParts s.cfg) script es k) (hrx : s.rx = script ++ rest) :
    exec .bringup s = .next (respond none (bringing .ready es rest k s)) := by
  have played := plays_bringup.good (s := s) (es := []) (rest := rest) rfl hp hdone
  rw [bringing_begin hrx] at played
  have whole : bringupSequence s = .done none (bringing .ready es rest k s) := by
    rw [bringupSequence_eq, andThen_of_done played]
    rfl
  exact runCommand_of_done whole

/-- `BRINGUP` one of whose parts raises. -/
theorem exec_bringup_fails {s : State} {script rest : List RxItem} {es : List Event} {e : ErrorKind} {b : BuState}
    {k : Caches} (hp : s.por = []) (hfail : PartsFail s.cfg (none, none) (bringupParts s.cfg) script es e b k)
    (hrx : s.rx = script ++ rest) : exec .bringup s = .next (raised e (bringing b es rest k s)) := by
  have played := plays_bringup.fails (s := s) (es := []) (rest := rest) rfl hp hfail
  rw [bringing_begin hrx] at played
  have whole : bringupSequence s = .ended (raised e (bringing b es rest k s)) := by
    rw [bringupSequence_eq, andThen_of_ended played]
    rfl
  exact runCommand_of_ended whole

/-- Settles O45: the parts as the sequencer plays them, up to the one that raises. -/
theorem bringupStopsAtTheFailedCheck : Obligations.BringupStopsAtTheFailedCheck := by
  unfold Obligations.BringupStopsAtTheFailedCheck
  intro s script es e b k rest hp hfail hrx
  rw [exec_bringup_fails hp hfail hrx]
  simp only [raised, bringing, setBu, accessed, sessionStart, clearLatches, hp]

/-! ## The default bring-up -/

section
variable {c : Cfg} {k k' k'' : Caches} {p : BringupPart} {ps : List BringupPart}

/-- A raw frame where no confirmation is awaited. -/
theorem partsDone_frame {bytes : List Byte} {script : List RxItem} {es : List Event} (hp : p.run = .rawsend bytes)
    (hb : bytes ≠ []) (hc : c.rawConf = 0) (h : PartsDone c k ps script es k'') :
    PartsDone c k (p :: ps) script (.send (.wr bytes.length :: bytes.map .byte) :: es) k'' :=
  .cons (.frame bytes [] hp hb hc.symm) h

/-- Transactions, the others after them. -/
theorem partsDone_access {xs ys : List (Txn × Reply)} {txns : List Txn} (ht : partTxns c k p.run = some txns)
    (hk : partCaches c k p.run = k') (hx : xs.map Prod.fst = txns) (hfit : ∀ x ∈ xs, replyFits c x)
    (hw : ∀ w e, p.check = some (w, e) → lastWord xs = some w)
    (h : PartsDone c k' ps (scriptOf ys) (eventsOf ys) k'') :
    PartsDone c k (p :: ps) (scriptOf (xs ++ ys)) (eventsOf (xs ++ ys)) k'' := by
  subst hk hx
  rw [scriptOf_append, eventsOf_append]
  exact .cons (.access xs ht hfit hw) h

end

/-- The wanted answers to the twelve transactions answer the parts of the default bring-up, each raw frame without
confirmations. -/
theorem partsDone_default {xs : List (Txn × Reply)} (hx : xs.map Prod.fst = bringupTxns)
    (hfit : ∀ x ∈ xs, replyFits Cfg.default x) (hw : ∀ p ∈ xs.zip bringupWants, wordWanted p) :
    PartsDone Cfg.default (none, none) (bringupParts Cfg.default) (scriptOf xs) (bringupRawEvents ++ eventsOf xs)
      (some 0x00000000#32, none) := by
  simp only [bringupTxns, List.map_eq_cons_iff, List.map_eq_nil_iff] at hx
  obtain ⟨⟨_, r₁⟩, _, rfl, rfl, ⟨_, r₂⟩, _, rfl, rfl, ⟨_, r₃⟩, _, rfl, rfl, ⟨_, r₄⟩, _, rfl, rfl, ⟨_, r₅⟩, _, rfl, rfl,
    ⟨_, r₆⟩, _, rfl, rfl, ⟨_, r₇⟩, _, rfl, rfl, ⟨_, r₈⟩, _, rfl, rfl, ⟨_, r₉⟩, _, rfl, rfl, ⟨_, r₁₀⟩, _, rfl, rfl,
    ⟨_, r₁₁⟩, _, rfl, rfl, ⟨_, r₁₂⟩, _, rfl, rfl, rfl⟩ := hx
  simp only [List.forall_mem_cons] at hfit
  obtain ⟨f₁, f₂, f₃, f₄, f₅, f₆, f₇, f₈, f₉, f₁₀, f₁₁, f₁₂, _⟩ := hfit
  simp only [bringupWants, List.zip_cons_cons, List.forall_mem_cons, wordWanted] at hw
  obtain ⟨idCode, _, _, _, ctrlStat, _, _, idr, _, _, _, csw, _⟩ := hw
  have one {x : Txn × Reply} (h : replyFits Cfg.default x) : ∀ y ∈ [x], replyFits Cfg.default y := by simpa using h
  have two {x x' : Txn × Reply} (h : replyFits Cfg.default x) (h' : replyFits Cfg.default x') :
      ∀ y ∈ [x, x'], replyFits Cfg.default y := by simpa using ⟨h, h'⟩
  have three {x x' x'' : Txn × Reply} (h : replyFits Cfg.default x) (h' : replyFits Cfg.default x')
      (h'' : replyFits Cfg.default x'') : ∀ y ∈ [x, x', x''], replyFits Cfg.default y := by simpa using ⟨h, h', h''⟩
  have checked {x : Txn × Reply} {xs : List (Txn × Reply)} {w : Word} {e : ErrorKind} (h : x.2.word = w) :
      ∀ v e', some (w, e) = some (v, e') → lastWord (xs ++ [x]) = some v := by
    rintro v e' ⟨⟩
    simp [lastWord, h]
  refine partsDone_frame (bytes := List.replicate 7 0xFF#8) rfl (by decide) rfl ?_
  refine partsDone_frame (bytes := [0x9E#8, 0xE7#8]) rfl (by decide) rfl ?_
  refine partsDone_frame (bytes := List.replicate 7 0xFF#8) rfl (by decide) rfl ?_
  refine partsDone_frame (bytes := [0x00#8]) rfl (by decide) rfl ?_
  refine partsDone_access (k' := (none, none)) rfl rfl (xs := [_]) rfl (one f₁) (checked (xs := []) idCode) ?_
  refine partsDone_access (k' := (none, none)) rfl rfl (xs := [_]) rfl (one f₂) nofun ?_
  refine partsDone_access (k' := (some 0x00000000#32, none)) rfl rfl (xs := [_]) rfl (one f₃) nofun ?_
  refine partsDone_access (k' := (some 0x00000000#32, none)) rfl rfl (xs := [_]) rfl (one f₄) nofun ?_
  refine partsDone_access (k' := (some 0x00000000#32, none)) rfl rfl (xs := [_]) rfl (one f₅) (checked (xs := []) ctrlStat) ?_
  refine partsDone_access (k' := (some 0x000000F0#32, none)) rfl rfl (xs := [_, _, _]) rfl (three f₆ f₇ f₈)
    (checked (xs := [_, _]) idr) ?_
  refine partsDone_access (k' := (some 0x00000000#32, none)) rfl rfl (xs := [_, _]) rfl (two f₉ f₁₀) nofun ?_
  refine partsDone_access (k' := (some 0x00000000#32, none)) rfl rfl (xs := [_, _]) rfl (two f₁₁ f₁₂)
    (checked (xs := [_]) csw) ?_
  exact .nil _

/-- Settles O44: the default answers and any others that answer the parts. -/
theorem bringupReachesReady : Obligations.BringupReachesReady := by
  unfold Obligations.BringupReachesReady
  refine ⟨fun s xs rest hc hp hx hfit hw hrx => ?default, fun s script es k rest hp hdone hrx => ?any⟩
  case default =>
    rw [exec_bringup_done hp (hc.symm ▸ partsDone_default hx hfit hw) hrx]
    simp only [respond, bringing, setBu, accessed, sessionStart, clearLatches, hp, List.append_assoc]
  case any =>
    rw [exec_bringup_done hp hdone hrx]
    simp only [respond, bringing, setBu, accessed, sessionStart, clearLatches, hp]

end Sys2Proof.Machine
end

section
/-! The dump of the flash (46_flash_dump.md): the trimming, one page answered, and a dump of any number of pages. -/

namespace Sys2Proof.Machine

/-! ## Trimming -/

theorem erasedRun_replicate_append (n : Nat) (rest : List Byte) :
    erasedRun (List.replicate n 0xFF#8 ++ rest) = n + erasedRun rest := by
  induction n with
  | zero => simp
  | succ n ih =>
    have head : erasedRun (0xFF#8 :: (List.replicate n 0xFF#8 ++ rest)) =
        erasedRun (List.replicate n 0xFF#8 ++ rest) + 1 := rfl
    rw [List.replicate_succ, List.cons_append, head, ih]
    omega

theorem erasedRun_cons_of_ne {b : Byte} (hb : b ≠ 0xFF#8) (rest : List Byte) : erasedRun (b :: rest) = 0 := by
  have written : (b == Config.erased) = false := beq_false_of_ne hb
  rw [erasedRun, written]
  rfl

/-- The run is a run of erased bytes. -/
theorem take_erasedRun (l : List Byte) : l.take (erasedRun l) = List.replicate (erasedRun l) 0xFF#8 := by
  induction l with
  | nil => rfl
  | cons b l ih =>
    by_cases hb : b = 0xFF#8
    · subst hb
      have head : erasedRun (0xFF#8 :: l) = erasedRun l + 1 := rfl
      rw [head, List.take_succ_cons, ih, List.replicate_succ]
    · rw [erasedRun_cons_of_ne hb]
      rfl

theorem trim_eq_take {image : List Byte} {n : Nat} (h : erasedRun image.reverse = n) :
    trim image = image.take (image.length - (n + 1)) := h ▸ rfl

/-- Settles O51: the length of the trailing run, read off the reversed image. -/
theorem trimDropsTheTailAndOneByte : Obligations.TrimDropsTheTailAndOneByte := by
  unfold Obligations.TrimDropsTheTailAndOneByte
  refine ⟨fun image b n hb => ?written, fun n => ?erased, fun image => ⟨rfl, ?run⟩⟩
  case written =>
    have run : erasedRun (image ++ [b] ++ List.replicate n 0xFF#8).reverse = n := by
      rw [List.reverse_append, List.reverse_replicate, erasedRun_replicate_append, List.reverse_append,
        List.reverse_singleton, List.singleton_append, erasedRun_cons_of_ne hb, Nat.add_zero]
    have kept : (image ++ [b] ++ List.replicate n 0xFF#8).length - (n + 1) = image.length := by
      simp only [List.length_append, List.length_singleton, List.length_replicate]
      omega
    rw [trim_eq_take run, kept, List.append_assoc, List.take_left']
    rfl
  case erased =>
    have run : erasedRun (List.replicate n 0xFF#8).reverse = n := by
      simpa [erasedRun] using erasedRun_replicate_append n []
    rw [trim_eq_take run, List.length_replicate, Nat.sub_eq_zero_of_le (Nat.le_succ n), List.take_zero]
  case run =>
    have taken := take_erasedRun image.reverse
    rw [List.take_reverse] at taken
    simpa using congrArg List.reverse taken

/-! ## One page -/

/-- A dump in progress, with what it has read and the address of the next page (46_flash_dump.md R241). -/
def dumping (image : List Byte) (addr : Word) (s : State) : State :=
  { s with fd_image := image, fd_addr := some addr, fd_busy := true }

theorem dumping_ready {s : State} (hr : AtRest s) (hu : Usable s) (image : List Byte) (addr : Word) :
    AtRest (dumping image addr s) ∧ Usable (dumping image addr s) :=
  ⟨⟨hr.phase, hr.addr, hr.apndp, hr.rnw, hr.par, hr.hdr, hr.val, hr.vpar⟩, hu.alive, hu.noReset⟩

theorem dumpStart_eq (s : State) : dumpStart s = dumping [] s.cfg.flashStart s := rfl

section
variable {s : State} {addr : Word} {xs : List (Txn × Reply)} {rest : List RxItem}

/-- A page whose transactions are answered: 1024 bytes, with which the dump goes on or ends (R242, R243). -/
theorem dumpStep_good (hr : AtRest s) (hu : Usable s) (hf : s.fd_addr = some addr) (hd : dumpable s.cfg)
    (hx : xs.map Prod.fst = pageTxns s.cfg s.bank addr) (hfit : ∀ x ∈ xs, replyFits s.cfg x)
    (hrx : s.rx = scriptOf xs ++ rest) :
    (pageBytesOf s.cfg xs).length = 1024 ∧ dumpStep s = .next (afterPage (pageBytesOf s.cfg xs)
      (accessed (eventsOf xs) rest s.por (bankAfterPage s.cfg) (some addr) s)) := by
  obtain ⟨page, done, rfl⟩ := (performs_readPage ⟨hr, hu⟩ hf hd).good xs rest hx hfit hrx
  refine ⟨((comes_readPage hr hu.alive hf).of_done done).1, ?_⟩
  rw [dumpStep, done]

/-- An erased page ends the dump (R243, R244). -/
theorem dumpStep_erased (hr : AtRest s) (hu : Usable s) (hf : s.fd_addr = some addr) (hd : dumpable s.cfg)
    (hx : xs.map Prod.fst = pageTxns s.cfg s.bank addr) (hfit : ∀ x ∈ xs, replyFits s.cfg x)
    (hrx : s.rx = scriptOf xs ++ rest) (he : allErased (pageBytesOf s.cfg xs) = true) :
    dumpStep s = .next (respond none
      { accessed (eventsOf xs) rest s.por (bankAfterPage s.cfg) (some addr) s with
        fd_image := trim (s.fd_image ++ pageBytesOf s.cfg xs), fd_addr := none, fd_busy := false }) := by
  rw [(dumpStep_good hr hu hf hd hx hfit hrx).2, afterPage, if_pos he]
  rfl

/-- After any other page the dump goes on (R243). -/
theorem dumpStep_written (hr : AtRest s) (hu : Usable s) (hf : s.fd_addr = some addr) (hd : dumpable s.cfg)
    (hx : xs.map Prod.fst = pageTxns s.cfg s.bank addr) (hfit : ∀ x ∈ xs, replyFits s.cfg x)
    (hrx : s.rx = scriptOf xs ++ rest) (hw : allErased (pageBytesOf s.cfg xs) = false) :
    dumpStep s = .next (dumping (s.fd_image ++ pageBytesOf s.cfg xs) (addr + 1024#32)
      (accessed (eventsOf xs) rest s.por (bankAfterPage s.cfg) (some addr) s)) := by
  have next : (accessed (eventsOf xs) rest s.por (bankAfterPage s.cfg) (some addr) s).fd_addr = some addr := hf
  rw [(dumpStep_good hr hu hf hd hx hfit hrx).2, afterPage, if_neg (by simp [hw]), next]
  rfl

theorem exec_dump_of_ready (ha : s.sess_dead = false) (hb : s.bu_state = .ready) :
    exec .dump s = dumpStep (dumpStart s) := by
  rw [exec, execDump, if_neg (by simp [ha, hb])]

theorem step_of_busy (hw : s.cfg.wellFormed = true) (hp : s.por = []) (hb : s.fd_busy = true) : step s = dumpStep s := by
  rw [step_of_noReset hw (by simp [hp]), afterPoint_noReset hp, stepRunning_of_busy hb]

end

/-- Settles O48: a page at the first address, from the empty image. -/
theorem dumpReadsTheFirstPage : Obligations.DumpReadsTheFirstPage := by
  unfold Obligations.DumpReadsTheFirstPage
  intro s xs rest hr hu hb hd hx hfit hrx
  obtain ⟨hr', hu'⟩ := dumping_ready hr hu [] s.cfg.flashStart
  refine ⟨(dumpStep_good hr' hu' rfl hd hx hfit hrx).1, ?_⟩
  rw [exec_dump_of_ready hu.alive hb, dumpStart_eq]
  split
  · rename_i erased
    exact dumpStep_erased hr' hu' rfl hd hx hfit hrx erased
  · rename_i written
    exact dumpStep_written hr' hu' rfl hd hx hfit hrx (Bool.eq_false_iff.mpr written)

/-- Settles O49: a page at the address in progress, appended to the image. -/
theorem dumpReadsTheNextPage : Obligations.DumpReadsTheNextPage := by
  unfold Obligations.DumpReadsTheNextPage
  intro s addr xs rest hr hu hw hb hf hd hx hfit hrx
  rw [step_of_busy hw hu.noReset hb]
  split
  · rename_i erased
    exact dumpStep_erased hr hu hf hd hx hfit hrx erased
  · rename_i written
    exact dumpStep_written hr hu hf hd hx hfit hrx (Bool.eq_false_iff.mpr written)

/-! ## A table without the registers of a dump -/

theorem requireReg_of_mem {d : Descriptor} {s : State} (h : d ∈ s.cfg.regtab.map Prod.snd) : requireReg d s = .done d s := by
  rw [requireReg, andThen_of_done (look_apply _ _), findReg_of_mem h]
  rfl

theorem requireReg_of_not_mem {d : Descriptor} {s : State} (h : d ∉ s.cfg.regtab.map Prod.snd) :
    requireReg d s = .ended (raised .unknownRegister s) := by
  rw [requireReg, andThen_of_done (look_apply _ _), findReg_of_not_mem h]
  rfl

/-- Both registers are looked up before anything is sent. -/
theorem readPage_of_unknown {s : State} {addr : Word} (hf : s.fd_addr = some addr) (hd : ¬ dumpable s.cfg) :
    readPage s = .ended (raised .unknownRegister s) := by
  rw [readPage, andThen_of_done (latched_some hf), andThen_of_done (look_apply _ _), andThen_of_done (look_apply _ _)]
  by_cases htar : tarDescriptor s.cfg ∈ s.cfg.regtab.map Prod.snd
  · have hdrw : drwDescriptor s.cfg ∉ s.cfg.regtab.map Prod.snd := fun hdrw => hd ⟨htar, hdrw⟩
    rw [andThen_of_done (requireReg_of_mem htar), andThen_of_ended (requireReg_of_not_mem hdrw)]
  · rw [andThen_of_ended (requireReg_of_not_mem htar)]

/-- Settles O53: the lookup raises, and the dump is aborted. -/
theorem dumpWithoutItsRegistersIsUnknown : Obligations.DumpWithoutItsRegistersIsUnknown := by
  unfold Obligations.DumpWithoutItsRegistersIsUnknown
  intro s hr ha hb hd
  have ended := readPage_of_unknown (s := dumpStart s) rfl hd
  rw [exec_dump_of_ready ha hb, dumpStep, ended, raised, clearLatches_of_atRest (atRest_dumpStart hr)]
  rfl

/-! ## A whole dump -/

theorem run_succ {M : Host.Core} {n : Nat} {s s' : M.State} (h : M.step s = .next s') : M.run (n + 1) s = M.run n s' := by
  simp only [Host.Core.run, h]

theorem run_congr {M : Host.Core} {n : Nat} {s s' : M.State} (h : M.step s = M.step s') :
    M.run (n + 1) s = M.run (n + 1) s' := by
  simp only [Host.Core.run, h]

theorem run_of_step {n : Nat} {s s' : State} (h : step s = .next s') :
    Host.Core.run Sys2Proof.core (n + 1) s = Host.Core.run Sys2Proof.core n s' :=
  run_succ (M := Sys2Proof.core) h

/-- The pages lie one after the other. -/
theorem pageAddr_succ (addr : Word) (k : Nat) :
    addr + 1024#32 + 1024#32 * BitVec.ofNat 32 k = addr + 1024#32 * BitVec.ofNat 32 (k + 1) := by
  rw [BitVec.ofNat_add, BitVec.mul_add, BitVec.add_assoc, BitVec.add_comm (1024#32)]
  rfl

/-- The steps of a dump in progress at `addr`, one for each page, the last of which is erased. -/
theorem run_dump {pages : List (List (Txn × Reply))} {last : List (Txn × Reply)} {s : State} {addr : Word}
    {after : List RxItem} (hr : AtRest s) (hu : Usable s) (hw : s.cfg.wellFormed = true) (hb : s.fd_busy = true)
    (hf : s.fd_addr = some addr) (hd : dumpable s.cfg)
    (hpages : ∀ k p, (pages ++ [last])[k]? = some p → (∀ x ∈ p, replyFits s.cfg x) ∧
      p.map Prod.fst = pageTxns s.cfg (if k = 0 then s.bank else bankAfterPage s.cfg) (addr + 1024#32 * BitVec.ofNat 32 k))
    (hwritten : ∀ p ∈ pages, allErased (pageBytesOf s.cfg p) = false) (hlast : allErased (pageBytesOf s.cfg last) = true)
    (hrx : s.rx = scriptOf (pages.flatten ++ last) ++ after) :
    Host.Core.run Sys2Proof.core (pages.length + 1) s = .next { s with
      bank := bankAfterPage s.cfg, tar := some (addr + 1024#32 * BitVec.ofNat 32 pages.length)
      rx := after
      events := s.events ++ eventsOf (pages.flatten ++ last)
      fd_image := trim (s.fd_image ++ (pages ++ [last]).flatMap (pageBytesOf s.cfg)), fd_addr := none, fd_busy := false
      rsp_status := .ok, rsp_rdata := none } := by
  induction pages generalizing s addr with
  | nil =>
    obtain ⟨hfit, hx⟩ := hpages 0 last rfl
    have page := dumpStep_erased hr hu hf hd (by simpa using hx) hfit hrx hlast
    rw [← step_of_busy hw hu.noReset hb] at page
    rw [List.length_nil, run_of_step page]
    simp [Host.Core.run, accessed, respond]
  | cons p pages ih =>
    obtain ⟨hfit, hx⟩ := hpages 0 p rfl
    have page := dumpStep_written (rest := scriptOf (pages.flatten ++ last) ++ after) hr hu hf hd (by simpa using hx) hfit
      (by simpa [scriptOf_append] using hrx) (hwritten p (.head _))
    rw [← step_of_busy hw hu.noReset hb] at page
    obtain ⟨hr', hu'⟩ := ready_accessed (es := eventsOf p) (rx := scriptOf (pages.flatten ++ last) ++ after)
      (b := bankAfterPage s.cfg) (t := some addr) ⟨hr, hu⟩
    obtain ⟨hr'', hu''⟩ := dumping_ready hr' hu' (s.fd_image ++ pageBytesOf s.cfg p) (addr + 1024#32)
    have later : ∀ k q, (pages ++ [last])[k]? = some q → (∀ x ∈ q, replyFits s.cfg x) ∧
        q.map Prod.fst = pageTxns s.cfg (if k = 0 then bankAfterPage s.cfg else bankAfterPage s.cfg)
          (addr + 1024#32 + 1024#32 * BitVec.ofNat 32 k) := fun k q hk => by
      rw [ite_self, pageAddr_succ]
      exact hpages (k + 1) q hk
    rw [List.length_cons, run_of_step page]
    refine (ih hr'' hu'' hw rfl rfl hd later (fun q hq => hwritten q (.tail _ hq)) hlast rfl).trans ?_
    rw [pageAddr_succ]
    simp [dumping, accessed, eventsOf_append]

/-- The step that takes `DUMP` from the port is that of a dump in progress at the first address. -/
theorem run_of_dump_at_port {s : State} {rest : List Frame} (n : Nat) (hu : Usable s) (hw : s.cfg.wellFormed = true)
    (hb : s.fd_busy = false) (hready : s.bu_state = .ready) (hp : s.port = .command 0x50000000000#44 :: rest) :
    Host.Core.run Sys2Proof.core (n + 1) s =
      Host.Core.run Sys2Proof.core (n + 1) (dumping [] s.cfg.flashStart (taken rest s)) := by
  have first : step s = dumpStep (dumping [] s.cfg.flashStart (taken rest s)) := by
    rw [step_of_noReset hw (by simp [hu.noReset]), afterPoint_noReset hu.noReset, stepRunning_of_instr hb hp rfl]
    exact exec_dump_of_ready (s := taken rest s) hu.alive hready
  have later : step (dumping [] s.cfg.flashStart (taken rest s)) = dumpStep (dumping [] s.cfg.flashStart (taken rest s)) :=
    step_of_busy hw hu.noReset rfl
  exact run_congr (M := Sys2Proof.core) (first.trans later.symm)

/-- Settles O50: the dump in progress at the first address, page by page. -/
theorem wholeDumpIsTheTrimmedPages : Obligations.WholeDumpIsTheTrimmedPages := by
  unfold Obligations.WholeDumpIsTheTrimmedPages
  intro s rest after pages last hr hu hw hb hready hd hp hpages hwritten hlast hrx
  obtain ⟨hr', hu'⟩ := dumping_ready (s := taken rest s) (atRest_taken rest hr) ⟨hu.alive, hu.noReset⟩ [] s.cfg.flashStart
  rw [run_of_dump_at_port _ hu hw hb hready hp]
  exact run_dump hr' hu' hw rfl rfl hd hpages hwritten hlast hrx

end Sys2Proof.Machine
end
